-- ==== Sys2Proof/Word.lean ====
section
/-! DEFINITION. The words the manual moves about: bytes, 16-bit checks and digests, 32-bit credential
values, saturating counts. -/

namespace Sys2Proof

/-- A byte of a host frame, a field frame or a stored canonical form. -/
abbrev Byte := BitVec 8

/-- A check value or a table digest (R38, R214). -/
abbrev Word16 := BitVec 16

/-- A presented credential value, a pattern value or a care mask (R3, R4). -/
abbrev Word32 := BitVec 32

/-- Add to a count that saturates at `top` (conventions: "a quantity said to be saturating"). -/
def satAdd (top n k : Nat) : Nat := min top (n + k)

end Sys2Proof
end

