-- ==== Sys2Proof/Syntax.lean ====
section
/-! DEFINITION. The commands of the block: one constructor for each row of spec/opcode_table.json, with
the operands its event carries. A request row carries none: its frame is the one the Host Link has in
hand (R209). An event that a message between blocks causes carries none, or the segment the message
comes from: the message itself stands in State. -/

namespace Sys2Proof

/-- The three field segments (00_scope.md). -/
inductive Seg where
  | a | b | c
  deriving DecidableEq, Repr, Inhabited

/-- The physical level of a local line (R182, R183). -/
inductive Level where
  | high | low
  deriving DecidableEq, Repr, Inhabited

/-- A slot of the Record Store (R25): by tenant id, by unit number, by CREDENTIAL slot number, or by
SITE block and index within the block. -/
inductive SlotRef where
  | tenant (id : Nat)
  | unit (number : Nat)
  | credential (slot : Nat)
  | site (block index : Nat)
  deriving DecidableEq, Repr

/-- The commands: the rows of spec/opcode_table.json in the table's order. -/
inductive Instr where
  /-- COLD_START (R206). -/
  | coldStart (hrate0 hrate1 : Bool)
  /-- WARM_RESTART (R206). -/
  | warmRestart
  /-- SCAN_END (R41). -/
  | scanEnd (decayed : List SlotRef)
  /-- SITE_SECOND_TICK (R193). -/
  | siteSecondTick
  /-- HOST_BYTE (R207). -/
  | hostByte (b : Byte)
  /-- FRAME_GAP_TIMEOUT (R207). -/
  | frameGapTimeout
  /-- REPLY_SENT (R208). -/
  | replySent
  /-- BAD_KIND (R209). -/
  | badKind
  /-- IDENTIFY (R210). -/
  | identify
  /-- RESTART (R206). -/
  | restart
  /-- GET_STATE (R205). -/
  | getState
  /-- HOLD (R199). -/
  | hold
  /-- RESUME (R201). -/
  | resume
  /-- EVACUATE (R202). -/
  | evacuate
  /-- EVACUATE_END (R203). -/
  | evacuateEnd
  /-- EVACUATION_CLOSURES_DONE (R203). -/
  | evacuationClosuresDone
  /-- SET_CLOCK (R195). -/
  | setClock
  /-- PUT_SITE (R196). -/
  | putSite
  /-- TAKE_NOTICES (R212). -/
  | takeNotices
  /-- PUT_TENANT (R13). -/
  | putTenant
  /-- DROP_TENANT (R14). -/
  | dropTenant
  /-- GET_TENANT (R15). -/
  | getTenant
  /-- PUT_CREDENTIAL (R16). -/
  | putCredential
  /-- DROP_CREDENTIAL (R17). -/
  | dropCredential
  /-- PUT_UNIT (R18). -/
  | putUnit
  /-- DROP_UNIT (R19). -/
  | dropUnit
  /-- SET_OVERLOCK (R20). -/
  | setOverlock
  /-- PUT_PATTERN (R21). -/
  | putPattern
  /-- PUT_CLASS (R22). -/
  | putClass
  /-- PUT_WINDOW (R23). -/
  | putWindow
  /-- CLEAR_TABLE (R33). -/
  | clearTable
  /-- GET_STORE (R39). -/
  | getStore
  /-- CLEAR_STORE_FAULT (R32). -/
  | clearStoreFault
  /-- GET_DIGEST (R38). -/
  | getDigest
  /-- WRITE_COMPLETION (R29). -/
  | writeCompletion (readBackMatches : Bool)
  /-- BLOCK_ERASE_COMPLETION (R34). -/
  | blockEraseCompletion (erased : Bool)
  /-- CREDENTIAL_LOOKUP (R9). -/
  | credentialLookup
  /-- TENANT_LOOKUP (R9). -/
  | tenantLookup
  /-- FRAME_ROUTER_TURN (R171). -/
  | frameRouterTurn
  /-- ADMISSION_DECISION (R52). -/
  | admissionDecision
  /-- ADMISSION_LOOKUP_RESULT (R53). -/
  | admissionLookupResult
  /-- EXIT_DECISION (R56). -/
  | exitDecision
  /-- EXIT_LOOKUP_RESULT (R57). -/
  | exitLookupResult
  /-- LIFT_CALL_INTAKE (R59). -/
  | liftCallIntake
  /-- LIFT_CALL_LOOKUP_RESULT (R59). -/
  | liftCallLookupResult
  /-- LIFT_CALL_TENANT_RESULT (R60). -/
  | liftCallTenantResult
  /-- PASSAGE_REPORT (R46). -/
  | passageReport
  /-- NO_PASSAGE_REPORT (R47). -/
  | noPassageReport
  /-- DWELL_DEADLINE (R48). -/
  | dwellDeadline (visit : Nat)
  /-- CALL_REPORT (R61). -/
  | callReport
  /-- UNIT_OPENED_REPORT (R63). -/
  | unitOpenedReport
  /-- EVACUATION_BEGIN_VISITS (R64). -/
  | evacuationBeginVisits
  /-- EVACUATION_END_VISITS (R65). -/
  | evacuationEndVisits
  /-- LIST_VISITS (R66). -/
  | listVisits
  /-- GET_VISIT (R67). -/
  | getVisit
  /-- CLOSE_VISIT (R68). -/
  | closeVisit
  /-- ADMIT (R69). -/
  | hostAdmit
  /-- OPEN_ORDER (R76). -/
  | openOrder
  /-- DROP_PENDING_VISIT (R83). -/
  | dropPendingVisit
  /-- PASS_TIMER_EXPIRY (R78). -/
  | passTimerExpiry (portal : Nat)
  /-- HOLD_TIMER_EXPIRY (R80). -/
  | holdTimerExpiry (portal : Nat)
  /-- STRIKE_OUTCOME (R75). -/
  | strikeOutcome (segment : Seg)
  /-- PORTAL_DRIVE_LOSS (R84). -/
  | portalDriveLoss (segment : Seg)
  /-- EVACUATION_BEGIN_PORTALS (R87). -/
  | evacuationBeginPortals
  /-- EVACUATION_END_PORTALS (R87). -/
  | evacuationEndPortals
  /-- PUT_PORTAL (R88). -/
  | putPortal
  /-- SET_PORTAL_SECURE (R89). -/
  | setPortalSecure
  /-- SET_PORTAL_FREE (R89). -/
  | setPortalFree
  /-- SET_PORTAL_MOMENTARY (R89). -/
  | setPortalMomentary
  /-- GET_PORTAL (R90). -/
  | getPortal
  /-- DISARM_ORDER (R98). -/
  | disarmOrder
  /-- CLOSURE_ORDER (R99). -/
  | closureOrder
  /-- RELEASE_OUTCOME (R101). -/
  | releaseOutcome (segment : Seg)
  /-- RELOCK_OUTCOME (R103). -/
  | relockOutcome (segment : Seg)
  /-- DENY_BLINK_OUTCOME (R100). -/
  | denyBlinkOutcome (segment : Seg)
  /-- SERVICE_RELEASE_OUTCOME (R110). -/
  | serviceReleaseOutcome (segment : Seg)
  /-- RELEASE_TIMER_EXPIRY (R102). -/
  | releaseTimerExpiry (unit : Nat)
  /-- LATCH_NODE_LOSS (R106). -/
  | latchNodeLoss (segment : Seg)
  /-- UNIT_SERVICE_BEGIN (R110). -/
  | unitServiceBegin
  /-- UNIT_SERVICE_END (R111). -/
  | unitServiceEnd
  /-- UNIT_ALARM_RESET (R112). -/
  | unitAlarmReset
  /-- GET_UNIT (R115). -/
  | getUnit
  /-- BOARDING_TIMER_EXPIRY (R128). -/
  | boardingTimerExpiry (car : Nat)
  /-- CALL_EXPIRY (R130). -/
  | callExpiry (call : Nat)
  /-- CALL_WITHDRAWAL (R131). -/
  | callWithdrawal
  /-- LIFT_COMMAND_OUTCOME (R132). -/
  | liftCommandOutcome (segment : Seg)
  /-- PANEL_LOSS (R133). -/
  | panelLoss (segment : Seg)
  /-- DRAIN_BEGIN (R135). -/
  | drainBegin
  /-- EVACUATION_BEGIN_LIFTS (R136). -/
  | evacuationBeginLifts
  /-- EVACUATION_END_LIFTS (R137). -/
  | evacuationEndLifts
  /-- PUT_CAR (R139). -/
  | putCar
  /-- CAR_SERVICE_OUT (R140). -/
  | carServiceOut
  /-- CAR_SERVICE_IN (R140). -/
  | carServiceIn
  /-- GET_CAR (R141). -/
  | getCar
  /-- DRAIN_ANSWER (R199). -/
  | drainAnswer
  /-- BUSY_REPORT (R200). -/
  | busyReport
  /-- FIRE_INPUT_CHANGE (R198). -/
  | fireInputChange
  /-- SETTLED_REPORT (R197). -/
  | settledReport
  /-- POLL_TIMER_EXPIRY (R152). -/
  | pollTimerExpiry (segment : Seg)
  /-- TURNAROUND_GAP_EXPIRY (R156). -/
  | turnaroundGapExpiry (segment : Seg)
  /-- COPY_SENT (R157). -/
  | copySent (segment : Seg)
  /-- ANSWER_WINDOW_EXPIRY (R157). -/
  | answerWindowExpiry (segment : Seg)
  /-- ACK_WAIT_EXPIRY (R157). -/
  | ackWaitExpiry (segment : Seg)
  /-- READBACK_MISMATCH (R158). -/
  | readbackMismatch (segment : Seg)
  /-- FIELD_CHARACTER (R162). -/
  | fieldCharacter (segment : Seg) (b : Byte)
  /-- FIELD_LINE_IDLE (R162). -/
  | fieldLineIdle (segment : Seg)
  /-- PUT_SEGMENT (R144). -/
  | putSegment
  /-- ENROL_NODE (R146). -/
  | enrolNode
  /-- REMOVE_NODE (R147). -/
  | removeNode
  /-- GET_NODE (R151). -/
  | getNode
  /-- GET_SEGMENT (R180). -/
  | getSegment
  /-- RESTORE_SEGMENT (R178). -/
  | restoreSegment
  /-- LINE_PIN_CHANGE (R184). -/
  | linePinChange (line : Nat) (level : Level)
  /-- DEBOUNCE_TIMER_EXPIRY (R184). -/
  | debounceTimerExpiry (line : Nat)
  /-- LINE_SETTLE_TIMEOUT (R184). -/
  | lineSettleTimeout (line : Nat)
  /-- BEACON_INPUT_REPORT (R187). -/
  | beaconInputReport
  /-- PHASE_TIMER_EXPIRY (R187). -/
  | phaseTimerExpiry
  /-- PUT_LINE (R188). -/
  | putLine
  /-- LINE_WRITE (R189). -/
  | lineWrite
  /-- LINE_READ (R190). -/
  | lineRead
  deriving DecidableEq, Repr

end Sys2Proof
end

