-- ==== Sys2Proof/Config.lean ====
section
/-! DEFINITION. What one part fixes (capacities, code numbers) and the free values: what the manual leaves
open about a write or a clear that a cold start cuts off (R42). -/

namespace Sys2Proof.Config

/-- What a cut-off write or erase left in a slot (R42): its old contents, its new contents (for an erase:
erased), or contents that fail the scan. -/
inductive CutSlot where
  | old | new | failing
  deriving DecidableEq, Repr, Inhabited

/-- FREE VALUE (R42, log 8): what the write in progress left when the `n`-th cut-off happened. -/
opaque cutWrite : Nat → CutSlot

/-- FREE VALUE (R42, log 8): what the erase in progress left in the slot of key `k` when the `n`-th
cut-off happened. -/
opaque cutErase : Nat → Nat → CutSlot

/-- The Visit Table holds at most 96 visits (R44). -/
def maxVisits : Nat := 96
/-- A shared tenant holds at most 8 visits (R44). -/
def maxSharedVisits : Nat := 8
/-- The Notice Queue holds 64 records (R211). -/
def maxNotices : Nat := 64
/-- The request queue holds 4 frames (R208). -/
def maxRequests : Nat := 4
/-- The refusal list holds 8 entries (R208). -/
def maxRefusals : Nat := 8
/-- A transmit queue holds 16 entries (R153). -/
def maxTransmit : Nat := 16
/-- A receive ring holds 512 bytes (R161). -/
def ringBytes : Nat := 512
/-- A call queue holds 24 calls (R120). -/
def maxCalls : Nat := 24
/-- The CREDENTIAL table has 4,096 slots (R3, R25). -/
def credentialSlots : Nat := 4096
/-- Site seconds saturate here (R193). -/
def maxSeconds : Nat := 4294967295
/-- The device code of IDENTIFY (R210). -/
def deviceCode : Nat := 0x5C40
/-- The design level of IDENTIFY (R210). -/
def designLevel : Nat := 1
/-- A fault count at or above this puts a segment in CAUTION (R176). -/
def cautionLevel : Nat := 96

end Sys2Proof.Config
end

