-- ==== Sys2Proof/Machine/State.lean ====
section
/-! DEFINITION. Everything the manual gives the SC-4096 to hold, as plain data, the state after reset, and
the reasons a step can stop. One structure per block of 00_scope.md; messages between blocks stand in the
lists of their receiver (log 3). -/

namespace Sys2Proof.Machine

/-- A keyed collection: keys strictly rising, absent keys unlisted (`Table.sorted`). -/
abbrev Table (α : Type) := List (Nat × α)

/-! ## Modes, nodes, stored records -/

/-- The site mode (R192). -/
inductive Mode where
  | starting | setup | run | draining | evacuate
  deriving DecidableEq, Repr, Inhabited

/-- What began an evacuation (R192). -/
inductive EvacCause where
  | host | fire
  deriving DecidableEq, Repr, Inhabited

/-- The cause of a MODE notice (R192). -/
inductive ModeCause where
  | start | hold | drainDone | resume | evacuateRequest | fire | evacuateEnd
  deriving DecidableEq, Repr, Inhabited

/-- The status of a tenant (R1). -/
inductive TenantStatus where
  | current | restricted | barred
  deriving DecidableEq, Repr, Inhabited

/-- A tenant record without its key (R1); an empty label is an absent one (R13). -/
structure Tenant where
  status : TenantStatus
  cls : Nat
  shared : Bool
  label : List Byte
  deriving DecidableEq, Repr, Inhabited

/-- A unit record without its key (R2); tenant 0 is a vacant unit. -/
structure UnitRec where
  floor : Nat
  seg : Seg
  node : Nat
  channel : Nat
  tenant : Nat
  overlocked : Bool
  deriving DecidableEq, Repr, Inhabited

/-- A pattern entry (R4). -/
structure Pattern where
  value : Word32
  mask : Word32
  tenant : Nat
  enabled : Bool
  deriving DecidableEq, Repr, Inhabited

/-- The passback rule of a class (R5). -/
inductive Passback where
  | strict | lenient
  deriving DecidableEq, Repr, Inhabited

/-- An access class record (R5). -/
structure AccessClass where
  window : Nat
  restrictedWindow : Nat
  dwellLimit : Nat
  liftPriority : Nat
  allFloors : Bool
  passback : Passback
  deriving DecidableEq, Repr, Inhabited

/-- A schedule window (R6); bit `d` of the day set is day `d`. -/
structure Window where
  days : BitVec 7
  start : Nat
  stop : Nat
  deriving DecidableEq, Repr, Inhabited

/-- The site parameters (R196). -/
structure SiteParams where
  releaseTime : Nat
  callWaitLimit : Nat
  recallFloor : Nat
  debounce : Nat
  beaconOnAlarms : Bool
  deriving DecidableEq, Repr, Inhabited

/-- The kind of a portal (R71). -/
inductive PortalKind where
  | vehicle | door
  deriving DecidableEq, Repr, Inhabited

/-- Where a portal's strike, contact and button are served (R71). -/
inductive Drive where
  | lines
  | module (seg : Seg) (node : Nat)
  deriving DecidableEq, Repr, Inhabited

/-- A portal record (R71). -/
structure PortalRec where
  present : Bool
  kind : PortalKind
  floor : Nat
  drive : Drive
  passTime : Nat
  holdTime : Nat
  deriving DecidableEq, Repr, Inhabited

/-- A car record (R117). -/
structure CarRec where
  present : Bool
  seg : Seg
  node : Nat
  low : Nat
  high : Nat
  capacity : Nat
  boardingWindow : Nat
  deriving DecidableEq, Repr, Inhabited

/-- Segment settings (R143). -/
structure SegSettings where
  enabled : Bool
  lineRate : Nat
  gap : Nat
  ackTimeout : Nat
  retryLimit : Nat
  pollSpacing : Nat
  deriving DecidableEq, Repr, Inhabited

/-- The kind of a node (R145). -/
inductive NodeKind where
  | reader | latch | portalModule | carPanel
  deriving DecidableEq, Repr, Inhabited

/-- The side of a portal a reader stands on (R145). -/
inductive Side where
  | entry | leave
  deriving DecidableEq, Repr, Inhabited

/-- What a node is bound to (R145). -/
inductive Binding where
  | portalSide (portal : Nat) (side : Side)
  | landing (floor : Nat)
  | unbound
  | portal (portal : Nat)
  | car (car : Nat)
  deriving DecidableEq, Repr, Inhabited

/-- An enrolled entry of the node table (R145). -/
structure NodeEntry where
  kind : NodeKind
  binding : Binding
  deriving DecidableEq, Repr, Inhabited

/-- The function of a local line (R182). -/
inductive LineFunction where
  | generalIn | generalOut
  | strike (portal : Nat) | contact (portal : Nat) | exitButton (portal : Nat)
  | fireIn | beacon
  deriving DecidableEq, Repr, Inhabited

/-- Line settings (R182). -/
structure LineRec where
  func : LineFunction
  active : Level
  pullUp : Bool
  deriving DecidableEq, Repr, Inhabited

/-- The items of the SITE table (R25). -/
inductive SiteItem where
  | marker | params
  | pattern (i : Nat) | cls (i : Nat) | window (i : Nat) | portal (i : Nat) | car (i : Nat)
  | segment (g : Seg) | line (i : Nat) | node (g : Seg) (id : Nat)
  deriving DecidableEq, Repr, Inhabited

/-- The value a SITE item holds (R25); a marker is VALID or BLANK (R40), a node entry enrolled or not. -/
inductive SiteValue where
  | marker (valid : Bool)
  | params (p : SiteParams)
  | pattern (p : Pattern)
  | cls (c : AccessClass)
  | window (w : Window)
  | portal (p : PortalRec)
  | car (c : CarRec)
  | segment (x : SegSettings)
  | line (l : LineRec)
  | node (e : Option NodeEntry)
  deriving DecidableEq, Repr, Inhabited

/-! ## Never-written values -/

/-- R4. -/
def Pattern.blank : Pattern := ⟨0, 0, 1, false⟩
/-- R5. -/
def AccessClass.blank : AccessClass := ⟨0, 0, 0, 0, false, .strict⟩
/-- R6. -/
def Window.blank : Window := ⟨0, 0, 0⟩
/-- R196. -/
def SiteParams.blank : SiteParams := ⟨8, 180, 0, 50, true⟩
/-- R71. -/
def PortalRec.blank : PortalRec := ⟨false, .door, 0, .lines, 10, 30⟩
/-- R117. -/
def CarRec.blank : CarRec := ⟨false, .a, 1, 0, 15, 4, 15⟩
/-- R143. -/
def SegSettings.blank : SegSettings := ⟨false, 19200, 10, 20, 3, 50⟩
/-- R182. -/
def LineRec.blank : LineRec := ⟨.generalIn, .high, false⟩

/-! ## Outcomes, reasons, commands to nodes -/

/-- The outcome of a command or poll (R159). -/
inductive TxOutcome where
  | ok | noAck | noAnswer | nodeLost | segmentIsolated | displaced | cancelled | fieldFull
  deriving DecidableEq, Repr, Inhabited

/-- The reason codes of R215. -/
inductive Reason where
  | evacuation | held | portalFault | portalBusy | recordDamaged | unknownCredential | barred
  | clockUnset | outsideWindow | passback | sharedLimit | siteFull | liftsHeld | noVisit | notOnSite
  | noDestination | sameFloor | floorDenied | callActive | noCar | callsFull | noUnit | overlocked
  deriving DecidableEq, Repr, Inhabited

/-- The commands of R215; a floor set has bit `n` for floor `n` (R213). -/
inductive NodeCommand where
  | release (channel : Nat) | relock (channel : Nat) | denyBlink (channel : Nat)
  | strike (opens : Bool)
  | dispatch (floor : Nat) | enableFloors (floors : Word16) | depart | stand | recall (floor : Nat)
  deriving DecidableEq, Repr, Inhabited

/-- The outcome a SHOW carries (R215). -/
inductive Show where
  | granted | wait | car (n : Nat) | denied (r : Reason)
  deriving DecidableEq, Repr, Inhabited

/-- What a transmit queue entry sends (R153). -/
inductive TxFrame where
  | poll | command (c : NodeCommand) | show (o : Show)
  deriving DecidableEq, Repr, Inhabited

/-- Transmit priority (R153). -/
inductive Priority where
  | urgent | normal | poll
  deriving DecidableEq, Repr, Inhabited

/-- The owner of an entry and the token it gave (R75, R101, R103, R110, R132, R153). An untracked RELOCK
(R108, R109) carries no command number. -/
inductive Token where
  | poll | show
  | release (unit : Nat) (number : Byte)
  | relock (unit : Nat) (number : Option Byte)
  | denyBlink
  | serviceRelease (unit : Nat) (number : Byte)
  | strike (portal : Nat) (opens : Bool) (opening : Byte)
  | lift (car : Nat) (command : NodeCommand)
  deriving DecidableEq, Repr, Inhabited

/-! ## Notices -/

/-- The stage of a visit (R43). -/
inductive Stage where
  | admitted | onSite | overstay | exiting | evacuated
  deriving DecidableEq, Repr, Inhabited

/-- Why a visit was closed (R50). -/
inductive CloseReason where
  | exited | noEntry | superseded | hostClosed | evacuated | restarted
  deriving DecidableEq, Repr, Inhabited

/-- The kind of place a visit was last seen at (R43). -/
inductive PlaceKind where
  | portal | landing | unit
  deriving DecidableEq, Repr, Inhabited

/-- Where and when a visit was last reported (R43). -/
structure LastSeen where
  kind : PlaceKind
  number : Nat
  at_ : Nat
  deriving DecidableEq, Repr, Inhabited

/-- The state of a unit entry (R92). -/
inductive UnitState where
  | armed | disarmed | releasing | released | open_ | leftOpen | forced | service | unknown
  deriving DecidableEq, Repr, Inhabited

/-- The cause of a UNIT_LEFT_OPEN notice (R114). -/
inductive LeftOpenCause where
  | closure | relockOwed | recovery | serviceEnd | alarmReset
  deriving DecidableEq, Repr, Inhabited

/-- The source of a RELEASE_FAILED notice (R114). -/
inductive ReleaseSource where
  | ask | service
  deriving DecidableEq, Repr, Inhabited

/-- The state of a portal (R73). -/
inductive PortalState where
  | secure | opening | passage | heldOpen | forced | free | fault
  deriving DecidableEq, Repr, Inhabited

/-- The state of a car (R119). -/
inductive CarState where
  | idle | toPickup | boarding | carrying | recall | parked | out
  deriving DecidableEq, Repr, Inhabited

/-- Why a car is out of service (R119). -/
inductive OutCause where
  | host | node
  deriving DecidableEq, Repr, Inhabited

/-- The reason of a CAR_STATE notice (R138). -/
inductive CarReason where
  | host | nodeLoss | commandFailed | record | return_
  deriving DecidableEq, Repr, Inhabited

/-- The reason of a CALL_CANCELLED notice (R138). -/
inductive CancelReason where
  | carOut | noCar | held | evacuation
  deriving DecidableEq, Repr, Inhabited

/-- The liveness of a node (R148). -/
inductive Liveness where
  | live | quiet | lost | unreachable
  deriving DecidableEq, Repr, Inhabited

/-- The state of a segment (R176). -/
inductive SegState where
  | active | caution | isolated | off
  deriving DecidableEq, Repr, Inhabited

/-- The drop classes (R179). -/
inductive DropClass where
  | corrupt | oversize | overrun | duplicate | foreign
  deriving DecidableEq, Repr, Inhabited

/-- The five drop counters (R179). -/
structure Drops where
  corrupt : Nat
  oversize : Nat
  overrun : Nat
  duplicate : Nat
  foreign : Nat
  deriving DecidableEq, Repr, Inhabited

/-- The tables of the store (R25). -/
inductive TableName where
  | tenant | unit | credential | site
  deriving DecidableEq, Repr, Inhabited

/-- The notice kinds and their fields (R212). -/
inductive Notice where
  | admission (value : Word32) (portal : Nat) (host : Bool) (refusal : Option Reason)
      (tenant visit : Option Nat)
  | exitWithoutVisit (portal : Nat) (value : Word32) (tenant : Option Nat)
  | egress (portal : Nat)
  | visitClosed (visit tenant : Nat) (reason : CloseReason) (overstayed : Bool) (opened time : Nat)
  | overstay (visit tenant : Nat) (stage : Stage) (lastSeen : LastSeen)
  | unitForced (unit tenant : Nat) (before : UnitState)
  | unitLeftOpen (unit tenant : Nat) (cause : LeftOpenCause)
  | releaseRefused (seg : Seg) (node channel : Nat) (unit tenant : Option Nat) (reason : Reason)
  | releaseFailed (unit tenant : Nat) (source : ReleaseSource) (outcome : TxOutcome)
  | portalForced (portal : Nat)
  | portalHeldOpen (portal : Nat)
  | portalSecure (portal : Nat) (ended : PortalState)
  | portalDriveFailed (portal : Nat) (opens : Bool) (outcome : TxOutcome)
  | callExpired (call car origin dest waited : Nat)
  | callCancelled (call car origin dest : Nat) (reason : CancelReason) (boarded : Bool)
  | carState (car : Nat) (left entered : CarState) (cause : Option OutCause) (reason : CarReason)
      (failed : Option (NodeCommand × TxOutcome))
  | nodeState (seg : Seg) (node : Nat) (kind : NodeKind) (liveness : Liveness) (missed : Nat)
  | segmentState (seg : Seg) (left entered : SegState) (tx rx : Nat)
  | segmentDiag (seg : Seg) (crossed : DropClass) (drops : Drops)
  | mode (left entered : Mode) (returnMode : Option Mode) (cause : ModeCause)
  | storeDamage (table : TableName) (newly total : Nat)
  deriving DecidableEq, Repr

/-- A notice record: its kind fields and the site seconds at which it was put (R211). -/
structure NoticeRecord where
  at_ : Nat
  notice : Notice
  deriving DecidableEq, Repr

/-! ## Host Link (chapter 11) -/

/-- The receiver of the host line: hunting, or inside a frame with the bytes after the start byte (R207). -/
inductive HostRx where
  | hunting
  | inFrame (bytes : List Byte)
  deriving DecidableEq, Repr, Inhabited

/-- A good frame (R207, R214). -/
structure Frame where
  tag : Byte
  kind : Byte
  body : List Byte
  deriving DecidableEq, Repr, Inhabited

/-- How far the request being served is: handed to its owner and not yet taken up, in the owner's hands,
or answered and its reply not yet sent (R208, R209). -/
inductive ServePhase where
  | handed | working | replied
  deriving DecidableEq, Repr, Inhabited

/-- The request being served (R208). -/
structure Serving where
  frame : Frame
  phase : ServePhase
  deriving DecidableEq, Repr, Inhabited

/-- What a reply answers: the request being served, a RESTART whose reply starts the warm restart when it
has left (R206), or a frame that found the request queue full (R208). -/
inductive ReplyRole where
  | served | restart | refusal
  deriving DecidableEq, Repr, Inhabited

/-- A reply that has been formed and not yet sent (R208, R209); `body` begins with the status byte. -/
structure Reply where
  role : ReplyRole
  tag : Byte
  kind : Byte
  body : List Byte
  deriving DecidableEq, Repr, Inhabited

/-- The Host Link (R207, R208, R211). -/
structure HostLink where
  rx : HostRx
  linkFaults : Nat
  rate : Nat
  requests : List Frame
  serving : Option Serving
  replies : List Reply
  notices : List NoticeRecord
  dropCount : Nat
  deriving DecidableEq, Repr

/-! ## Record Store (chapters 1 and 2) -/

/-- The states of the store (R26). -/
inductive StoreState where
  | scanning | ready | writing | clearing | clearSuspended
  deriving DecidableEq, Repr, Inhabited

/-- A keyed slot that is not empty (R25, R30): present with its stored check value, or damaged. -/
inductive Slot (α : Type) where
  | present (record : α) (check : Word16)
  | damaged
  deriving DecidableEq, Repr

/-- A CREDENTIAL slot that is not free (R3, R30). -/
inductive CredSlot where
  | present (value : Word32) (tenant : Nat) (check : Word16)
  | damaged (value : Word32)
  | keyless
  deriving DecidableEq, Repr

/-- A record write in progress (R28): what the slot is to hold. A DROP writes nothing. -/
inductive WriteOp where
  | tenant (id : Nat) (record : Option Tenant)
  | unit (number : Nat) (record : Option UnitRec)
  | credential (slot : Nat) (value : Word32) (tenant : Option Nat)
  | site (item : SiteItem) (value : SiteValue)
  deriving DecidableEq, Repr

/-- The key of a write fault record (R31). -/
inductive FaultKey where
  | tenant (id : Nat) | unit (number : Nat) | credential (value : Word32) | site (item : SiteItem)
  deriving DecidableEq, Repr

/-- A clear in progress (R33, R34): the table, the block whose erase has begun, whether a block failed. -/
structure ClearOp where
  table : TableName
  block : Nat
  failed : Bool
  deriving DecidableEq, Repr

/-- A lookup the Visit Engine asks (R9, R27). -/
inductive Lookup where
  | credential (value : Word32)
  | tenant (id : Nat)
  deriving DecidableEq, Repr

/-- The result of a lookup (R9); a lookup in SCANNING is refused with WRONG_MODE (R27). -/
inductive LookupResult where
  | found (id : Nat) (record : Tenant)
  | unknownCredential | recordDamaged | absent | wrongMode
  deriving DecidableEq, Repr

/-- The Record Store (R25 to R42). -/
structure Store where
  state : StoreState
  tenants : Table (Slot Tenant)
  units : Table (Slot UnitRec)
  creds : Table CredSlot
  site : Table (Slot SiteValue)
  digestT : Word16
  digestU : Word16
  digestC : Word16
  writeFault : Bool
  writeFaultRec : Option FaultKey
  clearFault : Bool
  clearFaultRec : Option (TableName × Nat)
  failedWrites : Nat
  failedErases : Nat
  write : Option WriteOp
  clear : Option ClearOp
  lookups : List Lookup
  results : List LookupResult
  deriving DecidableEq, Repr

/-! ## Site Control (chapter 10) -/

/-- A set wall clock (R194). -/
structure Clock where
  day : Nat
  minute : Nat
  second : Nat
  deriving DecidableEq, Repr, Inhabited

/-- A copy of a stored item, with its damage mark (R8, R71, R117, R143, R182, R196). -/
structure Marked (α : Type) where
  val : α
  damaged : Bool
  deriving DecidableEq, Repr, Inhabited

/-- A report to Site Control that bears on the drain check (R73, R119, R155, R26, R199). -/
inductive SiteReport where
  | portals (busy : Bool)
  | cars (busy : Bool)
  | segment (seg : Seg) (busy : Bool)
  | storeReady
  | drainAnswer
  deriving DecidableEq, Repr

/-- A report of the fire input: a change, or the settled report of a start (R185). -/
inductive FireReport where
  | change (active : Bool)
  | settled (active : Bool)
  deriving DecidableEq, Repr

/-- Site Control (R8, R192 to R196). -/
structure SiteControl where
  mode : Mode
  returnMode : Option Mode
  evacCause : Option EvacCause
  fireCheckDone : Bool
  fireInput : Bool
  portalsBusy : Bool
  carsBusy : Bool
  segABusy : Bool
  segBBusy : Bool
  segCBusy : Bool
  seconds : Nat
  clock : Option Clock
  params : Marked SiteParams
  classes : List (Marked AccessClass)
  windows : List (Marked Window)
  drainOwed : Nat
  reports : List SiteReport
  fireReports : List FireReport
  closuresAnswer : Bool
  deriving DecidableEq, Repr

/-! ## Visit Engine (chapter 3) -/

/-- A visit's lift call: the car and whether it has boarded (R43). -/
structure CallRef where
  car : Nat
  boarded : Bool
  deriving DecidableEq, Repr, Inhabited

/-- A visit (R43). -/
structure Visit where
  number : Nat
  tenant : Nat
  value : Word32
  stage : Stage
  entryPortal : Nat
  admittedAt : Nat
  dwellDeadline : Option Nat
  overstayed : Bool
  returnStage : Option Stage
  exitPortal : Option Nat
  call : Option CallRef
  unitsOpened : List Nat
  openedCount : Nat
  lastSeen : LastSeen
  deriving DecidableEq, Repr, Inhabited

/-- What a presented credential asks (R51, R69). -/
inductive Asked where
  | admission (portal : Nat)
  | exit (portal : Nat)
  | landing (floor : Nat) (dest : Option Nat)
  deriving DecidableEq, Repr, Inhabited

/-- Where a credential was presented (R51, R69). -/
inductive Source where
  | reader (seg : Seg) (node : Nat)
  | host
  deriving DecidableEq, Repr, Inhabited

/-- A credential presented to the Visit Engine (R51, R69). -/
structure Presentation where
  asked : Asked
  source : Source
  value : Word32
  deriving DecidableEq, Repr, Inhabited

/-- What a decision in progress waits for (R51): the credential lookup, or the tenant lookup of a lift call
of the named visit (R59). -/
inductive Awaits where
  | credential
  | tenant (visit : Nat)
  deriving DecidableEq, Repr, Inhabited

/-- The decision in progress (R51). -/
structure Decision where
  pres : Presentation
  awaits : Awaits
  deriving DecidableEq, Repr, Inhabited

/-- A report of the Portal Controller on a pending visit (R46, R47). -/
inductive PortalReport where
  | passage (portal visit : Nat)
  | noPassage (portal visit : Nat)
  deriving DecidableEq, Repr

/-- A report of the Lift Scheduler on a call (R122). -/
inductive CallReport where
  | boarded (call car : Nat)
  | replaced (call car : Nat)
  | completed (call floor : Nat)
  | expired (call : Nat)
  | cancelled (call : Nat) (reason : CancelReason)
  deriving DecidableEq, Repr

/-- An evacuation order of Site Control (R202, R203). -/
inductive EvacOrder where
  | begin_ | end_
  deriving DecidableEq, Repr

/-- The Visit Engine (R43, R45, R51) and the messages on their way to it. -/
structure VisitEngine where
  table : List Visit
  counter : Nat
  decision : Option Decision
  waiting : List Presentation
  portalReports : List PortalReport
  callReports : List CallReport
  openedReports : List (Nat × Nat)
  orders : List EvacOrder
  deriving DecidableEq, Repr

/-! ## Portal Controller (chapter 4) -/

/-- A door contact (R73, R92). -/
inductive Contact where
  | open_ | closed | unknown
  deriving DecidableEq, Repr, Inhabited

/-- An exit button (R73). -/
inductive Button where
  | pressed | released | unknown
  deriving DecidableEq, Repr, Inhabited

/-- A portal: its record copy and its volatile fields (R71 to R73). -/
structure Portal where
  record : Marked PortalRec
  state : PortalState
  pending : Option Nat
  opening : Byte
  contact : Contact
  button : Button
  strikeReleased : Bool
  passTimer : Option Nat
  holdTimer : Option Nat
  heard : Bool
  deriving DecidableEq, Repr, Inhabited

/-- An order of the Visit Engine to a portal (R76, R83). -/
inductive PortalOrder where
  | open_ (portal : Nat) (visit : Option Nat)
  | drop (portal visit : Nat)
  deriving DecidableEq, Repr

/-- The Portal Controller and the messages on their way to it. -/
structure PortalController where
  list : List Portal
  orders : List PortalOrder
  evac : List EvacOrder
  deriving DecidableEq, Repr

/-! ## Unit Door Controller (chapter 5) -/

/-- A latch (R92). -/
inductive Latch where
  | engaged | released | unknown
  deriving DecidableEq, Repr, Inhabited

/-- An entry of the Unit State Table (R92). -/
structure UnitEntry where
  record : UnitRec
  state : UnitState
  contact : Contact
  latch : Latch
  relockOwed : Bool
  timer : Option Nat
  number : Byte
  deriving DecidableEq, Repr, Inhabited

/-- An order of the Visit Engine to the Unit Door Controller (R98, R99). -/
inductive UnitOrder where
  | disarm (tenant : Nat)
  | closure (tenant : Nat) (visitLeft : Bool)
  deriving DecidableEq, Repr

/-- The Unit Door Controller and the orders on their way to it. -/
structure UnitDoors where
  entries : Table UnitEntry
  presence : List Nat
  orders : List UnitOrder
  deriving DecidableEq, Repr

/-! ## Lift Scheduler (chapter 6) -/

/-- A lift call (R120). -/
structure Call where
  id : Nat
  origin : Nat
  dest : Nat
  priority : Nat
  queuedAt : Nat
  deadline : Nat
  deriving DecidableEq, Repr, Inhabited

/-- A trip (R121); the enabled floor set is the set of its destinations. Its capacity is the car's when the
trip was built: a new record's applies to the next trip (R139; log 38). -/
structure Trip where
  calls : List Call
  floor : Nat
  capacity : Nat
  deriving DecidableEq, Repr, Inhabited

/-- A completion record (R129). -/
structure Completion where
  id : Nat
  origin : Nat
  dest : Nat
  at_ : Nat
  deriving DecidableEq, Repr, Inhabited

/-- A car: its record copy and its volatile fields (R117, R119). -/
structure Car where
  record : Marked CarRec
  state : CarState
  cause : Option OutCause
  lastFloor : Option Nat
  lastDoorsOpen : Option Bool
  target : Option Nat
  timer : Option Nat
  departSent : Bool
  queue : List Call
  trip : Option Trip
  history : List Completion
  deriving DecidableEq, Repr, Inhabited

/-- An order of Site Control to the Lift Scheduler (R199, R202, R203). -/
inductive LiftOrder where
  | drain | evacBegin | evacEnd
  deriving DecidableEq, Repr

/-- The Lift Scheduler, with the recall floor read when the last evacuation began (R136), and the messages on
their way to it. -/
structure LiftScheduler where
  cars : List Car
  recallFloor : Nat
  withdrawals : List Nat
  orders : List LiftOrder
  deriving DecidableEq, Repr

/-! ## Segment Controllers (chapters 7 and 8) -/

/-- The volatile state of an enrolled node, with its entry (R145, R148). -/
structure Node where
  entry : NodeEntry
  liveness : Liveness
  missed : Nat
  lastSeq : BitVec 3
  lastValid : Bool
  nextSeq : BitVec 3
  mirror : List Byte
  changed : Bool
  reportHeld : Bool
  deriving DecidableEq, Repr, Inhabited

/-- A transmit queue entry (R153). -/
structure TxEntry where
  node : Nat
  frame : TxFrame
  priority : Priority
  token : Token
  seq : Option (BitVec 3)
  repeats : Nat
  deriving DecidableEq, Repr, Inhabited

/-- Where the command in flight stands (R156 to R160): its copy is being sent; its ack wait or answer
window runs; that wait has ended while a frame is being received; a repeat, or a resend of an abandoned
copy, waits for the gap. -/
inductive FlightPhase where
  | sending | waiting | waitOver | repeatDue | resendDue
  deriving DecidableEq, Repr, Inhabited

/-- The command in flight (R156). `repeatFlag` is that of its present copy; `endAs` is the outcome it must
end with when its copy ends (R144, R147, R160). -/
structure InFlight where
  entry : TxEntry
  phase : FlightPhase
  repeatFlag : Bool
  endAs : Option TxOutcome
  deriving DecidableEq, Repr, Inhabited

/-- The copy being sent: an ACK, or the command in flight (R156). -/
inductive Sending where
  | ack (node : Nat) (seq : BitVec 3)
  | command
  deriving DecidableEq, Repr, Inhabited

/-- The class a frame in reception has taken so far (R163 to R165). -/
inductive RxClass where
  | normal | overrun | oversize
  deriving DecidableEq, Repr, Inhabited

/-- The frame being received (R161 to R165): characters counted, length byte when it has come, the
characters kept, the class, and the ring bytes held. -/
structure RxFrame where
  count : Nat
  length : Option Nat
  chars : List Byte
  cls : RxClass
  held : Nat
  deriving DecidableEq, Repr, Inhabited

/-- The receiver of a segment (R162). -/
inductive Rx where
  | idle
  | frame (f : RxFrame)
  | ended (stray : Bool)
  deriving DecidableEq, Repr, Inhabited

/-- A committed record (R161). -/
structure RingRecord where
  source : Nat
  kind : Nat
  seq : BitVec 3
  body : List Byte
  deriving DecidableEq, Repr, Inhabited

/-- What a Segment Controller tells an owner or consumer (R149, R159). -/
inductive FieldReport where
  | outcome (token : Token) (outcome : TxOutcome)
  | lost (node : Nat) (binding : Binding)
  deriving DecidableEq, Repr

/-- A Segment Controller (R143 to R181) and the messages on their way from it. While a disabled segment finishes
the copy it was sending it is `closing`, and `lossesOwed` holds the nodes whose consumers are told of the
loss after the outcomes (R106, R144, R149; log 25). -/
structure Segment where
  settings : Marked SegSettings
  rateInUse : Nat
  state : SegState
  nodes : Table Node
  queue : List TxEntry
  inFlight : Option InFlight
  sending : Option Sending
  pendingAck : Option (Nat × BitVec 3)
  closing : Bool
  lossesOwed : Table NodeEntry
  rx : Rx
  overrunHeld : Nat
  ring : List RingRecord
  txFaults : Nat
  rxFaults : Nat
  drops : Drops
  pollPos : Nat
  pollTimer : Bool
  toUnits : List FieldReport
  toPortals : List FieldReport
  toLifts : List FieldReport
  deriving DecidableEq, Repr

/-- The CREDENTIAL record that holds the router (R172, R173): its ring, whether the Visit Engine has taken
it, and whether it still lies in the ring. -/
structure Hand where
  seg : Seg
  taken : Bool
  inRing : Bool
  deriving DecidableEq, Repr, Inhabited

/-- The Frame Router (R171 to R173). -/
structure Router where
  position : Seg
  hand : Option Hand
  deriving DecidableEq, Repr

/-! ## Line Block (chapter 9) -/

/-- What the part applies to a pin (R183). -/
inductive PinDrive where
  | none | active | other
  deriving DecidableEq, Repr, Inhabited

/-- A local line: its settings copy and its volatile fields (R182, R183); no debounced level is UNSETTLED;
a running debounce timer holds its length in ms. -/
structure Line where
  record : Marked LineRec
  output : Bool
  pin : Level
  debounced : Option Level
  timer : Option Nat
  settleTimer : Bool
  drive : PinDrive
  pullApplied : Bool
  deriving DecidableEq, Repr, Inhabited

/-- The beacon state with its phase (R187). -/
inductive Beacon where
  | off | steady | flashing (lit : Bool)
  deriving DecidableEq, Repr, Inhabited

/-- A beacon input report (R187). -/
inductive BeaconReport where
  | evacuate (flag : Bool)
  | unitForced (nonzero : Bool)
  | portalAlarm (nonzero : Bool)
  | onAlarms (yes : Bool)
  deriving DecidableEq, Repr

/-- The Line Block (R182 to R191). -/
structure LineBlock where
  list : List Line
  fireInput : Bool
  settledOwed : Bool
  beacon : Beacon
  phaseTimer : Bool
  evacFlag : Bool
  unitForced : Bool
  portalAlarm : Bool
  beaconOnAlarms : Bool
  reports : List BeaconReport
  deriving DecidableEq, Repr

/-! ## The whole part -/

/-- The SC-4096 and the commands that wait for it, first in, first out. -/
structure State where
  pending : List Instr
  host : HostLink
  store : Store
  site : SiteControl
  visits : VisitEngine
  portals : PortalController
  units : UnitDoors
  lifts : LiftScheduler
  segA : Segment
  segB : Segment
  segC : Segment
  router : Router
  lines : LineBlock
  freeCount : Nat
  deriving DecidableEq, Repr

/-! ## Reset values -/

/-- A portal during STARTING and when not present (R73, R91). -/
def Portal.blank : Portal :=
  ⟨⟨PortalRec.blank, false⟩, .fault, none, 0, .unknown, .unknown, false, none, none, false⟩

/-- A car at a start (R142). -/
def Car.blank : Car :=
  ⟨⟨CarRec.blank, false⟩, .out, some .node, none, none, none, none, false, [], none, []⟩

/-- All drop counters 0 (R179). -/
def Drops.zero : Drops := ⟨0, 0, 0, 0, 0⟩

/-- A segment during STARTING: transmitter and receiver stopped, nothing held (R148, R181). -/
def Segment.blank : Segment where
  settings := ⟨SegSettings.blank, false⟩
  rateInUse := 19200
  state := .off
  nodes := []
  queue := []
  inFlight := none
  sending := none
  pendingAck := none
  closing := false
  lossesOwed := []
  rx := .idle
  overrunHeld := 0
  ring := []
  txFaults := 0
  rxFaults := 0
  drops := Drops.zero
  pollPos := 0
  pollTimer := false
  toUnits := []
  toPortals := []
  toLifts := []

/-- A line during STARTING, at the pin level `pin` (R183, R191). -/
def Line.blank (pin : Level) : Line :=
  ⟨⟨LineRec.blank, false⟩, false, pin, none, none, false, .none, false⟩

/-- The Host Link after a start with the rate `rate` (R207, R208, R211). -/
def HostLink.blank (rate : Nat) : HostLink := ⟨.hunting, 0, rate, [], none, [], [], 0⟩

/-- A store that has never been written, at the beginning of its scan (R26, R31, R38). -/
def Store.blank : Store :=
  ⟨.scanning, [], [], [], [], 0, 0, 0, false, none, false, none, 0, 0, none, none, [], []⟩

/-- Site Control on entry to STARTING, with the wall clock `clock` (R192, R193, R194). -/
def SiteControl.blank (clock : Option Clock) : SiteControl where
  mode := .starting
  returnMode := none
  evacCause := none
  fireCheckDone := false
  fireInput := false
  portalsBusy := false
  carsBusy := false
  segABusy := false
  segBBusy := false
  segCBusy := false
  seconds := 0
  clock := clock
  params := ⟨SiteParams.blank, false⟩
  classes := List.replicate 8 ⟨AccessClass.blank, false⟩
  windows := List.replicate 15 ⟨Window.blank, false⟩
  drainOwed := 0
  reports := []
  fireReports := []
  closuresAnswer := false

/-- The Visit Engine after a start (R45, R70). -/
def VisitEngine.blank : VisitEngine := ⟨[], 1, none, [], [], [], [], []⟩

/-- The Portal Controller during STARTING (R91). -/
def PortalController.blank : PortalController := ⟨List.replicate 8 Portal.blank, [], []⟩

/-- The Unit Door Controller during STARTING (R116). -/
def UnitDoors.blank : UnitDoors := ⟨[], [], []⟩

/-- The Lift Scheduler during STARTING (R142). -/
def LiftScheduler.blank : LiftScheduler := ⟨List.replicate 4 Car.blank, 0, [], []⟩

/-- The Line Block during STARTING, with the pins as they stand (R183, R191). -/
def LineBlock.blank (pins : List Level) : LineBlock :=
  ⟨pins.map Line.blank, false, false, .off, false, false, false, false, true, []⟩

/-- Every block on entry to STARTING, with what survives a start (R206): the commands waiting outside the
part, the host line rate, the store, the wall clock, the levels of the pins, and the model's counter. -/
def State.starting (pending : List Instr) (rate : Nat) (store : Store) (clock : Option Clock)
    (pins : List Level) (freeCount : Nat) : State where
  pending := pending
  host := HostLink.blank rate
  store := store
  site := SiteControl.blank clock
  visits := VisitEngine.blank
  portals := PortalController.blank
  units := UnitDoors.blank
  lifts := LiftScheduler.blank
  segA := Segment.blank
  segB := Segment.blank
  segC := Segment.blank
  router := ⟨.a, none⟩
  lines := LineBlock.blank pins
  freeCount := freeCount

/-- The part right after reset: a cold start of a part whose store has never been written, rate straps
0,0 and all pins LOW (R206, R217; log 11). -/
def State.reset : State :=
  State.starting [] 0 Store.blank none (List.replicate 12 .low) 0

/-! ## Why a step can stop -/

/-- Why the machine stops with a fault. There is no constructor: the manual gives every event of the part
an effect, a status code or nothing, and none of them stops it. -/
inductive Fault where
  deriving DecidableEq, Repr

/-- Why a command is refused. -/
inductive Refusal where
  /-- Raised by an arm of `exec` whose command has no meaning in the model; it stands in the way of no
  claim that is false of the part, so it is on the safe side. No arm raises it. -/
  | notModelled (mnemonic : String)
  deriving DecidableEq, Repr

end Sys2Proof.Machine
end

