-- ==== Sys2Proof/Machine/Ops.lean ====
section
/-! DEFINITION. The shared operations over the part's data: keyed tables, bytes and the CRC, the views of
the store, the Notice Queue, and access to one segment, portal, car, line or visit. -/

namespace Sys2Proof.Machine

/-! ## Keyed tables -/

/-- The value at a key. -/
def Table.find {α : Type} : Table α → Nat → Option α
  | [], _ => none
  | (k, v) :: t, q => if k = q then some v else Table.find t q

/-- Set the value at a key, keeping the keys rising. -/
def Table.put {α : Type} : Table α → Nat → α → Table α
  | [], q, w => [(q, w)]
  | (k, v) :: t, q, w =>
    if q < k then (q, w) :: (k, v) :: t
    else if q = k then (q, w) :: t
    else (k, v) :: Table.put t q w

/-- Make a key absent. -/
def Table.remove {α : Type} (t : Table α) (q : Nat) : Table α := t.filter fun e => e.1 != q

/-- Change the value at a key, if there is one. -/
def Table.modify {α : Type} (t : Table α) (q : Nat) (f : α → α) : Table α :=
  t.map fun e => if e.1 = q then (e.1, f e.2) else e

/-- The canonical form: keys strictly rising. -/
abbrev Table.sorted {α : Type} (t : Table α) : Prop := t.Pairwise fun a b => a.1 < b.1

/-- Insert a number into a rising list without repeats. -/
def insertNat (n : Nat) : List Nat → List Nat
  | [] => [n]
  | k :: t => if n < k then n :: k :: t else if n = k then k :: t else k :: insertNat n t

/-- The numbers of a list, rising and without repeats. -/
def sortNat (l : List Nat) : List Nat := l.foldr insertNat []

/-! ## Bytes and the check (R213, R214) -/

/-- A number as `w` bytes, most significant first. -/
def be : Nat → Nat → List Byte
  | 0, _ => []
  | w + 1, n => BitVec.ofNat 8 (n / 256 ^ w) :: be w n

/-- The number that bytes spell, most significant first. -/
def beNat (l : List Byte) : Nat := l.foldl (fun n b => n * 256 + b.toNat) 0

/-- One bit of the CRC-16 with polynomial 0x1021, most significant bit first (R214). -/
def crcBit (c : Word16) : Word16 := if c.msb then (c <<< 1) ^^^ 0x1021#16 else c <<< 1

/-- One byte of the CRC-16 (R214). -/
def crcByte (c : Word16) (b : Byte) : Word16 :=
  Nat.repeat crcBit 8 (c ^^^ (b.zeroExtend 16 <<< 8))

/-- The CRC-16 of bytes, initial value 0xFFFF, no final inversion (R214). -/
def crc16 (l : List Byte) : Word16 := l.foldl crcByte 0xFFFF#16

/-- The next number in 1..65535, wrapping from 65535 to 1 (R45). -/
def nextVisitNumber (n : Nat) : Nat := if 65535 ≤ n then 1 else n + 1

/-! ## Segments -/

/-- The position of a segment: A 0, B 1, C 2 (R213). -/
def segIndex : Seg → Nat
  | .a => 0 | .b => 1 | .c => 2

/-- The ring after another in the router's order A, B, C, A (R171). -/
def nextSeg : Seg → Seg
  | .a => .b | .b => .c | .c => .a

/-- One Segment Controller. -/
def State.seg (s : State) : Seg → Segment
  | .a => s.segA | .b => s.segB | .c => s.segC

/-- Replace one Segment Controller. -/
def State.setSeg (s : State) (g : Seg) (x : Segment) : State :=
  match g with
  | .a => { s with segA := x }
  | .b => { s with segB := x }
  | .c => { s with segC := x }

/-- Change one Segment Controller where no command joins or leaves. -/
def State.modSeg (s : State) (g : Seg) (f : Segment → Segment) : State := s.setSeg g (f (s.seg g))

/-- The node `n` enrolled on segment `g` (R145). -/
def State.node (s : State) (g : Seg) (n : Nat) : Option Node := (s.seg g).nodes.find n

/-! ## One portal, car, line -/

/-- Portal `p`; there is none above 7. -/
def State.portal (s : State) (p : Nat) : Option Portal := s.portals.list[p]?

/-- Car `c`; there is none above 3. -/
def State.car (s : State) (c : Nat) : Option Car := s.lifts.cars[c]?

/-- Line `l`; there is none above 11. -/
def State.line (s : State) (l : Nat) : Option Line := s.lines.list[l]?

/-- Change one line's fields. -/
def State.modLine (s : State) (l : Nat) (f : Line → Line) : State :=
  { s with lines := { s.lines with list := s.lines.list.modify l f } }

/-- The entry of a unit (R92). -/
def State.unit (s : State) (u : Nat) : Option UnitEntry := s.units.entries.find u

/-! ## Notices (R211) -/

/-- Put a notice: it joins the young end of the Notice Queue, or is dropped and counted when 64 records
wait (R211). -/
def putNotice (n : Notice) (s : State) : State :=
  if s.host.notices.length < Config.maxNotices then
    { s with host := { s.host with notices := s.host.notices ++ [⟨s.site.seconds, n⟩] } }
  else
    { s with host := { s.host with dropCount := satAdd 255 s.host.dropCount 1 } }

/-! ## Messages between blocks (log 3) -/

/-- Send a drain-check report to Site Control. -/
def toSite (r : SiteReport) (s : State) : State :=
  { s with site := { s.site with reports := s.site.reports ++ [r] } }

/-- Send the fire input to Site Control (R185). -/
def toSiteFire (r : FireReport) (s : State) : State :=
  { s with site := { s.site with fireReports := s.site.fireReports ++ [r] } }

/-- Send a beacon input to the Line Block (R187). -/
def toBeacon (r : BeaconReport) (s : State) : State :=
  { s with lines := { s.lines with reports := s.lines.reports ++ [r] } }

/-- Send a portal report to the Visit Engine (R46, R47). -/
def toVisitsPortal (r : PortalReport) (s : State) : State :=
  { s with visits := { s.visits with portalReports := s.visits.portalReports ++ [r] } }

/-- Send a call report to the Visit Engine (R122). -/
def toVisitsCall (r : CallReport) (s : State) : State :=
  { s with visits := { s.visits with callReports := s.visits.callReports ++ [r] } }

/-- Send a unit opened report to the Visit Engine (R113). -/
def toVisitsOpened (unit tenant : Nat) (s : State) : State :=
  { s with visits := { s.visits with openedReports := s.visits.openedReports ++ [(unit, tenant)] } }

/-- Send an order to the Portal Controller (R49, R54, R57). -/
def toPortals (o : PortalOrder) (s : State) : State :=
  { s with portals := { s.portals with orders := s.portals.orders ++ [o] } }

/-- Send an order to the Unit Door Controller (R49, R54). -/
def toUnits (o : UnitOrder) (s : State) : State :=
  { s with units := { s.units with orders := s.units.orders ++ [o] } }

/-- Withdraw a call (R49). -/
def toLifts (call : Nat) (s : State) : State :=
  { s with lifts := { s.lifts with withdrawals := s.lifts.withdrawals ++ [call] } }

/-- Give the Lift Scheduler an order of Site Control (R199, R202, R203). -/
def toLiftOrders (o : LiftOrder) (s : State) : State :=
  { s with lifts := { s.lifts with orders := s.lifts.orders ++ [o] } }

/-- Give the Portal Controller an evacuation order (R202, R203). -/
def toPortalEvac (o : EvacOrder) (s : State) : State :=
  { s with portals := { s.portals with evac := s.portals.evac ++ [o] } }

/-- Give the Visit Engine an evacuation order (R202, R203). -/
def toVisitsEvac (o : EvacOrder) (s : State) : State :=
  { s with visits := { s.visits with orders := s.visits.orders ++ [o] } }

/-- Ask the store for a lookup (R9, R27). -/
def askLookup (l : Lookup) (s : State) : State :=
  { s with store := { s.store with lookups := s.store.lookups ++ [l] } }

/-! ## The store as it is read (R25, R28, R34, R35) -/

/-- The block and index of a SITE item (R25, R216; log 33). -/
def SiteItem.place : SiteItem → Nat × Nat
  | .marker => (0, 0)
  | .params => (0, 1)
  | .pattern i => (1, i)
  | .cls i => (2, i)
  | .window i => (3, i - 1)
  | .portal i => (4, i)
  | .car i => (5, i)
  | .segment g => (6, segIndex g)
  | .line i => (6, 3 + i)
  | .node g id => (7 + segIndex g, id - 1)

/-- The key of a SITE item in the table: 64 keys a block. -/
def SiteItem.key (i : SiteItem) : Nat := i.place.1 * 64 + i.place.2

/-- The value an item holds that has never been written (R4, R5, R6, R25, R40, R71, R117, R143, R145,
R182, R196). -/
def SiteItem.neverWritten : SiteItem → SiteValue
  | .marker => .marker false
  | .params => .params SiteParams.blank
  | .pattern _ => .pattern Pattern.blank
  | .cls _ => .cls AccessClass.blank
  | .window _ => .window Window.blank
  | .portal _ => .portal PortalRec.blank
  | .car _ => .car CarRec.blank
  | .segment _ => .segment SegSettings.blank
  | .line _ => .line LineRec.blank
  | .node _ _ => .node none

/-- The erase block of a key of a table (R25). -/
def blockOf (t : TableName) (key : Nat) : Nat :=
  match t with
  | .tenant => (key - 1) / 128
  | .unit => key / 256
  | .credential => key / 256
  | .site => key / 64

/-- A key lies in the block whose erase has begun, and is absent to lookups (R34, R35). -/
def Store.hidden (st : Store) (t : TableName) (key : Nat) : Bool :=
  match st.clear with
  | some c => c.table == t && blockOf t key == c.block
  | none => false

/-- The slot of a tenant id as a reader sees it: absent in a begun block (R35). -/
def Store.tenantSlot (st : Store) (id : Nat) : Option (Slot Tenant) :=
  if st.hidden .tenant id then none else st.tenants.find id

/-- The slot of a unit number as a reader sees it (R35). -/
def Store.unitSlot (st : Store) (u : Nat) : Option (Slot UnitRec) :=
  if st.hidden .unit u then none else st.units.find u

/-- The unit records present to a reader (R7, R35). -/
def Store.presentUnits (st : Store) : List (Nat × UnitRec) :=
  st.units.filterMap fun e =>
    match e.2 with
    | .present r _ => if st.hidden .unit e.1 then none else some (e.1, r)
    | .damaged => none

/-- The present entries of the CREDENTIAL table as a reader sees them (R7, R35). -/
def Store.presentCreds (st : Store) : List (Nat × Word32 × Nat) :=
  st.creds.filterMap fun e =>
    match e.2 with
    | .present v t _ => if st.hidden .credential e.1 then none else some (e.1, v, t)
    | _ => none

/-- A credential slot answers to a value (R3, R30): a keyless slot answers to none. -/
def CredSlot.holds (c : CredSlot) (v : Word32) : Bool :=
  match c with
  | .present w _ _ => w == v
  | .damaged w => w == v
  | .keyless => false

/-- The slot that holds a value, as a reader sees it (R3, R9, R30, R35). -/
def Store.credSlot (st : Store) (v : Word32) : Option (Nat × CredSlot) :=
  st.creds.find? fun e => !st.hidden .credential e.1 && e.2.holds v

/-- The value of a SITE item with its damage mark, as a reader sees it: a damaged item reads as never
written (R30), and so does one in a begun or erased block (R35). -/
def Store.item (st : Store) (i : SiteItem) : Marked SiteValue :=
  if st.hidden .site i.key then ⟨i.neverWritten, false⟩
  else
    match st.site.find i.key with
    | some (.present v _) => ⟨v, false⟩
    | some .damaged => ⟨i.neverWritten, true⟩
    | none => ⟨i.neverWritten, false⟩

/-- A pattern entry as a lookup reads it; a damaged one is passed over as disabled (R9, R30). -/
def Store.pattern (st : Store) (i : Nat) : Pattern :=
  match st.item (.pattern i) with
  | ⟨.pattern p, false⟩ => p
  | _ => Pattern.blank

/-- The marker as Site Control reads it: a damaged one is not VALID (R40). -/
def Store.markerValid (st : Store) : Bool :=
  match st.item .marker with
  | ⟨.marker true, false⟩ => true
  | _ => false

/-- The site parameters with their damage mark (R196). -/
def Store.params (st : Store) : Marked SiteParams :=
  match st.item .params with
  | ⟨.params p, d⟩ => ⟨p, d⟩
  | ⟨_, d⟩ => ⟨SiteParams.blank, d⟩

/-- A class with its damage mark (R8). -/
def Store.cls (st : Store) (i : Nat) : Marked AccessClass :=
  match st.item (.cls i) with
  | ⟨.cls c, d⟩ => ⟨c, d⟩
  | ⟨_, d⟩ => ⟨AccessClass.blank, d⟩

/-- A window 1..15 with its damage mark (R8). -/
def Store.window (st : Store) (i : Nat) : Marked Window :=
  match st.item (.window i) with
  | ⟨.window w, d⟩ => ⟨w, d⟩
  | ⟨_, d⟩ => ⟨Window.blank, d⟩

/-- A portal record with its damage mark (R71). -/
def Store.portal (st : Store) (i : Nat) : Marked PortalRec :=
  match st.item (.portal i) with
  | ⟨.portal p, d⟩ => ⟨p, d⟩
  | ⟨_, d⟩ => ⟨PortalRec.blank, d⟩

/-- A car record with its damage mark (R117). -/
def Store.car (st : Store) (i : Nat) : Marked CarRec :=
  match st.item (.car i) with
  | ⟨.car c, d⟩ => ⟨c, d⟩
  | ⟨_, d⟩ => ⟨CarRec.blank, d⟩

/-- Segment settings with their damage mark (R143). -/
def Store.segment (st : Store) (g : Seg) : Marked SegSettings :=
  match st.item (.segment g) with
  | ⟨.segment x, d⟩ => ⟨x, d⟩
  | ⟨_, d⟩ => ⟨SegSettings.blank, d⟩

/-- Line settings with their damage mark (R182). -/
def Store.line (st : Store) (i : Nat) : Marked LineRec :=
  match st.item (.line i) with
  | ⟨.line l, d⟩ => ⟨l, d⟩
  | ⟨_, d⟩ => ⟨LineRec.blank, d⟩

/-- A node entry with its damage mark (R145). -/
def Store.nodeEntry (st : Store) (g : Seg) (id : Nat) : Marked (Option NodeEntry) :=
  match st.item (.node g id) with
  | ⟨.node e, d⟩ => ⟨e, d⟩
  | ⟨_, d⟩ => ⟨none, d⟩

/-- A write of a PUT_TENANT that makes the tenant not shared is under way (R13, R28). -/
def Store.readNotShared (st : Store) (id : Nat) (r : Tenant) : Tenant :=
  match st.write with
  | some (.tenant j (some new)) => if j = id && !new.shared then { r with shared := false } else r
  | _ => r

/-- A sticky fault refuses every change of the store (R31). -/
def Store.faulted (st : Store) : Bool := st.writeFault || st.clearFault

/-! ## Visits -/

/-- The visits of a tenant (R44). -/
def State.visitsOf (s : State) (tenant : Nat) : List Visit :=
  s.visits.table.filter fun v => v.tenant == tenant

/-- The visit of a number (R43). -/
def State.visit (s : State) (number : Nat) : Option Visit :=
  s.visits.table.find? fun v => v.number == number

/-- Change the visit of a number. -/
def State.modVisit (s : State) (number : Nat) (f : Visit → Visit) : State :=
  { s with visits :=
    { s.visits with table := s.visits.table.map fun v => if v.number = number then f v else v } }

/-- The class of a tenant in Site Control's working copy (R8); class numbers are 0..7. -/
def State.cls (s : State) (i : Nat) : Marked AccessClass :=
  s.site.classes.getD i ⟨AccessClass.blank, false⟩

end Sys2Proof.Machine
end

