-- ==== Sys2Proof/Machine/Flags.lean ====
section
/-! DEFINITION. The summaries and flags one block works out of its state and shows to another or on a pin:
busy and alarm summaries, ATTN, the segment state from the fault counts, the fire input, line readings, the
beacon state. Each update below sends the report that the change of its summary causes. -/

namespace Sys2Proof.Machine

/-! ## Busy and alarm summaries (R73, R113, R119, R155) -/

/-- A portal that holds up the drain: OPENING, PASSAGE or HELD_OPEN (R73). -/
def PortalState.busy : PortalState → Bool
  | .opening | .passage | .heldOpen => true
  | _ => false

/-- A portal that raises an alarm: FORCED or HELD_OPEN (R73). -/
def PortalState.alarmed : PortalState → Bool
  | .forced | .heldOpen => true
  | _ => false

/-- Some portal is OPENING, PASSAGE or HELD_OPEN (R73). -/
def State.portalsBusy (s : State) : Bool := s.portals.list.any fun p => p.state.busy

/-- Some portal is FORCED or HELD_OPEN (R73). -/
def State.portalsAlarmed (s : State) : Bool := s.portals.list.any fun p => p.state.alarmed

/-- Some unit entry is FORCED (R113). -/
def State.unitsForced (s : State) : Bool := s.units.entries.any fun e => e.2.state == .forced

/-- Some car is BOARDING or CARRYING (R119). -/
def State.carsBusy (s : State) : Bool :=
  s.lifts.cars.any fun c => c.state == .boarding || c.state == .carrying

/-- Some URGENT or NORMAL entry is queued or in flight (R155). -/
def Segment.busy (x : Segment) : Bool :=
  x.queue.any (fun e => e.priority != .poll) ||
    (match x.inFlight with
     | some f => f.entry.priority != .poll
     | none => false)

/-- Change one portal, and report the summaries of R73 where they change. -/
def withPortal (p : Nat) (f : Portal → Portal) (s : State) : State :=
  let t := { s with portals := { s.portals with list := s.portals.list.modify p f } }
  let t := if t.portalsBusy = s.portalsBusy then t else toSite (.portals t.portalsBusy) t
  if t.portalsAlarmed = s.portalsAlarmed then t else toBeacon (.portalAlarm t.portalsAlarmed) t

/-- Replace the Unit State Table, and report the forced summary where it changes (R113). -/
def withUnits (f : Table UnitEntry → Table UnitEntry) (s : State) : State :=
  let t := { s with units := { s.units with entries := f s.units.entries } }
  if t.unitsForced = s.unitsForced then t else toBeacon (.unitForced t.unitsForced) t

/-- Change the entry of one unit (R92). -/
def withUnit (u : Nat) (f : UnitEntry → UnitEntry) (s : State) : State :=
  withUnits (fun t => t.modify u f) s

/-- Change one car, and report the busy summary where it changes (R119). -/
def withCar (c : Nat) (f : Car → Car) (s : State) : State :=
  let t := { s with lifts := { s.lifts with cars := s.lifts.cars.modify c f } }
  if t.carsBusy = s.carsBusy then t else toSite (.cars t.carsBusy) t

/-- Change one segment, and report its busy summary where it changes (R155). -/
def withSeg (g : Seg) (f : Segment → Segment) (s : State) : State :=
  let x := f (s.seg g)
  let t := s.setSeg g x
  if x.busy = (s.seg g).busy then t else toSite (.segment g x.busy) t

/-! ## ATTN (R211, R217) -/

/-- ATTN is asserted while the Notice Queue holds a record. -/
def State.attn (s : State) : Bool := !s.host.notices.isEmpty

/-! ## The driver enables (R217) -/

/-- The pin SA_DE, SB_DE or SC_DE: the part enables its driver for the copy it is sending, and in STARTING,
where none is sent, never (R156, R170, R217). -/
def State.driverEnable (s : State) (g : Seg) : Bool := (s.seg g).sending.isSome

/-! ## Segment state from the fault counts (R176) -/

/-- Transmitter and receiver run (R176). -/
def SegState.running : SegState → Bool
  | .active | .caution => true
  | _ => false

/-- Evaluate ACTIVE and CAUTION after a fault count changed, with a SEGMENT_STATE notice when the state
changes (R176). -/
def evaluateSeg (g : Seg) (s : State) : State :=
  let x := s.seg g
  let new := if Config.cautionLevel ≤ x.txFaults || Config.cautionLevel ≤ x.rxFaults then
    SegState.caution else SegState.active
  if x.state.running && new != x.state then
    putNotice (.segmentState g x.state new x.txFaults x.rxFaults)
      (s.modSeg g fun y => { y with state := new })
  else s

/-- Set the receive fault count and evaluate the state (R175, R176). -/
def setRxFaults (g : Seg) (n : Nat) (s : State) : State :=
  evaluateSeg g (s.modSeg g fun x => { x with rxFaults := n })

/-- Set the transmit fault count and evaluate the state (R174, R176). -/
def setTxFaults (g : Seg) (n : Nat) (s : State) : State :=
  evaluateSeg g (s.modSeg g fun x => { x with txFaults := n })

/-- The value of a drop counter (R179). -/
def Drops.get (d : Drops) : DropClass → Nat
  | .corrupt => d.corrupt
  | .oversize => d.oversize
  | .overrun => d.overrun
  | .duplicate => d.duplicate
  | .foreign => d.foreign

/-- Set a drop counter (R179). -/
def Drops.set (d : Drops) (c : DropClass) (n : Nat) : Drops :=
  match c with
  | .corrupt => { d with corrupt := n }
  | .oversize => { d with oversize := n }
  | .overrun => { d with overrun := n }
  | .duplicate => { d with duplicate := n }
  | .foreign => { d with foreign := n }

/-- The corrupt and duplicate counters put SEGMENT_DIAG at 128; the other three put none (R179). -/
def DropClass.diagnosed : DropClass → Bool
  | .corrupt | .duplicate => true
  | _ => false

/-- Count a dropped frame, with a SEGMENT_DIAG notice as its counter goes from 127 to 128 (R179). -/
def countDrop (g : Seg) (c : DropClass) (s : State) : State :=
  let old := (s.seg g).drops.get c
  let t := s.modSeg g fun x => { x with drops := x.drops.set c (satAdd 65535 old 1) }
  if c.diagnosed && old == 127 then putNotice (.segmentDiag g c (t.seg g).drops) t else t

/-! ## The receive ring (R161) -/

/-- The ring bytes of a committed record: 3 header bytes and its body (R161). -/
def RingRecord.bytes (r : RingRecord) : Nat := 3 + r.body.length

/-- The bytes of committed records (R161). -/
def Segment.committed (x : Segment) : Nat := (x.ring.map RingRecord.bytes).sum

/-- The bytes held by the frame being received, an ended overrun frame included (R161, R164). -/
def Segment.held (x : Segment) : Nat :=
  match x.rx with
  | .frame f => f.held
  | _ => x.overrunHeld

/-- The room of the ring (R161). -/
def Segment.room (x : Segment) : Nat := Config.ringBytes - (x.committed + x.held)

/-! ## Lines (R182 to R185) -/

/-- An input function (R182). -/
def LineFunction.isInput : LineFunction → Bool
  | .generalIn | .contact _ | .exitButton _ | .fireIn => true
  | _ => false

/-- The other level. -/
def otherLevel : Level → Level
  | .high => .low | .low => .high

/-- The settled logical value of an input line: 1 at its active level; UNSETTLED gives none (R184). -/
def Line.value (l : Line) : Option Bool := l.debounced.map fun v => v == l.record.val.active

/-- The line is unsettled: an input function with no debounced level yet (R184). -/
def Line.unsettled (l : Line) : Bool := l.record.val.func.isInput && l.debounced.isNone

/-- The fire input: some settled FIRE_IN line holds logical value 1 (R185). -/
def State.fireActive (s : State) : Bool :=
  s.lines.list.any fun l => l.record.val.func == .fireIn && l.value == some true

/-- Some line drives the strike of a portal (R72). -/
def State.strikeAssigned (s : State) (p : Nat) : Bool :=
  s.lines.list.any fun l => l.record.val.func == .strike p

/-- The settled contact of a portal's CONTACT line: no such line, or one that is unsettled, is UNKNOWN
(R72, R185). -/
def State.lineContact (s : State) (p : Nat) : Contact :=
  match s.lines.list.find? fun l => l.record.val.func == .contact p with
  | some l =>
    match l.value with
    | some true => .open_
    | some false => .closed
    | none => .unknown
  | none => .unknown

/-- The logical OR of the settled EXIT_BUTTON lines of a portal (R185). With none settled the model answers
UNKNOWN: R185 does not say what an empty OR is (the model's choice, log 34). -/
def State.lineButton (s : State) (p : Nat) : Button :=
  let vals := s.lines.list.filterMap fun l =>
    if l.record.val.func == .exitButton p then l.value else none
  if vals.isEmpty then .unknown else if vals.any id then .pressed else .released

/-- The drive resources of a portal are available (R72). -/
def State.driveAvailable (s : State) (p : Nat) : Bool :=
  match s.portal p with
  | none => false
  | some q =>
    match q.record.val.drive with
    | .lines => s.strikeAssigned p && s.lineContact p != .unknown
    | .module g n =>
      q.heard &&
        (match s.node g n with
         | some x => x.entry == ⟨.portalModule, .portal p⟩ &&
            (x.liveness == .live || x.liveness == .quiet)
         | none => false)

/-! ## The beacon (R187) -/

/-- The pin drive a beacon state asks of a BEACON line (R187). -/
def Beacon.drive : Beacon → PinDrive
  | .steady => .active
  | .flashing true => .active
  | _ => .other

/-- Set the beacon state; the BEACON lines follow at once (R187). -/
def setBeacon (b : Beacon) (s : State) : State :=
  { s with lines :=
    { s.lines with
      beacon := b
      list := s.lines.list.map fun l =>
        if l.record.val.func == .beacon then { l with drive := b.drive } else l } }

/-- Work the beacon state out of its four inputs; an input change that leaves it FLASHING does not restart
the phase (R187). -/
def evaluateBeacon (s : State) : State :=
  let l := s.lines
  if l.evacFlag then
    match l.beacon with
    | .flashing _ => s
    | _ => setBeacon (.flashing true) { s with lines := { l with phaseTimer := true } }
  else
    setBeacon (if l.beaconOnAlarms && (l.unitForced || l.portalAlarm) then .steady else .off)
      { s with lines := { l with phaseTimer := false } }

end Sys2Proof.Machine
end

