-- ==== Sys2Proof/Machine/Operands.lean ====
section
/-! DEFINITION. The operand forms: status codes, the codes of named values, the bodies of requests as they
are read and of replies, notices, field frames and canonical records as they are written (R209, R212 to
R216). -/

namespace Sys2Proof.Machine

/-- The status codes of R209. -/
inductive Status where
  | ok | queueFull | badKind | badFormat | badValue | wrongMode | wrongState | notFound | duplicate
  | full | inUse | storeFault | recordDamaged | nodeLost | fireActive | evacuation | notAlarmed
  deriving DecidableEq, Repr

/-- The code of a status (R209). -/
def Status.code : Status → Byte
  | .ok => 0x00 | .queueFull => 0x01 | .badKind => 0x02 | .badFormat => 0x03 | .badValue => 0x04
  | .wrongMode => 0x05 | .wrongState => 0x06 | .notFound => 0x07 | .duplicate => 0x08
  | .full => 0x09 | .inUse => 0x0A | .storeFault => 0x0B | .recordDamaged => 0x0C
  | .nodeLost => 0x0D | .fireActive => 0x0E | .evacuation => 0x0F | .notAlarmed => 0x10

/-! ## Codes of named values: positions in the order first listed (R213; log 16) -/

def Mode.code : Mode → Nat
  | .starting => 0 | .setup => 1 | .run => 2 | .draining => 3 | .evacuate => 4
/-- The return mode is SETUP or RUN (R192). -/
def returnModeCode : Mode → Nat
  | .run => 1 | _ => 0
def EvacCause.code : EvacCause → Nat
  | .host => 0 | .fire => 1
def ModeCause.code : ModeCause → Nat
  | .start => 0 | .hold => 1 | .drainDone => 2 | .resume => 3 | .evacuateRequest => 4 | .fire => 5
  | .evacuateEnd => 6
def StoreState.code : StoreState → Nat
  | .scanning => 0 | .ready => 1 | .writing => 2 | .clearing => 3 | .clearSuspended => 4
def TenantStatus.code : TenantStatus → Nat
  | .current => 0 | .restricted => 1 | .barred => 2
def Passback.code : Passback → Nat
  | .strict => 0 | .lenient => 1
def PortalKind.code : PortalKind → Nat
  | .vehicle => 0 | .door => 1
def PortalState.code : PortalState → Nat
  | .secure => 0 | .opening => 1 | .passage => 2 | .heldOpen => 3 | .forced => 4 | .free => 5
  | .fault => 6
def Contact.code : Contact → Nat
  | .open_ => 0 | .closed => 1 | .unknown => 2
def Button.code : Button → Nat
  | .pressed => 0 | .released => 1 | .unknown => 2
def Latch.code : Latch → Nat
  | .engaged => 0 | .released => 1 | .unknown => 2
def UnitState.code : UnitState → Nat
  | .armed => 0 | .disarmed => 1 | .releasing => 2 | .released => 3 | .open_ => 4 | .leftOpen => 5
  | .forced => 6 | .service => 7 | .unknown => 8
def Stage.code : Stage → Nat
  | .admitted => 0 | .onSite => 1 | .overstay => 2 | .exiting => 3 | .evacuated => 4
/-- The return stage of a visit is ON_SITE or OVERSTAY (R43). -/
def returnStageCode : Stage → Nat
  | .overstay => 1 | _ => 0
def PlaceKind.code : PlaceKind → Nat
  | .portal => 0 | .landing => 1 | .unit => 2
def CloseReason.code : CloseReason → Nat
  | .exited => 0 | .noEntry => 1 | .superseded => 2 | .hostClosed => 3 | .evacuated => 4
  | .restarted => 5
def CarState.code : CarState → Nat
  | .idle => 0 | .toPickup => 1 | .boarding => 2 | .carrying => 3 | .recall => 4 | .parked => 5
  | .out => 6
def OutCause.code : OutCause → Nat
  | .host => 0 | .node => 1
def CarReason.code : CarReason → Nat
  | .host => 0 | .nodeLoss => 1 | .commandFailed => 2 | .record => 3 | .return_ => 4
def CancelReason.code : CancelReason → Nat
  | .carOut => 0 | .noCar => 1 | .held => 2 | .evacuation => 3
def LeftOpenCause.code : LeftOpenCause → Nat
  | .closure => 0 | .relockOwed => 1 | .recovery => 2 | .serviceEnd => 3 | .alarmReset => 4
def ReleaseSource.code : ReleaseSource → Nat
  | .ask => 0 | .service => 1
/-- The outcomes in the order the glossary first lists them (00_scope.md; log 16). -/
def TxOutcome.code : TxOutcome → Nat
  | .ok => 0 | .noAck => 1 | .noAnswer => 2 | .nodeLost => 3 | .segmentIsolated => 4 | .displaced => 5
  | .cancelled => 6 | .fieldFull => 7
def Liveness.code : Liveness → Nat
  | .live => 0 | .quiet => 1 | .lost => 2 | .unreachable => 3
def NodeKind.code : NodeKind → Nat
  | .reader => 0 | .latch => 1 | .portalModule => 2 | .carPanel => 3
def SegState.code : SegState → Nat
  | .active => 0 | .caution => 1 | .isolated => 2 | .off => 3
def DropClass.code : DropClass → Nat
  | .corrupt => 0 | .oversize => 1 | .overrun => 2 | .duplicate => 3 | .foreign => 4
def TableName.code : TableName → Nat
  | .tenant => 0 | .unit => 1 | .credential => 2 | .site => 3
def levelCode : Level → Nat
  | .high => 0 | .low => 1
def Side.code : Side → Nat
  | .entry => 0 | .leave => 1
/-- The alarm that a PORTAL_SECURE notice ends: HELD_OPEN or FORCED (R80, R81). -/
def alarmCode : PortalState → Nat
  | .forced => 1 | _ => 0
/-- The action of a STRIKE: open or close (R75). -/
def strikeActionCode (opens : Bool) : Nat := if opens then 0 else 1
/-- The lift actions in the order of R132. -/
def liftActionCode : NodeCommand → Nat
  | .enableFloors _ => 1 | .depart => 2 | .stand => 3 | .recall _ => 4 | _ => 0
/-- The actions of a COMMAND in the order of R145. -/
def NodeCommand.position : NodeCommand → Nat
  | .release _ => 0 | .relock _ => 1 | .denyBlink _ => 2 | .strike _ => 3 | .dispatch _ => 4
  | .enableFloors _ => 5 | .depart => 6 | .stand => 7 | .recall _ => 8
/-- The frames of a transmit queue entry in the order of R153. -/
def TxFrame.position : TxFrame → Nat
  | .poll => 0 | .command _ => 1 | .show _ => 2
/-- The reason codes of R215. -/
def Reason.code : Reason → Nat
  | .evacuation => 1 | .held => 2 | .portalFault => 3 | .portalBusy => 4 | .recordDamaged => 5
  | .unknownCredential => 6 | .barred => 7 | .clockUnset => 8 | .outsideWindow => 9
  | .passback => 10 | .sharedLimit => 11 | .siteFull => 12 | .liftsHeld => 13 | .noVisit => 14
  | .notOnSite => 15 | .noDestination => 16 | .sameFloor => 17 | .floorDenied => 18
  | .callActive => 19 | .noCar => 20 | .callsFull => 21 | .noUnit => 22 | .overlocked => 23

/-! ## Writing fields -/

/-- A field of one byte. -/
def u8 (n : Nat) : List Byte := be 1 n
/-- A field of two bytes. -/
def u16 (n : Nat) : List Byte := be 2 n
/-- A field of four bytes. -/
def u32 (n : Nat) : List Byte := be 4 n
/-- A flag: 0 for no, 1 for yes (R213). -/
def flag (b : Bool) : List Byte := u8 (if b then 1 else 0)
/-- An id whose range starts at 1: absent is 0 (R213). -/
def idOr : Option Nat → List Byte
  | some n => u16 n | none => u16 0
/-- A one-byte field that may be absent: all ones (R213). -/
def u8Or : Option Nat → List Byte
  | some n => u8 n | none => u8 0xFF
/-- A two-byte field that may be absent: all ones (R213). -/
def u16Or : Option Nat → List Byte
  | some n => u16 n | none => u16 0xFFFF
/-- A four-byte field that may be absent: all ones (R213). -/
def u32Or : Option Nat → List Byte
  | some n => u32 n | none => u32 0xFFFFFFFF
/-- The seconds that remain of a timer kept in site seconds. -/
def remaining (now : Nat) (t : Option Nat) : Option Nat := t.map fun e => e - now

/-- A drive as its kind byte and numbers, 3 bytes (R213); that LOCAL drive, which has no numbers, takes 3 bytes
too is the model's choice (log 51). -/
def Drive.bytes : Drive → List Byte
  | .lines => [0, 0, 0]
  | .module g n => u8 1 ++ u8 (segIndex g) ++ u8 n
/-- A binding as its kind byte and numbers, 3 bytes (R213; log 14). -/
def Binding.bytes : Binding → List Byte
  | .portalSide p d => u8 0 ++ u8 p ++ u8 d.code
  | .landing f => u8 1 ++ u8 f ++ u8 0
  | .unbound => [2, 0, 0]
  | .portal p => u8 3 ++ u8 p ++ u8 0
  | .car c => u8 4 ++ u8 c ++ u8 0
/-- A line function as its kind byte and portal, 3 bytes (R213); that GENERAL_IN, GENERAL_OUT, FIRE_IN and
BEACON, which bear no portal, take 3 bytes too is the model's choice (log 51). -/
def LineFunction.bytes : LineFunction → List Byte
  | .generalIn => [0, 0, 0]
  | .generalOut => [1, 0, 0]
  | .strike p => u8 2 ++ u8 p ++ u8 0
  | .contact p => u8 3 ++ u8 p ++ u8 0
  | .exitButton p => u8 4 ++ u8 p ++ u8 0
  | .fireIn => [5, 0, 0]
  | .beacon => [6, 0, 0]

/-- A portal record's fields (R71). -/
def PortalRec.bytes (r : PortalRec) : List Byte :=
  flag r.present ++ u8 r.kind.code ++ u8 r.floor ++ r.drive.bytes ++ u8 r.passTime ++ u16 r.holdTime
/-- A car record's fields (R117). -/
def CarRec.bytes (r : CarRec) : List Byte :=
  flag r.present ++ u8 (segIndex r.seg) ++ u8 r.node ++ u8 r.low ++ u8 r.high ++ u8 r.capacity ++
    u8 r.boardingWindow
/-- Segment settings (R143); the line rate is a number (log 13). -/
def SegSettings.bytes (x : SegSettings) : List Byte :=
  flag x.enabled ++ be 3 x.lineRate ++ u8 x.gap ++ u8 x.ackTimeout ++ u8 x.retryLimit ++
    u16 x.pollSpacing
/-- Line settings (R182). -/
def LineRec.bytes (l : LineRec) : List Byte := l.func.bytes ++ u8 (levelCode l.active) ++ flag l.pullUp
/-- The site parameters (R196). -/
def SiteParams.bytes (p : SiteParams) : List Byte :=
  u8 p.releaseTime ++ u16 p.callWaitLimit ++ u8 p.recallFloor ++ u8 p.debounce ++
    flag p.beaconOnAlarms
/-- A unit record's fields after its number (R2). -/
def UnitRec.bytes (r : UnitRec) : List Byte :=
  u8 r.floor ++ u8 (segIndex r.seg) ++ u8 r.node ++ u8 r.channel ++ u16 r.tenant ++ flag r.overlocked
/-- The fields of a tenant record after its id (R1, R216). -/
def Tenant.bytes (t : Tenant) : List Byte :=
  u8 t.status.code ++ u8 t.cls ++ flag t.shared ++ u8 t.label.length ++ t.label

/-- The fields of a SITE item as the body of the request that writes it (R213, R216). R216 gives no form of a
node entry that is not enrolled, here four bytes FF, and the segment byte and node id of an enrolled one are left
out, both as its index (log 33). The second byte of a day set holds its seven
days: R213 gives the two bytes of a set no order (log 48). LOCAL drive and a function without a portal take 3 bytes
(log 51). -/
def SiteValue.bytes : SiteValue → List Byte
  | .marker v => u8 (if v then 1 else 0)
  | .params p => p.bytes
  | .pattern p => u32 p.value.toNat ++ u32 p.mask.toNat ++ u16 p.tenant ++ flag p.enabled
  | .cls c => u8 c.window ++ u8 c.restrictedWindow ++ u16 c.dwellLimit ++ u8 c.liftPriority ++
      flag c.allFloors ++ u8 c.passback.code
  | .window w => u16 w.days.toNat ++ u16 w.start ++ u16 w.stop
  | .portal r => r.bytes
  | .car r => r.bytes
  | .segment x => x.bytes
  | .line l => l.bytes
  | .node (some e) => u8 e.kind.code ++ e.binding.bytes
  | .node none => [0xFF, 0xFF, 0xFF, 0xFF]

/-! ## Check values of stored records (R216) -/

/-- The check value of a tenant record. -/
def tenantCheck (id : Nat) (t : Tenant) : Word16 := crc16 (u16 id ++ t.bytes)
/-- The check value of a unit record. -/
def unitCheck (number : Nat) (r : UnitRec) : Word16 := crc16 (u16 number ++ r.bytes)
/-- The check value of a credential entry. -/
def credCheck (value : Word32) (tenant : Nat) : Word16 := crc16 (u32 value.toNat ++ u16 tenant)
/-- The check value of a SITE item, by its key in the table. -/
def siteCheck (key : Nat) (v : SiteValue) : Word16 := crc16 (u8 (key / 64) ++ u8 (key % 64) ++ v.bytes)

/-! ## Notice records (R211 to R214) -/

/-- The kind code and the kind fields of a notice (R212). -/
def Notice.fields : Notice → Nat × List Byte
  | .admission v p h o t n =>
    (0x01, u32 v.toNat ++ u8 p ++ u8 (if h then 1 else 0) ++
      u8 (match o with | some r => r.code | none => 0) ++ idOr t ++ idOr n)
  | .exitWithoutVisit p v t => (0x02, u8 p ++ u32 v.toNat ++ idOr t)
  | .egress p => (0x03, u8 p)
  | .visitClosed n t r o c d =>
    (0x04, u16 n ++ u16 t ++ u8 r.code ++ flag o ++ u8 c ++ u16 d)
  | .overstay n t g l =>
    (0x05, u16 n ++ u16 t ++ u8 g.code ++ u8 l.kind.code ++ u16 l.number ++ u32 l.at_)
  | .unitForced u t b => (0x06, u16 u ++ u16 t ++ u8 b.code)
  | .unitLeftOpen u t c => (0x07, u16 u ++ u16 t ++ u8 c.code)
  | .releaseRefused g n c u t r =>
    (0x08, u8 (segIndex g) ++ u8 n ++ u8 c ++ u16Or u ++ idOr t ++ u8 r.code)
  | .releaseFailed u t x o => (0x09, u16 u ++ u16 t ++ u8 x.code ++ u8 o.code)
  | .portalForced p => (0x0A, u8 p)
  | .portalHeldOpen p => (0x0B, u8 p)
  | .portalSecure p e => (0x0C, u8 p ++ u8 (alarmCode e))
  | .portalDriveFailed p a o => (0x0D, u8 p ++ u8 (strikeActionCode a) ++ u8 o.code)
  | .callExpired i c f d w => (0x0E, u16 i ++ u8 c ++ u8 f ++ u8 d ++ u16 w)
  | .callCancelled i c f d r b =>
    (0x0F, u16 i ++ u8 c ++ u8 f ++ u8 d ++ u8 r.code ++ u8 (if b then 1 else 0))
  | .carState c l e w r x =>
    (0x10, u8 c ++ u8 l.code ++ u8 e.code ++ u8Or (w.map OutCause.code) ++ u8 r.code ++
      u8Or (x.map fun y => liftActionCode y.1) ++ u8Or (x.map fun y => y.2.code))
  | .nodeState g n k l m => (0x11, u8 (segIndex g) ++ u8 n ++ u8 k.code ++ u8 l.code ++ u8 m)
  | .segmentState g l e t r =>
    (0x12, u8 (segIndex g) ++ u8 l.code ++ u8 e.code ++ u8 t ++ u8 r)
  | .segmentDiag g c d =>
    (0x13, u8 (segIndex g) ++ u8 c.code ++ u16 d.corrupt ++ u16 d.oversize ++ u16 d.overrun ++
      u16 d.duplicate ++ u16 d.foreign)
  | .mode l e r c => (0x14, u8 l.code ++ u8 e.code ++ u8Or (r.map returnModeCode) ++ u8 c.code)
  | .storeDamage t n m => (0x15, u8 t.code ++ u16 n ++ u16 m)

/-- A notice record in a TAKE_NOTICES reply: 17 bytes (R214). -/
def NoticeRecord.bytes (r : NoticeRecord) : List Byte :=
  let f := r.notice.fields
  u8 f.1 ++ u32 r.at_ ++ (f.2 ++ List.replicate 12 0).take 12

/-! ## Host frames (R214) -/

/-- A reply on the host line: start, length, tag, kind, body, check (R214). -/
def Reply.bytes (r : Reply) : List Byte :=
  let inner := u8 (2 + r.body.length) ++ [r.tag, r.kind] ++ r.body
  [0x5A] ++ inner ++ u16 (crc16 inner).toNat

/-- The reply kind of a request kind: plus 0x80, and 0xFF for 0x80..0xFF (R209). -/
def replyKind (k : Byte) : Byte := if k.toNat < 0x80 then k + 0x80 else 0xFF

/-- The request kinds of the catalogue (section 11.3). -/
def catalogue : List Nat :=
  [0x01, 0x02, 0x03, 0x04, 0x05, 0x06, 0x07, 0x08, 0x09, 0x0A, 0x10, 0x11, 0x12, 0x13, 0x14, 0x15,
   0x16, 0x17, 0x18, 0x19, 0x1A, 0x20, 0x21, 0x22, 0x23, 0x30, 0x31, 0x32, 0x33, 0x40, 0x41, 0x42,
   0x48, 0x49, 0x4A, 0x50, 0x51, 0x52, 0x60, 0x61, 0x62, 0x63, 0x64, 0x65, 0x70, 0x71, 0x72]

/-! ## Field frames (R215) -/

/-- The body of a COMMAND (R215). The first byte of the floor set of ENABLE_FLOORS holds the floors 8..15, the
second 0..7: the manual gives the two bytes no order (log 48). -/
def NodeCommand.bytes : NodeCommand → List Byte
  | .release c => u8 0x01 ++ u8 c
  | .relock c => u8 0x02 ++ u8 c
  | .denyBlink c => u8 0x03 ++ u8 c
  | .strike o => u8 0x04 ++ u8 (if o then 1 else 0)
  | .dispatch f => u8 0x05 ++ u8 f
  | .enableFloors w => u8 0x06 ++ u16 w.toNat
  | .depart => u8 0x07
  | .stand => u8 0x08
  | .recall f => u8 0x09 ++ u8 f

/-- The body of a SHOW (R215). -/
def Show.bytes : Show → List Byte
  | .granted => [0, 0]
  | .wait => [1, 0]
  | .car n => u8 2 ++ u8 n
  | .denied r => u8 3 ++ u8 r.code

/-- The field kind and body of what an entry sends (R215). -/
def TxFrame.parts : TxFrame → Nat × List Byte
  | .poll => (1, [])
  | .command c => (5, c.bytes)
  | .show o => (6, o.bytes)

/-- A field frame from the part (R215): destination, source 0, kind with repeat flag and sequence, body
length, body, check. -/
def fieldFrame (dest kind : Nat) (rep : Bool) (seq : BitVec 3) (body : List Byte) : List Byte :=
  let inner := u8 dest ++ u8 0 ++ u8 (kind * 16 + (if rep then 8 else 0) + seq.toNat) ++
    u8 body.length ++ body
  inner ++ u16 (crc16 inner).toNat

/-- The bytes of the copy a segment is sending (R156, R170, R215). -/
def Segment.copyBytes (x : Segment) : List Byte :=
  match x.sending with
  | some (.ack n q) => fieldFrame n 0 false q []
  | some .command =>
    match x.inFlight with
    | some f =>
      fieldFrame f.entry.node f.entry.frame.parts.1 f.repeatFlag (f.entry.seq.getD 0)
        f.entry.frame.parts.2
    | none => []
  | none => []

/-- The frame kinds a node of a kind may send: ACK 0, STATUS 2, CREDENTIAL 3, RELEASE_ASK 4 (R145). -/
def NodeKind.sends (k : NodeKind) (kind : Nat) : Bool :=
  kind == 0 || kind == 2 || (k == .reader && kind == 3) || (k == .latch && kind == 4)

/-- The frames the part may send to a node of a kind (R145). -/
def NodeKind.takes (k : NodeKind) : TxFrame → Bool
  | .poll => true
  | .show _ => k == .reader
  | .command c =>
    match c with
    | .release _ | .relock _ | .denyBlink _ => k == .latch
    | .strike _ => k == .portalModule
    | _ => k == .carPanel

/-- The body length a frame kind requires of a node kind (R166). -/
def bodyLength (k : NodeKind) (kind : Nat) : Nat :=
  match kind with
  | 0 => 0
  | 3 => 5
  | 4 => 1
  | _ =>
    match k with
    | .reader => 1 | .latch => 4 | .portalModule => 2 | .carPanel => 2

/-! ## Reading request bodies (R209, R213) -/

/-- What reading a body gives: its fields, or BAD_FORMAT or BAD_VALUE. -/
abbrev Parsed (α : Type) := Except Status α

/-- Split a body into fields of the given widths; a body that is shorter or longer has none. -/
def fields : List Nat → List Byte → Option (List Nat)
  | [], [] => some []
  | [], _ :: _ => none
  | w :: ws, b =>
    if b.length < w then none
    else (fields ws (b.drop w)).map fun r => beNat (b.take w) :: r

def flagOf : Nat → Option Bool
  | 0 => some false | 1 => some true | _ => none
def segOf : Nat → Option Seg
  | 0 => some .a | 1 => some .b | 2 => some .c | _ => none
def statusOf : Nat → Option TenantStatus
  | 0 => some .current | 1 => some .restricted | 2 => some .barred | _ => none
def passbackOf : Nat → Option Passback
  | 0 => some .strict | 1 => some .lenient | _ => none
def portalKindOf : Nat → Option PortalKind
  | 0 => some .vehicle | 1 => some .door | _ => none
def levelOf : Nat → Option Level
  | 0 => some .high | 1 => some .low | _ => none
def tableOf : Nat → Option TableName
  | 0 => some .tenant | 1 => some .unit | 2 => some .credential | 3 => some .site | _ => none
def nodeKindOf : Nat → Option NodeKind
  | 0 => some .reader | 1 => some .latch | 2 => some .portalModule | 3 => some .carPanel | _ => none
def sideOf : Nat → Option Side
  | 0 => some .entry | 1 => some .leave | _ => none

/-- A node id 1..62. -/
def nodeIdOk (n : Nat) : Bool := 1 ≤ n && n ≤ 62
/-- A tenant id 1..2048. -/
def tenantIdOk (n : Nat) : Bool := 1 ≤ n && n ≤ 2048

/-- A drive from its 3 bytes; unused bytes are 0 (R213; log 19), and LOCAL drive takes 3 bytes too (log 51). -/
def driveOf (k x y : Nat) : Option Drive :=
  match k with
  | 0 => if x = 0 && y = 0 then some .lines else none
  | 1 =>
    match segOf x with
    | some g => if nodeIdOk y then some (.module g y) else none
    | none => none
  | _ => none

/-- A binding from its 3 bytes (R213; log 14). -/
def bindingOf (k x y : Nat) : Option Binding :=
  match k with
  | 0 =>
    match sideOf y with
    | some d => if x ≤ 7 then some (.portalSide x d) else none
    | none => none
  | 1 => if x ≤ 15 && y = 0 then some (.landing x) else none
  | 2 => if x = 0 && y = 0 then some .unbound else none
  | 3 => if x ≤ 7 && y = 0 then some (.portal x) else none
  | 4 => if x ≤ 3 && y = 0 then some (.car x) else none
  | _ => none

/-- The shape of binding each node kind takes (R145). -/
def NodeKind.fits (k : NodeKind) (b : Binding) : Bool :=
  match k, b with
  | .reader, .portalSide _ _ => true
  | .reader, .landing _ => true
  | .latch, .unbound => true
  | .portalModule, .portal _ => true
  | .carPanel, .car _ => true
  | _, _ => false

/-- A line function from its 3 bytes (R213; log 19); a function that bears no portal takes 3 bytes too (log 51). -/
def functionOf (k x y : Nat) : Option LineFunction :=
  if y ≠ 0 then none
  else
    match k with
    | 0 => if x = 0 then some .generalIn else none
    | 1 => if x = 0 then some .generalOut else none
    | 2 => if x ≤ 7 then some (.strike x) else none
    | 3 => if x ≤ 7 then some (.contact x) else none
    | 4 => if x ≤ 7 then some (.exitButton x) else none
    | 5 => if x = 0 then some .fireIn else none
    | 6 => if x = 0 then some .beacon else none
    | _ => none

/-- Test a value's range: BAD_VALUE outside it. -/
def inRange {α : Type} (ok : Bool) (x : α) : Parsed α := if ok then .ok x else .error .badValue

/-- A body with no fields. -/
def parseNone (b : List Byte) : Parsed Unit :=
  if b.isEmpty then .ok () else .error .badFormat

/-- A body of one number in `width` bytes with a range. -/
def parseOne (width low high : Nat) (b : List Byte) : Parsed Nat :=
  match fields [width] b with
  | some [n] => inRange (low ≤ n && n ≤ high) n
  | _ => .error .badFormat

/-- A body of one flag. -/
def parseFlag (b : List Byte) : Parsed Bool :=
  match fields [1] b with
  | some [n] =>
    match flagOf n with
    | some f => .ok f
    | none => .error .badValue
  | _ => .error .badFormat

/-- PUT_TENANT (R13). A label count above 16 whose bytes all follow gives BAD_VALUE: R12, R209 and R213 leave
BAD_FORMAT open there (log 47). -/
def parsePutTenant (b : List Byte) : Parsed (Nat × Tenant) :=
  match fields [2, 1, 1, 1, 1] (b.take 6), b.drop 6 with
  | some [id, st, c, sh, n], label =>
    if label.length ≠ n then .error .badFormat
    else
      match statusOf st, flagOf sh with
      | some st, some sh =>
        inRange (tenantIdOk id && c ≤ 7 && n ≤ 16 &&
          label.all fun x => 0x20 ≤ x.toNat && x.toNat ≤ 0x7E) (id, ⟨st, c, sh, label⟩)
      | _, _ => .error .badValue
  | _, _ => .error .badFormat

/-- A tenant id (R14, R15). -/
def parseTenantId : List Byte → Parsed Nat := parseOne 2 1 2048

/-- PUT_CREDENTIAL (R16). -/
def parsePutCredential (b : List Byte) : Parsed (Word32 × Nat) :=
  match fields [4, 2] b with
  | some [v, t] => inRange (tenantIdOk t) (BitVec.ofNat 32 v, t)
  | _ => .error .badFormat

/-- DROP_CREDENTIAL (R17). -/
def parseValue (b : List Byte) : Parsed Word32 :=
  match fields [4] b with
  | some [v] => .ok (BitVec.ofNat 32 v)
  | _ => .error .badFormat

/-- PUT_UNIT (R18). -/
def parsePutUnit (b : List Byte) : Parsed (Nat × UnitRec) :=
  match fields [2, 1, 1, 1, 1, 2, 1] b with
  | some [u, f, g, n, c, t, o] =>
    match segOf g, flagOf o with
    | some g, some o =>
      inRange (u ≤ 4095 && f ≤ 15 && nodeIdOk n && c ≤ 15 && t ≤ 2048) (u, ⟨f, g, n, c, t, o⟩)
    | _, _ => .error .badValue
  | _ => .error .badFormat

/-- A unit number (R19, R112, R115). -/
def parseUnitNumber : List Byte → Parsed Nat := parseOne 2 0 4095

/-- SET_OVERLOCK (R20). -/
def parseSetOverlock (b : List Byte) : Parsed (Nat × Bool) :=
  match fields [2, 1] b with
  | some [u, o] =>
    match flagOf o with
    | some o => inRange (u ≤ 4095) (u, o)
    | none => .error .badValue
  | _ => .error .badFormat

/-- PUT_PATTERN (R21). -/
def parsePutPattern (b : List Byte) : Parsed (Nat × Pattern) :=
  match fields [1, 4, 4, 2, 1] b with
  | some [i, v, m, t, e] =>
    match flagOf e with
    | some e => inRange (i ≤ 7 && tenantIdOk t) (i, ⟨BitVec.ofNat 32 v, BitVec.ofNat 32 m, t, e⟩)
    | none => .error .badValue
  | _ => .error .badFormat

/-- PUT_CLASS (R22). -/
def parsePutClass (b : List Byte) : Parsed (Nat × AccessClass) :=
  match fields [1, 1, 1, 2, 1, 1, 1] b with
  | some [i, w, r, d, p, a, k] =>
    match flagOf a, passbackOf k with
    | some a, some k =>
      inRange (i ≤ 7 && w ≤ 15 && r ≤ 15 && d ≤ 1440 && p ≤ 3) (i, ⟨w, r, d, p, a, k⟩)
    | _, _ => .error .badValue
  | _ => .error .badFormat

/-- PUT_WINDOW (R23); the unused bits of the day set are 0 (R213; log 19). Its second byte holds the seven days:
R213 gives the two bytes of a set no order (log 48). -/
def parsePutWindow (b : List Byte) : Parsed (Nat × Window) :=
  match fields [1, 2, 2, 2] b with
  | some [i, d, x, y] =>
    inRange (1 ≤ i && i ≤ 15 && d < 128 && x ≤ 1439 && y ≤ 1439) (i, ⟨BitVec.ofNat 7 d, x, y⟩)
  | _ => .error .badFormat

/-- CLEAR_TABLE (R33). -/
def parseTable (b : List Byte) : Parsed TableName :=
  match fields [1] b with
  | some [n] =>
    match tableOf n with
    | some t => .ok t
    | none => .error .badValue
  | _ => .error .badFormat

/-- ADMIT (R69). -/
def parseAdmit (b : List Byte) : Parsed (Nat × Word32) :=
  match fields [1, 4] b with
  | some [p, v] => inRange (p ≤ 7) (p, BitVec.ofNat 32 v)
  | _ => .error .badFormat

/-- PUT_PORTAL (R88). -/
def parsePutPortal (b : List Byte) : Parsed (Nat × PortalRec) :=
  match fields [1, 1, 1, 1, 1, 1, 1, 1, 2] b with
  | some [p, pr, k, f, d, x, y, pass, hold] =>
    match flagOf pr, portalKindOf k, driveOf d x y with
    | some pr, some k, some d =>
      inRange (p ≤ 7 && f ≤ 15 && 3 ≤ pass && pass ≤ 60 && 5 ≤ hold && hold ≤ 300)
        (p, ⟨pr, k, f, d, pass, hold⟩)
    | _, _, _ => .error .badValue
  | _ => .error .badFormat

/-- A number and an action: SET_PORTAL, UNIT_SERVICE, CAR_SERVICE (R89, R110, R140). -/
def parseAction (width high actions : Nat) (b : List Byte) : Parsed (Nat × Nat) :=
  match fields [width, 1] b with
  | some [n, a] => inRange (n ≤ high && a < actions) (n, a)
  | _ => .error .badFormat

/-- PUT_CAR (R139). -/
def parsePutCar (b : List Byte) : Parsed (Nat × CarRec) :=
  match fields [1, 1, 1, 1, 1, 1, 1, 1] b with
  | some [c, pr, g, n, lo, hi, cap, w] =>
    match flagOf pr, segOf g with
    | some pr, some g =>
      inRange (c ≤ 3 && nodeIdOk n && lo ≤ 15 && hi ≤ 15 && lo ≤ hi && 1 ≤ cap && cap ≤ 4 &&
        5 ≤ w && w ≤ 60) (c, ⟨pr, g, n, lo, hi, cap, w⟩)
    | _, _ => .error .badValue
  | _ => .error .badFormat

/-- GET_CAR (R141). -/
def parseGetCar (b : List Byte) : Parsed (Nat × Nat) :=
  match fields [1, 1] b with
  | some [c, i] => inRange (c ≤ 3 && i ≤ 23) (c, i)
  | _ => .error .badFormat

/-- A line rate of the four (R143). -/
def lineRateOk (r : Nat) : Bool := r = 19200 || r = 38400 || r = 76800 || r = 153600

/-- PUT_SEGMENT (R144); the line rate is a number of three bytes (log 13). -/
def parsePutSegment (b : List Byte) : Parsed (Seg × SegSettings) :=
  match fields [1, 1, 3, 1, 1, 1, 2] b with
  | some [g, e, r, gap, ack, lim, sp] =>
    match segOf g, flagOf e with
    | some g, some e =>
      inRange (lineRateOk r && 1 ≤ gap && 2 ≤ ack && lim ≤ 7 && 20 ≤ sp && sp ≤ 1000)
        (g, ⟨e, r, gap, ack, lim, sp⟩)
    | _, _ => .error .badValue
  | _ => .error .badFormat

/-- ENROL_NODE (R146). -/
def parseEnrol (b : List Byte) : Parsed (Seg × Nat × NodeEntry) :=
  match fields [1, 1, 1, 1, 1, 1] b with
  | some [g, n, k, x, y, z] =>
    match segOf g, nodeKindOf k, bindingOf x y z with
    | some g, some k, some bd => inRange (nodeIdOk n && k.fits bd) (g, n, ⟨k, bd⟩)
    | _, _, _ => .error .badValue
  | _ => .error .badFormat

/-- A segment and a node id (R147, R151). -/
def parseSegNode (b : List Byte) : Parsed (Seg × Nat) :=
  match fields [1, 1] b with
  | some [g, n] =>
    match segOf g with
    | some g => inRange (nodeIdOk n) (g, n)
    | none => .error .badValue
  | _ => .error .badFormat

/-- A segment and a flag (R180). -/
def parseSegFlag (b : List Byte) : Parsed (Seg × Bool) :=
  match fields [1, 1] b with
  | some [g, f] =>
    match segOf g, flagOf f with
    | some g, some f => .ok (g, f)
    | _, _ => .error .badValue
  | _ => .error .badFormat

/-- A segment (R178). -/
def parseSeg (b : List Byte) : Parsed Seg :=
  match fields [1] b with
  | some [g] =>
    match segOf g with
    | some g => .ok g
    | none => .error .badValue
  | _ => .error .badFormat

/-- PUT_LINE (R188). -/
def parsePutLine (b : List Byte) : Parsed (Nat × LineRec) :=
  match fields [1, 1, 1, 1, 1, 1] b with
  | some [l, k, x, y, a, p] =>
    match functionOf k x y, levelOf a, flagOf p with
    | some f, some a, some p => inRange (l ≤ 11) (l, ⟨f, a, p⟩)
    | _, _, _ => .error .badValue
  | _ => .error .badFormat

/-- LINE_WRITE (R189). -/
def parseLineWrite (b : List Byte) : Parsed (Nat × Bool) :=
  match fields [1, 1] b with
  | some [l, v] =>
    match flagOf v with
    | some v => inRange (l ≤ 11) (l, v)
    | none => .error .badValue
  | _ => .error .badFormat

/-- SET_CLOCK (R195). -/
def parseSetClock (b : List Byte) : Parsed Clock :=
  match fields [1, 2, 1] b with
  | some [d, m, x] => inRange (d ≤ 6 && m ≤ 1439 && x ≤ 59) ⟨d, m, x⟩
  | _ => .error .badFormat

/-- PUT_SITE (R196). -/
def parsePutSite (b : List Byte) : Parsed SiteParams :=
  match fields [1, 2, 1, 1, 1] b with
  | some [r, w, f, d, a] =>
    match flagOf a with
    | some a =>
      inRange (3 ≤ r && r ≤ 30 && 30 ≤ w && w ≤ 600 && f ≤ 15 && 10 ≤ d && d ≤ 250) ⟨r, w, f, d, a⟩
    | none => .error .badValue
  | _ => .error .badFormat

end Sys2Proof.Machine
end

