-- ==== Sys2Proof/Machine/HostLink.lean ====
section
/-! DEFINITION. The Host Link: framing, the request queue and refusal list, the reply transmitter, the
Notice Queue's request, and the operations by which every request is taken up and answered (R207 to R212). -/

namespace Sys2Proof.Machine

/-- What a meaning answers. -/
abbrev Answer := Host.Outcome State Fault Refusal

/-- Count a discarded host frame (R207). -/
def linkFault (s : State) : State :=
  { s with host := { s.host with linkFaults := satAdd 65535 s.host.linkFaults 1 } }

/-- The head of the request queue is taken when no request is being served, and handed to its owner
(R208, R209). -/
def takeHead (s : State) : State :=
  match s.host.serving, s.host.requests with
  | none, f :: rest =>
    { s with host := { s.host with serving := some ⟨f, .handed⟩, requests := rest } }
  | _, _ => s

/-- Form the reply to the request being served (R209): the status, and the fields when it is OK. -/
def replyAs (role : ReplyRole) (st : Status) (body : List Byte) (s : State) : State :=
  match s.host.serving with
  | none => s
  | some v =>
    { s with host :=
      { s.host with
        serving := some { v with phase := .replied }
        replies := s.host.replies ++
          [⟨role, v.frame.tag, replyKind v.frame.kind,
            st.code :: (if st = .ok then body else [])⟩] } }

/-- Form the reply to the request being served. -/
def reply (st : Status) (body : List Byte) (s : State) : State := replyAs .served st body s

/-- The owner holds the request being served; its reply comes later. -/
def working (s : State) : State :=
  match s.host.serving with
  | none => s
  | some v => { s with host := { s.host with serving := some { v with phase := .working } } }

/-- Take up the request in hand when it has the given kind; with no such request nothing happens
(log 2). -/
def taking (kind : Nat) (f : List Byte → State → State) (s : State) : State :=
  match s.host.serving with
  | some ⟨fr, .handed⟩ => if fr.kind.toNat = kind then f fr.body s else s
  | _ => s

/-- As `taking`, for a request the store serves: every waiting lookup is served before it (R27). That a lookup
lasts until its result has reached the Visit Engine is the model's reading (log 39). -/
def takingStore (kind : Nat) (f : List Byte → State → State) (s : State) : State :=
  if s.store.lookups.isEmpty && s.store.results.isEmpty then taking kind f s else s

/-- Read the body, refusing with BAD_FORMAT or BAD_VALUE, then test the mode, refusing with WRONG_MODE,
then go on: the head of every owner's order of tests (R209). -/
def tested {α : Type} (p : Parsed α) (modeOk : Mode → Bool) (k : α → State → State) (s : State) :
    State :=
  match p with
  | .error e => reply e [] s
  | .ok x => if modeOk s.site.mode then k x s else reply .wrongMode [] s

/-- Taken in every mode except STARTING (R204). -/
def outsideStarting : Mode → Bool
  | .starting => false | _ => true

/-- Taken in SETUP alone (R204). -/
def setupOnly : Mode → Bool
  | .setup => true | _ => false

/-- Taken in every mode. -/
def anyMode : Mode → Bool := fun _ => true

/-- A request that changes the store is refused with STORE_FAULT while a sticky fault is set (R12 step 4,
R31). -/
def unlessFaulted (k : State → State) (s : State) : State :=
  if s.store.faulted then reply .storeFault [] s else k s

/-- The QUEUE_FULL entries that wait: the refusal list (R208). -/
def HostLink.refusals (h : HostLink) : List Reply := h.replies.filter fun r => r.role == .refusal

/-- Place a good frame: in the request queue, as a QUEUE_FULL reply in the refusal list, or nowhere as an
overflow (R208). -/
def placeFrame (f : Frame) (s : State) : State :=
  if s.host.requests.length < Config.maxRequests then
    takeHead { s with host := { s.host with requests := s.host.requests ++ [f] } }
  else if s.host.refusals.length < Config.maxRefusals then
    { s with host :=
      { s.host with replies := s.host.replies ++
          [⟨.refusal, f.tag, replyKind f.kind, [Status.queueFull.code]⟩] } }
  else linkFault s

/-- Set the receiver of the host line. -/
def setHostRx (rx : HostRx) (s : State) : State := { s with host := { s.host with rx := rx } }

/-- A byte received inside a frame, with the bytes before it (R207). -/
def frameByte (before : List Byte) (b : Byte) (s : State) : State :=
  let bs := before ++ [b]
  let n := (bs.headD 0).toNat
  if n < 2 || 200 < n then linkFault (setHostRx .hunting s)
  else if bs.length < n + 3 then setHostRx (.inFrame bs) s
  else if (crc16 (bs.take (n + 1))).toNat = beNat (bs.drop (n + 1)) then
    placeFrame ⟨bs.getD 1 0, bs.getD 2 0, (bs.take (n + 1)).drop 3⟩ (setHostRx .hunting s)
  else linkFault (setHostRx .hunting s)

/-- HOST_BYTE (R207, R208): the receiver hunts for 0x5A, or takes a byte of the frame. -/
def execHostByte (b : Byte) (s : State) : Answer :=
  .next <|
    match s.host.rx with
    | .hunting => if b = 0x5A then setHostRx (.inFrame []) s else s
    | .inFrame before => frameByte before b s

/-- FRAME_GAP_TIMEOUT (R207): a partial frame is discarded and counted. -/
def execFrameGapTimeout (s : State) : Answer :=
  .next <|
    match s.host.rx with
    | .hunting => s
    | .inFrame _ => linkFault (setHostRx .hunting s)

/-- REPLY_SENT (R208): the last byte of the head reply leaves the line. That of a RESTART reply is the
event WARM_RESTART instead (R206; log 2). -/
def execReplySent (s : State) : Answer :=
  .next <|
    match s.host.replies with
    | [] => s
    | r :: rest =>
      match r.role with
      | .restart => s
      | .refusal => { s with host := { s.host with replies := rest } }
      | .served => takeHead { s with host := { s.host with replies := rest, serving := none } }

/-- BAD_KIND (R209): a kind not in the catalogue is answered by the Host Link itself. -/
def execBadKind (s : State) : Answer :=
  .next <|
    match s.host.serving with
    | some ⟨fr, .handed⟩ => if catalogue.contains fr.kind.toNat then s else reply .badKind [] s
    | _ => s

/-- The fields of an IDENTIFY reply (R210). -/
def identifyBody (s : State) : List Byte :=
  u16 Config.deviceCode ++ u8 Config.designLevel ++ u8 s.host.rate ++ u8 s.site.mode.code ++
    u16 s.host.linkFaults ++ u8 s.host.requests.length ++ u8 s.host.refusals.length ++
    u8 s.host.notices.length ++ u8 s.host.dropCount

/-- IDENTIFY (R210). -/
def execIdentify (s : State) : Answer :=
  .next <| taking 0x01 (fun body => tested (parseFlag body) anyMode fun clear s =>
    let t := reply .ok (identifyBody s) s
    if clear then { t with host := { t.host with linkFaults := 0 } } else t) s

/-- RESTART (R206): OK outside STARTING; the warm restart begins when the reply has left the line. -/
def execRestart (s : State) : Answer :=
  .next <| taking 0x02 (fun body => tested (parseNone body) outsideStarting fun _ s =>
    replyAs .restart .ok [] s) s

/-- The fields of a TAKE_NOTICES reply (R212). -/
def takeNoticesBody (s : State) : List Byte :=
  let some8 := s.host.notices.take 8
  u8 s.host.dropCount ++ u8 (s.host.notices.drop 8).length ++ u8 some8.length ++
    (some8.map NoticeRecord.bytes).flatten

/-- TAKE_NOTICES (R212): report and remove up to 8 of the oldest records, then zero the drop count. -/
def execTakeNotices (s : State) : Answer :=
  .next <| taking 0x0A (fun body => tested (parseNone body) anyMode fun _ s =>
    let t := reply .ok (takeNoticesBody s) s
    { t with host := { t.host with notices := t.host.notices.drop 8, dropCount := 0 } }) s

end Sys2Proof.Machine
end

