-- ==== Sys2Proof/Machine/StoreAccess.lean ====
section
/-! DEFINITION. How the store is asked: record writes begun by a request, and the lookups of the Visit
Engine (R9, R12, R27, R28, R35). -/

namespace Sys2Proof.Machine

/-- A write begins: the store enters WRITING and the reply waits for its completion (R28). -/
def beginWrite (w : WriteOp) (s : State) : State :=
  working { s with store := { s.store with state := .writing, write := some w } }

/-- Write a SITE item, or answer OK with no write when its stored, undamaged contents are equal (R12
step 6). -/
def writeItem (i : SiteItem) (v : SiteValue) (s : State) : State :=
  if s.store.item i = ⟨v, false⟩ then reply .ok [] s else beginWrite (.site i v) s

/-- The tenant step of a lookup (R9 step 3): absent gives what the asker is told of an absent record. -/
def Store.lookupTenant (st : Store) (id : Nat) (missing : LookupResult) : LookupResult :=
  match st.tenantSlot id with
  | none => missing
  | some .damaged => .recordDamaged
  | some (.present r _) => .found id (st.readNotShared id r)

/-- An enabled pattern matches a value where its care mask holds 1 (R9 step 2). -/
def Pattern.matches (p : Pattern) (v : Word32) : Bool :=
  p.enabled && (v &&& p.mask) == (p.value &&& p.mask)

/-- The tenant the first matching pattern names (R9 step 2). -/
def Store.matchPattern (st : Store) (v : Word32) : Option Nat :=
  ((List.range 8).find? fun i => (st.pattern i).matches v).map fun i => (st.pattern i).tenant

/-- A credential lookup (R9): the entries, then the patterns, then the tenant record. -/
def Store.lookupCredential (st : Store) (v : Word32) : LookupResult :=
  match st.credSlot v with
  | some (_, .present _ t _) => st.lookupTenant t .unknownCredential
  | some _ => .recordDamaged
  | none =>
    match st.matchPattern v with
    | some t => st.lookupTenant t .unknownCredential
    | none => .unknownCredential

/-- A lookup arriving in CLEARING suspends the clear (R35). -/
def StoreState.suspend : StoreState → StoreState
  | .clearing => .clearSuspended
  | x => x

/-- When no lookup waits, a suspended clear goes on (R35). -/
def StoreState.resume (lookupsLeft : Bool) : StoreState → StoreState
  | .clearSuspended => if lookupsLeft then .clearSuspended else .clearing
  | x => x

/-- Serve the head lookup with its result: the clear is suspended for it and goes on when no lookup waits
(R27, R35). -/
def serveLookup (rest : List Lookup) (r : LookupResult) (s : State) : State :=
  { s with store :=
    { s.store with
      state := s.store.state.suspend.resume (!rest.isEmpty)
      lookups := rest
      results := s.store.results ++ [r] } }

/-- In SCANNING a lookup is refused with WRONG_MODE; in the other states it has its result (R27). -/
def Store.unlessScanning (st : Store) (r : LookupResult) : LookupResult :=
  if st.state = .scanning then .wrongMode else r

/-- CREDENTIAL_LOOKUP (R9, R27, R35). -/
def execCredentialLookup (s : State) : Answer :=
  .next <|
    match s.store.lookups with
    | .credential v :: rest =>
      serveLookup rest (s.store.unlessScanning (s.store.lookupCredential v)) s
    | _ => s

/-- TENANT_LOOKUP (R9, R27, R35). -/
def execTenantLookup (s : State) : Answer :=
  .next <|
    match s.store.lookups with
    | .tenant id :: rest =>
      serveLookup rest (s.store.unlessScanning (s.store.lookupTenant id .absent)) s
    | _ => s

end Sys2Proof.Machine
end

