-- ==== Sys2Proof/Machine/Segments.lean ====
section
/-! DEFINITION. The sending side of a field segment: outcomes, the transmit queue, stop-and-wait
transmission, polling, liveness, isolation, and the node and segment requests (R143 to R160, R169 to R181). -/

namespace Sys2Proof.Machine

/-! ## Outcomes and losses (R149, R159) -/

/-- Hand an outcome to the owner of a token. A POLL's stays with the controller, and the Visit Engine does
nothing with a SHOW's (R51; log 29). -/
def handOutcome (g : Seg) (o : TxOutcome) (t : Token) (s : State) : State :=
  let r := FieldReport.outcome t o
  match t with
  | .poll | .show => s
  | .release _ _ | .relock _ _ | .denyBlink | .serviceRelease _ _ =>
    s.modSeg g fun x => { x with toUnits := x.toUnits ++ [r] }
  | .strike _ _ _ => s.modSeg g fun x => { x with toPortals := x.toPortals ++ [r] }
  | .lift _ _ => s.modSeg g fun x => { x with toLifts := x.toLifts ++ [r] }

/-- Hand one outcome to the owners of several entries, in their order (R159). -/
def handOutcomes (g : Seg) (o : TxOutcome) (es : List TxEntry) (s : State) : State :=
  es.foldl (fun s e => handOutcome g o e.token s) s

/-- Tell the consumer of a node's kind that the node is lost, unreachable or removed (R147, R149); a reader
has no consumer for its loss. -/
def tellLoss (g : Seg) (n : Nat) (e : NodeEntry) (s : State) : State :=
  let r := FieldReport.lost n e.binding
  match e.kind with
  | .reader => s
  | .latch => s.modSeg g fun x => { x with toUnits := x.toUnits ++ [r] }
  | .portalModule => s.modSeg g fun x => { x with toPortals := x.toPortals ++ [r] }
  | .carPanel => s.modSeg g fun x => { x with toLifts := x.toLifts ++ [r] }

/-- The entries of the queue that fit leave it and complete with one outcome, in queue order (R159). -/
def completeQueued (g : Seg) (fits : TxEntry → Bool) (o : TxOutcome) (s : State) : State :=
  handOutcomes g o ((s.seg g).queue.filter fits)
    (withSeg g (fun x => { x with queue := x.queue.filter fun e => !fits e }) s)

/-- The command in flight completes (R159). -/
def completeFlight (g : Seg) (o : TxOutcome) (s : State) : State :=
  match (s.seg g).inFlight with
  | none => s
  | some f => handOutcome g o f.entry.token (withSeg g (fun x => { x with inFlight := none }) s)

/-- Change one node's volatile state. -/
def withNode (g : Seg) (n : Nat) (f : Node → Node) (s : State) : State :=
  s.modSeg g fun x => { x with nodes := x.nodes.modify n f }

/-! ## Liveness (R149) -/

/-- A node becomes LOST (R149): a NODE_STATE notice, its queued entries other than polls complete
NODE_LOST, and its consumer is told. -/
def loseNode (g : Seg) (n : Nat) (x : Node) (s : State) : State :=
  let s := withNode g n (fun y => { y with liveness := .lost, missed := 3, reportHeld := false }) s
  let s := putNotice (.nodeState g n x.entry.kind .lost 3) s
  let s := completeQueued g (fun e => e.node == n && e.frame != .poll) .nodeLost s
  tellLoss g n x.entry s

/-- A POLL of the node completed NO_ANSWER (R149). -/
def pollUnanswered (g : Seg) (n : Nat) (s : State) : State :=
  match s.node g n with
  | none => s
  | some x =>
    match x.liveness with
    | .live => withNode g n (fun y => { y with liveness := .quiet, missed := 1 }) s
    | .quiet =>
      if 2 ≤ x.missed then loseNode g n x s
      else withNode g n (fun y => { y with missed := x.missed + 1 }) s
    | .lost => withNode g n (fun y => { y with missed := 3 }) s
    | .unreachable => s

/-- A frame from the node was accepted (R149). -/
def nodeHeard (g : Seg) (n : Nat) (s : State) : State :=
  match s.node g n with
  | none => s
  | some x =>
    match x.liveness with
    | .unreachable => s
    | .lost =>
      putNotice (.nodeState g n x.entry.kind .live 0)
        (withNode g n (fun y => { y with liveness := .live, missed := 0 }) s)
    | _ => withNode g n (fun y => { y with liveness := .live, missed := 0 }) s

/-- The nodes that are LIVE or QUIET, in ascending node id: those whose consumers are told when they become
UNREACHABLE (R149). R177 gives this order for an isolation; for a disabling R144 and R149 give none, and the
model takes the same (log 50). -/
def Segment.reached (x : Segment) : Table NodeEntry :=
  (x.nodes.filter fun e => e.2.liveness == .live || e.2.liveness == .quiet).map fun e =>
    (e.1, e.2.entry)

/-- Every enrolled node becomes UNREACHABLE, with no report held (R149). -/
def Segment.unreach (x : Segment) : Segment :=
  { x with nodes := x.nodes.map fun e =>
      (e.1, { e.2 with liveness := .unreachable, reportHeld := false }) }

/-- Tell the consumers of several nodes of their loss, in order (R149). -/
def tellLosses (g : Seg) (lost : Table NodeEntry) (s : State) : State :=
  lost.foldl (fun s e => tellLoss g e.1 e.2 s) s

/-- Every enrolled node becomes UNREACHABLE, and the consumers of those that were LIVE or QUIET are told, in
ascending node id, as an isolation has it (R149, R177). -/
def unreachNodes (g : Seg) (s : State) : State :=
  tellLosses g (s.seg g).reached (s.modSeg g Segment.unreach)

/-- The losses that waited for a copy being sent are told, in order, after the outcomes (R106, R144, R147). -/
def tellOwed (g : Seg) (s : State) : State :=
  tellLosses g (s.seg g).lossesOwed (s.modSeg g fun x => { x with lossesOwed := [] })

/-! ## The receive ring emptied (R161, R173) -/

/-- A ring is emptied. A CREDENTIAL record in hand that the Visit Engine has not taken is discarded; one it
has taken leaves the ring and goes on holding the router (R173). -/
def emptyRing (g : Seg) (s : State) : State :=
  let s := s.modSeg g fun x => { x with ring := [], rx := .idle, overrunHeld := 0 }
  match s.router.hand with
  | none => s
  | some h =>
    if h.seg = g then
      if h.taken then { s with router := { s.router with hand := some { h with inRing := false } } }
      else
        { s with
          router := { s.router with hand := none }
          visits := { s.visits with
            waiting := s.visits.waiting.filter fun p => p.source == .host } }
    else s

/-! ## Enabling, disabling, isolating (R144, R177, R178) -/

/-- The line rate set is the one in use once the line is idle, with no frame being sent or received (R144). -/
def applyRate (g : Seg) (s : State) : State :=
  s.modSeg g fun x =>
    match x.sending, x.rx with
    | none, .idle => { x with rateInUse := x.settings.val.lineRate }
    | _, _ => x

/-- The end of a disabling, once a copy being sent has finished (R144): the command in flight and then the
queue complete NODE_LOST, and then the consumers are told of the nodes that became UNREACHABLE (R106). -/
def finishClosing (g : Seg) (s : State) : State :=
  let o := match (s.seg g).inFlight with
    | some f => f.endAs.getD .nodeLost
    | none => .nodeLost
  let s := completeFlight g o s
  let s := completeQueued g (fun _ => true) .nodeLost s
  tellOwed g (s.modSeg g fun x => { x with closing := false, sending := none })

/-- A segment is disabled (R144): it enters OFF, where its nodes are UNREACHABLE, its ring is empty and no ack
is pending (R149, R161, R170, R176). Its commands complete at once, or when the copy being sent has
finished; then the consumers are told, in ascending node id, an order that R144 and R149 leave open (log 50). -/
def disableSeg (g : Seg) (s : State) : State :=
  let x := s.seg g
  let s := s.modSeg g fun x =>
    { x.unreach with
      state := .off, pollTimer := false, pendingAck := none, closing := true
      lossesOwed := x.lossesOwed ++ x.reached }
  let s := putNotice (.segmentState g x.state .off x.txFaults x.rxFaults) s
  let s := emptyRing g s
  if x.sending.isSome then s else finishClosing g s

/-- Every enrolled node becomes QUIET with missed polls 0 and its last-valid flag cleared (R149). -/
def quietNodes (g : Seg) (f : Node → Node) (s : State) : State :=
  s.modSeg g fun x =>
    { x with nodes := x.nodes.map fun e =>
        (e.1, f { e.2 with liveness := .quiet, missed := 0, lastValid := false }) }

/-- A segment is enabled (R144). One whose disabling still waits for a copy ends that copy and closes first
(the model's choice, log 25). -/
def enableSeg (g : Seg) (s : State) : State :=
  let s := if (s.seg g).closing then finishClosing g s else s
  let left := (s.seg g).state
  let s := s.modSeg g fun x =>
    { x with
      state := .active, txFaults := 0, rxFaults := 0, pollPos := 0, pollTimer := true
      rx := .idle, overrunHeld := 0, rateInUse := x.settings.val.lineRate }
  let s := putNotice (.segmentState g left .active 0 0) s
  quietNodes g (fun n => { n with nextSeq := 0 }) s

/-- A segment is isolated (R177), its transmit fault count being 255. Its command in flight completes
SEGMENT_ISOLATED, also one that was to end otherwise when its copy ended (log 25); a removal's loss that waited
for that copy is then told. -/
def isolateSeg (g : Seg) (s : State) : State :=
  let left := (s.seg g).state
  let s := s.modSeg g fun x => { x with state := .isolated, sending := none, pollTimer := false }
  let s := putNotice (.segmentState g left .isolated (s.seg g).txFaults (s.seg g).rxFaults) s
  let s := completeFlight g .segmentIsolated s
  let s := completeQueued g (fun _ => true) .segmentIsolated s
  let s := s.modSeg g fun x => { x with pendingAck := none }
  unreachNodes g (tellOwed g (emptyRing g s))

/-- The copy of the settings takes a record, and the segment acts on the change (R144). -/
def applySettings (g : Seg) (new : Marked SegSettings) (s : State) : State :=
  let was := (s.seg g).settings.val.enabled
  let s := s.modSeg g fun x => { x with settings := new }
  match was, new.val.enabled with
  | true, false => disableSeg g s
  | false, true => enableSeg g s
  | true, true => applyRate g s
  | false, false => s

/-! ## Enrolment (R146, R147) -/

/-- The volatile state a node starts with (R148). Of its last received sequence R148 and R169 say only that the
last-valid flag is clear; the sequence 0 is the model's choice (log 53). -/
def Node.start (e : NodeEntry) (l : Liveness) : Node := ⟨e, l, 0, 0, false, 0, [], false, false⟩

/-- An enrolment commits (R146). -/
def enrolAtCommit (g : Seg) (n : Nat) (e : NodeEntry) (s : State) : State :=
  s.modSeg g fun x =>
    { x with nodes := x.nodes.put n (Node.start e (if x.state.running then .quiet else .unreachable)) }

/-- The command in flight to a removed node is ended by its phase, with NODE_LOST (R147 step 2, R160), also one
cancelled while its copy is being sent (log 25). -/
def loseFlight (g : Seg) (n : Nat) (s : State) : State :=
  match (s.seg g).inFlight with
  | none => s
  | some f =>
    if f.entry.node = n then
      if f.phase = .sending then
        s.modSeg g fun x => { x with inFlight := some { f with endAs := some .nodeLost } }
      else completeFlight g .nodeLost s
    else s

/-- A copy of a command to the node is being sent, so its outcome is still to come (R160). -/
def Segment.sendsTo (x : Segment) (n : Nat) : Bool :=
  match x.inFlight with
  | some f => f.entry.node == n && f.phase == .sending
  | none => false

/-- A removed node's consumer is told (R147 step 4), after the outcomes of its commands (R106): a copy being
sent to the node is waited for (log 25). -/
def tellRemoval (g : Seg) (n : Nat) (e : NodeEntry) (s : State) : State :=
  if (s.seg g).sendsTo n then s.modSeg g fun y => { y with lossesOwed := y.lossesOwed ++ [(n, e)] }
  else tellLoss g n e (s.modSeg g fun y => { y with lossesOwed := y.lossesOwed.remove n })

/-- An entry stops being enrolled (R145, R147): steps 1 to 5. The queue completes before the command in flight,
as R147 orders it; R159 names the command in flight first (log 40). -/
def unenrolAtCommit (g : Seg) (n : Nat) (s : State) : State :=
  match s.node g n with
  | none => s
  | some x =>
    let s := completeQueued g (fun e => e.node == n) .nodeLost s
    let s := loseFlight g n s
    let s := s.modSeg g fun y => { y with pendingAck := y.pendingAck.filter fun a => a.1 != n }
    let s := tellRemoval g n x.entry s
    s.modSeg g fun y => { y with nodes := y.nodes.remove n }

/-- A node entry of the table takes a value: enrolled, or not (R145 to R147). -/
def applyNode (g : Seg) (n : Nat) (e : Option NodeEntry) (s : State) : State :=
  match e with
  | some e =>
    if (s.node g n).map Node.entry = some e then s else enrolAtCommit g n e (unenrolAtCommit g n s)
  | none => unenrolAtCommit g n s

/-! ## Submission (R153, R154) -/

/-- The rank of a priority: lower goes first (R153). -/
def Priority.rank : Priority → Nat
  | .urgent => 0 | .normal => 1 | .poll => 2

/-- Join the queue at its place: after the last entry of equal or higher priority (R153). -/
def joinQueue (e : TxEntry) : List TxEntry → List TxEntry
  | [] => [e]
  | x :: rest =>
    if e.priority.rank < x.priority.rank then e :: x :: rest else x :: joinQueue e rest

/-- Remove the youngest entry of a priority (R154). -/
def dropYoungest (p : Priority) (q : List TxEntry) : List TxEntry × Option TxEntry :=
  match q.reverse.find? fun e => e.priority == p with
  | none => (q, none)
  | some e => ((q.reverse.eraseP fun e => e.priority == p).reverse, some e)

/-- The priority of the entry a submission to a full queue displaces; none refuses it (R154). -/
def displaces (p : Priority) (q : List TxEntry) : Option Priority :=
  let hasPoll := q.any fun e => e.priority == .poll
  let hasNormal := q.any fun e => e.priority == .normal
  match p with
  | .urgent => if hasPoll then some .poll else if hasNormal then some .normal else none
  | .normal => if hasPoll then some .poll else none
  | .poll => none

/-- An entry joins the queue, displacing or refused when it holds 16 (R154). -/
def enqueue (g : Seg) (e : TxEntry) (s : State) : State :=
  let q := (s.seg g).queue
  if q.length < Config.maxTransmit then
    withSeg g (fun x => { x with queue := joinQueue e x.queue }) s
  else
    match displaces e.priority q with
    | none => handOutcome g .fieldFull e.token s
    | some p =>
      let d := dropYoungest p q
      let s := withSeg g (fun x => { x with queue := joinQueue e d.1 }) s
      match d.2 with
      | some y => handOutcome g .displaced y.token s
      | none => s

/-- A block submits a frame (R153): to a node that is not enrolled, takes no such frame, is UNREACHABLE, or
is LOST and the frame no POLL, it completes NODE_LOST at once. -/
def submit (g : Seg) (n : Nat) (fr : TxFrame) (p : Priority) (t : Token) (s : State) : State :=
  match s.node g n with
  | none => handOutcome g .nodeLost t s
  | some x =>
    if !x.entry.kind.takes fr || x.liveness == .unreachable || (x.liveness == .lost && fr != .poll) then
      handOutcome g .nodeLost t s
    else enqueue g ⟨n, fr, p, t, none, 0⟩ s

/-- An owner cancels an entry by its token (R160). -/
def cancel (g : Seg) (t : Token) (s : State) : State :=
  if (s.seg g).queue.any fun e => e.token == t then
    completeQueued g (fun e => e.token == t) .cancelled s
  else
    match (s.seg g).inFlight with
    | none => s
    | some f =>
      if f.entry.token = t then
        if f.phase = .sending then
          match f.endAs with
          | some _ => s
          | none => s.modSeg g fun x => { x with inFlight := some { f with endAs := some .cancelled } }
        else completeFlight g .cancelled s
      else s

/-! ## Stop and wait (R156 to R158) -/

/-- A copy of the command in flight begins. -/
def sendFlight (g : Seg) (f : InFlight) (s : State) : State :=
  withSeg g (fun x => { x with inFlight := some { f with phase := .sending }, sending := some .command }) s

/-- The head of the queue leaves it and its first copy begins, with the node's next transmit sequence
(R156). -/
def sendHead (g : Seg) (e : TxEntry) (rest : List TxEntry) (s : State) : State :=
  let q := match s.node g e.node with
    | some x => x.nextSeq
    | none => 0
  let s := withNode g e.node (fun x => { x with nextSeq := x.nextSeq + 1 }) s
  withSeg g (fun x =>
    { x with
      queue := rest
      inFlight := some ⟨{ e with seq := some q }, .sending, false, none⟩
      sending := some .command }) s

/-- TURNAROUND_GAP_EXPIRY (R156, R170): the pending ack, a repeat or resend, or the queue head is sent. The
receiver stands still meanwhile (the model's choice, log 24). -/
def execTurnaroundGapExpiry (g : Seg) (s : State) : Answer :=
  .next <|
    let x := s.seg g
    if x.state.running && x.sending.isNone then
      match x.pendingAck, x.inFlight with
      | some (n, q), _ => s.modSeg g fun x => { x with sending := some (.ack n q) }
      | none, some f =>
        match f.phase with
        | .repeatDue => sendFlight g { f with repeatFlag := true } s
        | .resendDue => sendFlight g f s
        | _ => s
      | none, none =>
        match x.queue with
        | e :: rest => sendHead g e rest s
        | [] => s
    else s

/-- The copy being sent has left the line, clean or abandoned: what it leaves behind (R157, R158, R160).
A command that must end does; otherwise it takes the phase given. -/
def copyEnds (g : Seg) (next : FlightPhase) (s : State) : State :=
  match (s.seg g).sending, (s.seg g).inFlight with
  | some .command, some f =>
    let s := s.modSeg g fun x => { x with sending := none }
    match f.endAs with
    | some o => completeFlight g o s
    | none => s.modSeg g fun x => { x with inFlight := some { f with phase := next } }
  | _, _ => s.modSeg g fun x => { x with sending := none }

/-- An ACK copy was sent clean: its slot becomes empty (R170). -/
def ackSent (g : Seg) (s : State) : State :=
  match (s.seg g).sending with
  | some (.ack n q) =>
    s.modSeg g fun x => if x.pendingAck = some (n, q) then { x with pendingAck := none } else x
  | _ => s

/-- After a copy: a disabling that waited for it goes on, or a removal's loss is told, and a new line rate is
applied (R106, R144, R147). -/
def afterCopy (g : Seg) (s : State) : State :=
  applyRate g (if (s.seg g).closing then finishClosing g s else tellOwed g s)

/-- COPY_SENT (R157, R170, R174): the transmit fault count falls by one, and the copy's wait begins. A copy
that a disabled segment was finishing leaves the count as it is (R174). -/
def execCopySent (g : Seg) (s : State) : Answer :=
  .next <|
    let x := s.seg g
    if x.sending.isSome then
      let s := if x.closing then s else setTxFaults g (x.txFaults - 1) s
      afterCopy g (copyEnds g .waiting (ackSent g s))
    else s

/-- READBACK_MISMATCH (R158, R174, R177): the copy is abandoned, the transmit fault count rises by 8, and at
255 the segment is isolated. -/
def execReadbackMismatch (g : Seg) (s : State) : Answer :=
  .next <|
    let x := s.seg g
    if x.sending.isSome then
      if x.closing then afterCopy g (copyEnds g .resendDue s)
      else
        let n := satAdd 255 x.txFaults 8
        if n = 255 then isolateSeg g (s.modSeg g fun x => { x with txFaults := n })
        else afterCopy g (copyEnds g .resendDue (setTxFaults g n s))
    else s

/-- The wait of the command in flight has ended unanswered (R157): a POLL completes NO_ANSWER; a COMMAND or
SHOW is repeated while its repeats are below the retry limit, and otherwise completes NO_ACK. -/
def waitEnds (g : Seg) (f : InFlight) (s : State) : State :=
  if f.entry.frame = .poll then
    pollUnanswered g f.entry.node (withSeg g (fun x => { x with inFlight := none }) s)
  else if f.entry.repeats < (s.seg g).settings.val.retryLimit then
    let again := { f with phase := .repeatDue, entry := { f.entry with repeats := f.entry.repeats + 1 } }
    withSeg g (fun x => { x with inFlight := some again }) s
  else completeFlight g .noAck s

/-- A frame is being received (R157). -/
def Segment.receiving (x : Segment) : Bool :=
  match x.rx with
  | .frame _ => true
  | _ => false

/-- A wait or window runs out; while a frame is being received the end is taken after it (R157). A segment that
closes has no wait: its command ends with the disabling (R144). -/
def waitExpires (g : Seg) (isPoll : Bool) (s : State) : State :=
  let x := s.seg g
  match x.inFlight with
  | none => s
  | some f =>
    if !x.closing && f.phase = .waiting && (f.entry.frame == .poll) == isPoll then
      if x.receiving then s.modSeg g fun x => { x with inFlight := some { f with phase := .waitOver } }
      else waitEnds g f s
    else s

/-- ANSWER_WINDOW_EXPIRY (R157). -/
def execAnswerWindowExpiry (g : Seg) (s : State) : Answer := .next (waitExpires g true s)

/-- ACK_WAIT_EXPIRY (R157). -/
def execAckWaitExpiry (g : Seg) (s : State) : Answer := .next (waitExpires g false s)

/-! ## Polling (R152) -/

/-- The next enrolled node after the poll position, wrapping to the lowest (R152). -/
def Segment.nextPolled (x : Segment) : Option Nat :=
  match x.nodes.find? fun e => x.pollPos < e.1 with
  | some e => some e.1
  | none => x.nodes.head?.map Prod.fst

/-- The node has a POLL queued or in flight (R152). -/
def Segment.polled (x : Segment) (n : Nat) : Bool :=
  x.queue.any (fun e => e.node == n && e.frame == .poll) ||
    (match x.inFlight with
     | some f => f.entry.node == n && f.entry.frame == .poll
     | none => false)

/-- POLL_TIMER_EXPIRY (R152): a poll turn for the next enrolled node. -/
def execPollTimerExpiry (g : Seg) (s : State) : Answer :=
  .next <|
    let x := s.seg g
    if x.pollTimer then
      match x.nextPolled with
      | none => s
      | some n =>
        let s := if x.polled n then s else submit g n .poll .poll .poll s
        s.modSeg g fun x => { x with pollPos := n }
    else s

/-! ## Requests (R144, R146, R147, R151, R178, R180) -/

/-- PUT_SEGMENT (R144). -/
def execPutSegment (s : State) : Answer :=
  .next <| takingStore 0x60 (fun body => tested (parsePutSegment body) setupOnly fun x =>
    unlessFaulted (writeItem (.segment x.1) (.segment x.2))) s

/-- ENROL_NODE (R146). -/
def execEnrolNode (s : State) : Answer :=
  .next <| takingStore 0x61 (fun body => tested (parseEnrol body) setupOnly fun x =>
    unlessFaulted fun s =>
      match s.store.nodeEntry x.1 x.2.1 with
      | ⟨some e, false⟩ => if e = x.2.2 then reply .ok [] s else reply .inUse [] s
      | _ => beginWrite (.site (.node x.1 x.2.1) (.node (some x.2.2))) s) s

/-- REMOVE_NODE (R147). -/
def execRemoveNode (s : State) : Answer :=
  .next <| takingStore 0x62 (fun body => tested (parseSegNode body) setupOnly fun x =>
    unlessFaulted fun s =>
      match s.store.nodeEntry x.1 x.2 with
      | ⟨none, false⟩ => reply .notFound [] s
      | _ => beginWrite (.site (.node x.1 x.2) (.node none)) s) s

/-- The fields of an in-flight command as GET_NODE and GET_SEGMENT report them: frame kind, action,
sequence, repeats used (R151, R180; log 18). -/
def flightBytes (e : TxEntry) : List Byte :=
  u8 e.frame.position ++
    u8Or (match e.frame with
      | .command c => some c.position
      | _ => none) ++
    u8Or (e.seq.map BitVec.toNat) ++ u8 e.repeats

/-- The fields of a GET_NODE reply (R151). -/
def getNodeBody (g : Seg) (n : Nat) (x : Node) (s : State) : List Byte :=
  u8 x.entry.kind.code ++ x.entry.binding.bytes ++ u8 x.liveness.code ++ u8 x.missed ++
    u8 x.lastSeq.toNat ++ flag x.lastValid ++ u8 x.nextSeq.toNat ++ u8 x.mirror.length ++ x.mirror ++
    flag x.changed ++ flag x.reportHeld ++
    u8 ((s.seg g).queue.filter fun e => e.node == n).length ++
    (match (s.seg g).inFlight with
     | some f => if f.entry.node = n then flightBytes f.entry else [0xFF, 0xFF, 0xFF, 0xFF]
     | none => [0xFF, 0xFF, 0xFF, 0xFF])

/-- GET_NODE (R151): the changed flag becomes no after the reply. -/
def execGetNode (s : State) : Answer :=
  .next <| taking 0x63 (fun body => tested (parseSegNode body) outsideStarting fun x s =>
    match s.node x.1 x.2 with
    | none => reply .notFound [] s
    | some y =>
      withNode x.1 x.2 (fun y => { y with changed := false })
        (reply .ok (getNodeBody x.1 x.2 y s) s)) s

/-- How many nodes are of a liveness (R180). -/
def Segment.countNodes (x : Segment) (l : Liveness) : Nat :=
  (x.nodes.filter fun e => e.2.liveness == l).length

/-- How many entries of the queue are of a priority (R180). -/
def Segment.countQueued (x : Segment) (p : Priority) : Nat :=
  (x.queue.filter fun e => e.priority == p).length

/-- The fields of a GET_SEGMENT reply (R180). -/
def getSegmentBody (x : Segment) : List Byte :=
  x.settings.val.bytes ++ flag x.settings.damaged ++ u8 x.state.code ++ u8 x.txFaults ++
    u8 x.rxFaults ++ u16 x.drops.corrupt ++ u16 x.drops.oversize ++ u16 x.drops.overrun ++
    u16 x.drops.duplicate ++ u16 x.drops.foreign ++ u8 x.ring.length ++ u16 x.committed ++ u8 x.held ++
    u8Or (x.pendingAck.map Prod.fst) ++ u8Or (x.pendingAck.map fun a => a.2.toNat) ++
    u8 (x.countQueued .urgent) ++ u8 (x.countQueued .normal) ++ u8 (x.countQueued .poll) ++
    (match x.inFlight with
     | some f => u8 f.entry.node ++ flightBytes f.entry
     | none => [0xFF, 0xFF, 0xFF, 0xFF, 0xFF]) ++
    u8Or (if x.pollPos = 0 then none else some x.pollPos) ++ u8 x.nodes.length ++
    u8 (x.countNodes .live) ++ u8 (x.countNodes .quiet) ++ u8 (x.countNodes .lost) ++
    u8 (x.countNodes .unreachable)

/-- GET_SEGMENT (R180): the drop counters may be cleared after the reply. -/
def execGetSegment (s : State) : Answer :=
  .next <| taking 0x64 (fun body => tested (parseSegFlag body) outsideStarting fun x s =>
    let t := reply .ok (getSegmentBody (s.seg x.1)) s
    if x.2 then t.modSeg x.1 fun y => { y with drops := Drops.zero } else t) s

/-- RESTORE_SEGMENT brings an ISOLATED segment back to ACTIVE (R178). -/
def restoreSeg (g : Seg) (s : State) : State :=
  let s := s.modSeg g fun x => { x with txFaults := 0, rxFaults := 0 }
  let s := quietNodes g id s
  let s := s.modSeg g fun x =>
    { x with
      state := .active, ring := [], rx := .idle, overrunHeld := 0, pendingAck := none
      pollPos := 0, pollTimer := true, rateInUse := x.settings.val.lineRate }
  putNotice (.segmentState g .isolated .active 0 0) s

/-- RESTORE_SEGMENT (R178). -/
def execRestoreSegment (s : State) : Answer :=
  .next <| taking 0x65 (fun body => tested (parseSeg body) outsideStarting fun g s =>
    if (s.seg g).state = .isolated then reply .ok [] (restoreSeg g s) else reply .wrongState [] s) s

end Sys2Proof.Machine
end

