-- ==== Sys2Proof/Machine/Visits.lean ====
section
/-! DEFINITION. The Visit Table: closure, the reports of other blocks, deadlines, evacuation, and the visit
requests (R43 to R50, R61 to R68). -/

namespace Sys2Proof.Machine

/-! ## Closure (R49, R50) -/

/-- The portal a visit may be pending at: in ADMITTED the entry portal, in EXITING the exit portal (R49). -/
def Visit.pendingAt (v : Visit) : Option Nat :=
  match v.stage with
  | .admitted => some v.entryPortal
  | .exiting => v.exitPortal
  | _ => none

/-- A visit leaves the table, with the orders of R49 and a VISIT_CLOSED notice (R50). -/
def closeVisit (v : Visit) (why : CloseReason) (s : State) : State :=
  let s := { s with visits :=
    { s.visits with table := s.visits.table.filter fun w => w.number != v.number } }
  let s := match v.pendingAt with
    | some p => toPortals (.drop p v.number) s
    | none => s
  let s := if v.call.isSome then toLifts v.number s else s
  let s := toUnits (.closure v.tenant (!(s.visitsOf v.tenant).isEmpty)) s
  putNotice (.visitClosed v.number v.tenant why v.overstayed v.openedCount
    (min 65535 (s.site.seconds - v.admittedAt))) s

/-- Close several visits in order. -/
def closeVisits (vs : List Visit) (why : CloseReason) (s : State) : State :=
  vs.foldl (fun s v => closeVisit v why s) s

/-! ## Portal reports (R46, R47) -/

/-- The stage a visit on site holds: OVERSTAY when overstayed (R46). -/
def Visit.siteStage (v : Visit) : Stage := if v.overstayed then .overstay else .onSite

/-- A passage at portal `p` for visit `n` (R46). -/
def takePassage (p n : Nat) (s : State) : State :=
  match s.visit n with
  | none => s
  | some v =>
    if v.stage = .admitted && v.entryPortal == p then
      s.modVisit n fun v => { v with stage := v.siteStage, lastSeen := ⟨.portal, p, s.site.seconds⟩ }
    else if v.stage = .exiting && v.exitPortal == some p then closeVisit v .exited s
    else s

/-- No passage at portal `p` for visit `n` (R47). -/
def takeNoPassage (p n : Nat) (s : State) : State :=
  match s.visit n with
  | none => s
  | some v =>
    if v.stage = .admitted && v.entryPortal == p then closeVisit v .noEntry s
    else if v.stage = .exiting && v.exitPortal == some p then
      s.modVisit n fun v =>
        { v with stage := v.returnStage.getD .onSite, returnStage := none, exitPortal := none }
    else s

/-- Take one portal report. -/
def takePortalReport (s : State) : PortalReport → State
  | .passage p n => takePassage p n s
  | .noPassage p n => takeNoPassage p n s

/-- The Visit Engine takes every portal report on its way, in order: used where a later notice of the same
step must follow the VISIT_CLOSED that such a report causes (R78, R79; log 5). -/
def deliverPortalReports (s : State) : State :=
  s.visits.portalReports.foldl takePortalReport
    { s with visits := { s.visits with portalReports := [] } }

/-- PASSAGE_REPORT (R46). -/
def execPassageReport (s : State) : Answer :=
  .next <|
    match s.visits.portalReports with
    | .passage p n :: rest =>
      takePassage p n { s with visits := { s.visits with portalReports := rest } }
    | _ => s

/-- NO_PASSAGE_REPORT (R47). -/
def execNoPassageReport (s : State) : Answer :=
  .next <|
    match s.visits.portalReports with
    | .noPassage p n :: rest =>
      takeNoPassage p n { s with visits := { s.visits with portalReports := rest } }
    | _ => s

/-! ## The dwell deadline (R48) -/

/-- A visit whose deadline has passed (R48). -/
def Visit.overstay (v : Visit) : Visit :=
  match v.stage with
  | .onSite => { v with overstayed := true, stage := .overstay }
  | .exiting => { v with overstayed := true, returnStage := some .overstay }
  | _ => { v with overstayed := true }

/-- The visit has a dwell deadline that site seconds have reached, and is not yet overstayed (R48). -/
def Visit.due (v : Visit) (now : Nat) : Bool :=
  match v.dwellDeadline with
  | some d => d ≤ now && !v.overstayed
  | none => false

/-- DWELL_DEADLINE (R48). -/
def execDwellDeadline (n : Nat) (s : State) : Answer :=
  .next <|
    match s.visit n with
    | none => s
    | some v =>
      if v.due s.site.seconds then
        putNotice (.overstay n v.tenant v.stage v.lastSeen) (s.modVisit n Visit.overstay)
      else s

/-! ## Call reports (R61) -/

/-- Apply a report to the visit of its call id; ignored when there is none or its call field is absent
(R61). -/
def onCall (n : Nat) (f : Visit → Visit) (s : State) : State :=
  match s.visit n with
  | some v => if v.call.isSome then s.modVisit n f else s
  | none => s

/-- Take one call report (R61). -/
def takeCallReport (s : State) : CallReport → State
  | .boarded n c => onCall n (fun v => { v with call := some ⟨c, true⟩ }) s
  | .replaced n c => onCall n (fun v => { v with call := some ⟨c, false⟩ }) s
  | .completed n f =>
    onCall n (fun v => { v with call := none, lastSeen := ⟨.landing, f, s.site.seconds⟩ }) s
  | .expired n => onCall n (fun v => { v with call := none }) s
  | .cancelled n _ => onCall n (fun v => { v with call := none }) s

/-- The Visit Engine takes every call report on its way, in order: the reports sent before the answer to a
hand-over are taken before it (R122; log 5). -/
def deliverCallReports (s : State) : State :=
  s.visits.callReports.foldl takeCallReport
    { s with visits := { s.visits with callReports := [] } }

/-- CALL_REPORT (R61). -/
def execCallReport (s : State) : Answer :=
  .next <|
    match s.visits.callReports with
    | r :: rest => takeCallReport { s with visits := { s.visits with callReports := rest } } r
    | [] => s

/-! ## Unit openings (R63) -/

/-- A unit opening credited to a visit (R63). -/
def Visit.credit (v : Visit) (unit now : Nat) : Visit :=
  { v with
    unitsOpened :=
      if v.unitsOpened.contains unit || 8 ≤ v.unitsOpened.length then v.unitsOpened
      else v.unitsOpened ++ [unit]
    openedCount := satAdd 255 v.openedCount 1
    lastSeen := ⟨.unit, unit, now⟩ }

/-- UNIT_OPENED_REPORT (R63): credited to the youngest visit of the tenant. -/
def execUnitOpenedReport (s : State) : Answer :=
  .next <|
    match s.visits.openedReports with
    | [] => s
    | (u, t) :: rest =>
      let s := { s with visits := { s.visits with openedReports := rest } }
      match (s.visitsOf t).getLast? with
      | none => s
      | some v => s.modVisit v.number fun v => v.credit u s.site.seconds

/-! ## Evacuation (R64, R65) -/

/-- A visit when an evacuation begins (R64). -/
def Visit.evacuate (v : Visit) : Visit :=
  { v with stage := .evacuated, exitPortal := none, returnStage := none }

/-- EVACUATION_BEGIN_VISITS (R64). -/
def execEvacuationBeginVisits (s : State) : Answer :=
  .next <|
    match s.visits.orders with
    | .begin_ :: rest =>
      { s with visits :=
        { s.visits with orders := rest, table := s.visits.table.map Visit.evacuate } }
    | _ => s

/-- EVACUATION_END_VISITS (R65, R203): every visit is closed, oldest first, and Site Control is answered. -/
def execEvacuationEndVisits (s : State) : Answer :=
  .next <|
    match s.visits.orders with
    | .end_ :: rest =>
      let s := { s with visits := { s.visits with orders := rest } }
      let s := closeVisits s.visits.table .evacuated s
      { s with site := { s.site with closuresAnswer := true } }
    | _ => s

/-! ## Requests (R66 to R68) -/

/-- A call field: car and QUEUED or BOARDED, or absent (R43; log 18). -/
def callBytes : Option CallRef → List Byte
  | some c => u8 c.car ++ u8 (if c.boarded then 1 else 0)
  | none => [0xFF, 0xFF]

/-- A visit as LIST_VISITS gives it (R66). -/
def Visit.listBytes (v : Visit) : List Byte :=
  u16 v.number ++ u16 v.tenant ++ u32 v.value.toNat ++ u8 v.stage.code ++ flag v.overstayed ++
    u8 v.entryPortal ++ callBytes v.call

/-- The fields of a LIST_VISITS reply (R66). -/
def listVisitsBody (start : Nat) (s : State) : List Byte :=
  let vs := (s.visits.table.drop start).take 8
  u8 s.visits.table.length ++ u8 start ++ u8 vs.length ++ (vs.map Visit.listBytes).flatten

/-- LIST_VISITS (R66). -/
def execListVisits (s : State) : Answer :=
  .next <| taking 0x30 (fun body => tested (parseOne 1 0 95 body) outsideStarting fun start s =>
    reply .ok (listVisitsBody start s) s) s

/-- Every field of a visit (R43, R67). -/
def Visit.bytes (v : Visit) : List Byte :=
  u16 v.number ++ u16 v.tenant ++ u32 v.value.toNat ++ u8 v.stage.code ++ u8 v.entryPortal ++
    u32 v.admittedAt ++ u32Or v.dwellDeadline ++ flag v.overstayed ++
    u8Or (v.returnStage.map returnStageCode) ++ u8Or v.exitPortal ++ callBytes v.call ++
    u8 v.unitsOpened.length ++ (v.unitsOpened.map u16).flatten ++ u8 v.openedCount ++
    u8 v.lastSeen.kind.code ++ u16 v.lastSeen.number ++ u32 v.lastSeen.at_

/-- GET_VISIT (R67). -/
def execGetVisit (s : State) : Answer :=
  .next <| taking 0x31 (fun body => tested (parseOne 2 1 65535 body) outsideStarting fun n s =>
    match s.visit n with
    | none => reply .notFound [] s
    | some v => reply .ok v.bytes s) s

/-- CLOSE_VISIT (R68). -/
def execCloseVisit (s : State) : Answer :=
  .next <| taking 0x32 (fun body => tested (parseOne 2 1 65535 body) outsideStarting fun n s =>
    match s.visit n with
    | none => reply .notFound [] s
    | some v => reply .ok [] (closeVisit v .hostClosed s)) s

end Sys2Proof.Machine
end

