-- ==== Sys2Proof/Machine/Portals.lean ====
section
/-! DEFINITION. The Portal Controller: the strike, contact and button events, open orders, drive loss and
recovery, free mode and evacuation, and the portal requests (R71 to R91). -/

namespace Sys2Proof.Machine

/-! ## The strike (R75, R186) -/

/-- Drive the STRIKE line of a portal: to its active level to release, to the other level to engage
(R186). -/
def strikeLine (p : Nat) (release : Bool) (s : State) : State :=
  { s with lines :=
    { s.lines with list := s.lines.list.map fun l =>
        if l.record.val.func == .strike p then
          { l with drive := if release then .active else .other }
        else l } }

/-- Release or engage the strike of a portal through its drive (R75): URGENT while the site is in EVACUATE
and where the order says so. -/
def orderStrike (p : Nat) (release urgent : Bool) (s : State) : State :=
  let s := withPortal p (fun q => { q with strikeReleased := release }) s
  match s.portal p with
  | none => s
  | some q =>
    match q.record.val.drive with
    | .lines => strikeLine p release s
    | .module g n =>
      submit g n (.command (.strike release))
        (if urgent || s.site.mode == .evacuate then .urgent else .normal)
        (.strike p release q.opening) s

/-! ## Placing a portal by its contact (R81, R85, R86) -/

/-- A portal enters FORCED with a PORTAL_FORCED notice, which follows the VISIT_CLOSED of a no-passage
report already sent (R78, R81; log 5). -/
def forcePortal (p : Nat) (s : State) : State :=
  putNotice (.portalForced p)
    (withPortal p (fun q => { q with state := .forced }) (deliverPortalReports s))

/-- A portal whose strike is engaged enters SECURE, or FORCED when its contact is OPEN (R85, R86). -/
def placeByContact (p : Nat) (s : State) : State :=
  match s.portal p with
  | none => s
  | some q =>
    if q.contact = .open_ then forcePortal p s
    else withPortal p (fun q => { q with state := .secure }) s

/-- A portal in FAULT regains its drive (R85). -/
def regainDrive (p : Nat) (s : State) : State :=
  if s.site.mode = .evacuate then
    withPortal p (fun q => { q with state := .free }) (orderStrike p true true s)
  else placeByContact p (orderStrike p false false s)

/-- The pending visit of an opening is reported without passage and cleared, and both timers stop
(R84, R86, R88). -/
def endOpening (p : Nat) (s : State) : State :=
  match s.portal p with
  | none => s
  | some q =>
    let s := match q.state, q.pending with
      | .opening, some v => toVisitsPortal (.noPassage p v) s
      | _, _ => s
    withPortal p (fun q => { q with pending := none, passTimer := none, holdTimer := none }) s

/-- A portal loses its drive (R84). -/
def loseDrive (p : Nat) (s : State) : State :=
  match s.portal p with
  | none => s
  | some q =>
    if q.record.val.present && q.state != .fault then
      let s := endOpening p s
      match q.record.val.drive with
      | .module _ _ =>
        withPortal p (fun q =>
          { q with contact := .unknown, button := .unknown, heard := false, state := .fault }) s
      | .lines =>
        let s := withPortal p (fun q =>
          { q with contact := s.lineContact p, button := s.lineButton p, state := .fault }) s
        if s.strikeAssigned p then orderStrike p false false s else s
    else s

/-- A portal is taken into FREE (R86). -/
def enterFree (p : Nat) (urgent : Bool) (s : State) : State :=
  withPortal p (fun q => { q with state := .free }) (orderStrike p true urgent (endOpening p s))

/-- A portal leaves FREE (R86). -/
def leaveFree (p : Nat) (urgent : Bool) (s : State) : State :=
  placeByContact p (orderStrike p false urgent s)

/-! ## Opening and passage (R76 to R80) -/

/-- An open order (R76). -/
def openPortal (p : Nat) (visit : Option Nat) (s : State) : State :=
  match s.portal p with
  | none => s
  | some q =>
    if q.state = .secure then
      orderStrike p true false
        (withPortal p (fun q =>
          { q with
            state := .opening, pending := visit, opening := q.opening + 1
            passTimer := some (s.site.seconds + q.record.val.passTime) }) s)
    else
      match visit with
      | some v => toVisitsPortal (.noPassage p v) s
      | none => s

/-- The end of an opening without passage: engaged, reported, SECURE (R78, R79). -/
def expireOpening (p : Nat) (s : State) : State :=
  withPortal p (fun q => { q with state := .secure }) (endOpening p (orderStrike p false false s))

/-- A contact has opened (R77, R81). -/
def contactOpens (p : Nat) (s : State) : State :=
  match s.portal p with
  | none => s
  | some q =>
    match q.state with
    | .opening =>
      let s := match q.pending with
        | some v => toVisitsPortal (.passage p v) s
        | none => s
      let s := withPortal p (fun q =>
        { q with state := .passage, pending := none, passTimer := none }) s
      match q.record.val.kind with
      | .vehicle => s
      | .door =>
        orderStrike p false false
          (withPortal p (fun q =>
            { q with holdTimer := some (s.site.seconds + q.record.val.holdTime) }) s)
    | .secure => forcePortal p s
    | _ => s

/-- A contact has closed (R80, R81). -/
def contactCloses (p : Nat) (s : State) : State :=
  match s.portal p with
  | none => s
  | some q =>
    match q.state with
    | .passage =>
      let s := withPortal p (fun q => { q with holdTimer := none, state := .secure }) s
      match q.record.val.kind with
      | .vehicle => orderStrike p false false s
      | .door => s
    | .heldOpen | .forced =>
      putNotice (.portalSecure p q.state) (withPortal p (fun q => { q with state := .secure }) s)
    | _ => s

/-- The contact takes a level; a change of a known level is an event (R74). -/
def takeContact (p : Nat) (c : Contact) (s : State) : State :=
  match s.portal p with
  | none => s
  | some q =>
    let t := withPortal p (fun q => { q with contact := c }) s
    if q.contact = c || q.contact = .unknown then t
    else
      match c with
      | .open_ => contactOpens p t
      | .closed => contactCloses p t
      | .unknown => t

/-- The button takes a level; a change from RELEASED to PRESSED in SECURE is an open order with an EGRESS
notice (R74, R82). -/
def takeButton (p : Nat) (b : Button) (s : State) : State :=
  match s.portal p with
  | none => s
  | some q =>
    let t := withPortal p (fun q => { q with button := b }) s
    if q.button = .released && b = .pressed && q.state = .secure then
      putNotice (.egress p) (openPortal p none t)
    else t

/-- A press is judged by the state after the contact event of the same report (R74). -/
def takeInputs (p : Nat) (c : Contact) (b : Button) (s : State) : State :=
  takeButton p b (takeContact p c s)

/-! ## Inputs from a module and from lines (R74, R85, R185) -/

/-- A STATUS of the module `g`/`n` bound to portal `p` (R72, R74, R85). -/
def portalStatus (g : Seg) (n p : Nat) (c : Contact) (b : Button) (s : State) : State :=
  match s.portal p, s.node g n with
  | some q, some x =>
    if q.record.val.present && q.record.val.drive == .module g n then
      if q.state = .fault then
        if x.liveness == .live || x.liveness == .quiet then
          regainDrive p (withPortal p (fun q => { q with contact := c, button := b, heard := true }) s)
        else s
      else takeInputs p c b (withPortal p (fun q => { q with heard := true }) s)
    else s
  | _, _ => s

/-- The portal takes its inputs from its lines (R185). -/
def Portal.onLines (q : Portal) : Bool := q.record.val.present && q.record.val.drive == .lines

/-- A settled change of a CONTACT or EXIT_BUTTON line of portal `p` (R74, R185). -/
def lineChanged (p : Nat) (s : State) : State :=
  match s.portal p with
  | none => s
  | some q => if q.onLines then takeInputs p (s.lineContact p) (s.lineButton p) s else s

/-- A line of portal `p` has been assigned or has settled: its level is no event, and with both lines
assigned a portal in FAULT regains its drive (R85, R184, R185). The button follows an EXIT_BUTTON line that settles
before the CONTACT line also after a start (R74, R91; log 46). -/
def lineAssigned (p : Nat) (s : State) : State :=
  match s.portal p with
  | none => s
  | some q =>
    if q.onLines then
      let s := withPortal p (fun q =>
        { q with contact := s.lineContact p, button := s.lineButton p }) s
      if q.state = .fault && s.driveAvailable p then regainDrive p s else s
    else s

/-- A line of portal `p` has been unassigned: with no drive left the portal loses it (R84, R188). -/
def lineUnassigned (p : Nat) (s : State) : State :=
  match s.portal p with
  | none => s
  | some q =>
    if q.onLines then
      if q.state != .fault && !s.driveAvailable p then loseDrive p s
      else
        withPortal p (fun q => { q with contact := s.lineContact p, button := s.lineButton p }) s
    else s

/-! ## A record committed (R71, R88) -/

/-- The inputs of a portal whose drive is not there: a module's are UNKNOWN, since it reports no more, and a
LOCAL portal's stay as its lines report them (R74, R84, R88; log 41). -/
def Portal.undriven (q : Portal) : Portal :=
  match q.record.val.drive with
  | .module _ _ => { q with state := .fault, contact := .unknown, button := .unknown, heard := false }
  | .lines => { q with state := .fault, heard := false }

/-- The copy takes a record and the portal is placed (R88). -/
def placePortal (p : Nat) (new : Marked PortalRec) (s : State) : State :=
  match s.portal p with
  | none => s
  | some q =>
    let old := q.record.val
    let r := new.val
    let s := endOpening p s
    let s := if old.present && old.drive == .lines && !(r.present && r.drive == .lines) then
        withPortal p (fun q => { q with strikeReleased := false }) (strikeLine p false s)
      else s
    let taken := !old.present || old.drive != r.drive
    let inputs : Contact × Button × Bool :=
      if !r.present then (.unknown, .unknown, false)
      else
        match r.drive with
        | .lines => (s.lineContact p, s.lineButton p, false)
        | .module _ _ => if taken then (.unknown, .unknown, false) else (q.contact, q.button, q.heard)
    let s := withPortal p (fun q =>
      { q with record := new, contact := inputs.1, button := inputs.2.1, heard := inputs.2.2 }) s
    if r.present && s.driveAvailable p then
      if s.site.mode = .evacuate then enterFree p true s
      else if q.state = .free then orderStrike p true false s
      else placeByContact p (orderStrike p false false s)
    else withPortal p Portal.undriven s

/-! ## The events of the Portal Controller -/

/-- OPEN_ORDER (R76). -/
def execOpenOrder (s : State) : Answer :=
  .next <|
    match s.portals.orders with
    | .open_ p v :: rest => openPortal p v { s with portals := { s.portals with orders := rest } }
    | _ => s

/-- DROP_PENDING_VISIT (R83). -/
def execDropPendingVisit (s : State) : Answer :=
  .next <|
    match s.portals.orders with
    | .drop p v :: rest =>
      withPortal p (fun q => if q.pending = some v then { q with pending := none } else q)
        { s with portals := { s.portals with orders := rest } }
    | _ => s

/-- A timer kept in site seconds runs and has reached its moment (R193). -/
def timerDue (t : Option Nat) (now : Nat) : Bool :=
  match t with
  | some e => e ≤ now
  | none => false

/-- PASS_TIMER_EXPIRY (R78). -/
def execPassTimerExpiry (p : Nat) (s : State) : Answer :=
  .next <|
    match s.portal p with
    | some q =>
      if q.state = .opening && timerDue q.passTimer s.site.seconds then expireOpening p s else s
    | none => s

/-- HOLD_TIMER_EXPIRY (R80). -/
def execHoldTimerExpiry (p : Nat) (s : State) : Answer :=
  .next <|
    match s.portal p with
    | some q =>
      if q.state = .passage && timerDue q.holdTimer s.site.seconds then
        putNotice (.portalHeldOpen p)
          (withPortal p (fun q => { q with state := .heldOpen, holdTimer := none }) s)
      else s
    | none => s

/-- Take the outcome of a STRIKE command (R75, R79). -/
def takeStrikeOutcome (g : Seg) (p : Nat) (opens : Bool) (number : Byte) (o : TxOutcome) (s : State) :
    State :=
  match s.portal p with
  | none => s
  | some q =>
    if !q.record.val.present then s
    else
      match o with
      | .noAck | .displaced | .fieldFull =>
        putNotice (.portalDriveFailed p opens o)
          (if opens && q.state = .opening && q.opening = number then
            deliverPortalReports (expireOpening p s)
          else s)
      | .nodeLost | .segmentIsolated =>
        match q.record.val.drive with
        | .module h _ => if h = g then loseDrive p s else s
        | .lines => s
      | _ => s

/-- STRIKE_OUTCOME (R75). -/
def execStrikeOutcome (g : Seg) (s : State) : Answer :=
  .next <|
    match (s.seg g).toPortals with
    | .outcome (.strike p a n) o :: rest =>
      takeStrikeOutcome g p a n o (s.modSeg g fun x => { x with toPortals := rest })
    | _ => s

/-- PORTAL_DRIVE_LOSS (R84). -/
def execPortalDriveLoss (g : Seg) (s : State) : Answer :=
  .next <|
    match (s.seg g).toPortals with
    | .lost n b :: rest =>
      let s := s.modSeg g fun x => { x with toPortals := rest }
      match b with
      | .portal p =>
        match s.portal p with
        | some q => if q.record.val.drive = .module g n then loseDrive p s else s
        | none => s
      | _ => s
    | _ => s

/-- The portal numbers. -/
def portalNumbers : List Nat := List.range 8

/-- A portal taken FREE as an evacuation begins (R87). -/
def evacuatePortal (s : State) (p : Nat) : State :=
  match s.portal p with
  | some q =>
    if q.record.val.present && q.state != .fault && q.state != .free then enterFree p true s else s
  | none => s

/-- EVACUATION_BEGIN_PORTALS (R87), the portals 0 to 7 in turn (the model's choice, log 37). -/
def execEvacuationBeginPortals (s : State) : Answer :=
  .next <|
    match s.portals.evac with
    | .begin_ :: rest =>
      portalNumbers.foldl evacuatePortal { s with portals := { s.portals with evac := rest } }
    | _ => s

/-- A portal leaves FREE as an evacuation ends (R87). -/
def unevacuatePortal (s : State) (p : Nat) : State :=
  match s.portal p with
  | some q => if q.state = .free then leaveFree p true s else s
  | none => s

/-- EVACUATION_END_PORTALS (R87), the portals 0 to 7 in turn (the model's choice, log 37). -/
def execEvacuationEndPortals (s : State) : Answer :=
  .next <|
    match s.portals.evac with
    | .end_ :: rest =>
      portalNumbers.foldl unevacuatePortal { s with portals := { s.portals with evac := rest } }
    | _ => s

/-! ## Requests (R88 to R90) -/

/-- PUT_PORTAL (R88). -/
def execPutPortal (s : State) : Answer :=
  .next <| takingStore 0x40 (fun body => tested (parsePutPortal body) setupOnly fun x =>
    unlessFaulted fun s =>
      if ((s.portal x.1).map fun q => q.state.busy) = some true then reply .inUse [] s
      else writeItem (.portal x.1) (.portal x.2) s) s

/-- Take up a request with an action when its action is the row's; a body that does not fit is answered by
whichever row takes it up (log 32). -/
def takingAction (kind width high actions action : Nat) (k : Nat → State → State) (s : State) : State :=
  taking kind (fun body s =>
    match parseAction width high actions body with
    | .ok (n, a) =>
      if a = action then tested (.ok n : Parsed Nat) outsideStarting k s else s
    | .error e => reply e [] s) s

/-- The tests of SET_PORTAL after its mode (R89): present, not held by an evacuation, not in FAULT. -/
def setPortal (evacuationRefuses : Bool) (k : Nat → Portal → State → State) (p : Nat) (s : State) :
    State :=
  match s.portal p with
  | none => reply .notFound [] s
  | some q =>
    if !q.record.val.present then reply .notFound [] s
    else if evacuationRefuses && s.site.mode == .evacuate then reply .evacuation [] s
    else if q.state = .fault then reply .wrongState [] s
    else k p q s

/-- SET_PORTAL SECURE (R89). -/
def execSetPortalSecure (s : State) : Answer :=
  .next <| takingAction 0x41 1 7 3 0 (setPortal true fun p q s =>
    reply .ok [] (if q.state = .free then leaveFree p false s else s)) s

/-- SET_PORTAL FREE (R89). -/
def execSetPortalFree (s : State) : Answer :=
  .next <| takingAction 0x41 1 7 3 1 (setPortal false fun p q s =>
    reply .ok [] (if q.state = .free then s else enterFree p false s)) s

/-- SET_PORTAL MOMENTARY (R89). -/
def execSetPortalMomentary (s : State) : Answer :=
  .next <| takingAction 0x41 1 7 3 2 (setPortal true fun p q s =>
    if q.state = .secure then reply .ok [] (openPortal p none s) else reply .wrongState [] s) s

/-- The fields of a GET_PORTAL reply (R90). A stopped pass or hold timer is all ones, which R213 does not say
(log 18). -/
def getPortalBody (p : Nat) (q : Portal) (s : State) : List Byte :=
  q.record.val.bytes ++ flag q.record.damaged ++ u8 q.state.code ++ idOr q.pending ++
    u8 q.contact.code ++ u8 q.button.code ++ u8 (if q.strikeReleased then 0 else 1) ++
    u16Or (remaining s.site.seconds q.passTimer) ++ u16Or (remaining s.site.seconds q.holdTimer) ++
    flag (s.driveAvailable p)

/-- GET_PORTAL (R90). -/
def execGetPortal (s : State) : Answer :=
  .next <| taking 0x42 (fun body => tested (parseOne 1 0 7 body) outsideStarting fun p s =>
    match s.portal p with
    | some q => reply .ok (getPortalBody p q s) s
    | none => reply .badValue [] s) s

end Sys2Proof.Machine
end

