-- ==== Sys2Proof/Machine/Units.lean ====
section
/-! DEFINITION. The Unit Door Controller: presence, settling, latch reports, releases, overlock, node loss,
record changes, service, and the unit requests (R92 to R116). -/

namespace Sys2Proof.Machine

/-! ## Settling (R93, R94) -/

/-- A tenant is present: in the presence set (R93); tenant 0 never is. -/
def State.present (s : State) (tenant : Nat) : Bool :=
  tenant != 0 && s.units.presence.contains tenant

/-- The closed-door state of an entry (R94). -/
def State.closedState (s : State) (r : UnitRec) : UnitState :=
  if s.present r.tenant && !r.overlocked then .disarmed else .armed

/-- Place an entry in its closed-door state (R94). -/
def placeClosed (u : Nat) (s : State) : State :=
  withUnit u (fun e => { e with state := s.closedState e.record }) s

/-- Place an entry in its open-door state, with a UNIT_LEFT_OPEN notice of the cause when that is LEFT_OPEN
(R94). -/
def placeOpen (u : Nat) (cause : LeftOpenCause) (s : State) : State :=
  match s.unit u with
  | none => s
  | some e =>
    if s.present e.record.tenant then withUnit u (fun e => { e with state := .open_ }) s
    else
      putNotice (.unitLeftOpen u e.record.tenant cause)
        (withUnit u (fun e => { e with state := .leftOpen }) s)

/-- Place an entry by its contact (R107, R111, R112). -/
def placeByDoor (u : Nat) (cause : LeftOpenCause) (s : State) : State :=
  match s.unit u with
  | none => s
  | some e => if e.contact = .open_ then placeOpen u cause s else placeClosed u s

/-- Queue a RELOCK for an entry: its command number goes up by one, and relock owed is set (R94, R99, R103,
R111). -/
def queueRelock (u : Nat) (s : State) : State :=
  match s.unit u with
  | none => s
  | some e =>
    let n := e.number + 1
    submit e.record.seg e.record.node (.command (.relock e.record.channel)) .normal
      (.relock u (some n))
      (withUnit u (fun e => { e with number := n, relockOwed := true }) s)

/-- Queue a RELOCK that no entry follows (R108, R109). -/
def queueUntracked (u : Nat) (r : UnitRec) (s : State) : State :=
  submit r.seg r.node (.command (.relock r.channel)) .normal (.relock u none) s

/-- Cancel the current RELEASE of an entry (R99, R108, R109). -/
def cancelRelease (u : Nat) (e : UnitEntry) (s : State) : State :=
  cancel e.record.seg (.release u e.number) s

/-- An entry goes from DISARMED to ARMED: with its latch reported RELEASED a RELOCK is queued (R94). -/
def armDisarmed (u : Nat) (e : UnitEntry) (s : State) : State :=
  let s := withUnit u (fun e => { e with state := .armed }) s
  if e.latch = .released then queueRelock u s else s

/-! ## Latch reports (R95 to R97, R107) -/

/-- A contact opening (R96). -/
def unitOpens (u : Nat) (s : State) : State :=
  match s.unit u with
  | none => s
  | some e =>
    let opened (s : State) : State :=
      toVisitsOpened u e.record.tenant
        (withUnit u (fun e => { e with state := .open_, timer := none }) s)
    let forced (s : State) : State :=
      putNotice (.unitForced u e.record.tenant e.state)
        (withUnit u (fun e => { e with state := .forced }) s)
    match e.state with
    | .released | .releasing => opened s
    | .disarmed => if e.latch = .released then opened s else forced s
    | .armed =>
      if e.relockOwed then
        putNotice (.unitLeftOpen u e.record.tenant .relockOwed)
          (withUnit u (fun e => { e with state := .leftOpen }) s)
      else forced s
    | _ => s

/-- A contact closing (R97). -/
def unitCloses (u : Nat) (s : State) : State :=
  match s.unit u with
  | none => s
  | some e =>
    match e.state with
    | .open_ | .leftOpen => placeClosed u s
    | _ => s

/-- One channel's report reaches the entry that names it (R95, R107). -/
def unitReport (u : Nat) (opened released : Bool) (s : State) : State :=
  match s.unit u with
  | none => s
  | some e =>
    let c : Contact := if opened then .open_ else .closed
    let l : Latch := if released then .released else .engaged
    if e.state = .unknown then
      placeByDoor u .recovery (withUnit u (fun e => { e with contact := c, latch := l }) s)
    else
      let s := withUnit u (fun e =>
        { e with latch := l, relockOwed := if released then e.relockOwed else false }) s
      if e.contact = c then s
      else
        let s := withUnit u (fun e => { e with contact := c }) s
        if opened then unitOpens u s else unitCloses u s

/-- The unit whose present entry names a latch channel (R2, R92). -/
def State.unitAt (s : State) (g : Seg) (n ch : Nat) : Option Nat :=
  (s.units.entries.find? fun e =>
    e.2.record.seg == g && e.2.record.node == n && e.2.record.channel == ch).map Prod.fst

/-- Bit `i` of a two-byte set of flags. -/
def flagBit (w i : Nat) : Bool := w / 2 ^ i % 2 == 1

/-- A STATUS of a LATCH node (R95): the channels in order 0..15. The first byte of the contact flags and of the
latch flags holds channels 8..15, the second 0..7: R215 gives these two bytes no order (log 44). A byte that the
body of a former enrolment does not hold reads as 0 (log 22). -/
def latchStatus (g : Seg) (n : Nat) (body : List Byte) (s : State) : State :=
  let contacts := beNat [body.getD 0 0, body.getD 1 0]
  let latches := beNat [body.getD 2 0, body.getD 3 0]
  (List.range 16).foldl (fun s ch =>
    match s.unitAt g n ch with
    | some u => unitReport u (flagBit contacts ch) (flagBit latches ch) s
    | none => s) s

/-! ## Orders of the Visit Engine (R98, R99) -/

/-- Disarm one ARMED entry that is not overlocked (R98). -/
def disarmEntry (e : UnitEntry) : UnitEntry :=
  if e.state = .armed && !e.record.overlocked then { e with state := .disarmed } else e

/-- A disarm order (R98). -/
def disarmTenant (t : Nat) (s : State) : State :=
  withUnits (fun tbl => tbl.map fun e =>
      if e.2.record.tenant = t then (e.1, disarmEntry e.2) else e)
    { s with units := { s.units with presence := insertNat t s.units.presence } }

/-- Rearm one entry by its state (R99). -/
def rearm (u : Nat) (s : State) : State :=
  match s.unit u with
  | none => s
  | some e =>
    match e.state with
    | .disarmed => armDisarmed u e s
    | .releasing =>
      withUnit u (fun e => { e with state := .armed }) (queueRelock u (cancelRelease u e s))
    | .released =>
      withUnit u (fun e => { e with state := .armed, timer := none }) (queueRelock u s)
    | .open_ =>
      putNotice (.unitLeftOpen u e.record.tenant .closure)
        (withUnit u (fun e => { e with state := .leftOpen }) s)
    | _ => s

/-- The units whose present entries name a tenant, ascending (R99). -/
def State.unitsOf (s : State) (t : Nat) : List Nat :=
  (s.units.entries.filter fun e => e.2.record.tenant == t).map Prod.fst

/-- A closure order (R99). -/
def closeTenant (t : Nat) (visitLeft : Bool) (s : State) : State :=
  if visitLeft then s
  else
    let s := { s with units := { s.units with presence := s.units.presence.filter fun x => x != t } }
    (s.unitsOf t).foldl (fun s u => rearm u s) s

/-- Take one order of the Visit Engine. -/
def takeUnitOrder (s : State) : UnitOrder → State
  | .disarm t => disarmTenant t s
  | .closure t l => closeTenant t l s

/-- The Unit Door Controller takes every order on its way, in order: used where a later notice of the same
step must follow the UNIT_LEFT_OPEN that a closure causes (R54, R104; log 5). -/
def deliverUnitOrders (s : State) : State :=
  s.units.orders.foldl takeUnitOrder { s with units := { s.units with orders := [] } }

/-- DISARM_ORDER (R98). -/
def execDisarmOrder (s : State) : Answer :=
  .next <|
    match s.units.orders with
    | .disarm t :: rest => disarmTenant t { s with units := { s.units with orders := rest } }
    | _ => s

/-- CLOSURE_ORDER (R99). -/
def execClosureOrder (s : State) : Answer :=
  .next <|
    match s.units.orders with
    | .closure t l :: rest => closeTenant t l { s with units := { s.units with orders := rest } }
    | _ => s

/-! ## Release (R100 to R103) -/

/-- Refuse a release ask: a DENY_BLINK and a RELEASE_REFUSED notice (R100). Its unit number is absent where no
present entry names the channel, whatever the reason (R114; log 35). -/
def refuseAsk (g : Seg) (n ch : Nat) (why : Reason) (s : State) : State :=
  let u := s.unitAt g n ch
  let t := (u.bind s.unit).bind fun e => if e.record.tenant = 0 then none else some e.record.tenant
  putNotice (.releaseRefused g n ch u t why)
    (submit g n (.command (.denyBlink ch)) .normal .denyBlink s)

/-- Queue a RELEASE for a DISARMED entry (R100 step 3). -/
def queueRelease (u : Nat) (e : UnitEntry) (s : State) : State :=
  let n := e.number + 1
  submit e.record.seg e.record.node (.command (.release e.record.channel)) .normal (.release u n)
    (withUnit u (fun e => { e with number := n, relockOwed := false, state := .releasing }) s)

/-- A RELEASE_ASK for a channel (R100). -/
def releaseAsk (g : Seg) (n ch : Nat) (s : State) : State :=
  match s.site.mode with
  | .evacuate => refuseAsk g n ch .evacuation s
  | .run =>
    match s.unitAt g n ch with
    | none => refuseAsk g n ch .noUnit s
    | some u =>
      match s.unit u with
      | none => s
      | some e =>
        match e.state with
        | .disarmed => queueRelease u e s
        | .armed => refuseAsk g n ch (if e.record.overlocked then .overlocked else .noVisit) s
        | _ => s
  | _ => refuseAsk g n ch .held s

/-- The outcome of a RELEASE (R101). -/
def takeReleaseOutcome (u : Nat) (number : Byte) (o : TxOutcome) (s : State) : State :=
  match s.unit u with
  | none => s
  | some e =>
    if e.state = .releasing && e.number = number then
      match o with
      | .ok =>
        withUnit u (fun e =>
          { e with
            state := .released
            timer := some (s.site.seconds + s.site.params.val.releaseTime) }) s
      | .noAck | .nodeLost | .segmentIsolated | .displaced | .fieldFull =>
        putNotice (.releaseFailed u e.record.tenant .ask o) (placeClosed u s)
      | .cancelled | .noAnswer => s
    else s

/-- RELEASE_OUTCOME (R101). -/
def execReleaseOutcome (g : Seg) (s : State) : Answer :=
  .next <|
    match (s.seg g).toUnits with
    | .outcome (.release u n) o :: rest =>
      takeReleaseOutcome u n o (s.modSeg g fun x => { x with toUnits := rest })
    | _ => s

/-- The outcome of a RELOCK, whatever it is, clears relock owed when its number is current (R103). -/
def takeRelockOutcome (u : Nat) (number : Option Byte) (s : State) : State :=
  withUnit u (fun e => if number = some e.number then { e with relockOwed := false } else e) s

/-- RELOCK_OUTCOME (R103). -/
def execRelockOutcome (g : Seg) (s : State) : Answer :=
  .next <|
    match (s.seg g).toUnits with
    | .outcome (.relock u n) _ :: rest =>
      takeRelockOutcome u n (s.modSeg g fun x => { x with toUnits := rest })
    | _ => s

/-- DENY_BLINK_OUTCOME (R100): taken and ignored. -/
def execDenyBlinkOutcome (g : Seg) (s : State) : Answer :=
  .next <|
    match (s.seg g).toUnits with
    | .outcome .denyBlink _ :: rest => s.modSeg g fun x => { x with toUnits := rest }
    | _ => s

/-- The outcome of a service RELEASE (R110). -/
def takeServiceOutcome (u : Nat) (number : Byte) (o : TxOutcome) (s : State) : State :=
  match s.unit u with
  | none => s
  | some e =>
    if o != .ok && e.state == .service && e.number == number then
      putNotice (.releaseFailed u e.record.tenant .service o) s
    else s

/-- SERVICE_RELEASE_OUTCOME (R110). -/
def execServiceReleaseOutcome (g : Seg) (s : State) : Answer :=
  .next <|
    match (s.seg g).toUnits with
    | .outcome (.serviceRelease u n) o :: rest =>
      takeServiceOutcome u n o (s.modSeg g fun x => { x with toUnits := rest })
    | _ => s

/-- RELEASE_TIMER_EXPIRY (R102). -/
def execReleaseTimerExpiry (u : Nat) (s : State) : Answer :=
  .next <|
    match s.unit u with
    | none => s
    | some e =>
      if e.state = .released && timerDue e.timer s.site.seconds then
        placeClosed u (withUnit u (fun e => { e with timer := none }) s)
      else s

/-! ## Node loss (R106) -/

/-- An entry whose latch node is lost (R106). -/
def UnitEntry.lose (e : UnitEntry) : UnitEntry :=
  { e with state := .unknown, contact := .unknown, latch := .unknown, timer := none, relockOwed := false }

/-- A latch node is lost to this block (R106). -/
def loseLatchNode (g : Seg) (n : Nat) (s : State) : State :=
  withUnits (fun tbl => tbl.map fun e =>
    if e.2.record.seg = g && e.2.record.node = n then (e.1, e.2.lose) else e) s

/-- LATCH_NODE_LOSS (R106). -/
def execLatchNodeLoss (g : Seg) (s : State) : Answer :=
  .next <|
    match (s.seg g).toUnits with
    | .lost n _ :: rest => loseLatchNode g n (s.modSeg g fun x => { x with toUnits := rest })
    | _ => s

/-! ## Record changes (R105, R108, R109) -/

/-- A node's report is held: it is LIVE or QUIET and report held is yes (R107). -/
def Node.holds (x : Node) : Bool :=
  x.entry.kind == .latch && x.reportHeld && (x.liveness == .live || x.liveness == .quiet)

/-- An entry newly UNKNOWN is evaluated at once when its node's report is held (R107, R108). -/
def evaluateHeld (u : Nat) (r : UnitRec) (s : State) : State :=
  match s.node r.seg r.node with
  | some x =>
    if x.holds then
      unitReport u (flagBit (beNat (x.mirror.take 2)) r.channel)
        (flagBit (beNat (x.mirror.drop 2)) r.channel) s
    else s
  | none => s

/-- A fresh entry (R108 step 1, R116). -/
def UnitEntry.fresh (r : UnitRec) (number : Byte) : UnitEntry :=
  ⟨r, .unknown, .unknown, .unknown, false, none, number⟩

/-- A current RELEASE is cancelled, and a latch it may have released is relocked, untracked (R108 step 2, R109).
The model reads 'current' as R101 does: the entry is RELEASING (log 35). -/
def abandonRelease (u : Nat) (e : UnitEntry) (s : State) : State :=
  match e.state with
  | .releasing => queueUntracked u e.record (cancelRelease u e s)
  | .released => queueUntracked u e.record s
  | _ => s

/-- The overlocked field has changed (R105). -/
def overlockChanged (u : Nat) (set : Bool) (s : State) : State :=
  match s.unit u with
  | none => s
  | some e =>
    if set then
      if e.state = .disarmed then armDisarmed u e s else s
    else if e.state = .armed && s.present e.record.tenant then
      withUnit u (fun e => { e with state := .disarmed }) s
    else s

/-- A unit record commits (R108). -/
def applyUnit (u : Nat) (r : UnitRec) (s : State) : State :=
  match s.unit u with
  | none => evaluateHeld u r (withUnits (fun t => t.put u (UnitEntry.fresh r 0)) s)
  | some e =>
    let old := e.record
    if old.seg ≠ r.seg || old.node ≠ r.node || old.channel ≠ r.channel then
      evaluateHeld u r
        (withUnits (fun t => t.put u (UnitEntry.fresh r e.number)) (abandonRelease u e s))
    else
      let s := withUnit u (fun e => { e with record := r }) s
      if old.tenant ≠ r.tenant then
        let s := rearm u s
        if s.present r.tenant then withUnit u disarmEntry s else s
      else if old.overlocked ≠ r.overlocked then overlockChanged u r.overlocked s
      else s

/-- An entry becomes absent (R109). -/
def dropUnitEntry (u : Nat) (s : State) : State :=
  match s.unit u with
  | none => s
  | some e => withUnits (fun t => t.remove u) (abandonRelease u e s)

/-! ## Requests (R110 to R112, R115) -/

/-- The record of a unit must be present (R110 step 3, R115). -/
def withUnitRecord (u : Nat) (k : UnitRec → UnitEntry → State → State) (s : State) : State :=
  match s.store.unitSlot u, s.unit u with
  | none, _ => reply .notFound [] s
  | some .damaged, _ => reply .recordDamaged [] s
  | some (.present r _), some e => k r e s
  | some (.present _ _), none => reply .notFound [] s

/-- UNIT_SERVICE BEGIN takes an entry into SERVICE (R110). -/
def beginService (u : Nat) (e : UnitEntry) (s : State) : State :=
  let n := e.number + 1
  submit e.record.seg e.record.node (.command (.release e.record.channel)) .normal
    (.serviceRelease u n)
    (withUnit u (fun e =>
      { e with number := n, relockOwed := false, timer := none, state := .service }) s)

/-- UNIT_SERVICE BEGIN (R110). -/
def execUnitServiceBegin (s : State) : Answer :=
  .next <| takingAction 0x49 2 4095 2 0 (fun u => withUnitRecord u fun _ e s =>
    match e.state with
    | .unknown => reply .nodeLost [] s
    | .service => reply .ok [] s
    | _ => reply .ok [] (beginService u e s)) s

/-- UNIT_SERVICE END (R111). -/
def execUnitServiceEnd (s : State) : Answer :=
  .next <| takingAction 0x49 2 4095 2 1 (fun u => withUnitRecord u fun _ e s =>
    if e.state = .service then reply .ok [] (placeByDoor u .serviceEnd (queueRelock u s))
    else reply .wrongState [] s) s

/-- UNIT_ALARM_RESET (R112). -/
def execUnitAlarmReset (s : State) : Answer :=
  .next <| taking 0x4A (fun body => tested (parseUnitNumber body) outsideStarting fun u =>
    withUnitRecord u fun _ e s =>
      if e.state = .forced then reply .ok [] (placeByDoor u .alarmReset s)
      else reply .notAlarmed [] s) s

/-- The fields of a GET_UNIT reply (R115); a stopped timer is all ones (log 18). -/
def getUnitBody (u : Nat) (r : UnitRec) (e : UnitEntry) (s : State) : List Byte :=
  u16 u ++ r.bytes ++ u8 e.state.code ++ u8 e.contact.code ++ u8 e.latch.code ++ flag e.relockOwed ++
    u8Or (remaining s.site.seconds e.timer) ++ flag (s.present e.record.tenant)

/-- GET_UNIT (R115). -/
def execGetUnit (s : State) : Answer :=
  .next <| takingStore 0x48 (fun body => tested (parseUnitNumber body) outsideStarting fun u =>
    withUnitRecord u fun r e s => reply .ok (getUnitBody u r e s) s) s

end Sys2Proof.Machine
end

