-- ==== Sys2Proof/Machine/Lifts.lean ====
section
/-! DEFINITION. The Lift Scheduler: car choice, the car state machine, expiry, withdrawal, cars out of
service, drain and recall, and the lift requests (R117 to R142). -/

namespace Sys2Proof.Machine

/-! ## Commands and floor sets (R121, R132) -/

/-- Send a command to a car's panel, URGENT, with the car and the command as its token (R132). -/
def liftSend (c : Nat) (cmd : NodeCommand) (s : State) : State :=
  match s.car c with
  | none => s
  | some x => submit x.record.val.seg x.record.val.node (.command cmd) .urgent (.lift c cmd) s

/-- The set of destinations of calls (R121). -/
def floorSet (calls : List Call) : Word16 :=
  calls.foldl (fun w k => w ||| (1#16 <<< k.dest)) 0#16

/-- ENABLE_FLOORS with the set of the car's trip (R121, R132). -/
def sendEnable (c : Nat) (s : State) : State :=
  match (s.car c).bind Car.trip with
  | none => s
  | some t => liftSend c (.enableFloors (floorSet t.calls)) s

/-- An IDLE car with queued calls is dispatched to its head call's origin (R125). -/
def idleDispatch (c : Nat) (s : State) : State :=
  match s.car c with
  | none => s
  | some x =>
    match x.state, x.queue with
    | .idle, k :: _ =>
      withCar c (fun x => { x with state := .toPickup, target := some k.origin })
        (liftSend c (.dispatch k.origin) s)
    | _, _ => s

/-- STAND is sent, the target becomes absent and the car enters IDLE; R125 then applies. -/
def standIdle (c : Nat) (s : State) : State :=
  idleDispatch c
    (withCar c (fun x => { x with target := none, state := .idle }) (liftSend c .stand s))

/-! ## Car choice (R120, R123) -/

/-- A car serves a call from one floor to another (R123). -/
def Car.serves (x : Car) (origin dest : Nat) : Bool :=
  x.record.val.present && x.state != .out && x.state != .recall && x.state != .parked &&
    x.record.val.low ≤ origin && origin ≤ x.record.val.high &&
    x.record.val.low ≤ dest && dest ≤ x.record.val.high

/-- A serving car with room in its queue (R123). -/
def Car.eligible (x : Car) (origin dest : Nat) : Bool :=
  x.serves origin dest && x.queue.length < Config.maxCalls

/-- The eligible car with the fewest queued calls among cars numbered from `c`, the lowest number first
(R123). -/
def fewestQueued (origin dest : Nat) : Nat → List Car → Option (Nat × Nat)
  | _, [] => none
  | c, x :: rest =>
    if x.eligible origin dest then
      match fewestQueued origin dest (c + 1) rest with
      | some (d, n) => if n < x.queue.length then some (d, n) else some (c, x.queue.length)
      | none => some (c, x.queue.length)
    else fewestQueued origin dest (c + 1) rest

/-- The car a call goes to (R123). -/
def State.chooseCar (s : State) (origin dest : Nat) : Option Nat :=
  (fewestQueued origin dest 0 s.lifts.cars).map Prod.fst

/-- Insert a call after the last call of equal or higher priority (R120). -/
def insertCall (k : Call) : List Call → List Call
  | [] => [k]
  | x :: rest => if x.priority < k.priority then k :: x :: rest else x :: insertCall k rest

/-- The answer to a placement (R122, R123). -/
inductive Placed where
  | boarded (car : Nat)
  | queued (car : Nat)
  | noCar
  | callsFull
  deriving DecidableEq, Repr

/-- The call joins the boarding trip of a car at once (R123). -/
def Car.joinsAtOnce (x : Car) (k : Call) : Bool :=
  x.state == .boarding &&
    (match x.trip with
     | some t => t.floor == k.origin && t.calls.length < t.capacity
     | none => false)

/-- A call joins car `c`: its trip at once, or its queue (R123). -/
def joinCar (c : Nat) (x : Car) (k : Call) (s : State) : Placed × State :=
  if x.joinsAtOnce k then
    (.boarded c, sendEnable c (withCar c (fun x =>
      { x with trip := x.trip.map fun t => { t with calls := t.calls ++ [k] } }) s))
  else
    (.queued c, idleDispatch c (withCar c (fun x => { x with queue := insertCall k x.queue }) s))

/-- A call is placed by car choice; a refused call leaves no trace (R123). -/
def placeCall (k : Call) (s : State) : Placed × State :=
  match s.chooseCar k.origin k.dest with
  | some c =>
    match s.car c with
    | some x => joinCar c x k s
    | none => (.noCar, s)
  | none =>
    (if s.lifts.cars.any fun x => x.serves k.origin k.dest then .callsFull else .noCar, s)

/-! ## Calls that leave (R127, R131) -/

/-- The car numbers. -/
def carNumbers : List Nat := List.range 4

/-- The car whose queue holds a call. -/
def State.queuedOn (s : State) (id : Nat) : Option Nat :=
  s.lifts.cars.findIdx? fun x => x.queue.any fun k => k.id == id

/-- The car whose trip holds a call. -/
def State.boardedOn (s : State) (id : Nat) : Option Nat :=
  s.lifts.cars.findIdx? fun x =>
    match x.trip with
    | some t => t.calls.any fun k => k.id == id
    | none => false

/-- The head call of a car in TO_PICKUP has left its queue (R127). -/
def headLeft (c : Nat) (s : State) : State :=
  match s.car c with
  | none => s
  | some x =>
    if x.state = .toPickup then
      match x.queue with
      | [] => standIdle c s
      | k :: _ =>
        if x.target = some k.origin then s
        else
          withCar c (fun x => { x with target := some k.origin })
            (liftSend c (.dispatch k.origin) s)
    else s

/-- A call leaves the queue it stands in; when it was the head, R127 applies. -/
def leaveQueue (c id : Nat) (s : State) : State :=
  match s.car c with
  | none => s
  | some x =>
    let s := withCar c (fun x => { x with queue := x.queue.filter fun k => k.id != id }) s
    if (x.queue.head?.map Call.id) = some id then headLeft c s else s

/-- A call leaves the trip it stands in; ENABLE_FLOORS is sent with the remaining set (R131). -/
def leaveTrip (c id : Nat) (s : State) : State :=
  sendEnable c (withCar c (fun x =>
    { x with trip := x.trip.map fun t => { t with calls := t.calls.filter fun k => k.id != id } }) s)

/-- A call is withdrawn where it stands; one that is not held is ignored (R131). -/
def withdrawCall (s : State) (id : Nat) : State :=
  match s.queuedOn id with
  | some c => leaveQueue c id s
  | none =>
    match s.boardedOn id with
    | some c => leaveTrip c id s
    | none => s

/-- The Lift Scheduler takes every withdrawal on its way, in order: a withdrawal is sent before the
hand-over that follows it (R60, R122; log 5). -/
def deliverWithdrawals (s : State) : State :=
  s.lifts.withdrawals.foldl withdrawCall { s with lifts := { s.lifts with withdrawals := [] } }

/-- A call is handed over at intake: one already held under its id is removed first, then it is placed
(R120, R123). -/
def handOver (k : Call) (s : State) : Placed × State := placeCall k (withdrawCall s k.id)

/-! ## Cancellation and re-placement (R124, R133, R135, R136) -/

/-- A call of car `c` that has left its place is cancelled: a report and a CALL_CANCELLED notice. -/
def cancelCall (c : Nat) (why : CancelReason) (boarded : Bool) (s : State) (k : Call) : State :=
  putNotice (.callCancelled k.id c k.origin k.dest why boarded) (toVisitsCall (.cancelled k.id why) s)

/-- A queued call of car `c` is placed again (R124). -/
def replaceCall (c : Nat) (s : State) (k : Call) : State :=
  match placeCall k s with
  | (.boarded n, s) => toVisitsCall (.boarded k.id n) s
  | (.queued n, s) => toVisitsCall (.replaced k.id n) s
  | (_, s) => cancelCall c .noCar false s k

/-- The calls of a trip. -/
def tripCalls : Option Trip → List Call
  | some t => t.calls
  | none => []

/-- A car is taken OUT in the order of R133. A car already OUT is not taken OUT again. -/
def takeOut (c : Nat) (cause : OutCause) (reason : CarReason) (failed : Option (NodeCommand × TxOutcome))
    (s : State) : State :=
  match s.car c with
  | none => s
  | some x =>
    if x.state = .out then s
    else
      let s := withCar c (fun x =>
        { x with
          timer := none, departSent := false, target := none, state := .out, cause := some cause
          lastFloor := if reason = .nodeLoss then none else x.lastFloor
          lastDoorsOpen := if reason = .nodeLoss then none else x.lastDoorsOpen
          trip := none, queue := [] }) s
      let s := putNotice (.carState c x.state .out (some cause) reason failed) s
      let s := (tripCalls x.trip).foldl (cancelCall c .carOut true) s
      x.queue.foldl (replaceCall c) s

/-- The recall target of a car: the recall floor, or the nearest end of its floor range (R136). -/
def recallTarget (floor : Nat) (r : CarRec) : Nat := max r.low (min r.high floor)

/-- The recall floor of the evacuation: the one read when it began, or, while its order is on its way, the one
the order is about to read (R134, R136, R196; log 36). -/
def State.recallFloor (s : State) : Nat :=
  if s.lifts.orders.contains .evacBegin then s.site.params.val.recallFloor else s.lifts.recallFloor

/-- RECALL is sent and the car enters RECALL (R134, R136). -/
def recallCar (c : Nat) (s : State) : State :=
  match s.car c with
  | none => s
  | some x =>
    let f := recallTarget s.recallFloor x.record.val
    withCar c (fun x => { x with target := some f, state := .recall }) (liftSend c (.recall f) s)

/-- A car leaves OUT (R134). -/
def returnCar (c : Nat) (s : State) : State :=
  let s := withCar c (fun x => { x with cause := none }) s
  if s.site.mode = .evacuate then
    putNotice (.carState c .out .recall none .return_ none) (recallCar c s)
  else putNotice (.carState c .out .idle none .return_ none) (standIdle c s)

/-! ## Panel reports (R118, R125 to R129, R137) -/

/-- Take calls in queue order whose origin is the floor, up to a number of them: those taken and those left
(R126). -/
def takeCalls (floor : Nat) : Nat → List Call → List Call × List Call
  | _, [] => ([], [])
  | 0, q => ([], q)
  | n + 1, k :: rest =>
    if k.origin = floor then
      let r := takeCalls floor n rest
      (k :: r.1, r.2)
    else
      let r := takeCalls floor (n + 1) rest
      (r.1, k :: r.2)

/-- An arrival at the target floor in TO_PICKUP builds a trip (R126). -/
def buildTrip (c : Nat) (x : Car) (floor : Nat) (s : State) : State :=
  let r := takeCalls floor x.record.val.capacity x.queue
  if r.1.isEmpty then standIdle c s
  else
    let s := withCar c (fun x =>
      { x with
        queue := r.2, trip := some ⟨r.1, floor, x.record.val.capacity⟩, target := none
        state := .boarding, departSent := false
        timer := some (s.site.seconds + x.record.val.boardingWindow) }) s
    sendEnable c (r.1.foldl (fun s k => toVisitsCall (.boarded k.id c) s) s)

/-- The trip ends and the car enters IDLE; R125 then applies (R128, R129). -/
def endTrip (c : Nat) (s : State) : State :=
  idleDispatch c (withCar c (fun x => { x with trip := none, state := .idle }) s)

/-- A boarded call is completed at a floor (R129). -/
def completeCall (c floor : Nat) (s : State) (k : Call) : State :=
  withCar c (fun x =>
    { x with
      trip := x.trip.map fun t => { t with calls := t.calls.filter fun j => j.id != k.id }
      history := (if x.history.length < 4 then x.history else x.history.drop 1) ++
        [⟨k.id, k.origin, k.dest, s.site.seconds⟩] }) (toVisitsCall (.completed k.id floor) s)

/-- An arrival in CARRYING completes the calls for the floor (R129). -/
def completeAt (c floor : Nat) (t : Trip) (s : State) : State :=
  match t.calls.filter fun k => k.dest == floor with
  | [] => s
  | done =>
    let s := done.foldl (completeCall c floor) s
    if (t.calls.filter fun k => k.dest != floor).isEmpty then endTrip c s else sendEnable c s

/-- A STATUS as an event of the car's state (R125 to R129, R137). -/
def panelEvent (c : Nat) (x : Car) (floor : Nat) (doorsOpen : Bool) (s : State) : State :=
  match x.state with
  | .toPickup => if doorsOpen && x.target == some floor then buildTrip c x floor s else s
  | .boarding =>
    if doorsOpen then s
    else
      let s := withCar c (fun x => { x with timer := none }) s
      if (tripCalls x.trip).isEmpty then endTrip c s
      else withCar c (fun x => { x with state := .carrying }) s
  | .carrying =>
    match x.trip with
    | none => endTrip c s
    | some t =>
      if t.calls.isEmpty then endTrip c s else if doorsOpen then completeAt c floor t s else s
  | .recall =>
    if doorsOpen && x.target == some floor then
      withCar c (fun x => { x with state := .parked, target := none }) s
    else s
  | .idle | .parked | .out => s

/-- A STATUS of the panel `g`/`n` bound to car `c` (R118, R134). -/
def panelStatus (g : Seg) (n c floor : Nat) (doorsOpen : Bool) (s : State) : State :=
  match s.car c with
  | none => s
  | some x =>
    if x.record.val.present && x.record.val.seg == g && x.record.val.node == n && floor ≤ 15 then
      let s := withCar c (fun x =>
        { x with lastFloor := some floor, lastDoorsOpen := some doorsOpen }) s
      if x.state = .out then
        match x.cause with
        | some .host => s
        | _ => returnCar c s
      else panelEvent c x floor doorsOpen s
    else s

/-! ## A record committed (R117, R139) -/

/-- A car that is placed in OUT with cause NODE: its position becomes UNKNOWN. -/
def placeOut (c : Nat) (keepHost : Bool) (s : State) : State :=
  withCar c (fun x =>
    { x with
      lastFloor := none, lastDoorsOpen := none
      cause := if keepHost && x.cause = some .host then some .host else some .node })
    (takeOut c .node .record none s)

/-- The copy takes a record and the car is placed (R139). -/
def placeCar (c : Nat) (new : Marked CarRec) (s : State) : State :=
  match s.car c with
  | none => s
  | some x =>
    let old := x.record.val
    let s := withCar c (fun x => { x with record := new }) s
    if !new.val.present then placeOut c false s
    else if !old.present || old.seg != new.val.seg || old.node != new.val.node then placeOut c true s
    else s

/-! ## The events of the Lift Scheduler -/

/-- BOARDING_TIMER_EXPIRY (R128). -/
def execBoardingTimerExpiry (c : Nat) (s : State) : Answer :=
  .next <|
    match s.car c with
    | none => s
    | some x =>
      if x.state = .boarding && timerDue x.timer s.site.seconds then
        withCar c (fun x => { x with departSent := true, timer := none }) (liftSend c .depart s)
      else s

/-- A queued call whose expiry deadline has been reached leaves its queue (R130). -/
def expireCall (c : Nat) (k : Call) (s : State) : State :=
  let s := putNotice (.callExpired k.id c k.origin k.dest (s.site.seconds - k.queuedAt))
    (toVisitsCall (.expired k.id) s)
  leaveQueue c k.id s

/-- CALL_EXPIRY (R130). -/
def execCallExpiry (id : Nat) (s : State) : Answer :=
  .next <|
    match s.queuedOn id with
    | none => s
    | some c =>
      match (s.car c).bind fun x => x.queue.find? fun k => k.id == id with
      | some k => if k.deadline ≤ s.site.seconds then expireCall c k s else s
      | none => s

/-- CALL_WITHDRAWAL (R131). -/
def execCallWithdrawal (s : State) : Answer :=
  .next <|
    match s.lifts.withdrawals with
    | id :: rest => withdrawCall { s with lifts := { s.lifts with withdrawals := rest } } id
    | [] => s

/-- Take the outcome of a lift command (R132). -/
def takeLiftOutcome (c : Nat) (cmd : NodeCommand) (o : TxOutcome) (s : State) : State :=
  match o with
  | .noAck | .displaced | .fieldFull => takeOut c .node .commandFailed (some (cmd, o)) s
  | .nodeLost | .segmentIsolated => takeOut c .node .nodeLoss none s
  | .ok | .noAnswer | .cancelled => s

/-- LIFT_COMMAND_OUTCOME (R132). -/
def execLiftCommandOutcome (g : Seg) (s : State) : Answer :=
  .next <|
    match (s.seg g).toLifts with
    | .outcome (.lift c cmd) o :: rest =>
      takeLiftOutcome c cmd o (s.modSeg g fun x => { x with toLifts := rest })
    | _ => s

/-- The loss of the panel `g`/`n` for a car, if its record names it (R118, R133). -/
def losePanel (g : Seg) (n : Nat) (s : State) (c : Nat) : State :=
  match s.car c with
  | none => s
  | some x =>
    if x.record.val.seg = g && x.record.val.node = n then takeOut c .node .nodeLoss none s else s

/-- PANEL_LOSS (R118, R133): the loss is that of every car whose record names the panel, whatever car the node
is bound to; the cars in turn (log 37). -/
def execPanelLoss (g : Seg) (s : State) : Answer :=
  .next <|
    match (s.seg g).toLifts with
    | .lost n _ :: rest =>
      carNumbers.foldl (losePanel g n) (s.modSeg g fun x => { x with toLifts := rest })
    | _ => s

/-- One car as the drain begins (R135). -/
def drainCar (s : State) (c : Nat) : State :=
  match s.car c with
  | none => s
  | some x =>
    let s := withCar c (fun x => { x with queue := [] }) s
    let s := x.queue.foldl (cancelCall c .held false) s
    if x.state = .toPickup then standIdle c s else s

/-- DRAIN_BEGIN (R135, R199): the cars in turn, and then the answer to Site Control. -/
def execDrainBegin (s : State) : Answer :=
  .next <|
    match s.lifts.orders with
    | .drain :: rest =>
      toSite .drainAnswer
        (carNumbers.foldl drainCar { s with lifts := { s.lifts with orders := rest } })
    | _ => s

/-- One car as an evacuation begins (R136). -/
def evacuateCar (s : State) (c : Nat) : State :=
  match s.car c with
  | none => s
  | some x =>
    if x.record.val.present && x.state != .out then
      let s := (tripCalls x.trip).foldl (cancelCall c .evacuation true) s
      let s := x.queue.foldl (cancelCall c .evacuation false) s
      recallCar c (withCar c (fun x =>
        { x with trip := none, queue := [], timer := none, departSent := false, state := .recall }) s)
    else s

/-- EVACUATION_BEGIN_LIFTS (R136): the recall floor is read, and the cars are taken in turn. -/
def execEvacuationBeginLifts (s : State) : Answer :=
  .next <|
    match s.lifts.orders with
    | .evacBegin :: rest =>
      carNumbers.foldl evacuateCar { s with lifts :=
        { s.lifts with orders := rest, recallFloor := s.site.params.val.recallFloor } }
    | _ => s

/-- One car as an evacuation ends (R137). -/
def unevacuateCar (s : State) (c : Nat) : State :=
  match s.car c with
  | none => s
  | some x => if x.state = .recall || x.state = .parked then standIdle c s else s

/-- EVACUATION_END_LIFTS (R137). -/
def execEvacuationEndLifts (s : State) : Answer :=
  .next <|
    match s.lifts.orders with
    | .evacEnd :: rest =>
      carNumbers.foldl unevacuateCar { s with lifts := { s.lifts with orders := rest } }
    | _ => s

/-! ## Requests (R139 to R141) -/

/-- PUT_CAR (R139). -/
def execPutCar (s : State) : Answer :=
  .next <| takingStore 0x50 (fun body => tested (parsePutCar body) setupOnly fun x =>
    unlessFaulted (writeItem (.car x.1) (.car x.2))) s

/-- CAR_SERVICE applies to a present car (R140 step 3). -/
def withPresentCar (k : Nat → Car → State → State) (c : Nat) (s : State) : State :=
  match s.car c with
  | none => reply .notFound [] s
  | some x => if x.record.val.present then k c x s else reply .notFound [] s

/-- The liveness of a car's panel, absent when its node is not enrolled (R140). -/
def State.panelLiveness (s : State) (x : Car) : Option Liveness :=
  (s.node x.record.val.seg x.record.val.node).map Node.liveness

/-- CAR_SERVICE OUT on a car that is not OUT: STAND when the panel is LIVE or QUIET, then OUT (R140). -/
def serviceOut (c : Nat) (x : Car) (s : State) : State :=
  let s := match s.panelLiveness x with
    | some .live | some .quiet => liftSend c .stand s
    | _ => s
  takeOut c .host .host none s

/-- CAR_SERVICE OUT on a car OUT with cause NODE: the cause becomes HOST (R133, R140). -/
def causeHost (c : Nat) (s : State) : State :=
  putNotice (.carState c .out .out (some .host) .host none)
    (withCar c (fun x => { x with cause := some .host }) s)

/-- CAR_SERVICE OUT (R140). -/
def execCarServiceOut (s : State) : Answer :=
  .next <| takingAction 0x51 1 3 2 0 (withPresentCar fun c x s =>
    reply .ok []
      (if x.state = .out then if x.cause = some .host then s else causeHost c s
       else serviceOut c x s)) s

/-- CAR_SERVICE IN (R140). -/
def execCarServiceIn (s : State) : Answer :=
  .next <| takingAction 0x51 1 3 2 1 (withPresentCar fun c x s =>
    if x.state = .out then
      if x.cause = some .host then
        if s.panelLiveness x = some .live then reply .ok [] (returnCar c s)
        else reply .nodeLost [] s
      else reply .wrongState [] s
    else reply .ok [] s) s

/-- A queued call as GET_CAR gives it (R141). -/
def Call.queuedBytes (k : Call) : List Byte :=
  u16 k.id ++ u8 k.origin ++ u8 k.dest ++ u8 k.priority ++ u32 k.queuedAt

/-- A boarded call as GET_CAR gives it (R141). -/
def Call.boardedBytes (k : Call) : List Byte := u16 k.id ++ u8 k.origin ++ u8 k.dest ++ u8 k.priority

/-- A completion record (R129, R141). -/
def Completion.bytes (h : Completion) : List Byte := u16 h.id ++ u8 h.origin ++ u8 h.dest ++ u32 h.at_

/-- A trip, or its absence (R141; log 18). The first byte of its floor set holds the floors 8..15, the second 0..7:
R213 gives the two bytes of a set no order (log 48). -/
def tripBytes : Option Trip → List Byte
  | none => [0xFF, 0xFF, 0xFF, 0x00]
  | some t =>
    u8 t.floor ++ u16 (floorSet t.calls).toNat ++ u8 t.calls.length ++
      (t.calls.map Call.boardedBytes).flatten

/-- Reported doors: OPEN, CLOSED, UNKNOWN (R119). -/
def doorsCode : Option Bool → Nat
  | some true => 0 | some false => 1 | none => 2

/-- The fields of a GET_CAR reply (R141); an UNKNOWN floor and a stopped timer are all ones (log 18). -/
def getCarBody (x : Car) (start : Nat) (s : State) : List Byte :=
  let ks := (x.queue.drop start).take 8
  x.record.val.bytes ++ flag x.record.damaged ++ u8 x.state.code ++ u8Or (x.cause.map OutCause.code) ++
    u8Or x.lastFloor ++ u8 (doorsCode x.lastDoorsOpen) ++ u8Or x.target ++
    u8Or (remaining s.site.seconds x.timer) ++ flag x.departSent ++ u8 x.queue.length ++ u8 ks.length ++
    (ks.map Call.queuedBytes).flatten ++ tripBytes x.trip ++ u8 x.history.length ++
    (x.history.map Completion.bytes).flatten

/-- GET_CAR (R141). -/
def execGetCar (s : State) : Answer :=
  .next <| taking 0x52 (fun body => tested (parseGetCar body) outsideStarting fun x s =>
    match s.car x.1 with
    | some y => reply .ok (getCarBody y x.2 s) s
    | none => reply .badValue [] s) s

end Sys2Proof.Machine
end

