-- ==== Sys2Proof/Machine/Admission.lean ====
section
/-! DEFINITION. The three decisions of the Visit Engine: admission, exit and lift-call intake, with window
evaluation and permitted floors, and ADMIT (R10, R11, R51 to R60, R69). -/

namespace Sys2Proof.Machine

/-! ## Taking and ending a decision (R51, R172) -/

/-- A decision ends without its router: none is in progress. -/
def clearDecision (s : State) : State := { s with visits := { s.visits with decision := none } }

/-- The record in hand is freed and the position becomes the ring after it (R171 to R173). -/
def releaseRouter (s : State) : State :=
  match s.router.hand with
  | none => s
  | some h =>
    let s := if h.inRing then s.modSeg h.seg fun x => { x with ring := x.ring.drop 1 } else s
    { s with router := ⟨nextSeg h.seg, none⟩ }

/-- The decision of a presentation has been made. -/
def endDecision (p : Presentation) (s : State) : State :=
  match p.source with
  | .reader _ _ => releaseRouter (clearDecision s)
  | .host => clearDecision s

/-- The SHOW that ends a reader's decision (R51). -/
def showReader (p : Presentation) (o : Show) (s : State) : State :=
  match p.source with
  | .reader g n => submit g n (.show o) .normal .show s
  | .host => s

/-- The Visit Engine takes the presentation that has waited longest; the router's record is then in its
hands (R51, R173). -/
def takeWaiting (p : Presentation) (rest : List Presentation) (s : State) : State :=
  let s := { s with visits := { s.visits with waiting := rest } }
  match p.source with
  | .reader _ _ =>
    { s with router := { s.router with hand := s.router.hand.map fun h => { h with taken := true } } }
  | .host => s

/-- A decision goes on by asking a lookup (R51). -/
def awaitLookup (p : Presentation) (a : Awaits) (l : Lookup) (s : State) : State :=
  askLookup l { s with visits := { s.visits with decision := some ⟨p, a⟩ } }

/-- Take the next presentation when no decision is in progress and it is of the given sort. -/
def nextPresentation (sort : Asked → Bool) (k : Presentation → State → State) (s : State) : State :=
  match s.visits.decision, s.visits.waiting with
  | none, p :: rest => if sort p.asked then k p (takeWaiting p rest s) else s
  | _, _ => s

/-- Take the lookup result a decision of the given sort awaits. -/
def lookupResult (sort : Asked → Awaits → Bool) (k : Decision → LookupResult → State → State)
    (s : State) : State :=
  match s.visits.decision, s.store.results with
  | some d, r :: rest =>
    if sort d.pres.asked d.awaits then
      k d r { s with store := { s.store with results := rest } }
    else s
  | _, _ => s

/-- The presentation asks an admission. -/
def Asked.isAdmission : Asked → Bool
  | .admission _ => true
  | _ => false

/-- The presentation asks an exit. -/
def Asked.isExit : Asked → Bool
  | .exit _ => true
  | _ => false

/-- The presentation asks a lift call. -/
def Asked.isLanding : Asked → Bool
  | .landing _ _ => true
  | _ => false

/-- The decision waits for its credential lookup. -/
def Awaits.isCredential : Awaits → Bool
  | .credential => true
  | .tenant _ => false

/-- The portal or landing floor a presentation names. -/
def Asked.place : Asked → Nat
  | .admission p => p
  | .exit p => p
  | .landing f _ => f

/-- The state of a portal as a decision reads it; one that is not present is held in FAULT (R51, R71). -/
def State.portalState (s : State) (p : Nat) : PortalState :=
  match s.portal p with
  | some q => q.state
  | none => .fault

/-- The visit that holds a presented value (R57, R59). -/
def State.visitByValue (s : State) (v : Word32) : Option Visit :=
  s.visits.table.find? fun w => w.value == v

/-- The visit of a tenant that a lookup found and that is not shared (R57, R59). -/
def State.visitOfResult (s : State) : LookupResult → Option Visit
  | .found id t => if t.shared then none else (s.visitsOf id).head?
  | _ => none

/-- The tenant id a lookup resolved: known on FOUND only (log 20). -/
def LookupResult.tenant : LookupResult → Option Nat
  | .found id _ => some id
  | _ => none

/-! ## Window evaluation (R10) -/

/-- The results of a window evaluation (R10). -/
inductive WindowResult where
  | inside | outside | clockUnset | recordDamaged
  deriving DecidableEq, Repr

/-- The wall clock is inside a window (R10). -/
def Window.holds (w : Window) (c : Clock) : Bool :=
  if w.start < w.stop then w.days.getLsbD c.day && w.start ≤ c.minute && c.minute < w.stop
  else
    (w.days.getLsbD c.day && w.start ≤ c.minute) ||
      (w.days.getLsbD ((c.day + 6) % 7) && c.minute < w.stop)

/-- Site Control evaluates a window number (R10). -/
def State.window (s : State) (n : Nat) : WindowResult :=
  if n = 0 then .inside
  else
    match s.site.windows[n - 1]? with
    | none => .outside
    | some w =>
      if w.damaged then .recordDamaged
      else
        match s.site.clock with
        | none => .clockUnset
        | some c => if w.val.holds c then .inside else .outside

/-! ## Admission (R52 to R55) -/

/-- Checks 1 and 2 of an admission (R52). -/
def State.admissionBar (s : State) (p : Nat) : Option Reason :=
  match s.site.mode with
  | .evacuate => some .evacuation
  | .run =>
    match s.portalState p with
    | .fault => some .portalFault
    | .opening | .passage | .heldOpen | .forced => some .portalBusy
    | .secure | .free => none
  | _ => some .held

/-- The reply to an ADMIT: the outcome code, the visit number and the tenant id (R69; log 17). -/
def admitBody (refusal : Option Reason) (visit tenant : Option Nat) : List Byte :=
  u8 (match refusal with
    | some r => r.code
    | none => 0) ++ idOr visit ++ idOr tenant

/-- The ADMISSION notice, the reply to an ADMIT, and the end of the decision (R55, R69). -/
def endAdmission (p : Presentation) (refusal : Option Reason) (tenant visit : Option Nat) (s : State) :
    State :=
  let host := p.source == .host
  let s := putNotice (.admission p.value p.asked.place host refusal tenant visit) s
  let s := if host then reply .ok (admitBody refusal visit tenant) s else s
  endDecision p s

/-- An admission is refused (R55). -/
def refuseAdmission (p : Presentation) (why : Reason) (tenant : Option Nat) (s : State) : State :=
  endAdmission p (some why) tenant none (showReader p (.denied why) s)

/-- ADMISSION_DECISION (R52): checks 1 and 2, and then the credential lookup. -/
def execAdmissionDecision (s : State) : Answer :=
  .next <| nextPresentation Asked.isAdmission (fun p s =>
    match s.admissionBar p.asked.place with
    | some why => refuseAdmission p why none s
    | none => awaitLookup p .credential (.credential p.value) s) s

/-- The first number from `n` on that no visit of the table holds, among `k` offers (R45). -/
def freeNumber (table : List Visit) : Nat → Nat → Nat
  | 0, n => n
  | k + 1, n =>
    if table.any fun v => v.number == n then freeNumber table k (nextVisitNumber n) else n

/-- The visit a grant creates (R54 step 1). -/
def newVisit (number tenant portal now : Nat) (value : Word32) (dwell : Nat) (free : Bool) : Visit where
  number := number
  tenant := tenant
  value := value
  stage := if free then .onSite else .admitted
  entryPortal := portal
  admittedAt := now
  dwellDeadline := if dwell = 0 then none else some (now + 60 * dwell)
  overstayed := false
  returnStage := none
  exitPortal := none
  call := none
  unitsOpened := []
  openedCount := 0
  lastSeen := ⟨.portal, portal, now⟩

/-- An admission is granted (R54). -/
def grantAdmission (p : Presentation) (tenant : Nat) (c : AccessClass) (s : State) : State :=
  let portal := p.asked.place
  let free := s.portalState portal == .free
  let n := freeNumber s.visits.table 97 s.visits.counter
  let v := newVisit n tenant portal s.site.seconds p.value c.dwellLimit free
  let s := { s with visits :=
    { s.visits with table := s.visits.table ++ [v], counter := nextVisitNumber n } }
  let s := toUnits (.disarm tenant) s
  let s := if free then s else toPortals (.open_ portal (some n)) s
  endAdmission p none (some tenant) (some n) (showReader p .granted s)

/-- The reason of a window result, if it refuses (R53 check 6). -/
def WindowResult.bar : WindowResult → Option Reason
  | .inside => none
  | .outside => some .outsideWindow
  | .clockUnset => some .clockUnset
  | .recordDamaged => some .recordDamaged

/-- Checks 4 to 6: the class, the status and the window (R53). -/
def State.tenantBar (s : State) (t : Tenant) : Option Reason :=
  let c := s.cls t.cls
  if c.damaged then some .recordDamaged
  else
    match t.status with
    | .barred => some .barred
    | .current => (s.window c.val.window).bar
    | .restricted => (s.window c.val.restrictedWindow).bar

/-- The conflicting visits of an admission (R53 check 7). -/
def State.conflicts (s : State) (value : Word32) (tenant : Nat) (shared : Bool) : List Visit :=
  s.visits.table.filter fun v => v.value == value || (!shared && v.tenant == tenant)

/-- A lenient passback closes the conflicting visits, oldest first; the orders of the closures are taken
before the admission goes on (R53, R54; log 5). With two conflicting visits both VISIT_CLOSED notices stand before
the UNIT_LEFT_OPEN notices of either rearm: R54 leaves that order open (log 49). -/
def supersede (vs : List Visit) (s : State) : State :=
  if vs.isEmpty then s else deliverUnitOrders (closeVisits vs .superseded s)

/-- Checks 7 and 8, and the grant (R53, R54). -/
def admitTenant (p : Presentation) (id : Nat) (t : Tenant) (s : State) : State :=
  let c := (s.cls t.cls).val
  let vs := s.conflicts p.value id t.shared
  if !vs.isEmpty && c.passback == .strict then refuseAdmission p .passback (some id) s
  else
    let s := supersede vs s
    if t.shared && Config.maxSharedVisits ≤ (s.visitsOf id).length then
      refuseAdmission p .sharedLimit (some id) s
    else if Config.maxVisits ≤ s.visits.table.length then refuseAdmission p .siteFull (some id) s
    else grantAdmission p id c s

/-- ADMISSION_LOOKUP_RESULT (R52 to R55). -/
def execAdmissionLookupResult (s : State) : Answer :=
  .next <| lookupResult (fun a w => a.isAdmission && w.isCredential) (fun d r s =>
    let p := d.pres
    match s.admissionBar p.asked.place with
    | some why => refuseAdmission p why r.tenant s
    | none =>
      match r with
      | .recordDamaged => refuseAdmission p .recordDamaged none s
      | .unknownCredential | .absent => refuseAdmission p .unknownCredential none s
      | .wrongMode => refuseAdmission p .held none s
      | .found id t =>
        match s.tenantBar t with
        | some why => refuseAdmission p why (some id) s
        | none => admitTenant p id t s) s

/-! ## Exit (R56, R57) -/

/-- The SHOW that ends an exit before its match, if the mode or the portal does (R56). -/
def State.exitBar (s : State) (p : Nat) : Option Show :=
  if s.site.mode = .evacuate then some .granted
  else
    match s.portalState p with
    | .fault => some (.denied .portalFault)
    | .opening | .passage | .heldOpen | .forced => some .wait
    | .secure | .free => none

/-- An exit is answered and its decision ends. -/
def endExit (p : Presentation) (o : Show) (s : State) : State := endDecision p (showReader p o s)

/-- A visit goes to EXITING at a portal (R57). -/
def Visit.exiting (v : Visit) (portal now : Nat) : Visit :=
  { v with
    stage := .exiting, returnStage := some v.stage, exitPortal := some portal
    lastSeen := ⟨.portal, portal, now⟩ }

/-- An exit that ends no visit: the portal is opened when SECURE, and an EXIT_WITHOUT_VISIT notice is put
(R57). -/
def exitWithoutVisit (p : Presentation) (tenant : Option Nat) (s : State) : State :=
  let portal := p.asked.place
  let s := if s.portalState portal = .secure then toPortals (.open_ portal none) s else s
  putNotice (.exitWithoutVisit portal p.value tenant) s

/-- The effect of an exit by the matched visit (R57). -/
def exitMatched (p : Presentation) (v : Option Visit) (tenant : Option Nat) (s : State) : State :=
  let portal := p.asked.place
  match v with
  | none => exitWithoutVisit p tenant s
  | some v =>
    if v.stage = .onSite || v.stage = .overstay then
      if s.portalState portal = .secure then
        toPortals (.open_ portal (some v.number))
          (s.modVisit v.number fun v => v.exiting portal s.site.seconds)
      else closeVisit v .exited s
    else exitWithoutVisit p tenant s

/-- EXIT_DECISION (R56, R57). -/
def execExitDecision (s : State) : Answer :=
  .next <| nextPresentation Asked.isExit (fun p s =>
    match s.exitBar p.asked.place with
    | some o => endExit p o s
    | none =>
      match s.visitByValue p.value with
      | some v => endExit p .granted (exitMatched p (some v) none s)
      | none => awaitLookup p .credential (.credential p.value) s) s

/-- EXIT_LOOKUP_RESULT (R56, R57). -/
def execExitLookupResult (s : State) : Answer :=
  .next <| lookupResult (fun a w => a.isExit && w.isCredential) (fun d r s =>
    let p := d.pres
    match s.exitBar p.asked.place with
    | some o => endExit p o s
    | none => endExit p .granted (exitMatched p (s.visitOfResult r) r.tenant s)) s

/-! ## Lift-call intake (R11, R59, R60) -/

/-- Check 1 of an intake (R59). -/
def Mode.liftBar : Mode → Option Reason
  | .run => none
  | .evacuate => some .evacuation
  | _ => some .liftsHeld

/-- An intake is refused. -/
def denyCall (p : Presentation) (why : Reason) (s : State) : State := endExit p (.denied why) s

/-- Check 4 before the tenant lookup (R59). -/
def destinationBar : Asked → Option Reason
  | .landing f (some d) => if d = f then some .sameFloor else none
  | _ => some .noDestination

/-- Checks 2 to 4 for the visit that was found: last seen becomes the landing, and the tenant lookup is
asked (R59). -/
def intakeVisit (p : Presentation) (v : Visit) (s : State) : State :=
  let s := s.modVisit v.number fun v =>
    { v with lastSeen := ⟨.landing, p.asked.place, s.site.seconds⟩ }
  if v.stage = .onSite || v.stage = .overstay then
    match destinationBar p.asked with
    | some why => denyCall p why s
    | none => awaitLookup p (.tenant v.number) (.tenant v.tenant) s
  else denyCall p .notOnSite s

/-- LIFT_CALL_INTAKE (R59). -/
def execLiftCallIntake (s : State) : Answer :=
  .next <| nextPresentation Asked.isLanding (fun p s =>
    match s.site.mode.liftBar with
    | some why => denyCall p why s
    | none =>
      match s.visitByValue p.value with
      | some v => intakeVisit p v s
      | none => awaitLookup p .credential (.credential p.value) s) s

/-- LIFT_CALL_LOOKUP_RESULT (R59). -/
def execLiftCallLookupResult (s : State) : Answer :=
  .next <| lookupResult (fun a w => a.isLanding && w.isCredential) (fun d r s =>
    let p := d.pres
    match s.site.mode.liftBar with
    | some why => denyCall p why s
    | none =>
      match s.visitOfResult r with
      | some v => intakeVisit p v s
      | none => denyCall p .noVisit s) s

/-- The floors of the present portals (R11). -/
def State.portalFloors (s : State) : List Nat :=
  (s.portals.list.filter fun q => q.record.val.present).map fun q => q.record.val.floor

/-- The floors of a tenant's present unit records (R11). -/
def State.unitFloors (s : State) (tenant : Nat) : List Nat :=
  (s.store.presentUnits.filter fun e => e.2.tenant == tenant).map fun e => e.2.floor

/-- The class a call is taken under: absent where it cannot be known or is damaged (R11). -/
def State.callClass (s : State) : LookupResult → Option AccessClass
  | .found _ t => if (s.cls t.cls).damaged then none else some (s.cls t.cls).val
  | _ => none

/-- A floor is permitted to a tenant (R11). -/
def State.permits (s : State) (tenant : Nat) (r : LookupResult) (floor : Nat) : Bool :=
  (match s.callClass r with
   | some c => c.allFloors
   | none => false) ||
    s.portalFloors.contains floor ||
    (match r with
     | .found _ _ => (s.unitFloors tenant).contains floor
     | _ => false)

/-- The lift priority of a call (R11). -/
def State.callPriority (s : State) (r : LookupResult) : Nat :=
  match s.callClass r with
  | some c => c.liftPriority
  | none => 0

/-- Set the call field of a visit. -/
def setCall (number : Nat) (c : Option CallRef) (s : State) : State :=
  s.modVisit number fun v => { v with call := c }

/-- The answer to a hand-over, taken after the reports sent before it (R60, R122). -/
def takeAnswer (p : Presentation) (number : Nat) (a : Placed) (s : State) : State :=
  match a with
  | .queued n => endExit p (.car n) (setCall number (some ⟨n, false⟩) s)
  | .boarded n => endExit p (.car n) (setCall number (some ⟨n, true⟩) s)
  | .noCar => denyCall p .noCar s
  | .callsFull => denyCall p .callsFull s

/-- A call is handed over for a visit (R60, R120). -/
def handOverCall (p : Presentation) (v : Visit) (floor dest priority : Nat) (s : State) : State :=
  let s := if v.call.isSome then toLifts v.number (setCall v.number none s) else s
  let s := deliverWithdrawals s
  let now := s.site.seconds
  let r := handOver ⟨v.number, floor, dest, priority, now, now + s.site.params.val.callWaitLimit⟩ s
  takeAnswer p v.number r.1 (deliverCallReports r.2)

/-- The visit's call is BOARDED. -/
def Visit.boarded (v : Visit) : Bool :=
  match v.call with
  | some c => c.boarded
  | none => false

/-- The checks after the tenant lookup, and the hand-over (R59 check 4, R60). -/
def intakeCall (p : Presentation) (number : Nat) (r : LookupResult) (s : State) : State :=
  match s.visit number, p.asked with
  | some v, .landing f (some d) =>
    if !s.permits v.tenant r d then denyCall p .floorDenied s
    else if v.boarded then denyCall p .callActive s
    else handOverCall p v f d (s.callPriority r) s
  | _, _ => denyCall p .noVisit s

/-- LIFT_CALL_TENANT_RESULT (R59, R60). -/
def execLiftCallTenantResult (s : State) : Answer :=
  .next <| lookupResult (fun a w => a.isLanding && !w.isCredential) (fun d r s =>
    match s.site.mode.liftBar, d.awaits with
    | some why, _ => denyCall d.pres why s
    | none, .tenant number => intakeCall d.pres number r s
    | none, .credential => s) s

/-! ## ADMIT (R69) -/

/-- ADMIT (R69): it waits its turn behind a decision in progress (R51). -/
def execHostAdmit (s : State) : Answer :=
  .next <| taking 0x33 (fun body => tested (parseAdmit body) outsideStarting fun x s =>
    if ((s.portal x.1).map fun q => q.record.val.present) = some true then
      let s := working s
      { s with visits :=
        { s.visits with waiting := s.visits.waiting ++ [⟨.admission x.1, .host, x.2⟩] } }
    else reply .notFound [] s) s

end Sys2Proof.Machine
end

