-- ==== Sys2Proof/Machine/Lines.lean ====
section
/-! DEFINITION. The Line Block: debouncing and settling, the fire input, the beacon, a settings change, and
the line requests (R182 to R191). -/

namespace Sys2Proof.Machine

/-! ## The fire input and the settled report (R185) -/

/-- The fire input follows the lines, and a change is reported to Site Control (R185, R188 step 4). -/
def updateFire (s : State) : State :=
  if s.fireActive = s.lines.fireInput then s
  else
    toSiteFire (.change s.fireActive) { s with lines := { s.lines with fireInput := s.fireActive } }

/-- The settled report is sent once every input line has settled (R185), a line that a PUT_LINE has made
unsettled meanwhile included (the model's choice, log 42). -/
def reportSettled (s : State) : State :=
  if s.lines.settledOwed && !(s.lines.list.any Line.unsettled) then
    toSiteFire (.settled s.lines.fireInput)
      { s with lines := { s.lines with settledOwed := false } }
  else s

/-! ## Debouncing (R184) -/

/-- A line takes its pin level as its debounced level, and both its timers stop. -/
def Line.take (l : Line) : Line :=
  { l with debounced := some l.pin, timer := none, settleTimer := false }

/-- A settled change of line `n` is handed to its consumer (R185). -/
def handChange (f : LineFunction) (s : State) : State :=
  match f with
  | .contact p => lineChanged p s
  | .exitButton p => lineChanged p s
  | .fireIn => updateFire s
  | _ => s

/-- The starting level of a line is handed to its consumer (R184, R185). -/
def handStart (f : LineFunction) (s : State) : State :=
  reportSettled
    (match f with
     | .contact p => lineAssigned p s
     | .exitButton p => lineAssigned p s
     | .fireIn => updateFire s
     | _ => s)

/-- Line `n` takes its pin level: its starting level when it was unsettled, a change otherwise (R184). -/
def takeLevel (n : Nat) (l : Line) (s : State) : State :=
  let s := s.modLine n Line.take
  if l.unsettled then handStart l.record.val.func s else handChange l.record.val.func s

/-- A pin change under an input function (R184): an unsettled line counts anew from the change; a settled
one starts its timer at a difference and stops it at a return. -/
def Line.pinChange (l : Line) (level : Level) (debounce : Nat) : Line :=
  let l := { l with pin := level }
  if l.record.val.func.isInput then
    match l.debounced with
    | none => if l.settleTimer then { l with timer := some debounce } else l
    | some d => { l with timer := if d = level then none else some debounce }
  else l

/-- LINE_PIN_CHANGE (R184): a sample equal to the last one is no change. -/
def execLinePinChange (n : Nat) (level : Level) (s : State) : Answer :=
  .next <|
    match s.line n with
    | none => s
    | some l =>
      if l.pin = level then s
      else s.modLine n fun l => l.pinChange level s.site.params.val.debounce

/-- DEBOUNCE_TIMER_EXPIRY (R184, R185). -/
def execDebounceTimerExpiry (n : Nat) (s : State) : Answer :=
  .next <|
    match s.line n with
    | none => s
    | some l => if l.timer.isSome then takeLevel n l s else s

/-- LINE_SETTLE_TIMEOUT (R184): 1 s after it became unsettled, a line takes the level its pin holds. -/
def execLineSettleTimeout (n : Nat) (s : State) : Answer :=
  .next <|
    match s.line n with
    | none => s
    | some l => if l.settleTimer && l.unsettled then takeLevel n l s else s

/-! ## A settings change (R183, R188) -/

/-- The portal a line's function belongs to. -/
def LineFunction.portal : LineFunction → Option Nat
  | .strike p => some p
  | .contact p => some p
  | .exitButton p => some p
  | _ => none

/-- A line without its function: not assigned, not driven, no timer running (R188 step 1). -/
def Line.ended (l : Line) : Line :=
  { l with
    record := ⟨{ l.record.val with func := .generalIn }, l.record.damaged⟩
    debounced := none, timer := none, settleTimer := false, drive := .none, pullApplied := false }

/-- What the part applies to the pin of a line that takes a function (R183, R186, R187). -/
def takeUpDrive (f : LineFunction) (output : Bool) (b : Beacon) : PinDrive :=
  match f with
  | .generalOut => if output then .active else .other
  | .strike _ => .other
  | .beacon => b.drive
  | _ => .none

/-- A line takes up its settings: drive and pull-up, and an input function unsettled (R188 steps 2, 3). -/
def Line.takeUp (l : Line) (new : Marked LineRec) (b : Beacon) (debounce : Nat) : Line :=
  let input := new.val.func.isInput
  { l with
    record := new
    debounced := none
    timer := if input then some debounce else none
    settleTimer := input
    drive := takeUpDrive new.val.func l.output b
    pullApplied := input && new.val.pullUp }

/-- Line `n` takes up its settings, and a STRIKE line is reported assigned at once (R188 steps 2, 3). -/
def takeUpLine (n : Nat) (new : Marked LineRec) (s : State) : State :=
  let s := s.modLine n fun l => l.takeUp new s.lines.beacon s.site.params.val.debounce
  match new.val.func with
  | .strike p => lineAssigned p s
  | _ => s

/-- The function of line `n` ends (R188 step 1). -/
def endLine (n : Nat) (s : State) : State :=
  match s.line n with
  | none => s
  | some l =>
    let s := s.modLine n Line.ended
    match l.record.val.func.portal with
    | some p => lineUnassigned p s
    | none => s

/-- A settings change of line `n` (R188). -/
def applyLine (n : Nat) (new : Marked LineRec) (s : State) : State :=
  reportSettled (updateFire (takeUpLine n new (endLine n s)))

/-! ## The beacon (R187) -/

/-- Take one beacon input. -/
def takeBeaconInput (l : LineBlock) : BeaconReport → LineBlock
  | .evacuate f => { l with evacFlag := f }
  | .unitForced b => { l with unitForced := b }
  | .portalAlarm b => { l with portalAlarm := b }
  | .onAlarms b => { l with beaconOnAlarms := b }

/-- BEACON_INPUT_REPORT (R187). -/
def execBeaconInputReport (s : State) : Answer :=
  .next <|
    match s.lines.reports with
    | r :: rest =>
      evaluateBeacon { s with lines := takeBeaconInput { s.lines with reports := rest } r }
    | [] => s

/-- PHASE_TIMER_EXPIRY (R187). -/
def execPhaseTimerExpiry (s : State) : Answer :=
  .next <|
    match s.lines.phaseTimer, s.lines.beacon with
    | true, .flashing lit => setBeacon (.flashing !lit) s
    | _, _ => s

/-! ## Requests (R188 to R190) -/

/-- Portal `p` is OPENING, PASSAGE or HELD_OPEN. -/
def State.portalBusy (s : State) (p : Nat) : Bool :=
  match s.portal p with
  | some q => q.state.busy
  | none => false

/-- A function that holds the strike or the contact of a portal in use (R188 test 6). -/
def State.lineInUse (s : State) : LineFunction → Bool
  | .strike p => s.portalBusy p
  | .contact p => s.portalBusy p
  | _ => false

/-- A function that one line only may hold (R182). -/
def LineFunction.single : LineFunction → Bool
  | .strike _ => true
  | .contact _ => true
  | _ => false

/-- Another line holds a function (R188 test 5). -/
def State.heldByOther (s : State) (n : Nat) (f : LineFunction) : Bool :=
  (List.range 12).any fun m =>
    m != n && (s.line m).map (fun l => l.record.val.func) == some f

/-- PUT_LINE (R188). -/
def execPutLine (s : State) : Answer :=
  .next <| takingStore 0x70 (fun body => tested (parsePutLine body) setupOnly fun x =>
    unlessFaulted fun s =>
      let old := (s.line x.1).map fun l => l.record.val
      if x.2.func.single && s.heldByOther x.1 x.2.func then reply .inUse [] s
      else if old != some x.2 &&
          (s.lineInUse x.2.func || (old.map fun r => s.lineInUse r.func) == some true) then
        reply .inUse [] s
      else writeItem (.line x.1) (.line x.2) s) s

/-- The output value of a line takes a value; under GENERAL_OUT the pin follows at once (R189). -/
def Line.write (l : Line) (v : Bool) : Line :=
  { l with
    output := v
    drive := if l.record.val.func = .generalOut then takeUpDrive .generalOut v .off else l.drive }

/-- LINE_WRITE (R189). -/
def execLineWrite (s : State) : Answer :=
  .next <| taking 0x71 (fun body => tested (parseLineWrite body) outsideStarting fun x s =>
    reply .ok [] (s.modLine x.1 fun l => l.write x.2)) s

/-- The reading of a line (R190); UNSETTLED is all ones (log 16). -/
def Line.reading (l : Line) : List Byte :=
  if l.record.val.func.isInput then
    u8Or (l.value.map fun v => if v then 1 else 0)
  else u8 (if l.drive = .active then 1 else 0)

/-- The fields of one line in a LINE_READ reply (R190). -/
def Line.bytes (l : Line) : List Byte :=
  l.record.val.bytes ++ flag l.record.damaged ++ flag l.output ++ u8 (levelCode l.pin) ++ l.reading

/-- The beacon with its phase (R190): OFF, STEADY, FLASHING; ON, OFF, or absent. -/
def Beacon.bytes : Beacon → List Byte
  | .off => u8 0 ++ u8 0xFF
  | .steady => u8 1 ++ u8 0xFF
  | .flashing lit => u8 2 ++ u8 (if lit then 0 else 1)

/-- The fields of a LINE_READ reply (R190); each line's function takes 3 bytes (log 51). -/
def lineReadBody (s : State) : List Byte :=
  (s.lines.list.map Line.bytes).flatten ++ u8 (if s.lines.fireInput then 0 else 1) ++
    s.lines.beacon.bytes

/-- LINE_READ (R190). -/
def execLineRead (s : State) : Answer :=
  .next <| taking 0x72 (fun body => tested (parseNone body) outsideStarting fun _ s =>
    reply .ok (lineReadBody s) s) s

end Sys2Proof.Machine
end

