-- ==== Sys2Proof/Machine/Reception.lean ====
section
/-! DEFINITION. Reception on a field segment: characters, the classes of a frame, commitment to the ring,
the pending ack, and what a frame's end completes (R150, R157, R161 to R170, R175). -/

namespace Sys2Proof.Machine

/-! ## Classes of a whole frame (R166, R215) -/

/-- The class of a frame that was neither overrun nor oversize, with what its handling needs (R166). -/
inductive FrameClass where
  | corrupt
  | foreign
  | duplicate (node : Nat) (seq : BitVec 3)
  | ack (node : Nat) (seq : BitVec 3)
  | accepted (record : RingRecord)
  deriving DecidableEq, Repr

/-- The check of a frame of whole length is right (R215). -/
def checkHolds (chars : List Byte) : Bool :=
  let n := chars.length - 2
  (crc16 (chars.take n)).toNat == beNat (chars.drop n)

/-- A CREDENTIAL floor is 0..15 or 255, and a RELEASE_ASK channel at most 15 (R166). -/
def bodyFits (kind : Nat) (body : List Byte) : Bool :=
  match kind with
  | 3 =>
    let f := (body.getD 4 0).toNat
    f ≤ 15 || f == 255
  | 4 => (body.getD 0 0).toNat ≤ 15
  | _ => true

/-- Classify a frame that came whole (R166). -/
def Segment.classify (x : Segment) (chars : List Byte) : FrameClass :=
  if !checkHolds chars then .corrupt
  else
    let source := (chars.getD 1 0).toNat
    let kind := (chars.getD 2 0).toNat / 16
    let seq : BitVec 3 := BitVec.ofNat 3 (chars.getD 2 0).toNat
    let body := (chars.drop 4).dropLast.dropLast
    match x.nodes.find source with
    | none => .foreign
    | some n =>
      if chars.getD 0 0 ≠ 0 || !n.entry.kind.sends kind || body.length ≠ bodyLength n.entry.kind kind ||
          !bodyFits kind body then .foreign
      else if kind = 0 then .ack source seq
      else if n.lastValid && n.lastSeq == seq then .duplicate source seq
      else .accepted ⟨source, kind, seq, body⟩

/-! ## What each class does (R166 to R168, R175) -/

/-- A corrupt frame, or a run of characters that belongs to no frame (R166, R175, R179). The receive fault count
and its notice come before the drop counter and its notice (the model's choice, log 37). -/
def countCorrupt (g : Seg) (s : State) : State :=
  countDrop g .corrupt (setRxFaults g (satAdd 255 (s.seg g).rxFaults 1) s)

/-- An accepted frame lets the receive fault count fall by one (R175). -/
def rxFaultFalls (g : Seg) (s : State) : State := setRxFaults g ((s.seg g).rxFaults - 1) s

/-- An ACK is made pending; it replaces one not yet sent (R170). -/
def pendAck (g : Seg) (n : Nat) (q : BitVec 3) (s : State) : State :=
  s.modSeg g fun x => { x with pendingAck := some (n, q) }

/-- The wait of a command in flight is running, or its ending waits on the frame being received (R157). -/
def FlightPhase.awaits : FlightPhase → Bool
  | .waiting => true
  | .waitOver => true
  | _ => false

/-- A POLL of the node in flight whose window is running completes OK (R157, R167 step 7). -/
def answerPoll (g : Seg) (n : Nat) (s : State) : State :=
  match (s.seg g).inFlight with
  | some f =>
    if f.entry.node = n && f.entry.frame == .poll && f.phase.awaits then completeFlight g .ok s else s
  | none => s

/-- A COMMAND or SHOW in flight to the node with the ACK's sequence completes OK (R157, R168). -/
def answerCommand (g : Seg) (n : Nat) (q : BitVec 3) (s : State) : State :=
  match (s.seg g).inFlight with
  | some f =>
    if f.entry.node = n && f.entry.frame != .poll && f.entry.seq == some q && f.phase.awaits then
      completeFlight g .ok s
    else s
  | none => s

/-- The status mirror takes a STATUS, and report held becomes yes (R150). -/
def Node.mirrorStatus (x : Node) (body : List Byte) : Node :=
  { x with mirror := body, changed := x.changed || x.mirror != body, reportHeld := true }

/-- While it holds nothing and every ring is empty the Frame Router waits for a commit, and takes its turn at the
ring that the commit fills (R171; log 43). -/
def wakeRouter (g : Seg) (s : State) : State :=
  if s.router.hand = none ∧ ∀ h ∈ [Seg.a, .b, .c], (s.seg h).ring = [] then
    { s with router := { s.router with position := g } }
  else s

/-- A record is committed to the ring (R161, R167). -/
def commitRecord (g : Seg) (r : RingRecord) (s : State) : State :=
  (wakeRouter g s).modSeg g fun x => { x with ring := x.ring ++ [r] }

/-- An accepted frame other than an ACK (R167). -/
def acceptFrame (g : Seg) (r : RingRecord) (s : State) : State :=
  let s := commitRecord g r s
  let s := withNode g r.source (fun x => { x with lastSeq := r.seq, lastValid := true }) s
  let s := rxFaultFalls g (pendAck g r.source r.seq s)
  let s := nodeHeard g r.source s
  let s := if r.kind = 2 then withNode g r.source (fun x => x.mirrorStatus r.body) s else s
  answerPoll g r.source s

/-- An accepted ACK (R168). -/
def acceptAck (g : Seg) (n : Nat) (q : BitVec 3) (s : State) : State :=
  answerPoll g n (answerCommand g n q (nodeHeard g n (rxFaultFalls g s)))

/-- A frame of a class is handled (R166). -/
def handleFrame (g : Seg) (c : FrameClass) (s : State) : State :=
  match c with
  | .corrupt => countCorrupt g s
  | .foreign => countDrop g .foreign s
  | .duplicate n q => pendAck g n q (countDrop g .duplicate s)
  | .ack n q => acceptAck g n q s
  | .accepted r => acceptFrame g r s

/-! ## The end of a frame (R157, R163 to R166) -/

/-- After a frame, a wait that ended meanwhile is taken, and a new line rate is applied (R144, R157). -/
def afterFrame (g : Seg) (s : State) : State :=
  applyRate g
    (match (s.seg g).inFlight with
     | some f => if f.phase = .waitOver then waitEnds g f s else s
     | none => s)

/-- A frame has ended: the receiver stands at `rx`, and the frame is counted or handled by its class. The
bytes of an overrun frame stay held (R164); those of every other frame are freed (R165, R166). -/
def endFrame (g : Seg) (f : RxFrame) (whole : Bool) (rx : Rx) (s : State) : State :=
  let c := if whole then (s.seg g).classify f.chars else .corrupt
  let s := s.modSeg g fun x =>
    { x with rx := rx, overrunHeld := if f.cls = .overrun then f.held else 0 }
  afterFrame g
    (match f.cls with
     | .overrun => countDrop g .overrun s
     | .oversize => countDrop g .oversize s
     | .normal => handleFrame g c s)

/-! ## Characters (R161 to R165) -/

/-- The first character of a frame: the bytes of an overrun frame before it are reclaimed, and 3 header
bytes are reserved when there is room (R163). -/
def startFrame (b : Byte) (x : Segment) : Segment :=
  let x := { x with overrunHeld := 0, rx := .idle }
  if 3 ≤ x.room then { x with rx := .frame ⟨1, none, [b], .normal, 3⟩ }
  else { x with rx := .frame ⟨1, none, [], .overrun, 0⟩ }

/-- A later character of a frame: the length byte, a body byte that is stored when there is room, or a byte
that is kept or discarded by the frame's class (R164, R165). -/
def RxFrame.char (f : RxFrame) (b : Byte) (room : Nat) : RxFrame :=
  let k := f.count + 1
  let f := { f with count := k, length := if k = 4 then some b.toNat else f.length }
  match f.cls with
  | .overrun => f
  | .oversize => f
  | .normal =>
    match f.length with
    | none => { f with chars := f.chars ++ [b] }
    | some n =>
      if 24 < n then { f with cls := .oversize }
      else if k ≤ 4 || 4 + n < k then { f with chars := f.chars ++ [b] }
      else if room = 0 then { f with cls := .overrun }
      else { f with chars := f.chars ++ [b], held := f.held + 1 }

/-- The frame has come to its end by its length byte (R162). -/
def RxFrame.complete (f : RxFrame) : Bool :=
  match f.length with
  | some n => f.count == 6 + n
  | none => false

/-- A character received (R162 to R165). -/
def takeChar (g : Seg) (b : Byte) (s : State) : State :=
  match (s.seg g).rx with
  | .idle => s.modSeg g (startFrame b)
  | .ended _ => s.modSeg g fun x => { x with rx := .ended true }
  | .frame f =>
    let f := f.char b (s.seg g).room
    if f.complete then endFrame g f true (.ended false) s
    else s.modSeg g fun x => { x with rx := .frame f }

/-- FIELD_CHARACTER (R162 to R168): heard while the segment runs and is not sending (R158, R162). -/
def execFieldCharacter (g : Seg) (b : Byte) (s : State) : Answer :=
  .next <|
    if (s.seg g).state.running && (s.seg g).sending.isNone then takeChar g b s else s

/-- FIELD_LINE_IDLE (R162, R166): a frame in reception ends there, and a run of stray characters is counted
once. -/
def execFieldLineIdle (g : Seg) (s : State) : Answer :=
  .next <|
    if (s.seg g).state.running && (s.seg g).sending.isNone then
      match (s.seg g).rx with
      | .idle => s
      | .frame f => endFrame g f false .idle s
      | .ended stray =>
        let s := s.modSeg g fun x => { x with rx := .idle }
        applyRate g (if stray then countCorrupt g s else s)
    else s

end Sys2Proof.Machine
end

