-- ==== Sys2Proof/Machine/Router.lean ====
section
/-! DEFINITION. The Frame Router: whose turn it is, which block consumes a record, and how a CREDENTIAL holds
the router (R51, R171 to R173). -/

namespace Sys2Proof.Machine

/-- The oldest record of the next ring that holds one, from the router's position on (R171). -/
def State.nextRecord (s : State) : Option (Seg × RingRecord) :=
  let g := s.router.position
  [g, nextSeg g, nextSeg (nextSeg g)].findSome? fun h => (s.seg h).ring.head?.map fun r => (h, r)

/-- A handled or discarded record is freed, and the position becomes the ring after it (R171). -/
def freeRecord (g : Seg) (s : State) : State :=
  let s := s.modSeg g fun x => { x with ring := x.ring.drop 1 }
  { s with router := ⟨nextSeg g, none⟩ }

/-- What a credential asks, by the binding of its reader (R51). -/
def askedBy (b : Binding) (floor : Nat) : Option Asked :=
  match b with
  | .portalSide p .entry => some (.admission p)
  | .portalSide p .leave => some (.exit p)
  | .landing f => some (.landing f (if floor = 255 then none else some floor))
  | _ => none

/-- A CREDENTIAL record holds the router, whose position has moved on to its ring, and waits for the Visit
Engine (R51, R171 to R173). -/
def handCredential (g : Seg) (r : RingRecord) (b : Binding) (s : State) : State :=
  match askedBy b (r.body.getD 4 0).toNat with
  | none => freeRecord g s
  | some asked =>
    let p : Presentation :=
      ⟨asked, .reader g r.source, BitVec.ofNat 32 (beNat (r.body.take 4))⟩
    { s with
      router := ⟨g, some ⟨g, false, true⟩⟩
      visits := { s.visits with waiting := s.visits.waiting ++ [p] } }

/-- A STATUS is handed to the consumer of its node's kind (R171); a reader's has none. A flag byte other than 1
reads as CLOSED or RELEASED, and a byte that a shorter body does not hold as 0 (log 22, log 34). -/
def handStatus (g : Seg) (r : RingRecord) (e : NodeEntry) (s : State) : State :=
  let first := (r.body.getD 0 0).toNat
  let second := r.body.getD 1 0 == 1
  match e.kind, e.binding with
  | .latch, _ => latchStatus g r.source r.body s
  | .portalModule, .portal p =>
    portalStatus g r.source p (if first = 1 then .open_ else .closed)
      (if second then .pressed else .released) s
  | .carPanel, .car c => panelStatus g r.source c first second s
  | _, _ => s

/-- A record is handed to its consumer, or discarded: when its node is no longer enrolled, or when the kind is
not one the node's kind now sends (R171). -/
def handRecord (g : Seg) (r : RingRecord) (s : State) : State :=
  match s.node g r.source with
  | none => freeRecord g s
  | some n =>
    if !n.entry.kind.sends r.kind then freeRecord g s
    else if r.kind = 3 then handCredential g r n.entry.binding s
    else if r.kind = 4 then freeRecord g (releaseAsk g r.source (r.body.getD 0 0).toNat s)
    else freeRecord g (handStatus g r n.entry s)

/-- FRAME_ROUTER_TURN (R171, R172): while the router is held it takes no record. -/
def execFrameRouterTurn (s : State) : Answer :=
  .next <|
    match s.router.hand, s.nextRecord with
    | none, some (g, r) => handRecord g r s
    | _, _ => s

end Sys2Proof.Machine
end

