-- ==== Sys2Proof/Machine/Tenancy.lean ====
section
/-! DEFINITION. The record requests of the tenancy chapter: tenants, credentials, units, patterns, classes and
windows (R12 to R23). -/

namespace Sys2Proof.Machine

/-! ## Counting present records (R7) -/

/-- The numbers of the present unit records that name a tenant, ascending (R7, R15). -/
def Store.unitsOf (st : Store) (tenant : Nat) : List Nat :=
  (st.presentUnits.filter fun e => e.2.tenant == tenant).map Prod.fst

/-- The values of the present credential entries that name a tenant (R7, R15). -/
def Store.credsOf (st : Store) (tenant : Nat) : List Word32 :=
  (st.presentCreds.filter fun e => e.2.2 == tenant).map fun e => e.2.1

/-- The named tenant must have a present record: NOT_FOUND or RECORD_DAMAGED otherwise (R16, R18). -/
def withTenant (id : Nat) (k : Tenant → State → State) (s : State) : State :=
  match s.store.tenantSlot id with
  | none => reply .notFound [] s
  | some .damaged => reply .recordDamaged [] s
  | some (.present r _) => k r s

/-! ## Tenants (R13 to R15) -/

/-- The slot holds a present record equal to new contents (R12 step 6). -/
def samePresent {α : Type} [DecidableEq α] : Option (Slot α) → α → Bool
  | some (.present r _), new => r == new
  | _, _ => false

/-- PUT_TENANT (R13). -/
def execPutTenant (s : State) : Answer :=
  .next <| takingStore 0x10 (fun body => tested (parsePutTenant body) outsideStarting fun x =>
    unlessFaulted fun s =>
      if !x.2.shared && 1 < (s.visitsOf x.1).length then reply .inUse [] s
      else if samePresent (s.store.tenantSlot x.1) x.2 then reply .ok [] s
      else beginWrite (.tenant x.1 (some x.2)) s) s

/-- DROP_TENANT (R14). -/
def execDropTenant (s : State) : Answer :=
  .next <| takingStore 0x11 (fun body => tested (parseTenantId body) outsideStarting fun id =>
    unlessFaulted fun s =>
      if (s.store.tenantSlot id).isNone then reply .notFound [] s
      else if !(s.visitsOf id).isEmpty then reply .inUse [] s
      else if !(s.store.unitsOf id).isEmpty || !(s.store.credsOf id).isEmpty then reply .inUse [] s
      else beginWrite (.tenant id none) s) s

/-- The fields of a GET_TENANT reply (R15). -/
def getTenantBody (id : Nat) (r : Tenant) (s : State) : List Byte :=
  let creds := sortNat ((s.store.credsOf id).map BitVec.toNat)
  let units := s.store.unitsOf id
  u16 id ++ r.bytes ++ u8 creds.length ++ (creds.map u32).flatten ++ u8 units.length ++
    (units.map u16).flatten ++ u8 (s.visitsOf id).length

/-- GET_TENANT (R15). -/
def execGetTenant (s : State) : Answer :=
  .next <| takingStore 0x12 (fun body => tested (parseTenantId body) outsideStarting fun id =>
    withTenant id fun r s => reply .ok (getTenantBody id r s) s) s

/-! ## Credentials (R16, R17) -/

/-- The lowest-numbered free slot, the keys rising from `n` (R25). -/
def lowestFree : Nat → Table CredSlot → Nat
  | n, [] => n
  | n, (k, _) :: t => if k = n then lowestFree (n + 1) t else n

/-- PUT_CREDENTIAL after its tenant tests (R16 steps 3 to 6). -/
def putCredential (v : Word32) (id : Nat) (s : State) : State :=
  let full := 4 ≤ (s.store.credsOf id).length
  match s.store.credSlot v with
  | some (_, .present _ t _) => if t = id then reply .ok [] s else reply .duplicate [] s
  | some (slot, _) => if full then reply .full [] s else beginWrite (.credential slot v (some id)) s
  | none =>
    if full || Config.credentialSlots ≤ s.store.creds.length then reply .full [] s
    else beginWrite (.credential (lowestFree 0 s.store.creds) v (some id)) s

/-- PUT_CREDENTIAL (R16). -/
def execPutCredential (s : State) : Answer :=
  .next <| takingStore 0x13 (fun body => tested (parsePutCredential body) outsideStarting fun x =>
    unlessFaulted (withTenant x.2 fun _ => putCredential x.1 x.2)) s

/-- DROP_CREDENTIAL (R17). -/
def execDropCredential (s : State) : Answer :=
  .next <| takingStore 0x14 (fun body => tested (parseValue body) outsideStarting fun v =>
    unlessFaulted fun s =>
      match s.store.credSlot v with
      | none => reply .notFound [] s
      | some (slot, _) => beginWrite (.credential slot v none) s) s

/-! ## Units (R18 to R20) -/

/-- The entry of a unit is in a state other than ARMED or UNKNOWN; an absent entry is not (R18, R19, R33). -/
def UnitState.inUse : UnitState → Bool
  | .armed => false
  | .unknown => false
  | _ => true

/-- The entry of a unit holds a request off (R18 test 5, R19). -/
def State.unitInUse (s : State) (u : Nat) : Bool :=
  match s.unit u with
  | some e => e.state.inUse
  | none => false

/-- Another present unit record names the same segment, node and channel (R18 test 3). -/
def Store.channelTaken (st : Store) (u : Nat) (r : UnitRec) : Bool :=
  st.presentUnits.any fun e =>
    e.1 != u && e.2.seg == r.seg && e.2.node == r.node && e.2.channel == r.channel

/-- The tenant of a unit record has no room for the unit (R18 test 4). -/
def Store.tenantFull (st : Store) (u : Nat) (r : UnitRec) : Bool :=
  r.tenant != 0 && !(st.unitsOf r.tenant).contains u && 16 ≤ (st.unitsOf r.tenant).length

/-- Two unit records differ in more than the overlocked flag (R18 test 5). -/
def UnitRec.moved (a b : UnitRec) : Bool :=
  a.tenant != b.tenant || a.floor != b.floor || a.seg != b.seg || a.node != b.node ||
    a.channel != b.channel

/-- PUT_UNIT after its tenant tests (R18 tests 3 to 5). -/
def putUnit (u : Nat) (r : UnitRec) (s : State) : State :=
  if s.store.channelTaken u r then reply .duplicate [] s
  else if s.store.tenantFull u r then reply .full [] s
  else
    match s.store.unitSlot u with
    | some (.present old _) =>
      if old.moved r && s.unitInUse u then reply .inUse [] s
      else if old = r then reply .ok [] s
      else beginWrite (.unit u (some r)) s
    | _ => beginWrite (.unit u (some r)) s

/-- PUT_UNIT (R18). -/
def execPutUnit (s : State) : Answer :=
  .next <| takingStore 0x15 (fun body => tested (parsePutUnit body) outsideStarting fun x =>
    unlessFaulted fun s =>
      if x.2.tenant = 0 then putUnit x.1 x.2 s
      else withTenant x.2.tenant (fun _ => putUnit x.1 x.2) s) s

/-- DROP_UNIT (R19). -/
def execDropUnit (s : State) : Answer :=
  .next <| takingStore 0x16 (fun body => tested (parseUnitNumber body) outsideStarting fun u =>
    unlessFaulted fun s =>
      match s.store.unitSlot u with
      | none => reply .notFound [] s
      | some (.present _ _) =>
        if s.unitInUse u then reply .inUse [] s else beginWrite (.unit u none) s
      | some .damaged => beginWrite (.unit u none) s) s

/-- SET_OVERLOCK (R20). -/
def execSetOverlock (s : State) : Answer :=
  .next <| takingStore 0x17 (fun body => tested (parseSetOverlock body) outsideStarting fun x =>
    unlessFaulted fun s =>
      match s.store.unitSlot x.1 with
      | none => reply .notFound [] s
      | some .damaged => reply .recordDamaged [] s
      | some (.present r _) =>
        if r.overlocked = x.2 then reply .ok [] s
        else beginWrite (.unit x.1 (some { r with overlocked := x.2 })) s) s

/-! ## Patterns, classes, windows (R21 to R23) -/

/-- PUT_PATTERN (R21). -/
def execPutPattern (s : State) : Answer :=
  .next <| takingStore 0x18 (fun body => tested (parsePutPattern body) setupOnly fun x =>
    unlessFaulted (writeItem (.pattern x.1) (.pattern x.2))) s

/-- PUT_CLASS (R22). -/
def execPutClass (s : State) : Answer :=
  .next <| takingStore 0x19 (fun body => tested (parsePutClass body) setupOnly fun x =>
    unlessFaulted (writeItem (.cls x.1) (.cls x.2))) s

/-- PUT_WINDOW (R23). -/
def execPutWindow (s : State) : Answer :=
  .next <| takingStore 0x1A (fun body => tested (parsePutWindow body) setupOnly fun x =>
    unlessFaulted (writeItem (.window x.1) (.window x.2))) s

end Sys2Proof.Machine
end

