-- ==== Sys2Proof/Machine/SiteModes.lean ====
section
/-! DEFINITION. Site Control: the mode machine, drain and evacuation, the clocks, and its requests (R192 to
R205). -/

namespace Sys2Proof.Machine

/-! ## Changing the mode (R192, R202) -/

/-- The mode changes: it is reported, and a MODE notice is put (R192). The blocks other than the Line Block
read the mode as it stands (log 4). -/
def enterMode (new : Mode) (ret : Option Mode) (cause : ModeCause) (s : State) : State :=
  let left := s.site.mode
  putNotice (.mode left new ret cause)
    (toBeacon (.evacuate (new == .evacuate)) { s with site := { s.site with mode := new } })

/-- The return mode of an evacuation that begins in a mode (R202 step 1). -/
def Mode.returnsTo : Mode → Mode
  | .run => .run
  | _ => .setup

/-- The cause of the MODE notice of an evacuation (R202 step 2). -/
def EvacCause.notice : EvacCause → ModeCause
  | .host => .evacuateRequest
  | .fire => .fire

/-- An evacuation begins (R202). -/
def beginEvacuation (cause : EvacCause) (s : State) : State :=
  let ret := s.site.mode.returnsTo
  let s := { s with site := { s.site with returnMode := some ret, evacCause := some cause } }
  let s := enterMode .evacuate (some ret) cause.notice s
  toVisitsEvac .begin_ (toLiftOrders .evacBegin (toPortalEvac .begin_ s))

/-- The modes an evacuation can begin in (R202). -/
def Mode.evacuable : Mode → Bool
  | .setup | .run | .draining => true
  | _ => false

/-! ## Drain (R199, R200) -/

/-- Nothing holds the drain open (R200). -/
def State.drained (s : State) : Bool :=
  !s.site.portalsBusy && !s.site.carsBusy && !s.site.segABusy && !s.site.segBBusy &&
    !s.site.segCBusy && s.store.state == .ready

/-- The drain check, made in DRAINING once the drain begin order has been answered (R200; log 27). -/
def drainCheck (s : State) : State :=
  if s.site.mode = .draining && s.site.drainOwed = 0 && s.drained then
    enterMode .setup none .drainDone s
  else s

/-- Site Control records a busy report (R200). -/
def recordReport (c : SiteControl) : SiteReport → SiteControl
  | .portals b => { c with portalsBusy := b }
  | .cars b => { c with carsBusy := b }
  | .segment .a b => { c with segABusy := b }
  | .segment .b b => { c with segBBusy := b }
  | .segment .c b => { c with segCBusy := b }
  | .storeReady => c
  | .drainAnswer => { c with drainOwed := c.drainOwed - 1 }

/-- Take one report of the drain check. -/
def takeSiteReport (r : SiteReport) (rest : List SiteReport) (s : State) : State :=
  drainCheck { s with site := recordReport { s.site with reports := rest } r }

/-- DRAIN_ANSWER (R199, R200). -/
def execDrainAnswer (s : State) : Answer :=
  .next <|
    match s.site.reports with
    | .drainAnswer :: rest => takeSiteReport .drainAnswer rest s
    | _ => s

/-- BUSY_REPORT (R200). -/
def execBusyReport (s : State) : Answer :=
  .next <|
    match s.site.reports with
    | .drainAnswer :: _ => s
    | r :: rest => takeSiteReport r rest s
    | [] => s

/-- HOLD (R199). -/
def execHold (s : State) : Answer :=
  .next <| taking 0x04 (fun body => tested (parseNone body) anyMode fun _ s =>
    match s.site.mode with
    | .run =>
      let s := { s with site := { s.site with drainOwed := s.site.drainOwed + 1 } }
      reply .ok [] (toLiftOrders .drain (enterMode .draining none .hold s))
    | .setup | .draining => reply .ok [] s
    | .evacuate | .starting => reply .wrongMode [] s) s

/-! ## Resume (R40, R201) -/

/-- RESUME in SETUP (R40). -/
def resumeSetup (s : State) : State :=
  unlessFaulted (fun s =>
    if s.store.markerValid then reply .ok [] (enterMode .run none .resume s)
    else beginWrite (.site .marker (.marker true)) s) s

/-- RESUME by mode (R201). -/
def resumeByMode (s : State) : State :=
  match s.site.mode with
  | .setup => resumeSetup s
  | .draining => reply .ok [] (enterMode .run none .resume s)
  | .run => reply .ok [] s
  | .evacuate | .starting => reply .wrongMode [] s

/-- RESUME (R201): in SETUP it is a host operation of the store (R27). -/
def execResume (s : State) : Answer :=
  .next <|
    let f := fun (body : List Byte) => tested (parseNone body) anyMode fun _ => resumeByMode
    if s.site.mode = .setup then takingStore 0x05 f s else taking 0x05 f s

/-- The marker write of RESUME has committed (R201). -/
def resumeCommitted (s : State) : State :=
  match s.site.mode with
  | .setup => enterMode .run none .resume s
  | .evacuate => { s with site := { s.site with returnMode := some .run } }
  | _ => s

/-! ## Evacuation (R198, R202, R203) -/

/-- EVACUATE (R202). -/
def execEvacuate (s : State) : Answer :=
  .next <| taking 0x06 (fun body => tested (parseNone body) anyMode fun _ s =>
    match s.site.mode with
    | .setup | .run | .draining => reply .ok [] (beginEvacuation .host s)
    | .evacuate => reply .ok [] s
    | .starting => reply .wrongMode [] s) s

/-- EVACUATE_END (R203 step 1): the order to the Visit Engine, whose answer lets the end go on. -/
def execEvacuateEnd (s : State) : Answer :=
  .next <| taking 0x07 (fun body => tested (parseNone body) (fun m => m == .evacuate) fun _ s =>
    if s.lines.fireInput then reply .fireActive [] s else working (toVisitsEvac .end_ s)) s

/-- The evacuation ends once every visit is closed (R203 steps 2 to 4). -/
def endEvacuation (s : State) : State :=
  let ret := s.site.returnMode.getD .setup
  let s := toLiftOrders .evacEnd (toPortalEvac .end_ s)
  let s := { s with site := { s.site with returnMode := none, evacCause := none } }
  reply .ok [] (enterMode ret (some ret) .evacuateEnd s)

/-- EVACUATION_CLOSURES_DONE (R203 steps 2 to 5). The mode is still EVACUATE (R203 step 1); out of it the event
cannot happen (log 2). -/
def execEvacuationClosuresDone (s : State) : Answer :=
  .next <|
    if s.site.closuresAnswer && s.site.mode == .evacuate then
      let s := endEvacuation { s with site := { s.site with closuresAnswer := false } }
      if s.lines.fireInput then beginEvacuation .fire s else s
    else s

/-- A report of the fire input as active begins an evacuation where one can begin (R197, R198). -/
def fireReported (active : Bool) (s : State) : State :=
  if active && s.site.mode.evacuable then beginEvacuation .fire s else s

/-- FIRE_INPUT_CHANGE (R198). -/
def execFireInputChange (s : State) : Answer :=
  .next <|
    match s.site.fireReports with
    | .change a :: rest =>
      fireReported a { s with site := { s.site with fireReports := rest, fireInput := a } }
    | _ => s

/-- SETTLED_REPORT (R197). -/
def execSettledReport (s : State) : Answer :=
  .next <|
    match s.site.fireReports with
    | .settled a :: rest =>
      fireReported a
        { s with site := { s.site with fireReports := rest, fireInput := a, fireCheckDone := true } }
    | _ => s

/-! ## Clocks and parameters (R193 to R196) -/

/-- The wall clock one second later (R194). -/
def Clock.next (c : Clock) : Clock :=
  if c.second < 59 then { c with second := c.second + 1 }
  else if c.minute < 1439 then ⟨c.day, c.minute + 1, 0⟩
  else if c.day < 6 then ⟨c.day + 1, 0, 0⟩
  else ⟨0, 0, 0⟩

/-- SITE_SECOND_TICK (R193, R194): site seconds advance unless saturated, and a set wall clock with them. -/
def execSiteSecondTick (s : State) : Answer :=
  .next <|
    if s.site.seconds < Config.maxSeconds then
      { s with site :=
        { s.site with seconds := s.site.seconds + 1, clock := s.site.clock.map Clock.next } }
    else s

/-- SET_CLOCK (R195). -/
def execSetClock (s : State) : Answer :=
  .next <| taking 0x08 (fun body => tested (parseSetClock body) outsideStarting fun c s =>
    reply .ok [] { s with site := { s.site with clock := some c } }) s

/-- PUT_SITE (R196). -/
def execPutSite (s : State) : Answer :=
  .next <| takingStore 0x09 (fun body => tested (parsePutSite body) setupOnly fun p =>
    unlessFaulted (writeItem .params (.params p))) s

/-- The working copy takes the site parameters; a change of beacon on alarms is reported (R187, R196). -/
def takeParams (p : Marked SiteParams) (s : State) : State :=
  let was := s.site.params.val.beaconOnAlarms
  let s := { s with site := { s.site with params := p } }
  if p.val.beaconOnAlarms = was then s else toBeacon (.onAlarms p.val.beaconOnAlarms) s

/-! ## The site report (R205) -/

/-- The wall clock as a reply carries it (R205; log 18). -/
def clockBytes : Option Clock → List Byte
  | some c => u8 c.day ++ u16 c.minute ++ u8 c.second
  | none => [0xFF, 0xFF, 0xFF, 0xFF]

/-- The site parameters and the damage mark, absent in STARTING (R205; log 18). -/
def paramsBytes (s : State) : List Byte :=
  if s.site.mode = .starting then List.replicate 7 0xFF
  else s.site.params.val.bytes ++ flag s.site.params.damaged

/-- The fields of a GET_STATE reply (R205). -/
def getStateBody (s : State) : List Byte :=
  u8 s.site.mode.code ++ u8Or (s.site.returnMode.map returnModeCode) ++
    u8Or (s.site.evacCause.map EvacCause.code) ++ flag s.site.fireCheckDone ++
    u8 (if s.site.fireInput then 0 else 1) ++ clockBytes s.site.clock ++ u32 s.site.seconds ++
    flag s.site.portalsBusy ++ flag s.site.carsBusy ++ flag s.site.segABusy ++
    flag s.site.segBBusy ++ flag s.site.segCBusy ++ u8 s.store.state.code ++ paramsBytes s

/-- GET_STATE (R205). -/
def execGetState (s : State) : Answer :=
  .next <| taking 0x03 (fun body => tested (parseNone body) anyMode fun _ s =>
    reply .ok (getStateBody s) s) s

end Sys2Proof.Machine
end

