-- ==== Sys2Proof/Machine/Store.lean ====
section
/-! DEFINITION. The Record Store at work: write completion and the mirrors, table clears, sticky faults,
digests, and the store requests (R28 to R40). -/

namespace Sys2Proof.Machine

/-! ## Slots and digests (R29, R38) -/

/-- What a slot adds to its table's digest: its check value when present, nothing otherwise (R38). -/
def Slot.digest {α : Type} : Slot α → Word16
  | .present _ c => c
  | .damaged => 0

/-- What a credential slot adds to its table's digest (R38). -/
def CredSlot.digest : CredSlot → Word16
  | .present _ _ c => c
  | _ => 0

/-- What a key adds to its table's digest. -/
def digestAt {α : Type} (f : α → Word16) (t : Table α) (k : Nat) : Word16 :=
  match t.find k with
  | some x => f x
  | none => 0

/-- The XOR of what the entries of a table add to its digest (R38, R41). -/
def digestOf {α : Type} (f : α → Word16) (t : Table α) : Word16 := t.foldl (fun d e => d ^^^ f e.2) 0

/-- The new contents of a slot after a read-back: the new record, empty after a DROP, or damaged (R29). -/
def setSlot {α : Type} (t : Table α) (k : Nat) (new : Option α) (damaged : α) (ok : Bool) : Table α :=
  if ok then
    match new with
    | some x => t.put k x
    | none => t.remove k
  else t.put k damaged

/-- A digest after a write: the old record's check value out, the new one's in when the read-back matches
(R29). -/
def redigest {α : Type} (f : α → Word16) (d : Word16) (old new : Table α) (k : Nat) : Word16 :=
  d ^^^ digestAt f old k ^^^ digestAt f new k

/-- The store's slots and digests after the completion of a write (R29). -/
def commitWrite (w : WriteOp) (ok : Bool) (st : Store) : Store :=
  match w with
  | .tenant id r =>
    let t := setSlot st.tenants id (r.map fun r => .present r (tenantCheck id r)) .damaged ok
    { st with tenants := t, digestT := redigest Slot.digest st.digestT st.tenants t id }
  | .unit u r =>
    let t := setSlot st.units u (r.map fun r => .present r (unitCheck u r)) .damaged ok
    { st with units := t, digestU := redigest Slot.digest st.digestU st.units t u }
  | .credential slot v r =>
    let t := setSlot st.creds slot (r.map fun id => .present v id (credCheck v id)) (.damaged v) ok
    { st with creds := t, digestC := redigest CredSlot.digest st.digestC st.creds t slot }
  | .site i v =>
    { st with site := setSlot st.site i.key (some (.present v (siteCheck i.key v))) .damaged ok }

/-! ## Sticky faults (R31) -/

/-- The key a write fault record holds (R31). -/
def WriteOp.key : WriteOp → FaultKey
  | .tenant id _ => .tenant id
  | .unit u _ => .unit u
  | .credential _ v _ => .credential v
  | .site i _ => .site i

/-- A failed read-back sets WRITE_FAULT, fills its record when the flag was clear, and is counted (R29, R31,
R39). -/
def failWrite (w : WriteOp) (st : Store) : Store :=
  { st with
    writeFault := true
    writeFaultRec := if st.writeFault then st.writeFaultRec else some w.key
    failedWrites := satAdd 255 st.failedWrites 1 }

/-- A failed block erase sets CLEAR_FAULT, fills its record when the flag was clear, and is counted (R31,
R36, R39). -/
def failErase (t : TableName) (block : Nat) (st : Store) : Store :=
  { st with
    clearFault := true
    clearFaultRec := if st.clearFault then st.clearFaultRec else some (t, block)
    failedErases := satAdd 255 st.failedErases 1 }

/-! ## The mirrors (R29) -/

/-- The owner of a SITE item takes it as the store holds it, with its damage mark (R29, R30, R41). -/
def applyItem (s : State) (i : SiteItem) : State :=
  match i with
  | .marker => s
  | .pattern _ => s
  | .params => takeParams s.store.params s
  | .cls n => { s with site := { s.site with classes := s.site.classes.set n (s.store.cls n) } }
  | .window n =>
    { s with site := { s.site with windows := s.site.windows.set (n - 1) (s.store.window n) } }
  | .portal p => placePortal p (s.store.portal p) s
  | .car c => placeCar c (s.store.car c) s
  | .segment g => applySettings g (s.store.segment g) s
  | .line n => applyLine n (s.store.line n) s
  | .node g n => applyNode g n (s.store.nodeEntry g n).val s

/-- The mirror of the written record is told at completion (R29). -/
def tellMirror (w : WriteOp) (ok : Bool) (s : State) : State :=
  match w with
  | .tenant _ _ => s
  | .credential _ _ _ => s
  | .unit u (some r) => if ok then applyUnit u r s else dropUnitEntry u s
  | .unit u none => dropUnitEntry u s
  | .site .marker _ => if ok then resumeCommitted s else s
  | .site i _ => applyItem s i

/-! ## Write completion (R29) -/

/-- WRITE_COMPLETION (R29): the read-back matches or differs. -/
def execWriteCompletion (ok : Bool) (s : State) : Answer :=
  .next <|
    match s.store.write with
    | none => s
    | some w =>
      let st := commitWrite w ok s.store
      let st := if ok then st else failWrite w st
      let s := tellMirror w ok { s with store := { st with state := .ready, write := none } }
      reply (if ok then .ok else .storeFault) [] (toSite .storeReady s)

/-! ## Table clears (R33 to R37) -/

/-- The number of a table's block that holds a key, as a test. -/
def inBlock (t : TableName) (b key : Nat) : Bool := blockOf t key == b

/-- A block of a keyed table after its erase: empty, or every record in it damaged (R34, R36). -/
def eraseBlock {α : Type} (t : TableName) (b : Nat) (damage : α → α) (ok : Bool) (tbl : Table α) :
    Table α :=
  if ok then tbl.filter fun e => !inBlock t b e.1
  else tbl.map fun e => if inBlock t b e.1 then (e.1, damage e.2) else e

/-- A credential slot whose erase or scan failed keeps its value as its key (R30). A keyless slot stays keyless, also
once no other slot holds the value stored in it: R30 leaves that open, and the model keeps no value of such a slot
(log 52). -/
def CredSlot.damage : CredSlot → CredSlot
  | .present v _ _ => .damaged v
  | c => c

/-- The XOR of what a block's records add to the digest (R34, R36). -/
def blockDigest {α : Type} (t : TableName) (b : Nat) (f : α → Word16) (tbl : Table α) : Word16 :=
  digestOf f (tbl.filter fun e => inBlock t b e.1)

/-- The store's slots and digests after the erase of a block (R34, R36). -/
def eraseStore (t : TableName) (b : Nat) (ok : Bool) (st : Store) : Store :=
  match t with
  | .tenant =>
    { st with
      tenants := eraseBlock t b (fun _ => .damaged) ok st.tenants
      digestT := st.digestT ^^^ blockDigest t b Slot.digest st.tenants }
  | .unit =>
    { st with
      units := eraseBlock t b (fun _ => .damaged) ok st.units
      digestU := st.digestU ^^^ blockDigest t b Slot.digest st.units }
  | .credential =>
    { st with
      creds := eraseBlock t b CredSlot.damage ok st.creds
      digestC := st.digestC ^^^ blockDigest t b CredSlot.digest st.creds }
  | .site => { st with site := eraseBlock t b (fun _ => .damaged) ok st.site }

/-- The unit numbers whose records a block of UNIT holds (R34, R36). -/
def Store.unitsIn (st : Store) (b : Nat) : List Nat :=
  (st.units.filter fun e => inBlock .unit b e.1).map Prod.fst

/-- The SITE items with a mirror, in the order their owners are told at the end of a clear (R34; log 26). -/
def mirroredItems : List SiteItem :=
  [.params] ++ (List.range 8).map .cls ++ (List.range 15).map (fun i => .window (i + 1)) ++
    (List.range 8).map .portal ++ (List.range 4).map .car ++ [.segment .a, .segment .b, .segment .c] ++
    (List.range 12).map .line ++
    [Seg.a, Seg.b, Seg.c].flatMap fun g => (List.range 62).map fun i => .node g (i + 1)

/-- After block 15 the store enters READY, the owners of SITE items are told, and the reply is sent (R34). -/
def endClear (c : ClearOp) (s : State) : State :=
  let s := toSite .storeReady { s with store := { s.store with state := .ready, clear := none } }
  let s := if c.table = .site then mirroredItems.foldl applyItem s else s
  reply (if c.failed then .storeFault else .ok) [] s

/-- The erase of a block completes (R34, R36). The entries of a UNIT block become absent by rising unit number, an
order the manual does not give (log 45). -/
def completeBlock (c : ClearOp) (ok : Bool) (s : State) : State :=
  let units := if c.table = .unit then s.store.unitsIn c.block else []
  let st := eraseStore c.table c.block ok s.store
  let st := if ok then st else failErase c.table c.block st
  let s := units.foldl (fun s u => dropUnitEntry u s) { s with store := st }
  let c := { c with failed := c.failed || !ok }
  if c.block < 15 then
    { s with store := { s.store with clear := some { c with block := c.block + 1 } } }
  else endClear c s

/-- BLOCK_ERASE_COMPLETION (R34, R36): the erase goes on in CLEARING alone (R35). -/
def execBlockEraseCompletion (ok : Bool) (s : State) : Answer :=
  .next <|
    match s.store.state, s.store.clear with
    | .clearing, some c => completeBlock c ok s
    | _, _ => s

/-- The test of a clear against the state of the site (R33 test 5). -/
def State.clearInUse (s : State) : TableName → Bool
  | .tenant => !s.visits.table.isEmpty
  | .unit => s.units.entries.any fun e => e.2.state.inUse
  | _ => false

/-- CLEAR_TABLE (R33). -/
def execClearTable (s : State) : Answer :=
  .next <| takingStore 0x20 (fun body => tested (parseTable body) outsideStarting fun t s =>
    if t = .site && s.site.mode != .setup then reply .wrongMode [] s
    else
      unlessFaulted (fun s =>
        if s.clearInUse t then reply .inUse [] s
        else
          working { s with store :=
            { s.store with state := .clearing, clear := some ⟨t, 0, false⟩ } }) s) s

/-! ## Reports (R32, R38, R39) -/

/-- A write fault record: table and key (R31, R39; log 15). -/
def faultBytes : Option FaultKey → List Byte
  | none => [0xFF, 0xFF, 0xFF, 0xFF, 0xFF]
  | some (.tenant id) => u8 0 ++ u32 id
  | some (.unit u) => u8 1 ++ u32 u
  | some (.credential v) => u8 2 ++ u32 v.toNat
  | some (.site i) => u8 3 ++ u32 (i.place.1 * 256 + i.place.2)

/-- A clear fault record: table and block (R31, R39). -/
def clearFaultBytes : Option (TableName × Nat) → List Byte
  | none => [0xFF, 0xFF]
  | some (t, b) => u8 t.code ++ u8 b

/-- How many slots are damaged. -/
def countDamaged {α : Type} (t : Table (Slot α)) : Nat :=
  (t.filter fun e =>
    match e.2 with
    | .damaged => true
    | .present _ _ => false).length

/-- A credential slot is damaged, keyless ones included (R30, R39). -/
def CredSlot.isDamaged : CredSlot → Bool
  | .present _ _ _ => false
  | _ => true

/-- A credential slot is keyless (R30). -/
def CredSlot.isKeyless : CredSlot → Bool
  | .keyless => true
  | _ => false

/-- How many credential slots satisfy a test. -/
def countCreds (f : CredSlot → Bool) (t : Table CredSlot) : Nat := (t.filter fun e => f e.2).length

/-- The marker as GET_STORE reports it: VALID, BLANK, DAMAGED (R39). -/
def Store.markerCode (st : Store) : Nat :=
  if (st.item .marker).damaged then 2 else if st.markerValid then 0 else 1

/-- The fields of a GET_STORE reply (R39). -/
def getStoreBody (st : Store) : List Byte :=
  let dT := countDamaged st.tenants
  let dU := countDamaged st.units
  let dC := countCreds CredSlot.isDamaged st.creds
  flag st.writeFault ++ faultBytes st.writeFaultRec ++ flag st.clearFault ++
    clearFaultBytes st.clearFaultRec ++ u16 (st.tenants.length - dT) ++ u16 dT ++
    u16 (st.units.length - dU) ++ u16 dU ++ u16 (st.creds.length - dC) ++ u16 dC ++
    u16 (countCreds CredSlot.isKeyless st.creds) ++ u8 (countDamaged st.site) ++ u8 st.markerCode ++
    u8 st.failedWrites ++ u8 st.failedErases

/-- GET_STORE (R39): the counts may be cleared after the reply. -/
def execGetStore (s : State) : Answer :=
  .next <| takingStore 0x21 (fun body => tested (parseFlag body) outsideStarting fun clear s =>
    let t := reply .ok (getStoreBody s.store) s
    if clear then { t with store := { t.store with failedWrites := 0, failedErases := 0 } } else t) s

/-- CLEAR_STORE_FAULT (R32). -/
def execClearStoreFault (s : State) : Answer :=
  .next <| takingStore 0x22 (fun body => tested (parseNone body) outsideStarting fun _ s =>
    reply .ok [] { s with store :=
      { s.store with
        writeFault := false, writeFaultRec := none, clearFault := false, clearFaultRec := none } }) s

/-- The fields of a GET_DIGEST reply (R38). -/
def getDigestBody (st : Store) : List Byte :=
  u16 st.digestT.toNat ++ u16 st.digestU.toNat ++ u16 st.digestC.toNat

/-- GET_DIGEST (R38). -/
def execGetDigest (s : State) : Answer :=
  .next <| takingStore 0x23 (fun body => tested (parseNone body) outsideStarting fun _ s =>
    reply .ok (getDigestBody s.store) s) s

end Sys2Proof.Machine
end

