-- ==== Sys2Proof/Machine/Starts.lean ====
section
/-! DEFINITION. Cold start, warm restart, and the end of the integrity scan (R41, R42, R91, R116, R142, R148,
R181, R191, R197, R206). -/

namespace Sys2Proof.Machine

/-! ## What a cold start cuts off (R42; log 8) -/

/-- Contents of a keyed slot that fail the scan: a check value that is not the record's. -/
def Slot.spoil {α : Type} : Slot α → Slot α
  | .present r c => .present r (c ^^^ 1)
  | .damaged => .damaged

/-- Contents of a credential slot that fail the scan. -/
def CredSlot.spoil : CredSlot → CredSlot
  | .present v t c => .present v t (c ^^^ 1)
  | c => c

/-- A slot left by a cut-off write: its old contents, its new ones, or contents that fail the scan (R42). -/
def cutSlot {α : Type} (how : Config.CutSlot) (spoil : α → α) (t : Table α) (k : Nat) (new : Option α) :
    Table α :=
  match how with
  | .old => t
  | .new =>
    match new with
    | some x => t.put k x
    | none => t.remove k
  | .failing =>
    match new with
    | some x => t.put k (spoil x)
    | none => t.modify k spoil

/-- The slots a cut-off write leaves (R42). -/
def cutWrite (how : Config.CutSlot) (w : WriteOp) (st : Store) : Store :=
  match w with
  | .tenant id r =>
    let new : Option (Slot Tenant) := r.map fun r => .present r (tenantCheck id r)
    { st with tenants := cutSlot how Slot.spoil st.tenants id new }
  | .unit u r =>
    { st with units := cutSlot how Slot.spoil st.units u (r.map fun r => .present r (unitCheck u r)) }
  | .credential slot v r =>
    let new : Option CredSlot := r.map fun id => .present v id (credCheck v id)
    { st with creds := cutSlot how CredSlot.spoil st.creds slot new }
  | .site i v =>
    let new : Slot SiteValue := .present v (siteCheck i.key v)
    { st with site := cutSlot how Slot.spoil st.site i.key (some new) }

/-- The slots a cut-off erase leaves in its block, each as it was, erased, or failing the scan (R42). -/
def cutBlock {α : Type} (how : Nat → Config.CutSlot) (spoil : α → α) (t : TableName) (b : Nat)
    (tbl : Table α) : Table α :=
  tbl.filterMap fun e =>
    if inBlock t b e.1 then
      match how e.1 with
      | .old => some e
      | .new => none
      | .failing => some (e.1, spoil e.2)
    else some e

/-- The slots a cut-off clear leaves (R42). -/
def cutClear (how : Nat → Config.CutSlot) (c : ClearOp) (st : Store) : Store :=
  match c.table with
  | .tenant => { st with tenants := cutBlock how Slot.spoil .tenant c.block st.tenants }
  | .unit => { st with units := cutBlock how Slot.spoil .unit c.block st.units }
  | .credential => { st with creds := cutBlock how CredSlot.spoil .credential c.block st.creds }
  | .site => { st with site := cutBlock how Slot.spoil .site c.block st.site }

/-- The store of a cold start with what it cut off (R42). -/
def Store.cut (st : Store) (n : Nat) : Store :=
  let st := match st.write with
    | some w => cutWrite (Config.cutWrite n) w st
    | none => st
  match st.clear with
  | some c => cutClear (Config.cutErase n) c st
  | none => st

/-- The store enters SCANNING (R26, R41): no operation, no lookup, and the counts of R39 at 0. -/
def Store.scanning (st : Store) : Store :=
  { st with
    state := .scanning, failedWrites := 0, failedErases := 0, write := none, clear := none
    lookups := [], results := [] }

/-- The sticky flags and their records are cleared by a cold start (R31). -/
def Store.unfaulted (st : Store) : Store :=
  { st with writeFault := false, writeFaultRec := none, clearFault := false, clearFaultRec := none }

/-- The line rate code of the straps (R210, R217): HRATE0 is the lower bit. -/
def strapCode (hrate0 hrate1 : Bool) : Nat := hrate0.toNat + 2 * hrate1.toNat

/-- The pin levels as they stand. -/
def State.pins (s : State) : List Level := s.lines.list.map Line.pin

/-- COLD_START (R206, R217). -/
def execColdStart (hrate0 hrate1 : Bool) (s : State) : Answer :=
  .next <|
    State.starting s.pending (strapCode hrate0 hrate1) (s.store.cut s.freeCount).unfaulted.scanning none
      s.pins (s.freeCount + 1)

/-- WARM_RESTART (R206): the last byte of a RESTART reply has left the line. -/
def execWarmRestart (s : State) : Answer :=
  .next <|
    match s.host.replies.head?.map Reply.role with
    | some .restart =>
      State.starting s.pending s.host.rate s.store.scanning s.site.clock s.pins s.freeCount
    | _ => s

/-! ## The integrity scan (R41) -/

/-- The scan of one slot of a keyed table: a record whose check value does not match, or that has decayed,
is damaged (R41; log 9). -/
def scanSlot {α : Type} (check : α → Word16) (bad : Bool) : Slot α → Slot α
  | .present r c => if bad || c != check r then .damaged else .present r c
  | .damaged => .damaged

/-- The scan of a keyed table (R41). -/
def scanTable {α : Type} (check : Nat → α → Word16) (bad : Nat → Bool) (t : Table (Slot α)) :
    Table (Slot α) :=
  t.map fun e => (e.1, scanSlot (check e.1) (bad e.1) e.2)

/-- The scan of the credential slots, with the values met before: a value met a second time makes the later
slot keyless (R30, R41). A slot that decayed keeps the value it held: the manual does not say what value
decayed contents show (the model's choice, log 9). A keyless slot stays keyless (the model's choice, log 52). -/
def scanCreds (bad : Nat → Bool) : List Word32 → Table CredSlot → Table CredSlot
  | _, [] => []
  | seen, (k, .present v t c) :: rest =>
    if seen.contains v then (k, .keyless) :: scanCreds bad seen rest
    else
      (k, if bad k || c != credCheck v t then .damaged v else .present v t c) ::
        scanCreds bad (v :: seen) rest
  | seen, (k, .damaged v) :: rest =>
    if seen.contains v then (k, .keyless) :: scanCreds bad seen rest
    else (k, .damaged v) :: scanCreds bad (v :: seen) rest
  | seen, (k, .keyless) :: rest => (k, .keyless) :: scanCreds bad seen rest

/-- The store after the scan (R41), READY. -/
def Store.scanned (st : Store) (decayed : List SlotRef) : Store :=
  let t := scanTable tenantCheck (fun k => decayed.contains (.tenant k)) st.tenants
  let u := scanTable unitCheck (fun k => decayed.contains (.unit k)) st.units
  let c := scanCreds (fun k => decayed.contains (.credential k)) [] st.creds
  { st with
    state := .ready
    tenants := t
    units := u
    creds := c
    site := scanTable siteCheck (fun k => decayed.contains (.site (k / 64) (k % 64))) st.site
    digestT := digestOf Slot.digest t
    digestU := digestOf Slot.digest u
    digestC := digestOf CredSlot.digest c }

/-- A STORE_DAMAGE notice for a table with newly damaged slots (R41 step 3). -/
def noteDamage (t : TableName) (before after : Nat) (s : State) : State :=
  if before < after then putNotice (.storeDamage t (after - before) after) s else s

/-- The store is scanned, with the notices of the four tables in order (R41). -/
def scanStore (decayed : List SlotRef) (s : State) : State :=
  let old := s.store
  let new := old.scanned decayed
  let s := { s with store := new }
  let s := noteDamage .tenant (countDamaged old.tenants) (countDamaged new.tenants) s
  let s := noteDamage .unit (countDamaged old.units) (countDamaged new.units) s
  let s := noteDamage .credential (countCreds CredSlot.isDamaged old.creds)
    (countCreds CredSlot.isDamaged new.creds) s
  noteDamage .site (countDamaged old.site) (countDamaged new.site) s

/-! ## Every block takes its items (R8, R91, R116, R142, R148, R181, R191) -/

/-- The nodes a segment comes up with (R148). -/
def Store.startNodes (st : Store) (g : Seg) (l : Liveness) : Table Node :=
  ((List.range 62).map (· + 1)).filterMap fun n =>
    (st.nodeEntry g n).val.map fun e => (n, Node.start e l)

/-- A segment as it leaves STARTING (R148, R181). -/
def Store.startSegment (st : Store) (g : Seg) : Segment :=
  let x := st.segment g
  { Segment.blank with
    settings := x
    rateInUse := x.val.lineRate
    state := if x.val.enabled then .active else .off
    nodes := st.startNodes g (if x.val.enabled then .quiet else .unreachable)
    pollTimer := x.val.enabled }

/-- The working copy, the portals, the units, the cars and the segments take their items (R41). -/
def fillCopies (s : State) : State :=
  let st := s.store
  { s with
    site := { s.site with
      params := st.params
      classes := (List.range 8).map st.cls
      windows := (List.range 15).map fun n => st.window (n + 1) }
    portals := { s.portals with
      list := (List.range 8).map fun p => { Portal.blank with record := st.portal p } }
    units := { s.units with
      entries := st.presentUnits.map fun e => (e.1, UnitEntry.fresh e.2 0) }
    lifts := { s.lifts with
      cars := (List.range 4).map fun c => { Car.blank with record := st.car c } }
    segA := st.startSegment .a
    segB := st.startSegment .b
    segC := st.startSegment .c }

/-- The lines take up their settings, and the settled report is owed (R185, R191). -/
def startLines (s : State) : State :=
  let s := (List.range 12).foldl (fun s n => takeUpLine n (s.store.line n) s) s
  { s with lines := { s.lines with settledOwed := true } }

/-- Site Control chooses the mode by the marker (R40, R197). -/
def chooseMode (s : State) : State :=
  enterMode (if s.store.markerValid then .run else .setup) none .start s

/-- SCAN_END (R41, R197): the scan ends, every block takes its items, and the mode is chosen. `decayed` are
the slots whose stored contents no longer verify (log 9). -/
def execScanEnd (decayed : List SlotRef) (s : State) : Answer :=
  .next <|
    if s.store.state = .scanning then
      let s := startLines (fillCopies (toSite .storeReady (scanStore decayed s)))
      reportSettled (chooseMode (toBeacon (.onAlarms s.site.params.val.beaconOnAlarms) s))
    else s

end Sys2Proof.Machine
end

