-- ==== Sys2Proof/Machine/Dispatch.lean ====
section
/-! DEFINITION. One arm per command: the call of its meaning. -/

namespace Sys2Proof.Machine

/-- What a command does to everything but the queue. -/
def exec (i : Instr) (s : State) : Host.Outcome State Fault Refusal :=
  match i with
  | .coldStart hrate0 hrate1 => Sys2Proof.Machine.execColdStart hrate0 hrate1 s
  | .warmRestart => Sys2Proof.Machine.execWarmRestart s
  | .scanEnd decayed => Sys2Proof.Machine.execScanEnd decayed s
  | .siteSecondTick => Sys2Proof.Machine.execSiteSecondTick s
  | .hostByte b => Sys2Proof.Machine.execHostByte b s
  | .frameGapTimeout => Sys2Proof.Machine.execFrameGapTimeout s
  | .replySent => Sys2Proof.Machine.execReplySent s
  | .badKind => Sys2Proof.Machine.execBadKind s
  | .identify => Sys2Proof.Machine.execIdentify s
  | .restart => Sys2Proof.Machine.execRestart s
  | .getState => Sys2Proof.Machine.execGetState s
  | .hold => Sys2Proof.Machine.execHold s
  | .resume => Sys2Proof.Machine.execResume s
  | .evacuate => Sys2Proof.Machine.execEvacuate s
  | .evacuateEnd => Sys2Proof.Machine.execEvacuateEnd s
  | .evacuationClosuresDone => Sys2Proof.Machine.execEvacuationClosuresDone s
  | .setClock => Sys2Proof.Machine.execSetClock s
  | .putSite => Sys2Proof.Machine.execPutSite s
  | .takeNotices => Sys2Proof.Machine.execTakeNotices s
  | .putTenant => Sys2Proof.Machine.execPutTenant s
  | .dropTenant => Sys2Proof.Machine.execDropTenant s
  | .getTenant => Sys2Proof.Machine.execGetTenant s
  | .putCredential => Sys2Proof.Machine.execPutCredential s
  | .dropCredential => Sys2Proof.Machine.execDropCredential s
  | .putUnit => Sys2Proof.Machine.execPutUnit s
  | .dropUnit => Sys2Proof.Machine.execDropUnit s
  | .setOverlock => Sys2Proof.Machine.execSetOverlock s
  | .putPattern => Sys2Proof.Machine.execPutPattern s
  | .putClass => Sys2Proof.Machine.execPutClass s
  | .putWindow => Sys2Proof.Machine.execPutWindow s
  | .clearTable => Sys2Proof.Machine.execClearTable s
  | .getStore => Sys2Proof.Machine.execGetStore s
  | .clearStoreFault => Sys2Proof.Machine.execClearStoreFault s
  | .getDigest => Sys2Proof.Machine.execGetDigest s
  | .writeCompletion readBackMatches => Sys2Proof.Machine.execWriteCompletion readBackMatches s
  | .blockEraseCompletion erased => Sys2Proof.Machine.execBlockEraseCompletion erased s
  | .credentialLookup => Sys2Proof.Machine.execCredentialLookup s
  | .tenantLookup => Sys2Proof.Machine.execTenantLookup s
  | .frameRouterTurn => Sys2Proof.Machine.execFrameRouterTurn s
  | .admissionDecision => Sys2Proof.Machine.execAdmissionDecision s
  | .admissionLookupResult => Sys2Proof.Machine.execAdmissionLookupResult s
  | .exitDecision => Sys2Proof.Machine.execExitDecision s
  | .exitLookupResult => Sys2Proof.Machine.execExitLookupResult s
  | .liftCallIntake => Sys2Proof.Machine.execLiftCallIntake s
  | .liftCallLookupResult => Sys2Proof.Machine.execLiftCallLookupResult s
  | .liftCallTenantResult => Sys2Proof.Machine.execLiftCallTenantResult s
  | .passageReport => Sys2Proof.Machine.execPassageReport s
  | .noPassageReport => Sys2Proof.Machine.execNoPassageReport s
  | .dwellDeadline visit => Sys2Proof.Machine.execDwellDeadline visit s
  | .callReport => Sys2Proof.Machine.execCallReport s
  | .unitOpenedReport => Sys2Proof.Machine.execUnitOpenedReport s
  | .evacuationBeginVisits => Sys2Proof.Machine.execEvacuationBeginVisits s
  | .evacuationEndVisits => Sys2Proof.Machine.execEvacuationEndVisits s
  | .listVisits => Sys2Proof.Machine.execListVisits s
  | .getVisit => Sys2Proof.Machine.execGetVisit s
  | .closeVisit => Sys2Proof.Machine.execCloseVisit s
  | .hostAdmit => Sys2Proof.Machine.execHostAdmit s
  | .openOrder => Sys2Proof.Machine.execOpenOrder s
  | .dropPendingVisit => Sys2Proof.Machine.execDropPendingVisit s
  | .passTimerExpiry portal => Sys2Proof.Machine.execPassTimerExpiry portal s
  | .holdTimerExpiry portal => Sys2Proof.Machine.execHoldTimerExpiry portal s
  | .strikeOutcome segment => Sys2Proof.Machine.execStrikeOutcome segment s
  | .portalDriveLoss segment => Sys2Proof.Machine.execPortalDriveLoss segment s
  | .evacuationBeginPortals => Sys2Proof.Machine.execEvacuationBeginPortals s
  | .evacuationEndPortals => Sys2Proof.Machine.execEvacuationEndPortals s
  | .putPortal => Sys2Proof.Machine.execPutPortal s
  | .setPortalSecure => Sys2Proof.Machine.execSetPortalSecure s
  | .setPortalFree => Sys2Proof.Machine.execSetPortalFree s
  | .setPortalMomentary => Sys2Proof.Machine.execSetPortalMomentary s
  | .getPortal => Sys2Proof.Machine.execGetPortal s
  | .disarmOrder => Sys2Proof.Machine.execDisarmOrder s
  | .closureOrder => Sys2Proof.Machine.execClosureOrder s
  | .releaseOutcome segment => Sys2Proof.Machine.execReleaseOutcome segment s
  | .relockOutcome segment => Sys2Proof.Machine.execRelockOutcome segment s
  | .denyBlinkOutcome segment => Sys2Proof.Machine.execDenyBlinkOutcome segment s
  | .serviceReleaseOutcome segment => Sys2Proof.Machine.execServiceReleaseOutcome segment s
  | .releaseTimerExpiry unit => Sys2Proof.Machine.execReleaseTimerExpiry unit s
  | .latchNodeLoss segment => Sys2Proof.Machine.execLatchNodeLoss segment s
  | .unitServiceBegin => Sys2Proof.Machine.execUnitServiceBegin s
  | .unitServiceEnd => Sys2Proof.Machine.execUnitServiceEnd s
  | .unitAlarmReset => Sys2Proof.Machine.execUnitAlarmReset s
  | .getUnit => Sys2Proof.Machine.execGetUnit s
  | .boardingTimerExpiry car => Sys2Proof.Machine.execBoardingTimerExpiry car s
  | .callExpiry call => Sys2Proof.Machine.execCallExpiry call s
  | .callWithdrawal => Sys2Proof.Machine.execCallWithdrawal s
  | .liftCommandOutcome segment => Sys2Proof.Machine.execLiftCommandOutcome segment s
  | .panelLoss segment => Sys2Proof.Machine.execPanelLoss segment s
  | .drainBegin => Sys2Proof.Machine.execDrainBegin s
  | .evacuationBeginLifts => Sys2Proof.Machine.execEvacuationBeginLifts s
  | .evacuationEndLifts => Sys2Proof.Machine.execEvacuationEndLifts s
  | .putCar => Sys2Proof.Machine.execPutCar s
  | .carServiceOut => Sys2Proof.Machine.execCarServiceOut s
  | .carServiceIn => Sys2Proof.Machine.execCarServiceIn s
  | .getCar => Sys2Proof.Machine.execGetCar s
  | .drainAnswer => Sys2Proof.Machine.execDrainAnswer s
  | .busyReport => Sys2Proof.Machine.execBusyReport s
  | .fireInputChange => Sys2Proof.Machine.execFireInputChange s
  | .settledReport => Sys2Proof.Machine.execSettledReport s
  | .pollTimerExpiry segment => Sys2Proof.Machine.execPollTimerExpiry segment s
  | .turnaroundGapExpiry segment => Sys2Proof.Machine.execTurnaroundGapExpiry segment s
  | .copySent segment => Sys2Proof.Machine.execCopySent segment s
  | .answerWindowExpiry segment => Sys2Proof.Machine.execAnswerWindowExpiry segment s
  | .ackWaitExpiry segment => Sys2Proof.Machine.execAckWaitExpiry segment s
  | .readbackMismatch segment => Sys2Proof.Machine.execReadbackMismatch segment s
  | .fieldCharacter segment b => Sys2Proof.Machine.execFieldCharacter segment b s
  | .fieldLineIdle segment => Sys2Proof.Machine.execFieldLineIdle segment s
  | .putSegment => Sys2Proof.Machine.execPutSegment s
  | .enrolNode => Sys2Proof.Machine.execEnrolNode s
  | .removeNode => Sys2Proof.Machine.execRemoveNode s
  | .getNode => Sys2Proof.Machine.execGetNode s
  | .getSegment => Sys2Proof.Machine.execGetSegment s
  | .restoreSegment => Sys2Proof.Machine.execRestoreSegment s
  | .linePinChange line level => Sys2Proof.Machine.execLinePinChange line level s
  | .debounceTimerExpiry line => Sys2Proof.Machine.execDebounceTimerExpiry line s
  | .lineSettleTimeout line => Sys2Proof.Machine.execLineSettleTimeout line s
  | .beaconInputReport => Sys2Proof.Machine.execBeaconInputReport s
  | .phaseTimerExpiry => Sys2Proof.Machine.execPhaseTimerExpiry s
  | .putLine => Sys2Proof.Machine.execPutLine s
  | .lineWrite => Sys2Proof.Machine.execLineWrite s
  | .lineRead => Sys2Proof.Machine.execLineRead s

end Sys2Proof.Machine
end

