-- ==== Sys2Proof/WellFormed.lean ====
section
/-! DEFINITION. Which commands are well formed: every operand names something the part has. -/

namespace Sys2Proof

/-- A slot reference lies in its table (R25). -/
def SlotRef.wf : SlotRef → Bool
  | .tenant id => 1 ≤ id && id ≤ 2048
  | .unit number => number ≤ 4095
  | .credential slot => slot ≤ 4095
  | .site block index => block ≤ 9 && index ≤ 61

/-- The operand of a command, where its width exceeds the range the manual gives it, lies in that range:
a portal 0..7, a car 0..3, a line 0..11, a unit 0..4095, a visit number or call id 1..65535, and slots
that exist. -/
def Instr.wf : Instr → Bool
  | .scanEnd decayed => decayed.all SlotRef.wf
  | .dwellDeadline visit => 1 ≤ visit && visit ≤ 65535
  | .passTimerExpiry portal => portal ≤ 7
  | .holdTimerExpiry portal => portal ≤ 7
  | .releaseTimerExpiry unit => unit ≤ 4095
  | .boardingTimerExpiry car => car ≤ 3
  | .callExpiry call => 1 ≤ call && call ≤ 65535
  | .linePinChange line _ => line ≤ 11
  | .debounceTimerExpiry line => line ≤ 11
  | .lineSettleTimeout line => line ≤ 11
  | _ => true

end Sys2Proof
end

