-- ==== Sys2Proof/Safety.lean ====
section
/-! DEFINITION. The words the statements are written in: requests in hand and their answers, the head of each
request's tests, the limits and orders that every step keeps, and the parts of the state a command may
change. -/

namespace Sys2Proof.Machine

/-! ## Requests in hand and their answers (R208, R209) -/

/-- The Host Link has handed the frame `f` to its owner, and no answer is formed yet. -/
abbrev State.inHand (s : State) (f : Frame) : Prop := s.host.serving = some ⟨f, .handed⟩

/-- The request `f` answered: a reply with a status and the fields that go with OK (R209). -/
def State.answered (s : State) (f : Frame) (st : Status) (fields : List Byte) : State :=
  { s with host :=
    { s.host with
      serving := some ⟨f, .replied⟩
      replies := s.host.replies ++ [⟨.served, f.tag, replyKind f.kind, st.code :: fields⟩] } }

/-- The request `f` taken up by its owner, whose reply comes later. -/
def State.kept (s : State) (f : Frame) : State :=
  { s with host := { s.host with serving := some ⟨f, .working⟩ } }

/-- A record write begun for the request `f`: the store is WRITING, and the reply waits (R28). -/
def State.writing (s : State) (f : Frame) (w : WriteOp) : State :=
  { s.kept f with store := { s.store with state := .writing, write := some w } }

/-- What a body read gives its request: a status that refuses it, or none. -/
def verdict {α : Type} : Parsed α → Option Status
  | .ok _ => none
  | .error e => some e

/-- A request of the catalogue (section 11.3): its kind, whether the store serves it (R27), whether it would
change the store (R31), whether a body belongs to this row, what the body's fields give, and the modes that
take it. -/
structure RequestRow where
  kind : Nat
  atStore : Bool
  changes : Bool
  mine : List Byte → Bool
  verdict : List Byte → Option Status
  takenIn : List Byte → Mode → Bool

/-- A request one row has alone. -/
def RequestRow.plain (kind : Nat) (verdict : List Byte → Option Status) (takenIn : Mode → Bool) :
    RequestRow :=
  ⟨kind, false, false, fun _ => true, verdict, fun _ => takenIn⟩

/-- A request that reads the store (R27). -/
def RequestRow.reads (kind : Nat) (verdict : List Byte → Option Status) : RequestRow :=
  ⟨kind, true, false, fun _ => true, verdict, fun _ => outsideStarting⟩

/-- A request that changes the store (R31). -/
def RequestRow.writes (kind : Nat) (verdict : List Byte → Option Status) (takenIn : Mode → Bool) :
    RequestRow :=
  ⟨kind, true, true, fun _ => true, verdict, fun _ => takenIn⟩

/-- A request kind that several rows share, told apart by the action in the body (log 32). -/
def RequestRow.action (kind width high actions action : Nat) : RequestRow :=
  ⟨kind, false, false,
    fun b => match parseAction width high actions b with
      | .ok x => x.2 = action
      | .error _ => true,
    fun b => Machine.verdict (parseAction width high actions b), fun _ => outsideStarting⟩

/-- HOLD is refused in EVACUATE (R199). -/
def drainable : Mode → Bool
  | .setup | .run | .draining => true
  | _ => false

/-- The request a command takes up, if it is a request (section 11.3). -/
def Request.ofCommand : Instr → Option RequestRow
  | .identify => some (.plain 0x01 (fun b => verdict (parseFlag b)) anyMode)
  | .restart => some (.plain 0x02 (fun b => verdict (parseNone b)) outsideStarting)
  | .getState => some (.plain 0x03 (fun b => verdict (parseNone b)) anyMode)
  | .hold => some (.plain 0x04 (fun b => verdict (parseNone b)) drainable)
  | .resume => some ⟨0x05, true, false, fun _ => true, fun b => verdict (parseNone b), fun _ => drainable⟩
  | .evacuate => some (.plain 0x06 (fun b => verdict (parseNone b)) outsideStarting)
  | .evacuateEnd => some (.plain 0x07 (fun b => verdict (parseNone b)) fun m => m == .evacuate)
  | .setClock => some (.plain 0x08 (fun b => verdict (parseSetClock b)) outsideStarting)
  | .putSite => some (.writes 0x09 (fun b => verdict (parsePutSite b)) setupOnly)
  | .takeNotices => some (.plain 0x0A (fun b => verdict (parseNone b)) anyMode)
  | .putTenant => some (.writes 0x10 (fun b => verdict (parsePutTenant b)) outsideStarting)
  | .dropTenant => some (.writes 0x11 (fun b => verdict (parseTenantId b)) outsideStarting)
  | .getTenant => some (.reads 0x12 fun b => verdict (parseTenantId b))
  | .putCredential => some (.writes 0x13 (fun b => verdict (parsePutCredential b)) outsideStarting)
  | .dropCredential => some (.writes 0x14 (fun b => verdict (parseValue b)) outsideStarting)
  | .putUnit => some (.writes 0x15 (fun b => verdict (parsePutUnit b)) outsideStarting)
  | .dropUnit => some (.writes 0x16 (fun b => verdict (parseUnitNumber b)) outsideStarting)
  | .setOverlock => some (.writes 0x17 (fun b => verdict (parseSetOverlock b)) outsideStarting)
  | .putPattern => some (.writes 0x18 (fun b => verdict (parsePutPattern b)) setupOnly)
  | .putClass => some (.writes 0x19 (fun b => verdict (parsePutClass b)) setupOnly)
  | .putWindow => some (.writes 0x1A (fun b => verdict (parsePutWindow b)) setupOnly)
  | .clearTable =>
    some ⟨0x20, true, true, fun _ => true, fun b => verdict (parseTable b), fun b m =>
      m == .setup || (m != .starting && b != [3])⟩
  | .getStore => some (.reads 0x21 fun b => verdict (parseFlag b))
  | .clearStoreFault => some (.reads 0x22 fun b => verdict (parseNone b))
  | .getDigest => some (.reads 0x23 fun b => verdict (parseNone b))
  | .listVisits => some (.plain 0x30 (fun b => verdict (parseOne 1 0 95 b)) outsideStarting)
  | .getVisit => some (.plain 0x31 (fun b => verdict (parseOne 2 1 65535 b)) outsideStarting)
  | .closeVisit => some (.plain 0x32 (fun b => verdict (parseOne 2 1 65535 b)) outsideStarting)
  | .hostAdmit => some (.plain 0x33 (fun b => verdict (parseAdmit b)) outsideStarting)
  | .putPortal => some (.writes 0x40 (fun b => verdict (parsePutPortal b)) setupOnly)
  | .setPortalSecure => some (.action 0x41 1 7 3 0)
  | .setPortalFree => some (.action 0x41 1 7 3 1)
  | .setPortalMomentary => some (.action 0x41 1 7 3 2)
  | .getPortal => some (.plain 0x42 (fun b => verdict (parseOne 1 0 7 b)) outsideStarting)
  | .getUnit => some (.reads 0x48 fun b => verdict (parseUnitNumber b))
  | .unitServiceBegin => some (.action 0x49 2 4095 2 0)
  | .unitServiceEnd => some (.action 0x49 2 4095 2 1)
  | .unitAlarmReset => some (.plain 0x4A (fun b => verdict (parseUnitNumber b)) outsideStarting)
  | .putCar => some (.writes 0x50 (fun b => verdict (parsePutCar b)) setupOnly)
  | .carServiceOut => some (.action 0x51 1 3 2 0)
  | .carServiceIn => some (.action 0x51 1 3 2 1)
  | .getCar => some (.plain 0x52 (fun b => verdict (parseGetCar b)) outsideStarting)
  | .putSegment => some (.writes 0x60 (fun b => verdict (parsePutSegment b)) setupOnly)
  | .enrolNode => some (.writes 0x61 (fun b => verdict (parseEnrol b)) setupOnly)
  | .removeNode => some (.writes 0x62 (fun b => verdict (parseSegNode b)) setupOnly)
  | .getNode => some (.plain 0x63 (fun b => verdict (parseSegNode b)) outsideStarting)
  | .getSegment => some (.plain 0x64 (fun b => verdict (parseSegFlag b)) outsideStarting)
  | .restoreSegment => some (.plain 0x65 (fun b => verdict (parseSeg b)) outsideStarting)
  | .putLine => some (.writes 0x70 (fun b => verdict (parsePutLine b)) setupOnly)
  | .lineWrite => some (.plain 0x71 (fun b => verdict (parseLineWrite b)) outsideStarting)
  | .lineRead => some (.plain 0x72 (fun b => verdict (parseNone b)) outsideStarting)
  | _ => none

/-! ## Bounds and canonical forms -/

/-- A frame in reception that is neither overrun nor oversize keeps every character, its length byte being the
fourth, and holds 3 header bytes and the body bytes that have come (R161, R164). -/
def RxFrame.inForm (f : RxFrame) : Prop :=
  f.cls = .normal → f.chars.length = f.count ∧
    match f.length with
    | none => f.count ≤ 3 ∧ f.held = 3
    | some n => 4 ≤ f.count ∧ n ≤ 24 ∧ f.held = 3 + min (f.count - 4) n

/-- The receiver holds no frame, or one in form. -/
def Rx.inForm : Rx → Prop
  | .frame f => f.inForm
  | _ => True

/-- The ring: committed records and the bytes held never exceed 512 bytes (R161). -/
def Segment.ringInForm (x : Segment) : Prop :=
  x.committed + x.held ≤ Config.ringBytes ∧ x.rx.inForm

/-- One segment: at most 16 queue entries, fault counts 0..255, drop counters 0..65535, the nodes by rising id,
and a ring within its 512 bytes (R145, R153, R161, R174, R175, R179). -/
def Segment.inForm (x : Segment) : Prop :=
  x.queue.length ≤ Config.maxTransmit ∧ x.txFaults ≤ 255 ∧ x.rxFaults ≤ 255 ∧
    x.drops.corrupt ≤ 65535 ∧ x.drops.oversize ≤ 65535 ∧ x.drops.overrun ≤ 65535 ∧
    x.drops.duplicate ≤ 65535 ∧ x.drops.foreign ≤ 65535 ∧ Table.sorted x.nodes ∧ x.ringInForm

/-- One car: at most 24 queued calls, 4 completion records, and no more boarded calls than its trip's capacity
(R120, R121, R129). -/
def Car.inForm (x : Car) : Prop :=
  x.queue.length ≤ Config.maxCalls ∧ x.history.length ≤ 4 ∧
    ∀ t, x.trip = some t → t.calls.length ≤ t.capacity

/-- The Host Link: at most 64 notices and a drop count 0..255, 4 requests and 8 refusals that wait, a link
fault count 0..65535 (R207, R208, R211). -/
def HostLink.inForm (h : HostLink) : Prop :=
  h.notices.length ≤ Config.maxNotices ∧ h.dropCount ≤ 255 ∧ h.requests.length ≤ Config.maxRequests ∧
    h.refusals.length ≤ Config.maxRefusals ∧ h.linkFaults ≤ 65535

/-- A write in progress names a slot that exists (R3, R25). -/
def WriteOp.inForm : WriteOp → Prop
  | .credential slot _ _ => slot < Config.credentialSlots
  | _ => True

/-- The CREDENTIAL table: its slots are numbered 0..4095, so it holds at most 4,096 (R3, R25). -/
def Store.slotsInForm (st : Store) : Prop :=
  (∀ e ∈ st.creds, e.1 < Config.credentialSlots) ∧ ∀ w, st.write = some w → w.inForm

/-- The store: counts 0..255, every table by rising key, and at most 4,096 credential slots (R1 to R3, R25,
R39). -/
def Store.inForm (st : Store) : Prop :=
  st.failedWrites ≤ 255 ∧ st.failedErases ≤ 255 ∧ Table.sorted st.tenants ∧ Table.sorted st.units ∧
    Table.sorted st.creds ∧ Table.sorted st.site ∧ st.slotsInForm

/-- Every queue and count of the part is within the bound the manual gives it, and every keyed table is in its
canonical form. -/
structure State.inForm (s : State) : Prop where
  host : s.host.inForm
  store : s.store.inForm
  seconds : s.site.seconds ≤ Config.maxSeconds
  segments : ∀ g, (s.seg g).inForm
  entries : Table.sorted s.units.entries
  cars : ∀ x ∈ s.lifts.cars, x.inForm

/-! ## The Visit Table (R43 to R45) -/

/-- A Visit Table that keeps the bounds of R44 and the numbers of R45: at most 96 visits, no two of one number
or of one credential value, no more than 8 of one tenant, and every number, the counter's too, in
1..65535. -/
def VisitEngine.inForm (e : VisitEngine) : Prop :=
  e.table.length ≤ Config.maxVisits ∧ (e.table.map Visit.number).Nodup ∧ (e.table.map Visit.value).Nodup ∧
    (∀ v ∈ e.table, 1 ≤ v.number ∧ v.number ≤ 65535) ∧ 1 ≤ e.counter ∧ e.counter ≤ 65535 ∧
    ∀ t : Nat, (e.table.filter fun v => v.tenant == t).length ≤ Config.maxSharedVisits

/-- A tenant is not shared by its stored, undamaged record, or is made so by a write under way (R13, R28). -/
def Store.unshared (st : Store) (id : Nat) : Prop :=
  (∃ r c, st.tenants.find id = some (.present r c) ∧ r.shared = false) ∨
    ∃ r, st.write = some (.tenant id (some r)) ∧ r.shared = false

/-- A tenant that is not shared holds at most one visit (R44), and no result of a lookup on its way reads such a
tenant as shared (R13). -/
structure State.unsharedHoldOne (s : State) : Prop where
  visits : ∀ id, s.store.unshared id → (s.visitsOf id).length ≤ 1
  results : ∀ id t, .found id t ∈ s.store.results → t.shared = true → ¬ s.store.unshared id

/-! ## The digests (R38, R41) -/

/-- Each digest is the XOR of the check values of its table's present, undamaged records (R38). -/
def Store.digestsAgree (st : Store) : Prop :=
  st.digestT = digestOf Slot.digest st.tenants ∧ st.digestU = digestOf Slot.digest st.units ∧
    st.digestC = digestOf CredSlot.digest st.creds

/-- While the store scans, the site is STARTING and no operation is in progress; once it has scanned, its
digests agree with its tables (R26, R38, R41, R192). -/
structure State.digestsKept (s : State) : Prop where
  scanning : s.store.state = .scanning →
    s.site.mode = .starting ∧ s.store.write = none ∧ s.store.clear = none
  scanned : s.store.state ≠ .scanning → s.store.digestsAgree

/-! ## The parts of the state -/

/-- The parts of the state, as the frame statements divide it. -/
inductive Cell where
  | hostRx | linkFaults | rate | requests | serving | replies | notices
  | slots | lookups | results
  | mode | fire | drain | seconds | clock | copies | siteIn
  | table | counter | decision | visitsIn
  | portals | portalsIn
  | entries | presence | unitsIn
  | cars | recallFloor | liftsIn
  | segment (g : Seg)
  | router
  | lines | beacon | linesIn
  | freeCount
  deriving DecidableEq, Repr

/-- Two states agree on one part. -/
def Cell.same (c : Cell) (s t : State) : Prop :=
  match c with
  | .hostRx => t.host.rx = s.host.rx
  | .linkFaults => t.host.linkFaults = s.host.linkFaults
  | .rate => t.host.rate = s.host.rate
  | .requests => t.host.requests = s.host.requests
  | .serving => t.host.serving = s.host.serving
  | .replies => t.host.replies = s.host.replies
  | .notices => t.host.notices = s.host.notices ∧ t.host.dropCount = s.host.dropCount
  | .slots => { t.store with lookups := [], results := [] } = { s.store with lookups := [], results := [] }
  | .lookups => t.store.lookups = s.store.lookups
  | .results => t.store.results = s.store.results
  | .mode =>
    t.site.mode = s.site.mode ∧ t.site.returnMode = s.site.returnMode ∧ t.site.evacCause = s.site.evacCause
  | .fire => t.site.fireCheckDone = s.site.fireCheckDone ∧ t.site.fireInput = s.site.fireInput
  | .drain =>
    t.site.portalsBusy = s.site.portalsBusy ∧ t.site.carsBusy = s.site.carsBusy ∧
      t.site.segABusy = s.site.segABusy ∧ t.site.segBBusy = s.site.segBBusy ∧
      t.site.segCBusy = s.site.segCBusy ∧ t.site.drainOwed = s.site.drainOwed
  | .seconds => t.site.seconds = s.site.seconds
  | .clock => t.site.clock = s.site.clock
  | .copies =>
    t.site.params = s.site.params ∧ t.site.classes = s.site.classes ∧ t.site.windows = s.site.windows
  | .siteIn =>
    t.site.reports = s.site.reports ∧ t.site.fireReports = s.site.fireReports ∧
      t.site.closuresAnswer = s.site.closuresAnswer
  | .table => t.visits.table = s.visits.table
  | .counter => t.visits.counter = s.visits.counter
  | .decision => t.visits.decision = s.visits.decision ∧ t.visits.waiting = s.visits.waiting
  | .visitsIn =>
    t.visits.portalReports = s.visits.portalReports ∧ t.visits.callReports = s.visits.callReports ∧
      t.visits.openedReports = s.visits.openedReports ∧ t.visits.orders = s.visits.orders
  | .portals => t.portals.list = s.portals.list
  | .portalsIn => t.portals.orders = s.portals.orders ∧ t.portals.evac = s.portals.evac
  | .entries => t.units.entries = s.units.entries
  | .presence => t.units.presence = s.units.presence
  | .unitsIn => t.units.orders = s.units.orders
  | .cars => t.lifts.cars = s.lifts.cars
  | .recallFloor => t.lifts.recallFloor = s.lifts.recallFloor
  | .liftsIn => t.lifts.withdrawals = s.lifts.withdrawals ∧ t.lifts.orders = s.lifts.orders
  | .segment g => t.seg g = s.seg g
  | .router => t.router = s.router
  | .lines =>
    t.lines.list = s.lines.list ∧ t.lines.fireInput = s.lines.fireInput ∧
      t.lines.settledOwed = s.lines.settledOwed
  | .beacon =>
    t.lines.beacon = s.lines.beacon ∧ t.lines.phaseTimer = s.lines.phaseTimer ∧
      t.lines.evacFlag = s.lines.evacFlag ∧ t.lines.unitForced = s.lines.unitForced ∧
      t.lines.portalAlarm = s.lines.portalAlarm ∧ t.lines.beaconOnAlarms = s.lines.beaconOnAlarms
  | .linesIn => t.lines.reports = s.lines.reports
  | .freeCount => t.freeCount = s.freeCount

/-! ## Frames -/

/-- The parts an answer to a request changes. -/
def answers : List Cell := [.serving, .replies]

/-- The three segments. -/
def segments : List Cell := [.segment .a, .segment .b, .segment .c]

/-- The parts of the state that a command may change; every other part it leaves as it is. -/
def footprint : Instr → List Cell
  | .coldStart _ _ =>
    segments ++ [.hostRx, .linkFaults, .rate, .requests, .serving, .replies, .notices, .slots, .lookups,
      .results, .mode, .fire, .drain, .seconds, .clock, .copies, .siteIn, .table, .counter, .decision,
      .visitsIn, .portals, .portalsIn, .entries, .presence, .unitsIn, .cars, .recallFloor, .liftsIn, .router, .lines,
      .beacon, .linesIn, .freeCount]
  | .warmRestart =>
    segments ++ [.hostRx, .linkFaults, .requests, .serving, .replies, .notices, .slots, .lookups,
      .results, .mode, .fire, .drain, .seconds, .copies, .siteIn, .table, .counter, .decision,
      .visitsIn, .portals, .portalsIn, .entries, .presence, .unitsIn, .cars, .recallFloor, .liftsIn, .router, .lines,
      .beacon, .linesIn]
  | .scanEnd _ =>
    segments ++ [.notices, .slots, .mode, .copies, .siteIn, .table, .visitsIn, .portals, .portalsIn,
      .entries, .unitsIn, .cars, .liftsIn, .lines, .linesIn]
  | .siteSecondTick =>
    [.seconds, .clock]
  | .hostByte _ =>
    [.hostRx, .linkFaults, .requests, .serving, .replies]
  | .frameGapTimeout =>
    [.hostRx, .linkFaults]
  | .replySent =>
    [.requests, .serving, .replies]
  | .badKind | .restart | .getState | .getTenant | .getDigest | .listVisits | .getVisit | .getPortal
  | .getUnit | .getCar | .lineRead =>
    answers
  | .identify =>
    answers ++ [.linkFaults]
  | .hold =>
    answers ++ [.notices, .mode, .drain, .liftsIn, .linesIn]
  | .resume =>
    answers ++ [.notices, .slots, .mode, .linesIn]
  | .evacuate =>
    answers ++ [.notices, .mode, .visitsIn, .portalsIn, .liftsIn, .linesIn]
  | .evacuateEnd =>
    answers ++ [.visitsIn]
  | .evacuationClosuresDone =>
    answers ++ [.notices, .mode, .siteIn, .visitsIn, .portalsIn, .liftsIn, .linesIn]
  | .setClock =>
    answers ++ [.clock]
  | .putSite | .putTenant | .dropTenant | .putCredential | .dropCredential | .putUnit | .dropUnit
  | .setOverlock | .putPattern | .putClass | .putWindow | .clearTable | .getStore | .clearStoreFault
  | .putPortal | .putCar | .putSegment | .enrolNode | .removeNode | .putLine =>
    answers ++ [.slots]
  | .takeNotices =>
    answers ++ [.notices]
  | .writeCompletion _ =>
    answers ++ segments ++ [.notices, .slots, .mode, .copies, .siteIn, .table, .decision, .visitsIn,
      .portals, .portalsIn, .entries, .unitsIn, .cars, .liftsIn, .router, .lines, .linesIn]
  | .blockEraseCompletion _ =>
    answers ++ segments ++ [.notices, .slots, .copies, .siteIn, .table, .decision, .visitsIn, .portals,
      .portalsIn, .entries, .unitsIn, .cars, .liftsIn, .router, .lines, .linesIn]
  | .credentialLookup | .tenantLookup =>
    [.slots, .lookups, .results]
  | .frameRouterTurn =>
    segments ++ [.notices, .siteIn, .table, .decision, .visitsIn, .portals, .portalsIn, .entries,
      .unitsIn, .cars, .liftsIn, .router, .lines, .linesIn]
  | .admissionDecision =>
    answers ++ segments ++ [.notices, .lookups, .siteIn, .decision, .router]
  | .admissionLookupResult =>
    answers ++ segments ++ [.notices, .results, .siteIn, .table, .counter, .decision, .portalsIn,
      .entries, .presence, .unitsIn, .liftsIn, .router, .linesIn]
  | .exitDecision =>
    segments ++ [.notices, .lookups, .siteIn, .table, .decision, .portalsIn, .unitsIn, .liftsIn,
      .router]
  | .exitLookupResult =>
    segments ++ [.notices, .results, .siteIn, .table, .decision, .portalsIn, .unitsIn, .liftsIn,
      .router]
  | .liftCallIntake =>
    segments ++ [.lookups, .siteIn, .table, .decision, .router]
  | .liftCallLookupResult =>
    segments ++ [.lookups, .results, .siteIn, .table, .decision, .router]
  | .liftCallTenantResult =>
    segments ++ [.results, .siteIn, .table, .decision, .visitsIn, .cars, .liftsIn, .router]
  | .passageReport | .noPassageReport =>
    [.notices, .table, .visitsIn, .portalsIn, .unitsIn, .liftsIn]
  | .dwellDeadline _ =>
    [.notices, .table]
  | .callReport | .unitOpenedReport | .evacuationBeginVisits =>
    [.table, .visitsIn]
  | .evacuationEndVisits =>
    [.notices, .siteIn, .table, .visitsIn, .portalsIn, .unitsIn, .liftsIn]
  | .closeVisit =>
    answers ++ [.notices, .table, .portalsIn, .unitsIn, .liftsIn]
  | .hostAdmit =>
    answers ++ [.decision]
  | .openOrder | .evacuationBeginPortals =>
    segments ++ [.siteIn, .visitsIn, .portals, .portalsIn, .lines, .linesIn]
  | .dropPendingVisit =>
    [.siteIn, .portals, .portalsIn, .linesIn]
  | .passTimerExpiry _ | .portalDriveLoss _ =>
    segments ++ [.siteIn, .visitsIn, .portals, .lines, .linesIn]
  | .holdTimerExpiry _ =>
    [.notices, .siteIn, .portals, .linesIn]
  | .strikeOutcome _ | .evacuationEndPortals | .debounceTimerExpiry _ | .lineSettleTimeout _ =>
    segments ++ [.notices, .siteIn, .table, .visitsIn, .portals, .portalsIn, .unitsIn, .liftsIn, .lines,
      .linesIn]
  | .setPortalSecure =>
    answers ++ segments ++ [.notices, .siteIn, .table, .visitsIn, .portals, .portalsIn, .unitsIn,
      .liftsIn, .lines, .linesIn]
  | .setPortalFree | .setPortalMomentary =>
    answers ++ segments ++ [.siteIn, .visitsIn, .portals, .lines, .linesIn]
  | .disarmOrder =>
    [.entries, .presence, .unitsIn, .linesIn]
  | .closureOrder =>
    segments ++ [.notices, .siteIn, .entries, .presence, .unitsIn, .linesIn]
  | .releaseOutcome g =>
    [.notices, .entries, .segment g, .linesIn]
  | .relockOutcome g | .latchNodeLoss g =>
    [.entries, .segment g, .linesIn]
  | .denyBlinkOutcome g =>
    [.segment g]
  | .serviceReleaseOutcome g =>
    [.notices, .segment g]
  | .releaseTimerExpiry _ =>
    [.entries, .linesIn]
  | .unitServiceBegin =>
    answers ++ segments ++ [.siteIn, .entries, .linesIn]
  | .unitServiceEnd =>
    answers ++ segments ++ [.notices, .siteIn, .entries, .linesIn]
  | .unitAlarmReset =>
    answers ++ [.notices, .entries, .linesIn]
  | .boardingTimerExpiry _ =>
    segments ++ [.siteIn, .cars]
  | .callExpiry _ | .liftCommandOutcome _ | .panelLoss _ =>
    segments ++ [.notices, .siteIn, .visitsIn, .cars]
  | .callWithdrawal | .evacuationEndLifts =>
    segments ++ [.siteIn, .cars, .liftsIn]
  | .drainBegin =>
    segments ++ [.notices, .siteIn, .visitsIn, .cars, .liftsIn]
  | .evacuationBeginLifts =>
    segments ++ [.notices, .siteIn, .visitsIn, .cars, .recallFloor, .liftsIn]
  | .carServiceOut =>
    answers ++ segments ++ [.notices, .siteIn, .visitsIn, .cars]
  | .carServiceIn =>
    answers ++ segments ++ [.notices, .siteIn, .cars]
  | .drainAnswer | .busyReport =>
    [.notices, .mode, .drain, .siteIn, .linesIn]
  | .fireInputChange | .settledReport =>
    [.notices, .mode, .fire, .siteIn, .visitsIn, .portalsIn, .liftsIn, .linesIn]
  | .pollTimerExpiry g | .turnaroundGapExpiry g =>
    [.siteIn, .segment g]
  | .copySent g =>
    [.notices, .siteIn, .segment g]
  | .readbackMismatch g =>
    [.notices, .siteIn, .decision, .segment g, .router]
  | .answerWindowExpiry g | .ackWaitExpiry g | .fieldLineIdle g =>
    [.notices, .siteIn, .segment g]
  | .fieldCharacter g _ =>
    [.notices, .siteIn, .segment g, .router]
  | .getNode | .getSegment =>
    answers ++ segments
  | .restoreSegment =>
    answers ++ segments ++ [.notices]
  | .linePinChange _ _ =>
    [.lines]
  | .beaconInputReport =>
    [.lines, .beacon, .linesIn]
  | .phaseTimerExpiry =>
    [.lines, .beacon]
  | .lineWrite =>
    answers ++ [.lines]

end Sys2Proof.Machine
end

