-- ==== Sys2Proof/Certificates/Slice0/Obligations.lean ====
section
/-! DEFINITION. The statements for the provers, in the order of the manual's chapters after those about the
machine as a whole. A request row's statement speaks of a request in hand (`State.inHand`) and of its answer
(`State.answered`); what a command leaves alone is said for every command at once by
`Obligations.CommandsTouchOnlyTheirFootprint`. -/

open Sys2Proof Sys2Proof.Machine

/-! ## The machine -/

/-- For every command c, step of a state with c at the front of its queue is exec of c on that state with
the rest of the queue. -/
def Obligations.StepRunsFrontCommand : Prop :=
  ∀ (c : Instr) (rest : List Instr) (s : State),
    step { s with pending := c :: rest } = exec c { s with pending := rest }

/-- With no command waiting a step leaves the whole state as it is. This is the model's own choice,
assumption log 1: the queue and the step are not the manual's. -/
def Obligations.StepIdlesOnEmptyQueue : Prop :=
  ∀ s : State, s.pending = [] → step s = .next s

/-- For every command and every state, exec answers a next state, never a fault or a refusal, and the
commands that wait stay as they are. That an event whose message, timer or request is not there leaves the
state as it is, and answers a next state rather than a refusal, is the model's choice, assumption log 2; the
queue of commands is that of log 1. -/
def Obligations.EveryCommandCompletes : Prop :=
  ∀ (c : Instr) (s : State), ∃ t : State, exec c s = .next t ∧ t.pending = s.pending

/-- When a command answers a next state, every part of the state (Cell) that is not in the command's
footprint is as before: the footprint of each of the 120 commands is written out in Sys2Proof/Safety.lean.
What a footprint lists beyond the blocks its rules name rests on the model's choices that a mirror is told
within the step (log 4) and that earlier messages are taken in the same step where an order of notices needs
it (log 5). -/
def Obligations.CommandsTouchOnlyTheirFootprint : Prop :=
  ∀ (c : Instr) (s t : State), exec c s = .next t → ∀ k : Cell, k ∉ footprint c → k.same s t

/-- The state after reset keeps every bound and canonical form of State.inForm, its Visit Table keeps those
of VisitEngine.inForm, a tenant that is not shared holds no more than one visit (State.unsharedHoldOne), and
its store, which is SCANNING, the state of its digests. -/
def Obligations.InvariantsHoldAtReset : Prop :=
  State.reset.inForm ∧ State.reset.visits.inForm ∧ State.reset.unsharedHoldOne ∧ State.reset.digestsKept ∧
    State.reset.store.state = .scanning

/-- When a step answers a next state from a state in form, the next state is in form: at most 64 notices, 4
waiting requests, 8 refusals, 16 entries on a transmit queue, 24 calls on a car, a trip within its capacity,
4 completion records, 512 bytes of a receive ring committed and held, 4,096 credential slots; every count
within its range; the keyed tables by rising key. -/
def Obligations.EveryStepKeepsTheBounds : Prop :=
  ∀ s t : State, step s = .next t → s.inForm → t.inForm

/-- When a step answers a next state from a state whose Visit Table is in form, the next Visit Table is in
form: at most 96 visits, at most 8 of one tenant, no two of one visit number, no two of one credential
value, every number and the counter in 1..65535. When it answers a next state from one in which every tenant
not shared, by its stored, undamaged record or by a write under way, holds at most one visit, and no lookup
result on its way reads such a tenant as shared, so it is in the next state. -/
def Obligations.EveryStepKeepsTheVisitTable : Prop :=
  ∀ s t : State, step s = .next t →
    (s.visits.inForm → t.visits.inForm) ∧ (s.unsharedHoldOne → t.unsharedHoldOne)

/-- When a step answers a next state from a state in form whose store either scans in STARTING with nothing
in progress or has digests that agree with its tables, the next state's store does so too: no write, clear,
scan or start lets a digest of the TENANT, UNIT or CREDENTIAL table differ from its records. -/
def Obligations.EveryStepKeepsTheDigests : Prop :=
  ∀ s t : State, step s = .next t → s.inForm → s.digestsKept → t.digestsKept

/-- After reset the mode is STARTING with return mode and cause absent, the fire check PENDING, the fire
input inactive, nothing busy, site seconds 0 and the wall clock UNSET; the Visit Table is empty with its
counter at 1; the host link is hunting with nothing queued, served or counted; the store is SCANNING with
its flags clear; the portals are in FAULT, the cars OUT with cause NODE, no unit entry or tenant present
stands; no segment runs and none holds a node, an entry or a record; no line is driven and the beacon is
OFF. That the portals stand in FAULT, the cars OUT with cause NODE and the segments OFF while still in
STARTING is the model's choice, assumption log 12: R91 and R142 give these values on leaving STARTING. -/
def Obligations.ResetIsAColdStart : Prop :=
  let s := State.reset
  s.site.mode = .starting ∧ s.site.returnMode = none ∧ s.site.evacCause = none ∧
    s.site.fireCheckDone = false ∧ s.site.fireInput = false ∧ s.site.portalsBusy = false ∧
    s.site.carsBusy = false ∧ s.site.segABusy = false ∧ s.site.segBBusy = false ∧
    s.site.segCBusy = false ∧ s.site.seconds = 0 ∧ s.site.clock = none ∧
    s.visits.table = [] ∧ s.visits.counter = 1 ∧ s.visits.decision = none ∧ s.visits.waiting = [] ∧
    s.host.rx = .hunting ∧ s.host.linkFaults = 0 ∧ s.host.requests = [] ∧ s.host.serving = none ∧
    s.host.replies = [] ∧ s.host.notices = [] ∧ s.host.dropCount = 0 ∧ s.attn = false ∧
    s.store.state = .scanning ∧ s.store.writeFault = false ∧ s.store.writeFaultRec = none ∧
    s.store.clearFault = false ∧ s.store.clearFaultRec = none ∧
    s.portals.list.length = 8 ∧ (∀ q ∈ s.portals.list, q.state = .fault ∧ q.pending = none) ∧
    s.units.entries = [] ∧ s.units.presence = [] ∧
    s.lifts.cars.length = 4 ∧ (∀ x ∈ s.lifts.cars, x.state = .out ∧ x.cause = some .node ∧
      x.queue = [] ∧ x.trip = none) ∧
    (∀ g, (s.seg g).state.running = false ∧ (s.seg g).nodes = [] ∧ (s.seg g).queue = [] ∧
      (s.seg g).inFlight = none ∧ (s.seg g).pendingAck = none ∧ (s.seg g).ring = []) ∧
    s.lines.list.length = 12 ∧ (∀ l ∈ s.lines.list, l.drive = .none ∧ l.pullApplied = false) ∧
    s.lines.beacon = .off

/-! ## Formats (R214, R216) -/

/-- Over the nine ASCII bytes 123456789 the CRC is 0x29B1, and the check value of the unit record of R216
(unit 1204, floor 12, segment B, node 14, channel 3, tenant 17, not overlocked) is the CRC of its nine
bytes. -/
def Obligations.CheckValuesFollowTheManual : Prop :=
  crc16 [0x31, 0x32, 0x33, 0x34, 0x35, 0x36, 0x37, 0x38, 0x39] = 0x29B1#16 ∧
    unitCheck 1204 ⟨12, .b, 14, 3, 17, false⟩ =
      crc16 [0x04, 0xB4, 0x0C, 0x01, 0x0E, 0x03, 0x00, 0x11, 0x00]

/-! ## Host link (R206 to R212) -/

/-- Hunting, 0x5A starts a frame and any other byte changes nothing. Inside a frame a byte that ends nothing
is kept; a length below 2 or above 200, a wrong check at the last byte, and a gap of 20 ms each discard the
frame, return the receiver to hunting, and count one link fault up to 65535. A gap while hunting changes
nothing. That a gap while hunting changes nothing is the model's choice, assumption log 2 (a timer that does
not run). -/
def Obligations.HostReceiverTakesAFrameByteByByte : Prop :=
  (∀ (s : State) (b : Byte), s.host.rx = .hunting →
      exec (.hostByte b) s =
        .next (if b = 0x5A then { s with host := { s.host with rx := .inFrame [] } } else s)) ∧
    (∀ (s : State) (n : Byte), s.host.rx = .inFrame [] → n.toNat < 2 ∨ 200 < n.toNat →
      exec (.hostByte n) s =
        .next { s with host :=
          { s.host with rx := .hunting, linkFaults := min 65535 (s.host.linkFaults + 1) } }) ∧
    (∀ (s : State) (n : Byte), s.host.rx = .inFrame [] → 2 ≤ n.toNat → n.toNat ≤ 200 →
      exec (.hostByte n) s = .next { s with host := { s.host with rx := .inFrame [n] } }) ∧
    (∀ (s : State) (n : Byte) (bs : List Byte) (b : Byte), s.host.rx = .inFrame (n :: bs) →
      2 ≤ n.toNat → n.toNat ≤ 200 → bs.length + 1 < n.toNat + 2 →
      exec (.hostByte b) s =
        .next { s with host := { s.host with rx := .inFrame (n :: bs ++ [b]) } }) ∧
    (∀ (s : State) (n : Byte) (bs : List Byte) (c b : Byte), s.host.rx = .inFrame (n :: bs ++ [c]) →
      2 ≤ n.toNat → n.toNat ≤ 200 → bs.length = n.toNat →
      (crc16 (n :: bs)).toNat ≠ 256 * c.toNat + b.toNat →
      exec (.hostByte b) s =
        .next { s with host :=
          { s.host with rx := .hunting, linkFaults := min 65535 (s.host.linkFaults + 1) } }) ∧
    (∀ (s : State) (bs : List Byte), s.host.rx = .inFrame bs →
      exec .frameGapTimeout s =
        .next { s with host :=
          { s.host with rx := .hunting, linkFaults := min 65535 (s.host.linkFaults + 1) } }) ∧
    (∀ s : State, s.host.rx = .hunting → exec .frameGapTimeout s = .next s)

/-- A frame whose last check byte fits returns the receiver to hunting. With fewer than 4 frames waiting it
joins the request queue, whose head is handed on at once when nothing is being served; with 4 waiting and
fewer than 8 refusals a QUEUE_FULL reply for its tag and kind joins the replies; with both full it is
counted as a link fault. -/
def Obligations.GoodFramesArePlaced : Prop :=
  ∀ (s : State) (n tag kind : Byte) (body : List Byte) (c b : Byte),
    s.host.rx = .inFrame (n :: tag :: kind :: body ++ [c]) → n.toNat ≤ 200 →
    body.length + 2 = n.toNat → (crc16 (n :: tag :: kind :: body)).toNat = 256 * c.toNat + b.toNat →
    (s.host.requests.length < 4 → s.host.serving.isSome →
      exec (.hostByte b) s = .next { s with host :=
        { s.host with rx := .hunting, requests := s.host.requests ++ [⟨tag, kind, body⟩] } }) ∧
    (s.host.requests = [] → s.host.serving = none →
      exec (.hostByte b) s = .next { s with host :=
        { s.host with rx := .hunting, serving := some ⟨⟨tag, kind, body⟩, .handed⟩ } }) ∧
    (4 ≤ s.host.requests.length → s.host.refusals.length < 8 →
      exec (.hostByte b) s = .next { s with host :=
        { s.host with
          rx := .hunting
          replies := s.host.replies ++ [⟨.refusal, tag, replyKind kind, [0x01]⟩] } }) ∧
    (4 ≤ s.host.requests.length → 8 ≤ s.host.refusals.length →
      exec (.hostByte b) s = .next { s with host :=
        { s.host with rx := .hunting, linkFaults := min 65535 (s.host.linkFaults + 1) } })

/-- A request in hand whose kind is not in the catalogue is answered BAD_KIND with no fields; one of the
catalogue is left for its owner. A QUEUE_FULL reply that has been sent leaves the list and nothing else
changes. The reply to the request being served, other than a RESTART, leaves with its request, and the head
of the request queue is then handed on; with none waiting nothing is being served. That BAD_KIND with a
request of the catalogue in hand changes nothing is the model's choice, assumption log 2. -/
def Obligations.RepliesLetTheNextRequestIn : Prop :=
  (∀ (s : State) (f : Frame), s.inHand f →
    exec .badKind s =
      .next (if f.kind.toNat ∈ catalogue then s else s.answered f .badKind [])) ∧
  (∀ (s : State) (r : Reply) (rest : List Reply), s.host.replies = r :: rest →
    (r.role = .refusal →
      exec .replySent s = .next { s with host := { s.host with replies := rest } }) ∧
    (r.role = .served → s.host.requests = [] →
      exec .replySent s = .next { s with host := { s.host with replies := rest, serving := none } }) ∧
    (∀ (f : Frame) (fs : List Frame), r.role = .served → s.host.requests = f :: fs →
      exec .replySent s = .next { s with host :=
        { s.host with replies := rest, requests := fs, serving := some ⟨f, .handed⟩ } }))

/-- A notice put while the queue holds fewer than 64 records joins its young end with the site seconds; into
a full queue it is dropped and the drop count goes up by one, at most to 255. ATTN is asserted while the
queue holds a record. -/
def Obligations.NoticesJoinTheQueueOrAreCounted : Prop :=
  ∀ (n : Notice) (s : State),
    (s.host.notices.length < 64 →
      putNotice n s =
        { s with host := { s.host with notices := s.host.notices ++ [⟨s.site.seconds, n⟩] } } ∧
      (putNotice n s).attn = true) ∧
    (64 ≤ s.host.notices.length →
      putNotice n s =
        { s with host := { s.host with dropCount := min 255 (s.host.dropCount + 1) } }) ∧
    (s.attn = true ↔ s.host.notices ≠ [])

/-- IDENTIFY with flag 0 or 1 answers OK with its fields in every mode; with flag 1 the link fault count
then is 0. TAKE_NOTICES answers OK with up to 8 of the oldest records, removes them and clears the drop
count. The bytes of a notice record rest on the codes of named values (log 16: modes and causes, stages,
states, reasons, outcomes, actions, kinds), which are the model's choice. -/
def Obligations.IdentifyAndTakeNoticesAnswerInEveryMode : Prop :=
  ∀ (s : State) (f : Frame), s.inHand f →
    (f.kind = 0x01 → f.body = [0] →
      exec .identify s = .next (s.answered f .ok (identifyBody s))) ∧
    (f.kind = 0x01 → f.body = [1] →
      exec .identify s = .next
        (({ s with host := { s.host with linkFaults := 0 } }).answered f .ok (identifyBody s))) ∧
    (f.kind = 0x0A → f.body = [] →
      exec .takeNotices s = .next
        (({ s with host :=
            { s.host with notices := s.host.notices.drop 8, dropCount := 0 } }).answered f .ok
          ([BitVec.ofNat 8 s.host.dropCount, BitVec.ofNat 8 (s.host.notices.length - 8),
            BitVec.ofNat 8 (min 8 s.host.notices.length)] ++
            ((s.host.notices.take 8).map NoticeRecord.bytes).flatten)))

/-- A cold start takes the rate from the straps (HRATE0 the low bit), clears the store's flags and the wall
clock, and every start leaves the volatile collections empty, site seconds 0, mode STARTING and the store
SCANNING. RESTART outside STARTING is answered OK, and the warm restart begins when that reply has left: it
keeps the rate, the clock, the flags and the records of the store. No segment drives its line in STARTING.
The model's choices: what the blocks and the digests hold while in STARTING (log 12), that WARM_RESTART
outside that moment changes nothing (log 2); the slots a cold start leaves of a write or clear it cuts off
(log 8) are not stated here. -/
def Obligations.StartsEmptyTheVolatileState : Prop :=
  (∀ (h0 h1 : Bool) (s : State), ∃ t : State, exec (.coldStart h0 h1) s = .next t ∧
      t.host = HostLink.blank ((if h0 then 1 else 0) + (if h1 then 2 else 0)) ∧
      t.site = SiteControl.blank none ∧ t.visits = VisitEngine.blank ∧
      t.portals = PortalController.blank ∧ t.units = UnitDoors.blank ∧
      t.lifts = LiftScheduler.blank ∧ t.router.hand = none ∧
      (∀ g, t.seg g = Segment.blank ∧ t.driverEnable g = false) ∧
      t.lines = LineBlock.blank (s.lines.list.map Line.pin) ∧
      t.store.state = .scanning ∧ t.store.lookups = [] ∧ t.store.results = [] ∧
      t.store.write = none ∧ t.store.clear = none ∧
      t.store.writeFault = false ∧ t.store.writeFaultRec = none ∧ t.store.clearFault = false ∧
      t.store.clearFaultRec = none ∧ t.store.failedWrites = 0 ∧ t.store.failedErases = 0 ∧
      (s.store.write = none → s.store.clear = none →
        t.store.tenants = s.store.tenants ∧ t.store.units = s.store.units ∧
          t.store.creds = s.store.creds ∧ t.store.site = s.store.site)) ∧
    (∀ (s : State) (f : Frame), s.inHand f → f.kind = 0x02 → f.body = [] → s.site.mode ≠ .starting →
      exec .restart s = .next { s with host :=
        { s.host with
          serving := some ⟨f, .replied⟩
          replies := s.host.replies ++ [⟨.restart, f.tag, 0x82, [0x00]⟩] } }) ∧
    (∀ (s : State) (r : Reply) (rest : List Reply), s.host.replies = r :: rest → r.role = .restart →
      exec .warmRestart s = .next
        { s with
          host := HostLink.blank s.host.rate, site := SiteControl.blank s.site.clock
          visits := VisitEngine.blank, portals := PortalController.blank, units := UnitDoors.blank
          lifts := LiftScheduler.blank, segA := Segment.blank, segB := Segment.blank
          segC := Segment.blank, router := ⟨.a, none⟩
          lines := LineBlock.blank (s.lines.list.map Line.pin)
          store := { s.store with
            state := .scanning, failedWrites := 0, failedErases := 0, write := none, clear := none
            lookups := [], results := [] } }) ∧
    (∀ s : State, (∀ (r : Reply) (rest : List Reply), s.host.replies = r :: rest → r.role ≠ .restart) →
      exec .warmRestart s = .next s)

/-! ## Requests as such (R27, R31, R204, R209) -/

/-- For every request row, a request in hand of its kind (and of its action) whose body does not fit is
answered with that error, one the mode does not take is answered WRONG_MODE, and one that would change the
store while a sticky fault is set is answered STORE_FAULT; nothing else changes. A request at the store is
taken up once no lookup waits and no result is on its way (log 39). That unused bytes and bits other than 0
give BAD_VALUE (log 19), and which row answers where several share a kind (log 32), are the model's choices.
So are BAD_VALUE for a label count above 16 whose bytes all follow (log 47), the byte order of a day set
(log 48), and the 3 bytes of LOCAL drive and of a line function without a portal (log 51). -/
def Obligations.RequestsAreTestedInOrder : Prop :=
  ∀ (c : Instr) (row : RequestRow) (s : State) (f : Frame), Request.ofCommand c = some row →
    s.inHand f → f.kind.toNat = row.kind → row.mine f.body = true →
    (row.atStore = true → s.store.lookups = [] ∧ s.store.results = []) →
    (∀ e, row.verdict f.body = some e → exec c s = .next (s.answered f e [])) ∧
    (row.verdict f.body = none → row.takenIn f.body s.site.mode = false →
      exec c s = .next (s.answered f .wrongMode [])) ∧
    (row.changes = true → row.verdict f.body = none → row.takenIn f.body s.site.mode = true →
      s.store.faulted = true → exec c s = .next (s.answered f .storeFault []))

/-- With no request in hand of the row's kind and action, the command changes nothing (assumption log 2). A
request that the store serves is not taken up while a lookup waits (R27), nor while the result of one is on
its way to the Visit Engine (the model's reading of R27 and R44, log 39); RESUME is such a request in SETUP
alone. -/
def Obligations.RequestRowsWaitForTheirRequest : Prop :=
  ∀ (c : Instr) (row : RequestRow) (s : State), Request.ofCommand c = some row →
    ((∀ f, s.inHand f → f.kind.toNat = row.kind → row.mine f.body = false) → exec c s = .next s) ∧
    (row.atStore = true → s.store.lookups ≠ [] ∨ s.store.results ≠ [] →
      (c = .resume → s.site.mode = .setup) →
      exec c s = .next s)

/-- A body of no fields fits only when empty; a one-field number of two bytes is read most significant byte
first and tested against its range; the body of SET_CLOCK is one byte of day, two of minute, one of second;
any other length gives BAD_FORMAT, any field out of range BAD_VALUE. -/
def Obligations.BodiesAreReadByWidth : Prop :=
  (∀ b : List Byte, parseNone b = if b = [] then .ok () else .error .badFormat) ∧
    (∀ (low high : Nat) (x y : Byte), parseOne 2 low high [x, y] =
      if low ≤ 256 * x.toNat + y.toNat ∧ 256 * x.toNat + y.toNat ≤ high then
        .ok (256 * x.toNat + y.toNat) else .error .badValue) ∧
    (∀ (low high : Nat) (b : List Byte), b.length ≠ 2 → parseOne 2 low high b = .error .badFormat) ∧
    (∀ d m n x : Byte, parseSetClock [d, m, n, x] =
      if d.toNat ≤ 6 ∧ 256 * m.toNat + n.toNat ≤ 1439 ∧ x.toNat ≤ 59 then
        .ok ⟨d.toNat, 256 * m.toNat + n.toNat, x.toNat⟩ else .error .badValue) ∧
    (∀ b : List Byte, b.length ≠ 4 → parseSetClock b = .error .badFormat)

/-- Of a request in hand that fits, outside STARTING (GET_STATE in every mode): GET_STATE, LIST_VISITS,
GET_PORTAL, GET_CAR and LINE_READ answer OK with their fields; so do GET_DIGEST, GET_TENANT of a present
record and GET_UNIT of a present record with its entry, once no lookup waits. An absent record gives
NOT_FOUND, a damaged one RECORD_DAMAGED. The answer is all that changes. No lookup waits once its result has
been taken too (log 39); codes of values that R213 does not give are the model's (logs 16, 18). So are the
byte order of a trip's floor set (log 48) and the 3 bytes of LOCAL drive and of a line function without a
portal (log 51). -/
def Obligations.ReadingRequestsAnswerAndChangeNothing : Prop :=
  ∀ (s : State) (f : Frame), s.inHand f →
    (f.kind = 0x03 → f.body = [] →
      exec .getState s = .next (s.answered f .ok (getStateBody s))) ∧
    (s.site.mode ≠ .starting →
      (∀ i : Nat, i ≤ 95 → f.kind = 0x30 → f.body = [BitVec.ofNat 8 i] →
        exec .listVisits s = .next (s.answered f .ok (listVisitsBody i s))) ∧
      (∀ (p : Nat) (q : Portal), s.portal p = some q → p ≤ 7 → f.kind = 0x42 →
        f.body = [BitVec.ofNat 8 p] →
        exec .getPortal s = .next (s.answered f .ok (getPortalBody p q s))) ∧
      (∀ (c i : Nat) (x : Car), s.car c = some x → c ≤ 3 → i ≤ 23 → f.kind = 0x52 →
        f.body = [BitVec.ofNat 8 c, BitVec.ofNat 8 i] →
        exec .getCar s = .next (s.answered f .ok (getCarBody x i s))) ∧
      (f.kind = 0x72 → f.body = [] →
        exec .lineRead s = .next (s.answered f .ok (lineReadBody s))) ∧
      (s.store.lookups = [] → s.store.results = [] →
        (f.kind = 0x23 → f.body = [] →
          exec .getDigest s = .next (s.answered f .ok
            (u16 s.store.digestT.toNat ++ u16 s.store.digestU.toNat ++ u16 s.store.digestC.toNat))) ∧
        (∀ id : Nat, f.kind = 0x12 → parseTenantId f.body = .ok id →
          exec .getTenant s = .next
            (match s.store.tenantSlot id with
             | none => s.answered f .notFound []
             | some .damaged => s.answered f .recordDamaged []
             | some (.present r _) => s.answered f .ok (getTenantBody id r s))) ∧
        (∀ u : Nat, f.kind = 0x48 → parseUnitNumber f.body = .ok u →
          (s.store.unitSlot u = none → exec .getUnit s = .next (s.answered f .notFound [])) ∧
          (s.store.unitSlot u = some .damaged →
            exec .getUnit s = .next (s.answered f .recordDamaged [])) ∧
          (∀ (r : UnitRec) (k : Word16) (e : UnitEntry), s.store.unitSlot u = some (.present r k) →
            s.unit u = some e →
            exec .getUnit s = .next (s.answered f .ok (getUnitBody u r e s))))))

/-- A body of two bytes is the visit number. Another length gives BAD_FORMAT, 0 gives BAD_VALUE, STARTING
gives WRONG_MODE, a number no visit holds gives NOT_FOUND, and otherwise the reply is OK with every field of
the visit, absent fields as all ones and the opened units in their order. The codes of stages and places
(log 16) and an absent call as FF FF (log 18) are the model's choices. -/
def Obligations.GetVisitReportsAVisit : Prop :=
  ∀ (s : State) (f : Frame), s.inHand f → f.kind = 0x31 →
    (f.body.length ≠ 2 → exec .getVisit s = .next (s.answered f .badFormat [])) ∧
    (∀ x y : Byte, f.body = [x, y] →
      let n := 256 * x.toNat + y.toNat
      (n = 0 → exec .getVisit s = .next (s.answered f .badValue [])) ∧
      (n ≠ 0 → s.site.mode = .starting → exec .getVisit s = .next (s.answered f .wrongMode [])) ∧
      (n ≠ 0 → s.site.mode ≠ .starting → (∀ v ∈ s.visits.table, v.number ≠ n) →
        exec .getVisit s = .next (s.answered f .notFound [])) ∧
      (∀ v : Visit, n ≠ 0 → s.site.mode ≠ .starting → s.visit n = some v →
        exec .getVisit s = .next (s.answered f .ok
          (u16 v.number ++ u16 v.tenant ++ u32 v.value.toNat ++ u8 v.stage.code ++ u8 v.entryPortal ++
            u32 v.admittedAt ++ u32Or v.dwellDeadline ++ flag v.overstayed ++
            u8Or (v.returnStage.map returnStageCode) ++ u8Or v.exitPortal ++
            (match v.call with
             | some c => u8 c.car ++ u8 (if c.boarded then 1 else 0)
             | none => [0xFF, 0xFF]) ++
            u8 v.unitsOpened.length ++ (v.unitsOpened.map u16).flatten ++ u8 v.openedCount ++
            u8 v.lastSeen.kind.code ++ u16 v.lastSeen.number ++ u32 v.lastSeen.at_))))

/-- GET_STORE answers OK with its fields, and with flag 1 its two counts then are 0. GET_NODE answers
NOT_FOUND for an entry not enrolled, and otherwise OK, after which the node's changed flag is no.
GET_SEGMENT answers OK with its fields, and with flag 1 the five drop counters then are 0, the fault counts
kept. GET_STORE is taken up once no lookup waits (R27, log 39). The bodies rest on the model's choices: the
line rate in three bytes (log 13), the kind byte of a binding (log 14), the fault records (log 15), the
codes of named values (log 16) and absent composite fields as all ones (log 18). -/
def Obligations.ReadingRequestsThatClear : Prop :=
  ∀ (s : State) (f : Frame), s.inHand f → s.site.mode ≠ .starting →
    (f.kind = 0x21 → s.store.lookups = [] → s.store.results = [] →
      (f.body = [0] → exec .getStore s = .next (s.answered f .ok (getStoreBody s.store))) ∧
      (f.body = [1] → exec .getStore s = .next
        (({ s with store := { s.store with failedWrites := 0, failedErases := 0 } }).answered f .ok
          (getStoreBody s.store)))) ∧
    (∀ (g : Seg) (n : Nat), f.kind = 0x63 → parseSegNode f.body = .ok (g, n) →
      (s.node g n = none → exec .getNode s = .next (s.answered f .notFound [])) ∧
      (∀ x : Node, s.node g n = some x →
        exec .getNode s = .next
          ((s.modSeg g fun y =>
              { y with nodes := y.nodes.modify n fun z => { z with changed := false } }).answered f .ok
            (getNodeBody g n x s)))) ∧
    (∀ g : Seg, f.kind = 0x64 →
      (parseSegFlag f.body = .ok (g, false) →
        exec .getSegment s = .next (s.answered f .ok (getSegmentBody (s.seg g)))) ∧
      (parseSegFlag f.body = .ok (g, true) →
        exec .getSegment s = .next
          ((s.modSeg g fun y => { y with drops := Drops.zero }).answered f .ok
            (getSegmentBody (s.seg g)))))

/-! ## Site modes and clocks (R193 to R203) -/

/-- A body of another length than 4 gives BAD_FORMAT; a day above 6, a minute above 1439 or a second above
59 gives BAD_VALUE; STARTING gives WRONG_MODE; otherwise the wall clock takes the three values and is set,
the reply is OK, and nothing else changes: no store, no site seconds, no deadline and no timer. -/
def Obligations.SetClockSetsTheWallClock : Prop :=
  ∀ (s : State) (f : Frame), s.inHand f → f.kind = 0x08 →
    (f.body.length ≠ 4 → exec .setClock s = .next (s.answered f .badFormat [])) ∧
    (∀ d m n x : Byte, f.body = [d, m, n, x] →
      let minute := 256 * m.toNat + n.toNat
      (6 < d.toNat ∨ 1439 < minute ∨ 59 < x.toNat →
        exec .setClock s = .next (s.answered f .badValue [])) ∧
      (d.toNat ≤ 6 → minute ≤ 1439 → x.toNat ≤ 59 → s.site.mode = .starting →
        exec .setClock s = .next (s.answered f .wrongMode [])) ∧
      (d.toNat ≤ 6 → minute ≤ 1439 → x.toNat ≤ 59 → s.site.mode ≠ .starting →
        exec .setClock s = .next
          (({ s with site :=
            { s.site with clock := some ⟨d.toNat, minute, x.toNat⟩ } }).answered f .ok [])))

/-- A second adds one to site seconds below their upper bound, at which they stay; a set wall clock advances
with them, over the minute, the day and the week; an UNSET one does not. Once site seconds are saturated the
tick changes nothing. -/
def Obligations.EverySecondTheClocksAdvance : Prop :=
  ∀ s : State,
    (s.site.seconds < 4294967295 →
      (s.site.clock = none → exec .siteSecondTick s = .next
        { s with site := { s.site with seconds := s.site.seconds + 1 } }) ∧
      (∀ d m x : Nat, s.site.clock = some ⟨d, m, x⟩ → d ≤ 6 → m ≤ 1439 → x ≤ 59 →
        exec .siteSecondTick s = .next
          { s with site :=
            { s.site with
              seconds := s.site.seconds + 1
              clock := some
                (if x < 59 then ⟨d, m, x + 1⟩
                 else if m < 1439 then ⟨d, m + 1, 0⟩
                 else ⟨(d + 1) % 7, 0, 0⟩) } })) ∧
    (4294967295 ≤ s.site.seconds → exec .siteSecondTick s = .next s)

/-- The operation by which the mode changes sets it, reports EVACUATE or not EVACUATE to the Line Block, and
puts a MODE notice with the mode left, the mode entered, the return mode and the cause. HOLD: In RUN the
mode becomes DRAINING with cause HOLD, the drain begin order goes to the Lift Scheduler, its answer is owed
once more (the count of log 27), and the reply is OK. In SETUP and DRAINING the reply is OK and nothing else
changes. In EVACUATE and STARTING it is WRONG_MODE. That the report goes to the Line Block alone, the other
blocks reading the mode as it stands, is the model's choice, assumption log 4. -/
def Obligations.HoldBeginsTheDrain : Prop :=
  (∀ (new : Mode) (ret : Option Mode) (cause : ModeCause) (s : State),
    enterMode new ret cause s =
      putNotice (.mode s.site.mode new ret cause)
        { s with
          site := { s.site with mode := new }
          lines := { s.lines with reports := s.lines.reports ++ [.evacuate (new == .evacuate)] } }) ∧
  (∀ (s : State) (f : Frame), s.inHand f → f.kind = 0x04 → f.body = [] →
    (s.site.mode = .run → exec .hold s = .next
      ((toLiftOrders .drain (enterMode .draining none .hold
        { s with site := { s.site with drainOwed := s.site.drainOwed + 1 } })).answered f .ok [])) ∧
    (s.site.mode = .setup ∨ s.site.mode = .draining → exec .hold s = .next (s.answered f .ok [])) ∧
    (s.site.mode = .evacuate ∨ s.site.mode = .starting →
      exec .hold s = .next (s.answered f .wrongMode [])))

/-- In DRAINING the mode becomes RUN with cause RESUME and the reply is OK. In RUN the reply is OK and
nothing else changes. In EVACUATE and STARTING it is WRONG_MODE. In SETUP, once no lookup waits (log 39): a
sticky flag gives STORE_FAULT; a VALID undamaged marker lets RUN be entered at once with reply OK; otherwise
the marker's write begins and the reply waits. -/
def Obligations.ResumeReturnsToRun : Prop :=
  ∀ (s : State) (f : Frame), s.inHand f → f.kind = 0x05 → f.body = [] →
    (s.site.mode = .draining → exec .resume s = .next
      ((enterMode .run none .resume s).answered f .ok [])) ∧
    (s.site.mode = .run → exec .resume s = .next (s.answered f .ok [])) ∧
    (s.site.mode = .evacuate ∨ s.site.mode = .starting →
      exec .resume s = .next (s.answered f .wrongMode [])) ∧
    (s.site.mode = .setup → s.store.lookups = [] → s.store.results = [] →
      (s.store.writeFault = true ∨ s.store.clearFault = true →
        exec .resume s = .next (s.answered f .storeFault [])) ∧
      (s.store.writeFault = false → s.store.clearFault = false →
        (s.store.item .marker = ⟨.marker true, false⟩ →
          exec .resume s = .next ((enterMode .run none .resume s).answered f .ok [])) ∧
        (s.store.item .marker ≠ ⟨.marker true, false⟩ →
          exec .resume s = .next (s.writing f (.site .marker (.marker true))))))

/-- An evacuation sets the return mode (RUN from RUN, else SETUP), the cause and the mode EVACUATE with its
notice, and gives the begin order to the Portal Controller, the Lift Scheduler and the Visit Engine.
EVACUATE does this outside EVACUATE with cause HOST and answers OK; in EVACUATE it answers OK alone. A fire
input change or settled report is recorded, the settled report also setting the fire check DONE; an active
one begins an evacuation with cause FIRE in SETUP, RUN and DRAINING. -/
def Obligations.AnEvacuationBegins : Prop :=
  (∀ (cause : EvacCause) (s : State),
      beginEvacuation cause s =
        toVisitsEvac .begin_ (toLiftOrders .evacBegin (toPortalEvac .begin_
          (enterMode .evacuate (some (if s.site.mode = .run then .run else .setup))
            (match cause with | .host => .evacuateRequest | .fire => .fire)
            { s with site :=
              { s.site with
                returnMode := some (if s.site.mode = .run then .run else .setup)
                evacCause := some cause } })))) ∧
    (∀ (s : State) (f : Frame), s.inHand f → f.kind = 0x06 → f.body = [] →
      (s.site.mode = .setup ∨ s.site.mode = .run ∨ s.site.mode = .draining →
        exec .evacuate s = .next ((beginEvacuation .host s).answered f .ok [])) ∧
      (s.site.mode = .evacuate → exec .evacuate s = .next (s.answered f .ok []))) ∧
    (∀ (s : State) (a : Bool) (rest : List FireReport),
      let begins := a = true ∧ (s.site.mode = .setup ∨ s.site.mode = .run ∨ s.site.mode = .draining)
      (s.site.fireReports = .change a :: rest →
        let t := { s with site := { s.site with fireReports := rest, fireInput := a } }
        (begins → exec .fireInputChange s = .next (beginEvacuation .fire t)) ∧
        (¬begins → exec .fireInputChange s = .next t)) ∧
      (s.site.fireReports = .settled a :: rest →
        let t := { s with site :=
          { s.site with fireReports := rest, fireInput := a, fireCheckDone := true } }
        (begins → exec .settledReport s = .next (beginEvacuation .fire t)) ∧
        (¬begins → exec .settledReport s = .next t)))

/-- EVACUATE_END in EVACUATE is refused FIRE_ACTIVE while the fire input is active, and otherwise gives the
Visit Engine its end order while the request waits. The Visit Engine closes every visit in the order of its
table, the oldest first, and answers. Site Control then orders the portals and the lifts to end, enters the
return mode with cause EVACUATE_END, replies OK, and begins a new evacuation at once when the fire input is
active. The fire input tested is the Line Block's, as it stands when Site Control reads it (log 28, after
R185). -/
def Obligations.AnEvacuationEnds : Prop :=
  (∀ (s : State) (f : Frame), s.inHand f → f.kind = 0x07 → f.body = [] → s.site.mode = .evacuate →
      (s.lines.fireInput = true → exec .evacuateEnd s = .next (s.answered f .fireActive [])) ∧
      (s.lines.fireInput = false →
        exec .evacuateEnd s = .next ((toVisitsEvac .end_ s).kept f))) ∧
    (∀ (s : State) (rest : List EvacOrder), s.visits.orders = .end_ :: rest →
      let closed := s.visits.table.foldl (fun t v => closeVisit v .evacuated t)
        { s with visits := { s.visits with orders := rest } }
      exec .evacuationEndVisits s =
        .next { closed with site := { closed.site with closuresAnswer := true } } ∧
        closed.visits.table = []) ∧
    (∀ (s : State) (f : Frame) (r : Mode), s.site.closuresAnswer = true → s.site.mode = .evacuate →
      s.site.returnMode = some r → s.host.serving = some ⟨f, .working⟩ →
      let t := ((enterMode r (some r) .evacuateEnd
        { toLiftOrders .evacEnd (toPortalEvac .end_ s) with site :=
          { s.site with closuresAnswer := false, returnMode := none, evacCause := none } }).answered f
            .ok [])
      exec .evacuationClosuresDone s =
        .next (if s.lines.fireInput = true then beginEvacuation .fire t else t))

/-- A busy report is recorded for its owner, a report that the store is READY or the Lift Scheduler's answer
changes no busy field, the answer is owed no longer. Then, in DRAINING with no answer owed (a count, the
model's choice, assumption log 27), and portals, cars and segments not busy and the store READY, the mode
becomes SETUP with cause DRAIN_DONE; otherwise the mode stays. -/
def Obligations.TheDrainCheckEndsTheDrain : Prop :=
  ∀ (s : State) (r : SiteReport) (rest : List SiteReport), s.site.reports = r :: rest →
    let c := { s.site with reports := rest }
    let u : SiteControl := match r with
      | .portals b => { c with portalsBusy := b }
      | .cars b => { c with carsBusy := b }
      | .segment .a b => { c with segABusy := b }
      | .segment .b b => { c with segBBusy := b }
      | .segment .c b => { c with segCBusy := b }
      | .storeReady => c
      | .drainAnswer => { c with drainOwed := c.drainOwed - 1 }
    let passes := u.mode = .draining ∧ u.drainOwed = 0 ∧ u.portalsBusy = false ∧ u.carsBusy = false ∧
      u.segABusy = false ∧ u.segBBusy = false ∧ u.segCBusy = false ∧ s.store.state = .ready
    let command := if r = .drainAnswer then Instr.drainAnswer else Instr.busyReport
    (passes → exec command s = .next (enterMode .setup none .drainDone { s with site := u })) ∧
    (¬passes → exec command s = .next { s with site := u })

/-! ## Tenancy records and the store (R9 to R23, R28 to R42) -/

/-- The head lookup is served with its result and joins the results. A credential whose entry is present
resolves to its tenant, one whose slot is damaged gives RECORD_DAMAGED, one with no slot goes to the first
enabled pattern equal under its mask, and with none gives UNKNOWN_CREDENTIAL; the tenant record then gives
FOUND, RECORD_DAMAGED or, absent, UNKNOWN_CREDENTIAL (ABSENT for a tenant lookup). In SCANNING a lookup is
refused WRONG_MODE instead (R27). A clear is suspended by a lookup and goes on when none waits. -/
def Obligations.LookupsFollowTheThreeSteps : Prop :=
  ∀ s : State,
    let after (st : StoreState) (rest : List Lookup) : StoreState :=
      if st = .clearing ∨ st = .clearSuspended then
        if rest = [] then .clearing else .clearSuspended
      else st
    let served (rest : List Lookup) (r : LookupResult) : State :=
      { s with store :=
        { s.store with
          state := after s.store.state rest, lookups := rest, results := s.store.results ++ [r] } }
    let ofTenant (id : Nat) (missing : LookupResult) : LookupResult :=
      match s.store.tenantSlot id with
      | none => missing
      | some .damaged => .recordDamaged
      | some (.present r _) => .found id (s.store.readNotShared id r)
    (s.store.state = .scanning →
      (∀ (id : Nat) (rest : List Lookup), s.store.lookups = .tenant id :: rest →
        exec .tenantLookup s = .next (served rest .wrongMode)) ∧
      (∀ (v : Word32) (rest : List Lookup), s.store.lookups = .credential v :: rest →
        exec .credentialLookup s = .next (served rest .wrongMode))) ∧
    (∀ (id : Nat) (rest : List Lookup), s.store.state ≠ .scanning →
      s.store.lookups = .tenant id :: rest →
      exec .tenantLookup s = .next (served rest (ofTenant id .absent))) ∧
    (∀ (v : Word32) (rest : List Lookup), s.store.state ≠ .scanning →
      s.store.lookups = .credential v :: rest →
      (∀ (slot id : Nat) (k : Word16), s.store.credSlot v = some (slot, .present v id k) →
        exec .credentialLookup s = .next (served rest (ofTenant id .unknownCredential))) ∧
      (∀ slot : Nat, s.store.credSlot v = some (slot, .damaged v) →
        exec .credentialLookup s = .next (served rest .recordDamaged)) ∧
      (s.store.credSlot v = none →
        (∀ i : Nat, i < 8 → (s.store.pattern i).enabled = true →
          v &&& (s.store.pattern i).mask = (s.store.pattern i).value &&& (s.store.pattern i).mask →
          (∀ j : Nat, j < i → (s.store.pattern j).enabled = false ∨
            v &&& (s.store.pattern j).mask ≠ (s.store.pattern j).value &&& (s.store.pattern j).mask) →
          exec .credentialLookup s =
            .next (served rest (ofTenant (s.store.pattern i).tenant .unknownCredential))) ∧
        ((∀ j : Nat, j < 8 → (s.store.pattern j).enabled = false ∨
            v &&& (s.store.pattern j).mask ≠ (s.store.pattern j).value &&& (s.store.pattern j).mask) →
          exec .credentialLookup s = .next (served rest .unknownCredential))))

/-- Evaluated from the working copy as it stands: window 0 is INSIDE whatever the clock. A window 1..15
marked damaged gives RECORD_DAMAGED, one with the clock UNSET gives CLOCK_UNSET; otherwise it is INSIDE
exactly when the day is in the set and the minute in start..end, or, with the end not after the start, when
the day is in the set at or after start or the day before is in the set before end. For a tenant with an
undamaged class, BARRED refuses before any window; a CURRENT one is judged by the window of its class, a
RESTRICTED one by its restricted window, and only INSIDE lets it pass. -/
def Obligations.WindowsAreEvaluatedAgainstTheClock : Prop :=
  ∀ s : State, s.window 0 = .inside ∧
    (∀ (t : Tenant) (c : Marked AccessClass), s.site.classes[t.cls]? = some c → c.damaged = false →
      let ends (w : WindowResult) : Option Reason := match w with
        | .inside => none
        | .outside => some .outsideWindow
        | .clockUnset => some .clockUnset
        | .recordDamaged => some .recordDamaged
      (t.status = .barred → s.tenantBar t = some .barred) ∧
      (t.status = .current → s.tenantBar t = ends (s.window c.val.window)) ∧
      (t.status = .restricted → s.tenantBar t = ends (s.window c.val.restrictedWindow))) ∧
    ∀ (n : Nat) (w : Marked Window), 1 ≤ n → s.site.windows[n - 1]? = some w →
      (w.damaged = true → s.window n = .recordDamaged) ∧
      (w.damaged = false → s.site.clock = none → s.window n = .clockUnset) ∧
      (∀ d m x : Nat, w.damaged = false → s.site.clock = some ⟨d, m, x⟩ → d ≤ 6 →
        let isIn := if w.val.start < w.val.stop then
            w.val.days.getLsbD d = true ∧ w.val.start ≤ m ∧ m < w.val.stop
          else
            (w.val.days.getLsbD d = true ∧ w.val.start ≤ m) ∨
              (w.val.days.getLsbD (if d = 0 then 6 else d - 1) = true ∧ m < w.val.stop)
        (isIn → s.window n = .inside) ∧ (¬isIn → s.window n = .outside))

/-- In SETUP, with no lookup waiting (log 39) and no sticky fault, each of the six answers OK with no write
when the stored, undamaged item equals the new contents, and otherwise begins the write: the store is
WRITING and the reply waits. -/
def Obligations.SiteItemsAreWrittenUnlessEqual : Prop :=
  ∀ (s : State) (f : Frame), s.inHand f → s.site.mode = .setup → s.store.lookups = [] →
    s.store.results = [] → s.store.faulted = false →
    let writes (c : Instr) (i : SiteItem) (v : SiteValue) : Prop :=
      (s.store.item i = ⟨v, false⟩ → exec c s = .next (s.answered f .ok [])) ∧
        (s.store.item i ≠ ⟨v, false⟩ → exec c s = .next (s.writing f (.site i v)))
    (∀ p, f.kind = 0x09 → parsePutSite f.body = .ok p → writes .putSite .params (.params p)) ∧
    (∀ i p, f.kind = 0x18 → parsePutPattern f.body = .ok (i, p) →
      writes .putPattern (.pattern i) (.pattern p)) ∧
    (∀ i c, f.kind = 0x19 → parsePutClass f.body = .ok (i, c) → writes .putClass (.cls i) (.cls c)) ∧
    (∀ i w, f.kind = 0x1A → parsePutWindow f.body = .ok (i, w) →
      writes .putWindow (.window i) (.window w)) ∧
    (∀ i c, f.kind = 0x50 → parsePutCar f.body = .ok (i, c) → writes .putCar (.car i) (.car c)) ∧
    (∀ g x, f.kind = 0x60 → parsePutSegment f.body = .ok (g, x) →
      writes .putSegment (.segment g) (.segment x))

/-- In SETUP, with no lookup waiting (log 39) and no sticky fault: PUT_PORTAL of a portal in OPENING,
PASSAGE or HELD_OPEN, PUT_LINE of a STRIKE or CONTACT another line holds, PUT_LINE that changes a line of a
portal in use or gives it one, and ENROL_NODE over a different entry are answered IN_USE; REMOVE_NODE of no
entry NOT_FOUND; an equal item OK with no write; otherwise the write begins. -/
def Obligations.PortalsLinesAndNodesInUseAreNotRewritten : Prop :=
  ∀ (s : State) (f : Frame), s.inHand f → s.site.mode = .setup → s.store.lookups = [] →
    s.store.results = [] → s.store.faulted = false →
    let inUse (q : Portal) : Prop := q.state = .opening ∨ q.state = .passage ∨ q.state = .heldOpen
    let holds (fn : LineFunction) : Prop :=
      ∃ (p : Nat) (q : Portal), (fn = .strike p ∨ fn = .contact p) ∧ s.portal p = some q ∧ inUse q
    (∀ (p : Nat) (r : PortalRec) (q : Portal), f.kind = 0x40 → parsePutPortal f.body = .ok (p, r) →
      s.portal p = some q →
      (inUse q → exec .putPortal s = .next (s.answered f .inUse [])) ∧
      (¬inUse q → s.store.item (.portal p) = ⟨.portal r, false⟩ →
        exec .putPortal s = .next (s.answered f .ok [])) ∧
      (¬inUse q → s.store.item (.portal p) ≠ ⟨.portal r, false⟩ →
        exec .putPortal s = .next (s.writing f (.site (.portal p) (.portal r))))) ∧
    (∀ (n : Nat) (r : LineRec) (l : Line), f.kind = 0x70 → parsePutLine f.body = .ok (n, r) →
      s.line n = some l →
      let taken : Prop := (∃ p, r.func = .strike p ∨ r.func = .contact p) ∧
        ∃ (m : Nat) (k : Line), m < 12 ∧ m ≠ n ∧ s.line m = some k ∧ k.record.val.func = r.func
      let blocked : Prop := l.record.val ≠ r ∧ (holds r.func ∨ holds l.record.val.func)
      (taken ∨ blocked → exec .putLine s = .next (s.answered f .inUse [])) ∧
      (¬taken → ¬blocked → s.store.item (.line n) = ⟨.line r, false⟩ →
        exec .putLine s = .next (s.answered f .ok [])) ∧
      (¬taken → ¬blocked → s.store.item (.line n) ≠ ⟨.line r, false⟩ →
        exec .putLine s = .next (s.writing f (.site (.line n) (.line r))))) ∧
    (∀ (g : Seg) (n : Nat) (e : NodeEntry), f.kind = 0x61 → parseEnrol f.body = .ok (g, n, e) →
      (s.store.nodeEntry g n = ⟨some e, false⟩ → exec .enrolNode s = .next (s.answered f .ok [])) ∧
      (∀ d : NodeEntry, d ≠ e → s.store.nodeEntry g n = ⟨some d, false⟩ →
        exec .enrolNode s = .next (s.answered f .inUse [])) ∧
      ((s.store.nodeEntry g n).val = none ∨ (s.store.nodeEntry g n).damaged = true →
        exec .enrolNode s = .next (s.writing f (.site (.node g n) (.node (some e)))))) ∧
    (∀ (g : Seg) (n : Nat), f.kind = 0x62 → parseSegNode f.body = .ok (g, n) →
      (s.store.nodeEntry g n = ⟨none, false⟩ →
        exec .removeNode s = .next (s.answered f .notFound [])) ∧
      (s.store.nodeEntry g n ≠ ⟨none, false⟩ →
        exec .removeNode s = .next (s.writing f (.site (.node g n) (.node none)))))

/-- Outside STARTING, with no lookup waiting (log 39) and no sticky fault. PUT_TENANT not shared over more
than one visit gives IN_USE, equal contents OK, otherwise the write begins. DROP_TENANT of an absent record
gives NOT_FOUND, with a visit, unit or credential of the tenant IN_USE, otherwise the drop begins.
PUT_CREDENTIAL needs a present tenant record (NOT_FOUND, RECORD_DAMAGED); a value present for the tenant
gives OK, for another DUPLICATE; four credentials of the tenant or no free slot give FULL; a damaged slot of
the value or else the lowest free slot is written. DROP_CREDENTIAL of a value no slot holds gives NOT_FOUND,
otherwise its slot is freed. In a table by rising key with slots below 4,096, as every step keeps it (O6),
no slot is free exactly when it holds 4,096 entries, and otherwise the slot written is the least number
below 4,096 that no entry holds. -/
def Obligations.TenantAndCredentialRequests : Prop :=
  (∀ (s : State) (f : Frame), s.inHand f → s.site.mode ≠ .starting → s.store.lookups = [] →
    s.store.results = [] → s.store.faulted = false →
    (∀ (id : Nat) (t : Tenant), f.kind = 0x10 → parsePutTenant f.body = .ok (id, t) →
      (t.shared = false → 2 ≤ (s.visitsOf id).length →
        exec .putTenant s = .next (s.answered f .inUse [])) ∧
      (t.shared = true ∨ (s.visitsOf id).length < 2 →
        (∀ k : Word16, s.store.tenantSlot id = some (.present t k) →
          exec .putTenant s = .next (s.answered f .ok [])) ∧
        ((∀ k : Word16, s.store.tenantSlot id ≠ some (.present t k)) →
          exec .putTenant s = .next (s.writing f (.tenant id (some t)))))) ∧
    (∀ id : Nat, f.kind = 0x11 → parseTenantId f.body = .ok id →
      let held : Prop := s.visitsOf id ≠ [] ∨ s.store.unitsOf id ≠ [] ∨ s.store.credsOf id ≠ []
      (s.store.tenantSlot id = none → exec .dropTenant s = .next (s.answered f .notFound [])) ∧
      (s.store.tenantSlot id ≠ none → held →
        exec .dropTenant s = .next (s.answered f .inUse [])) ∧
      (s.store.tenantSlot id ≠ none → ¬held →
        exec .dropTenant s = .next (s.writing f (.tenant id none)))) ∧
    (∀ (v : Word32) (id : Nat), f.kind = 0x13 → parsePutCredential f.body = .ok (v, id) →
      (s.store.tenantSlot id = none → exec .putCredential s = .next (s.answered f .notFound [])) ∧
      (s.store.tenantSlot id = some .damaged →
        exec .putCredential s = .next (s.answered f .recordDamaged [])) ∧
      (∀ (t : Tenant) (k : Word16), s.store.tenantSlot id = some (.present t k) →
        (∀ (slot u : Nat) (j : Word16), s.store.credSlot v = some (slot, .present v u j) →
          exec .putCredential s =
            .next (if u = id then s.answered f .ok [] else s.answered f .duplicate [])) ∧
        (∀ slot : Nat, s.store.credSlot v = some (slot, .damaged v) →
          exec .putCredential s =
            .next (if 4 ≤ (s.store.credsOf id).length then s.answered f .full []
              else s.writing f (.credential slot v (some id)))) ∧
        (s.store.credSlot v = none →
          exec .putCredential s =
            .next (if 4 ≤ (s.store.credsOf id).length ∨ 4096 ≤ s.store.creds.length then
                s.answered f .full []
              else s.writing f (.credential (lowestFree 0 s.store.creds) v (some id)))))) ∧
    (∀ v : Word32, f.kind = 0x14 → parseValue f.body = .ok v →
      (s.store.credSlot v = none → exec .dropCredential s = .next (s.answered f .notFound [])) ∧
      (∀ (slot : Nat) (c : CredSlot), s.store.credSlot v = some (slot, c) →
        exec .dropCredential s = .next (s.writing f (.credential slot v none))))) ∧
  (∀ creds : Table CredSlot, Table.sorted creds → (∀ e ∈ creds, e.1 < 4096) →
    let k := lowestFree 0 creds
    (4096 ≤ creds.length ↔ ∀ j, j < 4096 → creds.find j ≠ none) ∧
    (creds.length < 4096 → k < 4096 ∧ creds.find k = none ∧ ∀ j, j < k → creds.find j ≠ none))

/-- Outside STARTING, with no lookup waiting (log 39) and no sticky fault. PUT_UNIT needs its tenant's
record when it names one; a channel another present unit names gives DUPLICATE, a tenant with 16 units and
not this one FULL, a change beyond overlocked of an entry not ARMED or UNKNOWN IN_USE, equal contents OK,
otherwise the write begins. DROP_UNIT of an absent record gives NOT_FOUND, of an entry in use IN_USE,
otherwise the drop begins, of a damaged record at once. SET_OVERLOCK gives NOT_FOUND, RECORD_DAMAGED, OK
when the flag stands so, and otherwise writes the record with the flag. -/
def Obligations.UnitRequests : Prop :=
  ∀ (s : State) (f : Frame), s.inHand f → s.site.mode ≠ .starting → s.store.lookups = [] →
    s.store.results = [] → s.store.faulted = false →
    let inUse (u : Nat) : Prop :=
      ∃ e : UnitEntry, s.unit u = some e ∧ e.state ≠ .armed ∧ e.state ≠ .unknown
    (∀ (u : Nat) (r : UnitRec), f.kind = 0x15 → parsePutUnit f.body = .ok (u, r) →
      (r.tenant ≠ 0 → s.store.tenantSlot r.tenant = none →
        exec .putUnit s = .next (s.answered f .notFound [])) ∧
      (r.tenant ≠ 0 → s.store.tenantSlot r.tenant = some .damaged →
        exec .putUnit s = .next (s.answered f .recordDamaged [])) ∧
      (r.tenant = 0 ∨ (∃ (t : Tenant) (k : Word16), s.store.tenantSlot r.tenant = some (.present t k)) →
        let taken : Prop := ∃ e ∈ s.store.presentUnits, e.1 ≠ u ∧ e.2.seg = r.seg ∧
          e.2.node = r.node ∧ e.2.channel = r.channel
        let full : Prop := r.tenant ≠ 0 ∧ u ∉ s.store.unitsOf r.tenant ∧
          16 ≤ (s.store.unitsOf r.tenant).length
        (taken → exec .putUnit s = .next (s.answered f .duplicate [])) ∧
        (¬taken → full → exec .putUnit s = .next (s.answered f .full [])) ∧
        (¬taken → ¬full →
          (∀ (o : UnitRec) (k : Word16), s.store.unitSlot u = some (.present o k) →
            (inUse u → { o with overlocked := r.overlocked } ≠ r →
              exec .putUnit s = .next (s.answered f .inUse [])) ∧
            (o = r → exec .putUnit s = .next (s.answered f .ok [])) ∧
            (¬inUse u ∨ { o with overlocked := r.overlocked } = r → o ≠ r →
              exec .putUnit s = .next (s.writing f (.unit u (some r))))) ∧
          (s.store.unitSlot u = none ∨ s.store.unitSlot u = some .damaged →
            exec .putUnit s = .next (s.writing f (.unit u (some r))))))) ∧
    (∀ u : Nat, f.kind = 0x16 → parseUnitNumber f.body = .ok u →
      (s.store.unitSlot u = none → exec .dropUnit s = .next (s.answered f .notFound [])) ∧
      (∀ (r : UnitRec) (k : Word16), s.store.unitSlot u = some (.present r k) →
        (inUse u → exec .dropUnit s = .next (s.answered f .inUse [])) ∧
        (¬inUse u → exec .dropUnit s = .next (s.writing f (.unit u none)))) ∧
      (s.store.unitSlot u = some .damaged →
        exec .dropUnit s = .next (s.writing f (.unit u none)))) ∧
    (∀ (u : Nat) (o : Bool), f.kind = 0x17 → parseSetOverlock f.body = .ok (u, o) →
      (s.store.unitSlot u = none → exec .setOverlock s = .next (s.answered f .notFound [])) ∧
      (s.store.unitSlot u = some .damaged →
        exec .setOverlock s = .next (s.answered f .recordDamaged [])) ∧
      (∀ (r : UnitRec) (k : Word16), s.store.unitSlot u = some (.present r k) →
        exec .setOverlock s =
          .next (if r.overlocked = o then s.answered f .ok []
            else s.writing f (.unit u (some { r with overlocked := o })))))

/-- Taken up once no lookup waits and none of their results is on its way (log 39): a body that is not empty
gives BAD_FORMAT, STARTING gives WRONG_MODE; otherwise both sticky flags are cleared and both fault records
removed, whether or not a flag was set, the reply is OK, and nothing else changes: no slot, no damage mark,
no digest. -/
def Obligations.ClearStoreFaultClearsTheFlags : Prop :=
  ∀ (s : State) (f : Frame), s.inHand f → f.kind = 0x22 → s.store.lookups = [] →
    s.store.results = [] →
    (f.body ≠ [] → exec .clearStoreFault s = .next (s.answered f .badFormat [])) ∧
    (f.body = [] → s.site.mode = .starting →
      exec .clearStoreFault s = .next (s.answered f .wrongMode [])) ∧
    (f.body = [] → s.site.mode ≠ .starting →
      exec .clearStoreFault s = .next (({ s with store :=
        { s.store with
          writeFault := false, writeFaultRec := none, clearFault := false
          clearFaultRec := none } }).answered f .ok []))

/-- In a table by rising key, a read-back that matches leaves the new record with its check value (nothing
after a DROP), one that differs leaves the slot damaged with its key, and no other slot changes; the old
record's check value leaves the digest and, on a match, the new one's enters it. For a TENANT, a UNIT and a
CREDENTIAL write; a SITE item has no digest. -/
def Obligations.WritesSettleTheirSlotAndDigest : Prop :=
  ∀ st : Store,
    (∀ (id : Nat) (r : Option Tenant) (ok : Bool), Table.sorted st.tenants →
      let t := commitWrite (.tenant id r) ok st
      let now := if ok then r.map fun x => Slot.present x (tenantCheck id x) else some .damaged
      t = { st with tenants := t.tenants, digestT := t.digestT } ∧
        (∀ k, t.tenants.find k = if k = id then now else st.tenants.find k) ∧
        t.digestT = st.digestT ^^^ ((st.tenants.find id).map Slot.digest).getD 0 ^^^
          (now.map Slot.digest).getD 0) ∧
    (∀ (u : Nat) (r : Option UnitRec) (ok : Bool), Table.sorted st.units →
      let t := commitWrite (.unit u r) ok st
      let now := if ok then r.map fun x => Slot.present x (unitCheck u x) else some .damaged
      t = { st with units := t.units, digestU := t.digestU } ∧
        (∀ k, t.units.find k = if k = u then now else st.units.find k) ∧
        t.digestU = st.digestU ^^^ ((st.units.find u).map Slot.digest).getD 0 ^^^
          (now.map Slot.digest).getD 0) ∧
    (∀ (slot : Nat) (v : Word32) (id : Option Nat) (ok : Bool), Table.sorted st.creds →
      let t := commitWrite (.credential slot v id) ok st
      let now := if ok then id.map fun x => CredSlot.present v x (credCheck v x)
        else some (.damaged v)
      t = { st with creds := t.creds, digestC := t.digestC } ∧
        (∀ k, t.creds.find k = if k = slot then now else st.creds.find k) ∧
        t.digestC = st.digestC ^^^ ((st.creds.find slot).map CredSlot.digest).getD 0 ^^^
          (now.map CredSlot.digest).getD 0) ∧
    (∀ (i : SiteItem) (v : SiteValue) (ok : Bool), Table.sorted st.site →
      let t := commitWrite (.site i v) ok st
      t = { st with site := t.site } ∧
        ∀ k, t.site.find k = if k = i.key then
          some (if ok then .present v (siteCheck i.key v) else .damaged) else st.site.find k)

/-- The write in progress settles its slot, the store enters READY, and the request that waits is answered:
OK, or STORE_FAULT on a mismatch, which also sets WRITE_FAULT, fills its record when the flag was clear, and
counts a failed write. A tenant, credential or pattern write tells no mirror; a unit write, a marker write
and every other item tell theirs, and the store reports READY to Site Control. With no write in progress
nothing changes (log 2). -/
def Obligations.WriteCompletionAnswersTheRequest : Prop :=
  ∀ (ok : Bool) (s : State),
    (s.store.write = none → exec (.writeCompletion ok) s = .next s) ∧
    (∀ (w : WriteOp) (f : Frame), s.store.write = some w → s.host.serving = some ⟨f, .working⟩ →
      let st := commitWrite w ok s.store
      let done : Store :=
        if ok then { st with state := .ready, write := none }
        else
          { st with
            state := .ready, write := none, writeFault := true
            writeFaultRec := if st.writeFault then st.writeFaultRec else some w.key
            failedWrites := min 255 (st.failedWrites + 1) }
      let told := tellMirror w ok { s with store := done }
      exec (.writeCompletion ok) s =
        .next ((toSite .storeReady told).answered f (if ok then .ok else .storeFault) []) ∧
      told.store = done ∧
      ((∃ id r, w = .tenant id r) ∨ (∃ slot v id, w = .credential slot v id) ∨
        (∃ i p, w = .site (.pattern i) (.pattern p)) → told = { s with store := done }))

/-- A committed item reaches its owner within the step (log 4). Class, window and parameters are copied; a
marker lets RUN be entered or returned to. A portal's opening ends, its old lines are released, its inputs
are taken, and it is placed FREE, by its contact, or in FAULT, where a module's inputs are UNKNOWN (log 41).
A car whose record or panel changed goes OUT. A line's function ends, is told as unassigned, and the new one
is taken up. A new node entry starts afresh; a removed one's queue and then its command in flight end
NODE_LOST (log 40), its ack goes, and its consumer is told, after a copy being sent to it (log 25). A
segment disabled enters OFF at once with its nodes UNREACHABLE and its ring empty, its commands ending now
or after the copy being sent (log 25); one enabled starts afresh, first ending a closing that still waits
(log 25). A unit record gives a fresh entry, moves it, rearms it for another tenant, or follows overlocked;
a drop or a failed write makes it absent. The model's choices beside these: a portal placed SECURE or FORCED
has its strike engaged (log 23); the portal reports on their way are taken before PORTAL_FORCED (log 5); a
segment enabled has its receiver on an idle line (log 24); a current RELEASE is that of an entry in
RELEASING (log 35). The consumers of a disabled segment's nodes are told in ascending node id (log 50). -/
def Obligations.CommittedItemsReachTheirOwners : Prop :=
  (∀ s : State,
    (∀ n, applyItem s (.cls n) =
      { s with site := { s.site with classes := s.site.classes.set n (s.store.cls n) } }) ∧
    (∀ n, applyItem s (.window n) =
      { s with site := { s.site with windows := s.site.windows.set (n - 1) (s.store.window n) } }) ∧
    (s.store.params.val.beaconOnAlarms = s.site.params.val.beaconOnAlarms →
      applyItem s .params = { s with site := { s.site with params := s.store.params } }) ∧
    (s.store.params.val.beaconOnAlarms ≠ s.site.params.val.beaconOnAlarms →
      applyItem s .params = toBeacon (.onAlarms s.store.params.val.beaconOnAlarms)
        { s with site := { s.site with params := s.store.params } }) ∧
    (s.site.mode = .setup →
      tellMirror (.site .marker (.marker true)) true s = enterMode .run none .resume s) ∧
    (s.site.mode = .evacuate →
      tellMirror (.site .marker (.marker true)) true s =
        { s with site := { s.site with returnMode := some .run } }) ∧
    tellMirror (.site .marker (.marker true)) false s = s ∧
    (∀ (i : SiteItem) (v : SiteValue) (ok : Bool), i ≠ .marker →
      tellMirror (.site i v) ok s = applyItem s i)) ∧
  (∀ (s : State) (p : Nat) (q : Portal), s.portal p = some q →
    let old := q.record.val
    let new := s.store.portal p
    let onLines (r : PortalRec) : Prop := r.present = true ∧ r.drive = .lines
    let ended := endOpening p s
    let left : State := if onLines old ∧ ¬onLines new.val then
        withPortal p (fun q => { q with strikeReleased := false })
          { ended with lines :=
            { ended.lines with list :=
              ended.lines.list.map fun l =>
                if l.record.val.func = .strike p then { l with drive := .other } else l } }
      else ended
    let kept := old.present = true ∧ old.drive = new.val.drive
    let taken := withPortal p (fun x =>
      if new.val.present = false then
        { x with record := new, contact := .unknown, button := .unknown, heard := false }
      else if new.val.drive = .lines then
        { x with
          record := new, contact := left.lineContact p, button := left.lineButton p, heard := false }
      else if kept then
        { x with record := new, contact := q.contact, button := q.button, heard := q.heard }
      else { x with record := new, contact := .unknown, button := .unknown, heard := false }) left
    let available := new.val.present = true ∧ taken.driveAvailable p = true
    (available → s.site.mode = .evacuate → applyItem s (.portal p) = enterFree p true taken) ∧
    (available → s.site.mode ≠ .evacuate → q.state = .free →
      applyItem s (.portal p) = orderStrike p true false taken) ∧
    (available → s.site.mode ≠ .evacuate → q.state ≠ .free →
      applyItem s (.portal p) = leaveFree p false taken) ∧
    (¬available → applyItem s (.portal p) = withPortal p (fun x =>
      if new.val.drive = .lines then { x with state := .fault, heard := false }
      else { x with state := .fault, contact := .unknown, button := .unknown, heard := false }) taken)) ∧
  (∀ (s : State) (c : Nat) (x : Car), s.car c = some x →
    let old := x.record.val
    let new := s.store.car c
    let t := withCar c (fun x => { x with record := new }) s
    let moved := old.present = false ∨ old.seg ≠ new.val.seg ∨ old.node ≠ new.val.node
    let out (keeps : Bool) : State := withCar c (fun x =>
      { x with
        lastFloor := none, lastDoorsOpen := none
        cause := if keeps = true ∧ x.cause = some .host then some .host else some .node })
      (takeOut c .node .record none t)
    (new.val.present = false → applyItem s (.car c) = out false) ∧
    (new.val.present = true → moved → applyItem s (.car c) = out true) ∧
    (new.val.present = true → ¬moved → applyItem s (.car c) = t)) ∧
  (∀ (s : State) (n : Nat) (l : Line), s.line n = some l →
    let new := s.store.line n
    let ended := s.modLine n fun l =>
      { l with
        record := ⟨{ l.record.val with func := .generalIn }, l.record.damaged⟩
        debounced := none, timer := none, settleTimer := false, drive := .none, pullApplied := false }
    let told := match l.record.val.func with
      | .strike p | .contact p | .exitButton p => lineUnassigned p ended
      | _ => ended
    let input := new.val.func.isInput
    let up := told.modLine n fun l =>
      { l with
        record := new, debounced := none
        timer := if input = true then some told.site.params.val.debounce else none
        settleTimer := input
        pullApplied := input && new.val.pullUp
        drive := match new.val.func with
          | .generalOut => if l.output = true then .active else .other
          | .strike _ => .other
          | .beacon => if told.lines.beacon = .steady ∨ told.lines.beacon = .flashing true then .active
            else .other
          | _ => .none }
    applyItem s (.line n) = reportSettled (updateFire (match new.val.func with
      | .strike p => lineAssigned p up
      | _ => up))) ∧
  (∀ (s : State) (g : Seg) (n : Nat),
    let e := (s.store.nodeEntry g n).val
    let enrolled (e : NodeEntry) (s : State) : State := s.modSeg g fun x =>
      let starts : Liveness := if x.state.running = true then .quiet else .unreachable
      { x with nodes := x.nodes.put n ⟨e, starts, 0, 0, false, 0, [], false, false⟩ }
    (s.node g n = none → applyItem s (.node g n) = match e with
      | some e => enrolled e s
      | none => s) ∧
    (∀ x : Node, s.node g n = some x → e = some x.entry → applyItem s (.node g n) = s) ∧
    (∀ x : Node, s.node g n = some x → e ≠ some x.entry →
      let a := completeQueued g (fun y => y.node == n) .nodeLost s
      let b := match (a.seg g).inFlight with
        | some f => if f.entry.node = n then
            if f.phase = FlightPhase.sending then
              a.modSeg g fun y => { y with inFlight := some { f with endAs := some .nodeLost } }
            else completeFlight g .nodeLost a
          else a
        | none => a
      let c := b.modSeg g fun y => { y with pendingAck := y.pendingAck.filter fun k => k.1 != n }
      let sent : Bool := match (c.seg g).inFlight with
        | some f => f.entry.node == n && f.phase == .sending
        | none => false
      let told := if sent = true then
          c.modSeg g fun y => { y with lossesOwed := y.lossesOwed ++ [(n, x.entry)] }
        else tellLoss g n x.entry (c.modSeg g fun y => { y with lossesOwed := y.lossesOwed.remove n })
      let left := told.modSeg g fun y => { y with nodes := y.nodes.remove n }
      applyItem s (.node g n) = match e with
        | some e => enrolled e left
        | none => left)) ∧
  (∀ (s : State) (g : Seg),
    let x := s.seg g
    let new := s.store.segment g
    let copied := s.modSeg g fun x => { x with settings := new }
    let on := x.settings.val.enabled
    let ends := match x.inFlight with
      | some f => f.endAs.getD .nodeLost
      | none => .nodeLost
    let t := completeQueued g (fun _ => true) .nodeLost (completeFlight g ends s)
    let starts (t : State) : State := (putNotice (.segmentState g (t.seg g).state .active 0 0)
        (t.modSeg g fun x =>
          { x with
            state := .active, txFaults := 0, rxFaults := 0, pollPos := 0, pollTimer := true
            rx := .idle, overrunHeld := 0, rateInUse := x.settings.val.lineRate })).modSeg g fun x =>
        { x with nodes := x.nodes.map fun e => (e.1, { e.2 with
            liveness := .quiet, missed := 0, lastValid := false, nextSeq := 0 }) }
    (on = false → new.val.enabled = false → applyItem s (.segment g) = copied) ∧
    (on = true → new.val.enabled = true → x.sending = none → x.rx = .idle →
      applyItem s (.segment g) = s.modSeg g fun x =>
        { x with settings := new, rateInUse := new.val.lineRate }) ∧
    (on = true → new.val.enabled = true → x.sending ≠ none ∨ x.rx ≠ .idle →
      applyItem s (.segment g) = copied) ∧
    (on = true → new.val.enabled = false →
      let off := emptyRing g (putNotice (.segmentState g x.state .off x.txFaults x.rxFaults)
        (copied.modSeg g fun x =>
          { x with
            nodes := x.nodes.map fun e =>
              (e.1, { e.2 with liveness := .unreachable, reportHeld := false })
            state := .off, pollTimer := false, pendingAck := none, closing := true
            lossesOwed := x.lossesOwed ++ (x.nodes.filter fun e =>
              e.2.liveness == .live || e.2.liveness == .quiet).map fun e => (e.1, e.2.entry) }))
      (x.sending ≠ none → applyItem s (.segment g) = off) ∧
      (x.sending = none → applyItem s (.segment g) = finishClosing g off)) ∧
    (on = false → new.val.enabled = true →
      (x.closing = false → applyItem s (.segment g) = starts copied) ∧
      (x.closing = true → applyItem s (.segment g) = starts (finishClosing g copied))) ∧
    (finishClosing g s = (t.seg g).lossesOwed.foldl (fun s e => tellLoss g e.1 e.2 s)
        (t.modSeg g fun x => { x with closing := false, sending := none, lossesOwed := [] }))) ∧
  (∀ (s : State) (u : Nat) (r : UnitRec),
    let fresh (number : Byte) (s : State) : State := evaluateHeld u r
      (withUnits (fun t => t.put u ⟨r, .unknown, .unknown, .unknown, false, none, number⟩) s)
    let relocks (e : UnitEntry) (s : State) : State :=
      submit e.record.seg e.record.node (.command (.relock e.record.channel)) .normal (.relock u none) s
    let abandoned (e : UnitEntry) : State := match e.state with
      | .releasing => relocks e (cancel e.record.seg (.release u e.number) s)
      | .released => relocks e s
      | _ => s
    (s.unit u = none → tellMirror (.unit u (some r)) true s = fresh 0 s) ∧
    (∀ ok, s.unit u = none → tellMirror (.unit u none) ok s = s) ∧
    (∀ e : UnitEntry, s.unit u = some e →
      let same := e.record.seg = r.seg ∧ e.record.node = r.node ∧ e.record.channel = r.channel
      let t := withUnit u (fun e => { e with record := r }) s
      let here := r.tenant ≠ 0 ∧ r.tenant ∈ s.units.presence
      (¬same → tellMirror (.unit u (some r)) true s = fresh e.number (abandoned e)) ∧
      (same → e.record.tenant ≠ r.tenant → tellMirror (.unit u (some r)) true s =
        if here then withUnit u (fun e =>
            if e.state = .armed ∧ e.record.overlocked = false then { e with state := .disarmed }
            else e) (rearm u t)
        else rearm u t) ∧
      (same → e.record.tenant = r.tenant → e.record.overlocked = r.overlocked →
        tellMirror (.unit u (some r)) true s = t) ∧
      (same → e.record.tenant = r.tenant → e.record.overlocked ≠ r.overlocked →
        (r.overlocked = true → e.state = .disarmed →
          tellMirror (.unit u (some r)) true s = rearm u t) ∧
        (r.overlocked = false → e.state = .armed → here → tellMirror (.unit u (some r)) true s =
          withUnit u (fun e => { e with state := .disarmed }) t) ∧
        (¬(r.overlocked = true ∧ e.state = .disarmed) →
          ¬(r.overlocked = false ∧ e.state = .armed ∧ here) →
          tellMirror (.unit u (some r)) true s = t)) ∧
      (∀ x ok, x = none ∨ ok = false → tellMirror (.unit u x) ok s =
        withUnits (fun t => t.remove u) (abandoned e)))) ∧
  (∀ (s : State) (g : Seg) (o : TxOutcome) (fits : TxEntry → Bool),
    let u := s.modSeg g fun x => { x with ring := [], rx := .idle, overrunHeld := 0 }
    (completeQueued g fits o s = ((s.seg g).queue.filter fits).foldl
      (fun s e => handOutcome g o e.token s)
      (withSeg g (fun x => { x with queue := x.queue.filter fun e => !fits e }) s)) ∧
    ((s.seg g).inFlight = none → completeFlight g o s = s) ∧
    (∀ f, (s.seg g).inFlight = some f → completeFlight g o s = handOutcome g o f.entry.token
      (withSeg g (fun x => { x with inFlight := none }) s)) ∧
    ((∀ h, s.router.hand = some h → h.seg ≠ g) → emptyRing g s = u) ∧
    (∀ b, s.router.hand = some ⟨g, true, b⟩ → emptyRing g s =
      { u with router := { s.router with hand := some ⟨g, true, false⟩ } }) ∧
    (∀ b, s.router.hand = some ⟨g, false, b⟩ → emptyRing g s =
      { u with
        router := { s.router with hand := none }
        visits := { s.visits with
          waiting := s.visits.waiting.filter fun p => p.source = .host } }))

/-- CLEAR_TABLE with no sticky fault is refused IN_USE over a visit (TENANT) or a unit entry not ARMED or
UNKNOWN (UNIT), and otherwise the store enters CLEARING at block 0 and the reply waits. A block that
completes is emptied. On a failure every record in it is damaged, CLEAR_FAULT is set, its record takes the
table and the block when the flag was clear, and the count of failed erases rises by one, to 255 at most.
Its check values leave the digest. Key by key for each table: a damaged CREDENTIAL slot keeps its value as
its key; a SITE block has no digest, and which items it holds is log 33 (the model's choice). The entries of
the units in a UNIT block become absent, as a committed DROP_UNIT makes them, by rising number (log 45, the
model's choice). Before block 15 the next block begins; after it the store is READY, the owners of SITE
items are told when SITE was cleared, in the order of log 26 (the model's choice), and the reply is OK, or
STORE_FAULT when any block failed. A completion outside CLEARING, so also of a suspended clear (R35),
changes nothing; that it may be sent then is the model's choice (log 2). -/
def Obligations.ClearsGoBlockByBlock : Prop :=
  (∀ (s : State) (f : Frame) (t : TableName), s.inHand f → f.kind = 0x20 →
      parseTable f.body = .ok t → s.store.lookups = [] → s.store.results = [] → s.store.faulted = false →
      s.site.mode ≠ .starting → (t = .site → s.site.mode = .setup) →
      let inUse : Prop := (t = .tenant ∧ s.visits.table ≠ []) ∨
        (t = .unit ∧ ∃ e ∈ s.units.entries, e.2.state ≠ .armed ∧ e.2.state ≠ .unknown)
      (inUse → exec .clearTable s = .next (s.answered f .inUse [])) ∧
      (¬inUse → exec .clearTable s = .next ({ s.kept f with store :=
        { s.store with state := .clearing, clear := some ⟨t, 0, false⟩ } }))) ∧
    (∀ (s : State) (t : TableName) (b : Nat) (failed ok : Bool), s.store.state = .clearing →
      let items : List SiteItem :=
        [.params] ++ (List.range 8).map .cls ++ (List.range 15).map (fun i => .window (i + 1)) ++
          (List.range 8).map .portal ++ (List.range 4).map .car ++
          [.segment .a, .segment .b, .segment .c] ++ (List.range 12).map .line ++
          [Seg.a, Seg.b, Seg.c].flatMap fun g => (List.range 62).map fun i => .node g (i + 1)
      s.store.clear = some ⟨t, b, failed⟩ →
      let erased := eraseStore t b ok s.store
      let st : Store := if ok = true then erased
        else
          { erased with
            clearFault := true
            clearFaultRec := if s.store.clearFault = true then s.store.clearFaultRec else some (t, b)
            failedErases := min 255 (s.store.failedErases + 1) }
      let units := if t = .unit then
          (s.store.units.filter fun e => e.1 / 256 == b).map Prod.fst else []
      let u := units.foldl (fun s n => tellMirror (.unit n none) true s) { s with store := st }
      let done := toSite .storeReady { u with store := { st with state := .ready, clear := none } }
      let told := if t = .site then items.foldl applyItem done else done
      (b < 15 → exec (.blockEraseCompletion ok) s =
        .next { u with store := { st with clear := some ⟨t, b + 1, failed || !ok⟩ } }) ∧
      (∀ f : Frame, 15 ≤ b → s.host.serving = some ⟨f, .working⟩ →
        exec (.blockEraseCompletion ok) s =
          .next (told.answered f (if (failed || !ok) = true then .storeFault else .ok) []) ∧
        told.store = { st with state := .ready, clear := none })) ∧
    (∀ (s : State) (ok : Bool), s.store.state ≠ .clearing →
      exec (.blockEraseCompletion ok) s = .next s) ∧
    (∀ (b : Nat) (ok : Bool) (st : Store), Table.sorted st.tenants →
      let u := eraseStore .tenant b ok st
      u = { st with tenants := u.tenants, digestT := u.digestT } ∧
        (∀ id, u.tenants.find id =
          if (id - 1) / 128 = b then
            if ok then none else (st.tenants.find id).map fun _ => .damaged
          else st.tenants.find id) ∧
        (st.digestT = digestOf Slot.digest st.tenants →
          u.digestT = digestOf Slot.digest (st.tenants.filter fun e => (e.1 - 1) / 128 != b))) ∧
    (∀ (b : Nat) (ok : Bool) (st : Store), Table.sorted st.units →
      let u := eraseStore .unit b ok st
      u = { st with units := u.units, digestU := u.digestU } ∧
        (∀ n, u.units.find n =
          if n / 256 = b then if ok then none else (st.units.find n).map fun _ => .damaged
          else st.units.find n) ∧
        (st.digestU = digestOf Slot.digest st.units →
          u.digestU = digestOf Slot.digest (st.units.filter fun e => e.1 / 256 != b))) ∧
    (∀ (b : Nat) (ok : Bool) (st : Store), Table.sorted st.creds →
      let u := eraseStore .credential b ok st
      u = { st with creds := u.creds, digestC := u.digestC } ∧
        (∀ n, u.creds.find n =
          if n / 256 = b then
            if ok then none else (st.creds.find n).map fun
              | .present v _ _ => .damaged v
              | .damaged v => .damaged v
              | .keyless => .keyless
          else st.creds.find n) ∧
        (st.digestC = digestOf CredSlot.digest st.creds →
          u.digestC = digestOf CredSlot.digest (st.creds.filter fun e => e.1 / 256 != b))) ∧
    (∀ (b : Nat) (ok : Bool) (st : Store), Table.sorted st.site →
      let u := eraseStore .site b ok st
      u = { st with site := u.site } ∧
        ∀ n, u.site.find n =
          if n / 64 = b then if ok then none else (st.site.find n).map fun _ => .damaged
          else st.site.find n)

/-- When the scan ends the store is READY; a record that decayed or whose check value is wrong is damaged,
every other slot stands, and the digests are those of the tables. Which slots decay is the command's
operand, and a decayed CREDENTIAL slot keeps the value it held (the model's choices, log 9); a slot of a
value that a lower slot holds becomes keyless. The working copies, portals, cars, lines and segments take
their items; every present unit record has an UNKNOWN entry; and the mode is RUN when the marker is VALID,
otherwise SETUP, with the fire check still PENDING. With no line settled, as every start leaves them, every
portal stands in FAULT with its inputs UNKNOWN, every line takes up its function unsettled, and a
STORE_DAMAGE notice for each table with newly damaged slots, TENANT, UNIT, CREDENTIAL, SITE, comes before
the MODE notice. Outside the scan it changes nothing (log 2). A segment comes up ACTIVE with its poll timer
running, or OFF, as its settings have it, with counts 0, nothing queued, in flight or in its ring and its
line idle (log 24), and with the enrolled nodes of its table, each QUIET or UNREACHABLE and unheard. The
settled report is owed while a line with an input function is unsettled, and with no such line it goes to
Site Control at once with the fire input. The Line Block is sent beacon on alarms as the store holds it, and
then the clear EVACUATE flag of the mode; its beacon and fire input stand. That a keyless slot stays keyless
is the model's choice (log 52), and so is the last received sequence 0 of a node (log 53). -/
def Obligations.TheScanFindsDamageAndStartsTheSite : Prop :=
  ∀ (decayed : List SlotRef) (s : State),
    (s.store.state ≠ .scanning → exec (.scanEnd decayed) s = .next s) ∧
    (s.store.state = .scanning → ∃ t : State, exec (.scanEnd decayed) s = .next t ∧
      let mode : Mode := if t.store.markerValid then .run else .setup
      t.store = s.store.scanned decayed ∧ t.store.state = .ready ∧ t.store.digestsAgree ∧
      (∀ k, t.store.tenants.find k = (s.store.tenants.find k).map fun x =>
        match x with
        | .present r c =>
          if decayed.contains (.tenant k) || c != tenantCheck k r then .damaged else .present r c
        | .damaged => .damaged) ∧
      (∀ k, t.store.units.find k = (s.store.units.find k).map fun x =>
        match x with
        | .present r c =>
          if decayed.contains (.unit k) || c != unitCheck k r then .damaged else .present r c
        | .damaged => .damaged) ∧
      (∀ k, t.store.site.find k = (s.store.site.find k).map fun x =>
        match x with
        | .present v c =>
          if decayed.contains (.site (k / 64) (k % 64)) || c != siteCheck k v then .damaged
          else .present v c
        | .damaged => .damaged) ∧
      (Table.sorted s.store.creds → ∀ k,
        let old := s.store.creds.find k
        let new := t.store.creds.find k
        let met (v : Word32) : Prop :=
          ∃ j d, j < k ∧ s.store.creds.find j = some d ∧ d.holds v = true
        (old = none → new = none) ∧ (old = some .keyless → new = some .keyless) ∧
        (∀ v, old = some (.damaged v) →
          (met v → new = some .keyless) ∧ (¬met v → new = some (.damaged v))) ∧
        (∀ v id c, old = some (.present v id c) →
          let fails := SlotRef.credential k ∈ decayed ∨ c ≠ credCheck v id
          (met v → new = some .keyless) ∧ (¬met v → fails → new = some (.damaged v)) ∧
          (¬met v → ¬fails → new = old))) ∧
      t.site.mode = mode ∧
      t.site.fireCheckDone = s.site.fireCheckDone ∧ t.site.params = t.store.params ∧
      t.site.classes = (List.range 8).map t.store.cls ∧
      t.site.windows = (List.range 15).map (fun n => t.store.window (n + 1)) ∧
      t.units.entries = t.store.presentUnits.map (fun e =>
        (e.1, ⟨e.2, .unknown, .unknown, .unknown, false, none, 0⟩)) ∧
      (∀ c, c < 4 → ∃ x, t.car c = some x ∧ x.record = t.store.car c ∧ x.state = .out ∧
        x.cause = some .node) ∧
      (∀ g,
        let x := t.store.segment g
        t.seg g = { Segment.blank with
          settings := x, rateInUse := x.val.lineRate, pollTimer := x.val.enabled
          state := if x.val.enabled = true then .active else .off
          nodes := (t.seg g).nodes } ∧
        ∀ n, t.node g n =
          if 1 ≤ n ∧ n ≤ 62 then (t.store.nodeEntry g n).val.map fun e =>
            ⟨e, if x.val.enabled = true then .quiet else .unreachable, 0, 0, false, 0, [], false, false⟩
          else none) ∧
      ((∀ l ∈ s.lines.list, l.debounced = none) →
        t.portals.list = (List.range 8).map (fun p =>
          ⟨t.store.portal p, .fault, none, 0, .unknown, .unknown, false, none, none, false⟩) ∧
        (∀ (n : Nat) (l : Line), n < 12 → s.line n = some l →
          let new := t.store.line n
          let input := new.val.func.isInput
          t.line n = some { l with
            record := new, debounced := none
            timer := if input = true then some t.site.params.val.debounce else none
            settleTimer := input
            pullApplied := input && new.val.pullUp
            drive := match new.val.func with
              | .generalOut => if l.output = true then .active else .other
              | .strike _ => .other
              | .beacon => if s.lines.beacon = .steady ∨ s.lines.beacon = .flashing true then .active
                else .other
              | _ => .none }) ∧
        (let waits := ∃ l ∈ t.lines.list, l.record.val.func.isInput = true ∧ l.debounced = none
         t.lines = { s.lines with
           list := t.lines.list, settledOwed := t.lines.settledOwed
           reports := s.lines.reports ++
             [.onAlarms t.site.params.val.beaconOnAlarms, .evacuate false] } ∧
         t.site.reports = s.site.reports ++ [.storeReady] ∧
         (waits → t.lines.settledOwed = true ∧ t.site.fireReports = s.site.fireReports) ∧
         (¬waits → t.lines.settledOwed = false ∧
           t.site.fireReports = s.site.fireReports ++ [.settled s.lines.fireInput])) ∧
        (s.host.notices.length + 5 ≤ Config.maxNotices →
          let hurt : ∀ {α : Type}, Table (Slot α) → Nat := fun x =>
            (x.filter fun e => match e.2 with
              | .damaged => true
              | .present _ _ => false).length
          let hurtCreds (x : Table CredSlot) : Nat := (x.filter fun e => match e.2 with
            | .present _ _ _ => false
            | _ => true).length
          let note (n : TableName) (before after : Nat) : List NoticeRecord :=
            if before < after then [⟨s.site.seconds, .storeDamage n (after - before) after⟩] else []
          t.host.notices = s.host.notices ++
            note .tenant (hurt s.store.tenants) (hurt t.store.tenants) ++
            note .unit (hurt s.store.units) (hurt t.store.units) ++
            note .credential (hurtCreds s.store.creds) (hurtCreds t.store.creds) ++
            note .site (hurt s.store.site) (hurt t.store.site) ++
            [⟨s.site.seconds, .mode s.site.mode mode none .start⟩])))

/-! ## Visits and decisions (R43 to R69) -/

/-- A closed visit leaves the table, the others keep their order. In ADMITTED or EXITING the Portal
Controller is told to drop it at its portal; a present call is withdrawn; the Unit Door Controller learns of
the closure and whether the tenant has a visit left; a VISIT_CLOSED notice is put. The notice of the reason
RESTARTED is left out: a start empties the table, and no command closes a visit for it. CLOSE_VISIT gives
BAD_FORMAT, BAD_VALUE for number 0, WRONG_MODE in STARTING, NOT_FOUND for a number no visit holds, and
otherwise closes the visit HOST_CLOSED and answers OK. -/
def Obligations.AClosureLeavesTheTable : Prop :=
  (∀ (v : Visit) (why : CloseReason) (s : State),
    let t := closeVisit v why s
    let left := s.visits.table.filter fun w => w.number != v.number
    t.visits = { s.visits with table := left } ∧
    t.portals = { s.portals with orders := s.portals.orders ++
      (if v.stage = .admitted then [.drop v.entryPortal v.number]
       else if v.stage = .exiting then v.exitPortal.toList.map fun p => .drop p v.number
       else []) } ∧
    t.lifts = { s.lifts with withdrawals :=
      s.lifts.withdrawals ++ if v.call = none then [] else [v.number] } ∧
    t.units = { s.units with orders := s.units.orders ++
      [.closure v.tenant (decide (∃ w ∈ left, w.tenant = v.tenant))] } ∧
    (why ≠ .restarted → s.host.notices.length < Config.maxNotices → t.host.notices = s.host.notices ++
      [⟨s.site.seconds, .visitClosed v.number v.tenant why v.overstayed v.openedCount
        (min 65535 (s.site.seconds - v.admittedAt))⟩])) ∧
  (∀ (s : State) (f : Frame), s.inHand f → f.kind = 0x32 →
    (f.body.length ≠ 2 → exec .closeVisit s = .next (s.answered f .badFormat [])) ∧
    (∀ a b : Byte, f.body = [a, b] →
      let n := 256 * a.toNat + b.toNat
      (n = 0 → exec .closeVisit s = .next (s.answered f .badValue [])) ∧
      (n ≠ 0 → s.site.mode = .starting → exec .closeVisit s = .next (s.answered f .wrongMode [])) ∧
      (n ≠ 0 → s.site.mode ≠ .starting →
        (s.visit n = none → exec .closeVisit s = .next (s.answered f .notFound [])) ∧
        (∀ v : Visit, s.visit n = some v →
          exec .closeVisit s = .next ((closeVisit v .hostClosed s).answered f .ok [])))))

/-- A passage takes an ADMITTED visit of that portal to ON_SITE, or OVERSTAY when overstayed, last seen at
the portal, and closes an EXITING visit of that portal with EXITED. No passage closes an ADMITTED one with
NO_ENTRY and returns an EXITING one to its return stage. Any other report is taken and ignored. -/
def Obligations.PortalReportsMoveTheVisit : Prop :=
  ∀ (s : State) (p n : Nat) (rest : List PortalReport),
    let u := { s with visits := { s.visits with portalReports := rest } }
    let admitted (v : Visit) : Prop := v.stage = .admitted ∧ v.entryPortal = p
    let exiting (v : Visit) : Prop := v.stage = .exiting ∧ v.exitPortal = some p
    (s.visits.portalReports = .passage p n :: rest →
      (∀ v, s.visit n = some v → admitted v → exec .passageReport s = .next (u.modVisit n fun w =>
        { w with
          stage := if w.overstayed = true then .overstay else .onSite
          lastSeen := ⟨.portal, p, s.site.seconds⟩ })) ∧
      (∀ v, s.visit n = some v → exiting v → exec .passageReport s = .next (closeVisit v .exited u)) ∧
      ((∀ v, s.visit n = some v → ¬admitted v ∧ ¬exiting v) → exec .passageReport s = .next u)) ∧
    (s.visits.portalReports = .noPassage p n :: rest →
      (∀ v, s.visit n = some v → admitted v →
        exec .noPassageReport s = .next (closeVisit v .noEntry u)) ∧
      (∀ v, s.visit n = some v → exiting v → ∀ r, v.returnStage = some r →
        exec .noPassageReport s = .next (u.modVisit n fun w =>
          { w with stage := w.returnStage.getD .onSite, returnStage := none, exitPortal := none })) ∧
      ((∀ v, s.visit n = some v → ¬admitted v ∧ ¬exiting v) → exec .noPassageReport s = .next u))

/-- A deadline that site seconds have reached marks a visit not yet overstayed, moves its stage or return
stage by the table of R48 and puts one OVERSTAY notice; otherwise nothing changes (that an expiry may come
before its moment or with no deadline set, and then does nothing, is the model's choice, assumption logs 7
and 2). A call report changes the call field, and a completion last seen, of the visit of its call id, and
is ignored when there is none or its call is absent. An opening is credited to the tenant's youngest visit:
the unit joins a list of fewer than 8 once, the count rises to 255, last seen is the unit. An evacuation
takes every visit to EVACUATED. -/
def Obligations.ReportsAndDeadlinesMarkTheVisit : Prop :=
  ∀ s : State,
    (∀ (n : Nat) (v : Visit), s.visit n = some v →
      (∀ d, v.dwellDeadline = some d → d ≤ s.site.seconds → v.overstayed = false →
        exec (.dwellDeadline n) s = .next (putNotice (.overstay n v.tenant v.stage v.lastSeen)
          (s.modVisit n fun w =>
            { w with
              overstayed := true
              stage := if w.stage = .onSite then .overstay else w.stage
              returnStage := if w.stage = .exiting then some .overstay else w.returnStage }))) ∧
      ((∀ d, v.dwellDeadline = some d → s.site.seconds < d ∨ v.overstayed = true) →
        exec (.dwellDeadline n) s = .next s)) ∧
    (∀ (r : CallReport) (rest : List CallReport), s.visits.callReports = r :: rest →
      let u := { s with visits := { s.visits with callReports := rest } }
      let n := match r with
        | .boarded n _ | .replaced n _ | .completed n _ | .expired n | .cancelled n _ => n
      let call : Option CallRef := match r with
        | .boarded _ c => some ⟨c, true⟩
        | .replaced _ c => some ⟨c, false⟩
        | _ => none
      let seen (old : LastSeen) : LastSeen := match r with
        | .completed _ g => ⟨.landing, g, s.site.seconds⟩
        | _ => old
      (∀ v, s.visit n = some v → v.call ≠ none → exec .callReport s =
        .next (u.modVisit n fun w => { w with call := call, lastSeen := seen w.lastSeen })) ∧
      ((∀ v, s.visit n = some v → v.call = none) → exec .callReport s = .next u)) ∧
    (∀ (unit id : Nat) (rest : List (Nat × Nat)), s.visits.openedReports = (unit, id) :: rest →
      let u := { s with visits := { s.visits with openedReports := rest } }
      (∀ (older : List Visit) (v : Visit), s.visitsOf id = older ++ [v] → exec .unitOpenedReport s =
        .next (u.modVisit v.number fun w =>
          { w with
            unitsOpened := if unit ∉ w.unitsOpened ∧ w.unitsOpened.length < 8 then w.unitsOpened ++ [unit]
              else w.unitsOpened
            openedCount := min 255 (w.openedCount + 1)
            lastSeen := ⟨.unit, unit, s.site.seconds⟩ })) ∧
      (s.visitsOf id = [] → exec .unitOpenedReport s = .next u)) ∧
    (∀ rest : List EvacOrder, s.visits.orders = .begin_ :: rest →
      exec .evacuationBeginVisits s = .next { s with visits :=
        { s.visits with
          orders := rest
          table := s.visits.table.map fun v =>
            { v with stage := .evacuated, exitPortal := none, returnStage := none } } })

/-- A presentation taken, and again its lookup result, is refused EVACUATION in EVACUATE, HELD in another
mode than RUN, PORTAL_FAULT or PORTAL_BUSY by the portal's state; otherwise the taken one asks the
credential lookup. After the lookup the result, the class, the status, the window, the passback, the shared
limit and the room in the table refuse in this order; a lenient passback first closes the conflicting
visits, in the order of the table, the oldest first. A grant creates the visit with the first number from
the counter on, 1 following 65535, that no visit holds, orders the disarm, and the opening of a portal not
FREE. The model's choices: the unit orders of a lenient closure are taken before the decision goes on (log
5), no tenant id goes with RECORD_DAMAGED of the lookup (log 20), and a lookup answered WRONG_MODE is
refused HELD (log 39). The unit orders so taken are those on their way, each taken as its command takes it,
and none is left. With two visits closed, both VISIT_CLOSED notices stand before the UNIT_LEFT_OPEN notices
of either (log 49). -/
def Obligations.AdmissionsAreCheckedInOrder : Prop :=
  (∀ (s : State) (p : Presentation) (gate : Nat), p.asked = .admission gate →
    let busy := s.portalState gate = .opening ∨ s.portalState gate = .passage ∨
      s.portalState gate = .heldOpen ∨ s.portalState gate = .forced
    let barred (ends : Reason → Prop) : Prop :=
      (s.site.mode = .evacuate → ends .evacuation) ∧
      (s.site.mode ≠ .evacuate → s.site.mode ≠ .run → ends .held) ∧
      (s.site.mode = .run → s.portalState gate = .fault → ends .portalFault) ∧
      (s.site.mode = .run → busy → ends .portalBusy)
    let passes := s.site.mode = .run ∧ (s.portalState gate = .secure ∨ s.portalState gate = .free)
    (∀ rest, s.visits.decision = none → s.visits.waiting = p :: rest →
      let u := takeWaiting p rest s
      barred (fun why => exec .admissionDecision s = .next (refuseAdmission p why none u)) ∧
      (passes → exec .admissionDecision s = .next (askLookup (.credential p.value)
        { u with visits := { u.visits with decision := some ⟨p, .credential⟩ } }))) ∧
    (∀ r rest, s.visits.decision = some ⟨p, .credential⟩ → s.store.results = r :: rest →
      let u := { s with store := { s.store with results := rest } }
      let ends (why : Reason) (tenant : Option Nat) : Prop :=
        exec .admissionLookupResult s = .next (refuseAdmission p why tenant u)
      barred (fun why => ends why (match r with | .found id _ => some id | _ => none)) ∧
      (passes → (r = .recordDamaged → ends .recordDamaged none) ∧
        (r = .unknownCredential → ends .unknownCredential none) ∧
        (r = .wrongMode → ends .held none) ∧
        (∀ id t, r = .found id t →
          let c := s.cls t.cls
          let window := s.window (if t.status = .current then c.val.window else c.val.restrictedWindow)
          (c.damaged = true → ends .recordDamaged (some id)) ∧
          (c.damaged = false → t.status = .barred → ends .barred (some id)) ∧
          (c.damaged = false → t.status ≠ .barred →
            (window = .recordDamaged → ends .recordDamaged (some id)) ∧
            (window = .clockUnset → ends .clockUnset (some id)) ∧
            (window = .outside → ends .outsideWindow (some id)) ∧
            (window = .inside →
              let conflicts := s.visits.table.filter fun v =>
                v.value = p.value ∨ (t.shared = false ∧ v.tenant = id)
              (conflicts ≠ [] → c.val.passback = .strict → ends .passback (some id)) ∧
              (conflicts = [] ∨ c.val.passback = .lenient →
                let w := if conflicts = [] then u else
                    deliverUnitOrders (conflicts.foldl (fun t v => closeVisit v .superseded t) u)
                let full := t.shared = true ∧ 8 ≤ (w.visitsOf id).length
                (full → exec .admissionLookupResult s =
                  .next (refuseAdmission p .sharedLimit (some id) w)) ∧
                (¬full → 96 ≤ w.visits.table.length → exec .admissionLookupResult s =
                  .next (refuseAdmission p .siteFull (some id) w)) ∧
                (¬full → w.visits.table.length < 96 → exec .admissionLookupResult s =
                  .next (grantAdmission p id c.val w))))))))) ∧
  (∀ (s : State) (p : Presentation) (gate id : Nat) (c : AccessClass), p.asked = .admission gate →
    let t := grantAdmission p id c s
    let n := freeNumber s.visits.table 97 s.visits.counter
    let isFree := s.portalState gate = .free
    t.visits.table = s.visits.table ++
      [{ number := n, tenant := id, value := p.value, entryPortal := gate, admittedAt := s.site.seconds
         stage := if isFree then .onSite else .admitted
         dwellDeadline := if c.dwellLimit = 0 then none else some (s.site.seconds + 60 * c.dwellLimit)
         overstayed := false, returnStage := none, exitPortal := none, call := none, unitsOpened := []
         openedCount := 0, lastSeen := ⟨.portal, gate, s.site.seconds⟩ }] ∧
    t.visits.counter = (if n < 65535 then n + 1 else 1) ∧
    t.visits.decision = none ∧
    t.units.orders = s.units.orders ++ [.disarm id] ∧
    t.portals.orders = s.portals.orders ++ if isFree then [] else [.open_ gate (some n)]) ∧
  (∀ (table : List Visit) (c : Nat), table.length ≤ 96 → 1 ≤ c → c ≤ 65535 →
    let offer (j : Nat) : Nat := (c - 1 + j) % 65535 + 1
    let n := freeNumber table 97 c
    (∀ v ∈ table, v.number ≠ n) ∧
      ∃ k, k ≤ 96 ∧ n = offer k ∧ ∀ j, j < k → ∃ v ∈ table, v.number = offer j) ∧
  (∀ s : State,
    deliverUnitOrders s = s.units.orders.foldl (fun t o => match o with
      | .disarm id => disarmTenant id t
      | .closure id left => closeTenant id left t) { s with units := { s.units with orders := [] } } ∧
    (∀ id rest, s.units.orders = .disarm id :: rest →
      exec .disarmOrder s = .next (disarmTenant id { s with units := { s.units with orders := rest } })) ∧
    (∀ id left rest, s.units.orders = .closure id left :: rest →
      exec .closureOrder s =
        .next (closeTenant id left { s with units := { s.units with orders := rest } })))

/-- A refusal changes no visit; a grant puts the new visit at the end of the table, moves the counter on,
orders the disarm and, at a portal not FREE, the opening. Either ends the decision with an ADMISSION notice;
a reader's, granted or refused, with SHOW in its segment queue and the release of the router's record, which
leaves its ring when it still stands there, the position moving on to the next ring; an ADMIT's with the
reply of its outcome. ADMIT gives BAD_FORMAT, BAD_VALUE for a portal above 7, WRONG_MODE in STARTING and
NOT_FOUND for a portal not present; otherwise its presentation waits for the Visit Engine behind those that
wait. The layout of the reply is the model's choice (log 17). The number of a new visit is the first from
the counter on, 1 following 65535, that no visit holds. -/
def Obligations.AdmissionsEndWithANoticeAndAnAnswer : Prop :=
  (∀ (s : State) (p : Presentation) (why : Reason) (tenant : Option Nat) (gate : Nat),
    p.asked = .admission gate →
    let t := refuseAdmission p why tenant s
    t.visits = { s.visits with decision := none } ∧
    (∀ g n, p.source = .reader g n →
      t = releaseRouter (clearDecision (putNotice (.admission p.value gate false (some why) tenant none)
        (submit g n (.show (.denied why)) .normal .show s)))) ∧
    (∀ f, p.source = .host → s.host.serving = some ⟨f, .working⟩ →
      t = clearDecision ((putNotice (.admission p.value gate true (some why) tenant none) s).answered f .ok
        (u8 why.code ++ [0, 0] ++ idOr tenant)))) ∧
  (∀ (s : State) (p : Presentation) (gate id : Nat) (c : AccessClass), p.asked = .admission gate →
    let n := freeNumber s.visits.table 97 s.visits.counter
    let isFree := s.portalState gate = .free
    let v : Visit :=
      { number := n, tenant := id, value := p.value, entryPortal := gate, admittedAt := s.site.seconds
        stage := if isFree then .onSite else .admitted
        dwellDeadline := if c.dwellLimit = 0 then none else some (s.site.seconds + 60 * c.dwellLimit)
        overstayed := false, returnStage := none, exitPortal := none, call := none, unitsOpened := []
        openedCount := 0, lastSeen := ⟨.portal, gate, s.site.seconds⟩ }
    let created : State := { s with
      visits := { s.visits with
        table := s.visits.table ++ [v], counter := if n < 65535 then n + 1 else 1 }
      units := { s.units with orders := s.units.orders ++ [.disarm id] }
      portals := { s.portals with
        orders := s.portals.orders ++ if isFree then [] else [.open_ gate (some n)] } }
    (∀ g m, p.source = .reader g m → grantAdmission p id c s = releaseRouter (clearDecision
      (putNotice (.admission p.value gate false none (some id) (some n))
        (submit g m (.show .granted) .normal .show created)))) ∧
    (∀ f, p.source = .host → s.host.serving = some ⟨f, .working⟩ →
      grantAdmission p id c s = clearDecision
        ((putNotice (.admission p.value gate true none (some id) (some n)) created).answered f .ok
          (u8 0 ++ u16 n ++ u16 id)))) ∧
  (∀ s : State,
    clearDecision s = { s with visits := { s.visits with decision := none } } ∧
    (s.router.hand = none → releaseRouter s = s) ∧
    (∀ h, s.router.hand = some h →
      let freed := s.modSeg h.seg fun x => { x with ring := x.ring.drop 1 }
      (h.inRing = true → releaseRouter s = { freed with router := ⟨nextSeg h.seg, none⟩ }) ∧
      (h.inRing = false → releaseRouter s = { s with router := ⟨nextSeg h.seg, none⟩ }))) ∧
  (∀ (s : State) (f : Frame), s.inHand f → f.kind = 0x33 →
    (f.body.length ≠ 5 → exec .hostAdmit s = .next (s.answered f .badFormat [])) ∧
    (∀ q a b c d : Byte, f.body = [q, a, b, c, d] →
      (7 < q.toNat → exec .hostAdmit s = .next (s.answered f .badValue [])) ∧
      (q.toNat ≤ 7 → s.site.mode = .starting → exec .hostAdmit s = .next (s.answered f .wrongMode [])) ∧
      (q.toNat ≤ 7 → s.site.mode ≠ .starting → ∀ gate : Portal, s.portal q.toNat = some gate →
        (gate.record.val.present = false → exec .hostAdmit s = .next (s.answered f .notFound [])) ∧
        (gate.record.val.present = true → exec .hostAdmit s = .next
          { s.kept f with visits := { s.visits with waiting := s.visits.waiting ++
            [⟨.admission q.toNat, .host, a ++ b ++ c ++ d⟩] } })))) ∧
  (∀ (table : List Visit) (c : Nat), table.length ≤ 96 → 1 ≤ c → c ≤ 65535 →
    let offer (j : Nat) : Nat := (c - 1 + j) % 65535 + 1
    let n := freeNumber table 97 c
    (∀ v ∈ table, v.number ≠ n) ∧
      ∃ k, k ≤ 96 ∧ n = offer k ∧ ∀ j, j < k → ∃ v ∈ table, v.number = offer j)

/-- An exit taken, and again its lookup result, shows GRANTED in EVACUATE, DENIED PORTAL_FAULT at a portal
in FAULT, WAIT at one OPENING, PASSAGE, HELD_OPEN or FORCED, and changes no visit. Otherwise a visit holding
the value is taken, else the credential lookup is asked and its not shared tenant's visit taken. On site
with the portal SECURE the visit goes to EXITING and the portal is ordered open for it; at a FREE portal it
is closed EXITED; another stage or no visit opens a SECURE portal for nobody with an EXIT_WITHOUT_VISIT
notice. SHOW GRANTED ends it. A presentation taken leaves the queue, and a reader's record is then in the
hands of the Visit Engine. An answer goes to the reader as a SHOW at NORMAL, the decision is cleared and the
router's record released. -/
def Obligations.ExitsAreMatched : Prop :=
  (∀ (s : State) (p : Presentation) (gate : Nat), p.asked = .exit gate →
    let barred (ends : Show → Prop) : Prop :=
      (s.site.mode = .evacuate → ends .granted) ∧
      (s.site.mode ≠ .evacuate → s.portalState gate = .fault → ends (.denied .portalFault)) ∧
      (s.site.mode ≠ .evacuate → (s.portalState gate = .opening ∨ s.portalState gate = .passage ∨
        s.portalState gate = .heldOpen ∨ s.portalState gate = .forced) → ends .wait)
    let passes := s.site.mode ≠ .evacuate ∧ (s.portalState gate = .secure ∨ s.portalState gate = .free)
    (∀ rest, s.visits.decision = none → s.visits.waiting = p :: rest →
      let u := takeWaiting p rest s
      barred (fun o => exec .exitDecision s = .next (endExit p o u)) ∧
      (passes →
        (∀ v, s.visits.table.find? (fun v => v.value == p.value) = some v →
          exec .exitDecision s = .next (endExit p .granted (exitMatched p (some v) none u))) ∧
        ((∀ v ∈ s.visits.table, v.value ≠ p.value) →
          exec .exitDecision s = .next (askLookup (.credential p.value)
            { u with visits := { u.visits with decision := some ⟨p, .credential⟩ } })))) ∧
    (∀ r rest, s.visits.decision = some ⟨p, .credential⟩ → s.store.results = r :: rest →
      let u := { s with store := { s.store with results := rest } }
      let ends (v : Option Visit) (tenant : Option Nat) : Prop :=
        exec .exitLookupResult s = .next (endExit p .granted (exitMatched p v tenant u))
      barred (fun o => exec .exitLookupResult s = .next (endExit p o u)) ∧
      (passes → (r = .recordDamaged ∨ r = .unknownCredential → ends none none) ∧
        (∀ id t, r = .found id t → t.shared = true → ends none (some id)) ∧
        (∀ id t, r = .found id t → t.shared = false → ends ((s.visitsOf id).head?) (some id))))) ∧
  (∀ (s : State) (p : Presentation) (gate : Nat) (tenant : Option Nat), p.asked = .exit gate →
    let opened (n : Option Nat) (s : State) : State :=
      if s.portalState gate = .secure then toPortals (.open_ gate n) s else s
    let without := putNotice (.exitWithoutVisit gate p.value tenant) (opened none s)
    exitMatched p none tenant s = without ∧
    (∀ v : Visit, v.stage ≠ .onSite → v.stage ≠ .overstay → exitMatched p (some v) tenant s = without) ∧
    (∀ v : Visit, v.stage = .onSite ∨ v.stage = .overstay →
      (s.portalState gate = .secure → exitMatched p (some v) tenant s =
        toPortals (.open_ gate (some v.number)) (s.modVisit v.number fun w =>
          { w with
            stage := .exiting, returnStage := some w.stage, exitPortal := some gate
            lastSeen := ⟨.portal, gate, s.site.seconds⟩ })) ∧
      (s.portalState gate = .free → exitMatched p (some v) tenant s = closeVisit v .exited s))) ∧
  (∀ (s : State) (p : Presentation) (o : Show) (rest : List Presentation),
    let taken : State := { s with visits := { s.visits with waiting := rest } }
    (∀ g n, p.source = .reader g n →
      endExit p o s = releaseRouter (clearDecision (submit g n (.show o) .normal .show s)) ∧
      takeWaiting p rest s = { taken with router :=
        { s.router with hand := s.router.hand.map fun h => { h with taken := true } } }) ∧
    (p.source = .host → endExit p o s = clearDecision s ∧ takeWaiting p rest s = taken))

/-- EVACUATE shows EVACUATION and another mode than RUN LIFTS_HELD, when the credential is taken and when
each lookup result is. The visit holding the value is taken, else the not shared tenant's of the lookup;
none shows NO_VISIT. Last seen becomes the landing; then the stage, an absent destination and the same floor
refuse, and the tenant lookup is asked. A floor not permitted shows FLOOR_DENIED, a boarded call
CALL_ACTIVE. The hand-over makes a queued call absent and withdraws it; the withdrawals on their way are
taken, a call still held under the visit's number leaves, the new call of that number, expiring the call
wait limit from now, is placed, and the call reports sent meanwhile are taken before the answer, which sets
the call and shows the car or the refusal. That these messages are taken within the step, in the order R60
and R122 give, is the model's choice, assumption log 5. A refusal goes to the reader as SHOW DENIED at
NORMAL, with its reason, and ends the decision and the router's hold. -/
def Obligations.LiftCallsAreTakenIn : Prop :=
  (∀ (s : State) (p : Presentation) (f : Nat) (dest : Option Nat), p.asked = .landing f dest →
    let barred (c : Instr) (u : State) : Prop :=
      (s.site.mode = .evacuate → exec c s = .next (denyCall p .evacuation u)) ∧
      (s.site.mode ≠ .evacuate → s.site.mode ≠ .run → exec c s = .next (denyCall p .liftsHeld u))
    let finds (c : Instr) (u : State) (v : Visit) : Prop :=
      let w := u.modVisit v.number fun x => { x with lastSeen := ⟨.landing, f, s.site.seconds⟩ }
      let onSite := v.stage = .onSite ∨ v.stage = .overstay
      (¬onSite → exec c s = .next (denyCall p .notOnSite w)) ∧
      (onSite → dest = none → exec c s = .next (denyCall p .noDestination w)) ∧
      (onSite → dest = some f → exec c s = .next (denyCall p .sameFloor w)) ∧
      (onSite → ∀ d, dest = some d → d ≠ f → exec c s = .next (askLookup (.tenant v.tenant)
        { w with visits := { w.visits with decision := some ⟨p, .tenant v.number⟩ } }))
    (∀ rest, s.visits.decision = none → s.visits.waiting = p :: rest →
      let u := takeWaiting p rest s
      barred .liftCallIntake u ∧
      (s.site.mode = .run →
        (∀ v, s.visits.table.find? (fun v => v.value == p.value) = some v → finds .liftCallIntake u v) ∧
        ((∀ v ∈ s.visits.table, v.value ≠ p.value) →
          exec .liftCallIntake s = .next (askLookup (.credential p.value)
            { u with visits := { u.visits with decision := some ⟨p, .credential⟩ } })))) ∧
    (∀ r rest, s.visits.decision = some ⟨p, .credential⟩ → s.store.results = r :: rest →
      let u := { s with store := { s.store with results := rest } }
      barred .liftCallLookupResult u ∧
      (s.site.mode = .run →
        (∀ id t v, r = .found id t → t.shared = false → (s.visitsOf id).head? = some v →
          finds .liftCallLookupResult u v) ∧
        ((∀ id t, r = .found id t → t.shared = true ∨ s.visitsOf id = []) →
          exec .liftCallLookupResult s = .next (denyCall p .noVisit u)))) ∧
    (∀ r rest n, s.visits.decision = some ⟨p, .tenant n⟩ → s.store.results = r :: rest →
      let u := { s with store := { s.store with results := rest } }
      barred .liftCallTenantResult u ∧
      (s.site.mode = .run → ∀ v d, s.visit n = some v → dest = some d →
        let klass : Option AccessClass := match r with
          | .found _ t => if (s.cls t.cls).damaged = true then none else some (s.cls t.cls).val
          | _ => none
        let known := ∃ id t, r = .found id t
        let permitted := (∃ c, klass = some c ∧ c.allFloors = true) ∨
          (∃ q ∈ s.portals.list, q.record.val.present = true ∧ q.record.val.floor = d) ∨
          (known ∧ ∃ e ∈ s.store.presentUnits, e.2.tenant = v.tenant ∧ e.2.floor = d)
        let priority := (klass.map fun c => c.liftPriority).getD 0
        (¬permitted → exec .liftCallTenantResult s = .next (denyCall p .floorDenied u)) ∧
        (permitted → ∀ c, v.call = some ⟨c, true⟩ →
          exec .liftCallTenantResult s = .next (denyCall p .callActive u)) ∧
        (permitted → (∀ c, v.call ≠ some ⟨c, true⟩) →
          exec .liftCallTenantResult s = .next (handOverCall p v f d priority u))))) ∧
  (∀ (s : State) (p : Presentation) (n : Nat),
    (∀ c, takeAnswer p n (.queued c) s = endExit p (.car c) (s.modVisit n fun v =>
      { v with call := some ⟨c, false⟩ })) ∧
    (∀ c, takeAnswer p n (.boarded c) s = endExit p (.car c) (s.modVisit n fun v =>
      { v with call := some ⟨c, true⟩ })) ∧
    takeAnswer p n .noCar s = endExit p (.denied .noCar) s ∧
    takeAnswer p n .callsFull s = endExit p (.denied .callsFull) s) ∧
  (∀ (s : State) (p : Presentation) (v : Visit) (floor dest priority : Nat),
    let now := s.site.seconds
    let emptied : State := s.modVisit v.number fun w => { w with call := none }
    let told : State := if v.call = none then s
      else { emptied with lifts :=
        { emptied.lifts with withdrawals := emptied.lifts.withdrawals ++ [v.number] } }
    let taken : State := told.lifts.withdrawals.foldl withdrawCall
      { told with lifts := { told.lifts with withdrawals := [] } }
    let call : Call :=
      { id := v.number, origin := floor, dest := dest, priority := priority, queuedAt := now
        deadline := now + s.site.params.val.callWaitLimit }
    let placed := placeCall call (withdrawCall taken v.number)
    let heard : State := placed.2.visits.callReports.foldl takeCallReport
      { placed.2 with visits := { placed.2.visits with callReports := [] } }
    handOverCall p v floor dest priority s = takeAnswer p v.number placed.1 heard) ∧
  (∀ (s : State) (p : Presentation) (why : Reason),
    (∀ g n, p.source = .reader g n → denyCall p why s =
      releaseRouter (clearDecision (submit g n (.show (.denied why)) .normal .show s))) ∧
    (p.source = .host → denyCall p why s = clearDecision s))

/-! ## Portals (R71 to R91) -/

/-- A strike order sets the strike field and drives the STRIKE lines, or sends the module a STRIKE command,
URGENT in EVACUATE or where the order says so, whose token carries the opening number. An open order taken
in SECURE opens the portal with its visit pending, counts the opening and starts the pass timer; in another
state it changes no portal and reports no passage for its visit. A dropped visit is no longer pending. A
pass timer that is due engages the strike, reports no passage and enters SECURE; a hold timer that is due
enters HELD_OPEN with its notice; one that is not due does nothing. That an expiry may come before its
moment or with no timer running, and then does nothing, is the model's choice, assumption logs 7 and 2. Each
change of a portal reports the busy summary (some portal OPENING, PASSAGE or HELD_OPEN) to Site Control and
the alarm summary (FORCED or HELD_OPEN) to the beacon exactly when it changes. -/
def Obligations.OpenOrdersAndTimersDriveAPortal : Prop :=
  (∀ (p : Nat) (release urgent : Bool) (s : State) (q : Portal), s.portal p = some q →
    let t := withPortal p (fun q => { q with strikeReleased := release }) s
    (q.record.val.drive = .lines → orderStrike p release urgent s =
      { t with lines :=
        { t.lines with list :=
          t.lines.list.map fun l =>
            if l.record.val.func = .strike p then
              { l with drive := if release = true then .active else .other }
            else l } }) ∧
    (∀ g n, q.record.val.drive = .module g n → orderStrike p release urgent s =
      submit g n (.command (.strike release))
        (if urgent = true ∨ s.site.mode = .evacuate then .urgent else .normal)
        (.strike p release q.opening) t)) ∧
  (∀ (s : State) (p : Nat) (visit : Option Nat) (rest : List PortalOrder) (q : Portal),
    s.portals.orders = .open_ p visit :: rest → s.portal p = some q →
    let u := { s with portals := { s.portals with orders := rest } }
    (q.state = .secure → exec .openOrder s = .next (orderStrike p true false
      (withPortal p (fun x =>
        { x with
          state := .opening, pending := visit, opening := x.opening + 1
          passTimer := some (s.site.seconds + x.record.val.passTime) }) u))) ∧
    (q.state ≠ .secure → visit = none → exec .openOrder s = .next u) ∧
    (q.state ≠ .secure → ∀ n, visit = some n →
      exec .openOrder s = .next (toVisitsPortal (.noPassage p n) u))) ∧
  (∀ (s : State) (p n : Nat) (rest : List PortalOrder), s.portals.orders = .drop p n :: rest →
    exec .dropPendingVisit s = .next (withPortal p
      (fun q => { q with pending := if q.pending = some n then none else q.pending })
      { s with portals := { s.portals with orders := rest } })) ∧
  (∀ (s : State) (p : Nat) (q : Portal), s.portal p = some q →
    (q.state = .opening → ∀ e, q.passTimer = some e →
      (e ≤ s.site.seconds →
        let t := orderStrike p false false s
        exec (.passTimerExpiry p) s = .next (withPortal p (fun x => { x with state := .secure })
          (withPortal p (fun x => { x with pending := none, passTimer := none, holdTimer := none })
            (match q.pending with
              | some n => toVisitsPortal (.noPassage p n) t
              | none => t)))) ∧
      (s.site.seconds < e → exec (.passTimerExpiry p) s = .next s)) ∧
    (q.state = .passage → ∀ e, q.holdTimer = some e →
      (e ≤ s.site.seconds → exec (.holdTimerExpiry p) s = .next (putNotice (.portalHeldOpen p)
        (withPortal p (fun x => { x with state := .heldOpen, holdTimer := none }) s))) ∧
      (s.site.seconds < e → exec (.holdTimerExpiry p) s = .next s)) ∧
    (q.state ≠ .opening ∨ q.passTimer = none → exec (.passTimerExpiry p) s = .next s) ∧
    (q.state ≠ .passage ∨ q.holdTimer = none → exec (.holdTimerExpiry p) s = .next s)) ∧
  (∀ (p : Nat) (f : Portal → Portal) (s : State),
    let busy (s : State) : Bool := s.portals.list.any fun q =>
      q.state == .opening || q.state == .passage || q.state == .heldOpen
    let alarm (s : State) : Bool := s.portals.list.any fun q => q.state == .forced || q.state == .heldOpen
    let t : State := { s with portals := { s.portals with list := s.portals.list.modify p f } }
    let siteTold : SiteControl := if busy t = busy s then s.site
      else { s.site with reports := s.site.reports ++ [.portals (busy t)] }
    let beaconTold : LineBlock := if alarm t = alarm s then s.lines
      else { s.lines with reports := s.lines.reports ++ [.portalAlarm (alarm t)] }
    withPortal p f s = { t with site := siteTold, lines := beaconTold })

/-- A contact that opens is the passage of an OPENING and forces a SECURE portal; one that closes ends
PASSAGE, HELD_OPEN or FORCED; a contact that is or becomes UNKNOWN takes its level with no event. A press in
SECURE is an open order with an EGRESS notice. A contact or button reported at the level already known
changes nothing. In every other pair of state and change, FREE and FAULT included, a contact sets its field
alone; so does a press outside SECURE, a button that was PRESSED or UNKNOWN, and a release. STRIKE outcome
OK changes nothing; NO_ACK, DISPLACED or FIELD_FULL puts PORTAL_DRIVE_FAILED, after the end of the opening
it belongs to; NODE_LOST, SEGMENT_ISOLATED or the loss of the module takes the portal to FAULT, its pending
visit reported without passage, its timers stopped, its inputs UNKNOWN. An outcome CANCELLED or NO_ANSWER,
which no STRIKE gives, and NODE_LOST for a portal of another drive change nothing. The model's choices: the
portal reports on their way are taken before a PORTAL_FORCED or PORTAL_DRIVE_FAILED notice that must follow
them (log 5), and an outcome for a portal no longer present is taken and ignored (log 34). Those reports are
each taken as its command takes it, in order, and none is left. -/
def Obligations.ContactsAndOutcomesMoveAPortal : Prop :=
  (∀ (s : State) (p : Nat) (q : Portal), s.portal p = some q →
    let w (c : Contact) := withPortal p (fun x => { x with contact := c }) s
    (q.contact = .unknown → ∀ c, takeContact p c s = w c) ∧
    (q.contact = .closed → q.state = .opening → takeContact p .open_ s =
      let u := withPortal p (fun x => { x with state := .passage, pending := none, passTimer := none })
        (match q.pending with
          | some n => toVisitsPortal (.passage p n) (w .open_)
          | none => w .open_)
      match q.record.val.kind with
      | .vehicle => u
      | .door => orderStrike p false false (withPortal p (fun x =>
          { x with holdTimer := some (s.site.seconds + x.record.val.holdTime) }) u)) ∧
    (q.contact = .closed → q.state = .secure → takeContact p .open_ s = putNotice (.portalForced p)
      (withPortal p (fun x => { x with state := .forced }) (deliverPortalReports (w .open_)))) ∧
    (q.contact = .open_ → q.state = .passage → takeContact p .closed s =
      let u := withPortal p (fun x => { x with holdTimer := none, state := .secure }) (w .closed)
      match q.record.val.kind with
      | .vehicle => orderStrike p false false u
      | .door => u) ∧
    (q.contact = .open_ → q.state = .heldOpen ∨ q.state = .forced → takeContact p .closed s =
      putNotice (.portalSecure p q.state)
        (withPortal p (fun x => { x with state := .secure }) (w .closed))) ∧
    (q.button = .released → q.state = .secure → takeButton p .pressed s =
      putNotice (.egress p) (openPortal p none (withPortal p (fun x => { x with button := .pressed }) s))) ∧
    takeContact p q.contact s = s ∧
    takeContact p .unknown s = w .unknown ∧
    (q.contact = .closed → q.state ≠ .opening → q.state ≠ .secure →
      takeContact p .open_ s = w .open_) ∧
    (q.contact = .open_ → q.state ≠ .passage → q.state ≠ .heldOpen → q.state ≠ .forced →
      takeContact p .closed s = w .closed) ∧
    takeButton p q.button s = s ∧
    (∀ b, q.state ≠ .secure ∨ q.button ≠ .released ∨ b ≠ .pressed →
      takeButton p b s = withPortal p (fun x => { x with button := b }) s)) ∧
  (∀ (s : State) (g : Seg) (p : Nat) (opens : Bool) (number : Byte) (o : TxOutcome)
      (rest : List FieldReport) (q : Portal),
    (s.seg g).toPortals = .outcome (.strike p opens number) o :: rest → s.portal p = some q →
    q.record.val.present = true →
    let u := s.modSeg g fun x => { x with toPortals := rest }
    let failed := o = .noAck ∨ o = .displaced ∨ o = .fieldFull
    let ofOpening := opens = true ∧ q.state = .opening ∧ q.opening = number
    (o = .ok → exec (.strikeOutcome g) s = .next u) ∧
    (failed → exec (.strikeOutcome g) s = .next (putNotice (.portalDriveFailed p opens o)
      (if ofOpening then deliverPortalReports (expireOpening p u) else u))) ∧
    (∀ n, o = .nodeLost ∨ o = .segmentIsolated → q.record.val.drive = .module g n →
      exec (.strikeOutcome g) s = .next (loseDrive p u)) ∧
    (o = .nodeLost ∨ o = .segmentIsolated → (∀ n, q.record.val.drive ≠ .module g n) →
      exec (.strikeOutcome g) s = .next u) ∧
    (o = .cancelled ∨ o = .noAnswer → exec (.strikeOutcome g) s = .next u)) ∧
  (∀ (s : State) (g : Seg) (p : Nat) (opens : Bool) (number : Byte) (o : TxOutcome)
      (rest : List FieldReport) (q : Portal),
    (s.seg g).toPortals = .outcome (.strike p opens number) o :: rest → s.portal p = some q →
    q.record.val.present = false →
    exec (.strikeOutcome g) s = .next (s.modSeg g fun x => { x with toPortals := rest })) ∧
  (∀ (s : State) (g : Seg) (n p : Nat) (rest : List FieldReport) (q : Portal),
    (s.seg g).toPortals = .lost n (.portal p) :: rest → s.portal p = some q →
    let u := s.modSeg g fun x => { x with toPortals := rest }
    (q.record.val.drive = .module g n → exec (.portalDriveLoss g) s = .next (loseDrive p u)) ∧
    (q.record.val.drive ≠ .module g n → exec (.portalDriveLoss g) s = .next u)) ∧
  (∀ (s : State) (g : Seg) (n p : Nat) (q : Portal), s.portal p = some q →
    q.record.val.drive = .module g n →
    (q.state = .fault → loseDrive p s = s) ∧
    (q.state ≠ .fault → q.record.val.present = true → loseDrive p s =
      withPortal p (fun x =>
          { x with contact := .unknown, button := .unknown, heard := false, state := .fault })
        (withPortal p (fun x => { x with pending := none, passTimer := none, holdTimer := none })
          (match q.state, q.pending with
            | .opening, some v => toVisitsPortal (.noPassage p v) s
            | _, _ => s)))) ∧
  (∀ s : State,
    deliverPortalReports s = s.visits.portalReports.foldl (fun t r => match r with
      | .passage p n => takePassage p n t
      | .noPassage p n => takeNoPassage p n t)
      { s with visits := { s.visits with portalReports := [] } } ∧
    (∀ p n rest, s.visits.portalReports = .passage p n :: rest →
      exec .passageReport s =
        .next (takePassage p n { s with visits := { s.visits with portalReports := rest } })) ∧
    (∀ p n rest, s.visits.portalReports = .noPassage p n :: rest →
      exec .noPassageReport s =
        .next (takeNoPassage p n { s with visits := { s.visits with portalReports := rest } })))

/-- The contact of a LOCAL portal is that of its settled CONTACT line, the button the OR of its settled
EXIT_BUTTON lines; its drive is there with a STRIKE line and that contact known, a module's while the node
table binds it to the portal, it is LIVE or QUIET and its STATUS was taken. A line assigned sets the inputs
with no event and, the drive being there, takes a portal out of FAULT; one unassigned loses the drive that
is gone; a settled change is taken as a contact and then a button event. A STATUS of the module is taken so
too, or in FAULT regains the drive. Regained, a portal is FREE in EVACUATE, else SECURE, or FORCED with its
contact OPEN. A portal put FREE has its opening ended and its strike released; leaving FREE engages it and
enters SECURE, or FORCED with a notice. An evacuation puts every present portal outside FAULT and FREE FREE,
urgently, and its end takes every FREE one out, 0 to 7. SET_PORTAL tests the mode, presence, the evacuation
for SECURE and MOMENTARY, and FAULT; FREE puts it FREE, SECURE takes it out of FREE, MOMENTARY opens a
SECURE one for nobody, else WRONG_STATE. The model's choices: the portal reports on their way, all of them
and in order, taken before PORTAL_FORCED (log 5), the button of a LOCAL portal set as soon as its line
settles (log 46), the order 0 to 7 (log 37), an empty OR as UNKNOWN (log 34). -/
def Obligations.FreePortalsFollowTheHostAndTheEvacuation : Prop :=
  (∀ (s : State) (p : Nat),
    let settled (f : LineFunction) (v : Bool) : Prop :=
      ∃ l ∈ s.lines.list, l.record.val.func = f ∧ ∃ d, l.debounced = some d ∧
        decide (d = l.record.val.active) = v
    let contacts := s.lines.list.filter fun l => decide (l.record.val.func = .contact p)
    (s.strikeAssigned p = true ↔ ∃ l ∈ s.lines.list, l.record.val.func = .strike p) ∧
    (contacts = [] → s.lineContact p = .unknown) ∧
    (∀ l more, contacts = l :: more →
      s.lineContact p = match l.debounced with
        | none => .unknown
        | some d => if d = l.record.val.active then .open_ else .closed) ∧
    (settled (.exitButton p) true → s.lineButton p = .pressed) ∧
    (¬settled (.exitButton p) true → settled (.exitButton p) false → s.lineButton p = .released) ∧
    (¬settled (.exitButton p) true → ¬settled (.exitButton p) false → s.lineButton p = .unknown) ∧
    (∀ q, s.portal p = some q →
      (q.record.val.drive = .lines →
        (s.driveAvailable p = true ↔ s.strikeAssigned p = true ∧ s.lineContact p ≠ .unknown)) ∧
      (∀ g n, q.record.val.drive = .module g n →
        (s.driveAvailable p = true ↔ q.heard = true ∧ ∃ x, s.node g n = some x ∧
          x.entry = ⟨.portalModule, .portal p⟩ ∧ (x.liveness = .live ∨ x.liveness = .quiet))))) ∧
  (∀ (s : State) (p : Nat) (q : Portal), s.portal p = some q →
    let local_ := q.record.val.present = true ∧ q.record.val.drive = .lines
    let read (u : State) : State :=
      withPortal p (fun x => { x with contact := u.lineContact p, button := u.lineButton p }) u
    let noLine (u : State) : State :=
      withPortal p (fun x =>
        { x with contact := u.lineContact p, button := u.lineButton p, state := .fault }) u
    let ended : State :=
      withPortal p (fun x => { x with pending := none, passTimer := none, holdTimer := none })
        (match q.state, q.pending with
          | .opening, some v => toVisitsPortal (.noPassage p v) s
          | _, _ => s)
    endOpening p s = ended ∧
    (¬local_ → lineAssigned p s = s ∧ lineUnassigned p s = s ∧ lineChanged p s = s) ∧
    (local_ →
      lineChanged p s = takeButton p (s.lineButton p) (takeContact p (s.lineContact p) s) ∧
      (q.state = .fault → (read s).driveAvailable p = true →
        lineAssigned p s = regainDrive p (read s)) ∧
      (q.state ≠ .fault ∨ (read s).driveAvailable p = false → lineAssigned p s = read s) ∧
      (q.state = .fault ∨ s.driveAvailable p = true → lineUnassigned p s = read s) ∧
      (q.state ≠ .fault → s.driveAvailable p = false →
        lineUnassigned p s = (if (noLine ended).strikeAssigned p = true then
          orderStrike p false false (noLine ended) else noLine ended))) ∧
    (s.site.mode = .evacuate → regainDrive p s =
      withPortal p (fun x => { x with state := .free }) (orderStrike p true true s)) ∧
    (s.site.mode ≠ .evacuate → regainDrive p s = leaveFree p false s) ∧
    (∀ (g : Seg) (n : Nat) (c : Contact) (b : Button),
      let named := q.record.val.present = true ∧ q.record.val.drive = .module g n
      (¬named → portalStatus g n p c b s = s) ∧
      (∀ x, named → s.node g n = some x →
        let answers := x.liveness = .live ∨ x.liveness = .quiet
        (q.state = .fault → answers → portalStatus g n p c b s = regainDrive p
          (withPortal p (fun x => { x with contact := c, button := b, heard := true }) s)) ∧
        (q.state = .fault → ¬answers → portalStatus g n p c b s = s) ∧
        (q.state ≠ .fault → portalStatus g n p c b s = takeButton p b (takeContact p c
          (withPortal p (fun x => { x with heard := true }) s)))))) ∧
  (∀ (s : State) (p : Nat) (urgent : Bool) (q : Portal), s.portal p = some q →
    (enterFree p urgent s = withPortal p (fun x => { x with state := .free })
      (orderStrike p true urgent (endOpening p s))) ∧
    (q.contact ≠ .open_ → leaveFree p urgent s =
      withPortal p (fun x => { x with state := .secure }) (orderStrike p false urgent s)) ∧
    (q.contact = .open_ → leaveFree p urgent s = putNotice (.portalForced p)
      (withPortal p (fun x => { x with state := .forced })
        (deliverPortalReports (orderStrike p false urgent s))))) ∧
  (∀ (s : State) (rest : List EvacOrder),
    let u := { s with portals := { s.portals with evac := rest } }
    (s.portals.evac = .begin_ :: rest → exec .evacuationBeginPortals s = .next ((List.range 8).foldl
      (fun s p => match s.portal p with
        | some q => if q.record.val.present = true ∧ q.state ≠ .fault ∧ q.state ≠ .free then
            enterFree p true s
          else s
        | none => s) u)) ∧
    (s.portals.evac = .end_ :: rest → exec .evacuationEndPortals s = .next ((List.range 8).foldl
      (fun s p => match s.portal p with
        | some q => if q.state = .free then leaveFree p true s else s
        | none => s) u))) ∧
  (∀ (s : State) (f : Frame) (b a : Byte) (q : Portal), s.inHand f → f.kind = 0x41 → f.body = [b, a] →
    s.portal b.toNat = some q → b.toNat ≤ 7 →
    let p := b.toNat
    ∀ c, a = 0 ∧ c = Instr.setPortalSecure ∨ a = 1 ∧ c = Instr.setPortalFree ∨
        a = 2 ∧ c = Instr.setPortalMomentary →
      let evac := s.site.mode = .evacuate ∧ a ≠ 1
      (s.site.mode = .starting → exec c s = .next (s.answered f .wrongMode [])) ∧
      (s.site.mode ≠ .starting →
        (q.record.val.present = false → exec c s = .next (s.answered f .notFound [])) ∧
        (q.record.val.present = true → evac → exec c s = .next (s.answered f .evacuation [])) ∧
        (q.record.val.present = true → ¬evac →
          (q.state = .fault → exec c s = .next (s.answered f .wrongState [])) ∧
          (q.state ≠ .fault →
            (a = 0 → q.state = .free → exec c s = .next ((leaveFree p false s).answered f .ok [])) ∧
            (a = 0 → q.state ≠ .free → exec c s = .next (s.answered f .ok [])) ∧
            (a = 1 → q.state ≠ .free → exec c s = .next ((enterFree p false s).answered f .ok [])) ∧
            (a = 1 → q.state = .free → exec c s = .next (s.answered f .ok [])) ∧
            (a = 2 → q.state = .secure → exec c s = .next ((openPortal p none s).answered f .ok [])) ∧
            (a = 2 → q.state ≠ .secure → exec c s = .next (s.answered f .wrongState [])))))) ∧
  (∀ s : State,
    deliverPortalReports s = s.visits.portalReports.foldl (fun t r => match r with
      | .passage p n => takePassage p n t
      | .noPassage p n => takeNoPassage p n t)
      { s with visits := { s.visits with portalReports := [] } })

/-! ## Unit doors (R92 to R116) -/

/-- The closed-door state is DISARMED for a present tenant and no overlock, else ARMED. A RELOCK counts the
command, sets relock owed and goes out at NORMAL. A disarm order adds the tenant to the presence set and
disarms its ARMED entries not overlocked. A closure with a visit left changes nothing; the last one removes
the tenant and rearms its entries in order by the table of R99. A release timer that is due takes RELEASED
to its closed-door state. A lost latch node takes its entries to UNKNOWN. That a release timer may expire
before its moment or when the entry is not RELEASED, and then does nothing, is the model's choice,
assumption logs 7 and 2. -/
def Obligations.OrdersDisarmAndRearmUnits : Prop :=
  (∀ (s : State) (r : UnitRec), s.closedState r =
    if r.tenant ≠ 0 ∧ r.tenant ∈ s.units.presence ∧ r.overlocked = false then .disarmed else .armed) ∧
  (∀ (s : State) (u : Nat) (e : UnitEntry), s.unit u = some e →
    (queueRelock u s =
      submit e.record.seg e.record.node (.command (.relock e.record.channel)) .normal
        (.relock u (some (e.number + 1)))
        (withUnit u (fun x => { x with number := e.number + 1, relockOwed := true }) s)) ∧
    (e.state = .disarmed → e.latch ≠ .released →
      rearm u s = withUnit u (fun x => { x with state := .armed }) s) ∧
    (e.state = .disarmed → e.latch = .released →
      rearm u s = queueRelock u (withUnit u (fun x => { x with state := .armed }) s)) ∧
    (e.state = .releasing → rearm u s = withUnit u (fun x => { x with state := .armed })
      (queueRelock u (cancel e.record.seg (.release u e.number) s))) ∧
    (e.state = .released → rearm u s =
      withUnit u (fun x => { x with state := .armed, timer := none }) (queueRelock u s)) ∧
    (e.state = .open_ → rearm u s = putNotice (.unitLeftOpen u e.record.tenant .closure)
      (withUnit u (fun x => { x with state := .leftOpen }) s)) ∧
    (e.state = .armed ∨ e.state = .leftOpen ∨ e.state = .forced ∨ e.state = .service ∨
      e.state = .unknown → rearm u s = s)) ∧
  (∀ (s : State) (t : Nat) (rest : List UnitOrder), s.units.orders = .disarm t :: rest →
    ∃ p : List Nat, (∀ x, x ∈ p ↔ x = t ∨ x ∈ s.units.presence) ∧
      exec .disarmOrder s = .next (withUnits (fun tbl => tbl.map fun e =>
        if e.2.record.tenant = t ∧ e.2.state = .armed ∧ e.2.record.overlocked = false then
          (e.1, { e.2 with state := .disarmed })
        else e)
        { s with units := { s.units with orders := rest, presence := p } })) ∧
  (∀ (s : State) (t : Nat) (rest : List UnitOrder),
    let u := { s with units := { s.units with orders := rest } }
    (s.units.orders = .closure t true :: rest → exec .closureOrder s = .next u) ∧
    (s.units.orders = .closure t false :: rest → exec .closureOrder s = .next
      (((s.units.entries.filter fun e => e.2.record.tenant == t).map Prod.fst).foldl
        (fun s k => rearm k s)
        { s with units :=
          { s.units with orders := rest, presence := s.units.presence.filter fun x => x != t } }))) ∧
  (∀ (s : State) (u : Nat) (e : UnitEntry), s.unit u = some e →
    (e.state = .released → ∀ d, e.timer = some d →
      (d ≤ s.site.seconds → exec (.releaseTimerExpiry u) s = .next
        (withUnit u (fun x => { x with state := s.closedState x.record })
          (withUnit u (fun x => { x with timer := none }) s))) ∧
      (s.site.seconds < d → exec (.releaseTimerExpiry u) s = .next s)) ∧
    (e.state ≠ .released → exec (.releaseTimerExpiry u) s = .next s)) ∧
  (∀ (s : State) (g : Seg) (n : Nat) (b : Binding) (rest : List FieldReport),
    (s.seg g).toUnits = .lost n b :: rest →
    exec (.latchNodeLoss g) s = .next (withUnits (fun tbl => tbl.map fun e =>
      if e.2.record.seg = g ∧ e.2.record.node = n then
        (e.1, { e.2 with
          state := .unknown, contact := .unknown, latch := .unknown, timer := none, relockOwed := false })
      else e) (s.modSeg g fun x => { x with toUnits := rest })))

/-- A STATUS of a latch reaches, for each channel 0 to 15 by its contact and its latch bit, the present
entry that names it. In UNKNOWN the entry takes the contact and latch and is placed by its door; otherwise
the latch is taken, ENGAGED clears relock owed, and a changed contact opens or closes it. A held report
evaluates a fresh entry so. A release ask in EVACUATE, in a mode other than RUN, on a channel no entry
names, or for an ARMED entry is refused with a DENY_BLINK and a RELEASE_REFUSED notice; a DISARMED entry
goes to RELEASING with a RELEASE queued; in another state it is ignored. That the notice bears no unit where
no entry names the channel is the model's choice, assumption log 35. A contact opening moves an entry by the
table of R96 with its report or notice, a contact closing takes OPEN and LEFT_OPEN to the closed-door state.
A current RELEASE outcome OK enters RELEASED with the release timer; a failure enters the closed-door state
with RELEASE_FAILED; another number or state is ignored. A current RELOCK outcome clears relock owed. A
DENY_BLINK outcome is taken and ignored. A service RELEASE that failed puts RELEASE_FAILED while it is
current and the entry in SERVICE. Each change of the table reports the forced summary (some entry FORCED) to
the beacon exactly when it changes. That the first of the two flag bytes holds channels 8 to 15 is the
model's choice, assumption log 44, and that a byte a shorter body does not hold reads as 0, log 22. -/
def Obligations.LatchReportsAndOutcomesMoveUnits : Prop :=
  (∀ (s : State) (g : Seg) (n : Nat) (body : List Byte),
    let bit (k i : Nat) : Bool :=
      if i < 8 then (body.getD (k + 1) 0).getLsbD i else (body.getD k 0).getLsbD (i - 8)
    latchStatus g n body s = (List.range 16).foldl (fun s i =>
      match s.unitAt g n i with
      | some u => unitReport u (bit 0 i) (bit 2 i) s
      | none => s) s) ∧
  (∀ (s : State) (g : Seg) (n ch : Nat),
    (∀ u, s.unitAt g n ch = some u → ∃ e, (u, e) ∈ s.units.entries ∧ e.record.seg = g ∧
      e.record.node = n ∧ e.record.channel = ch) ∧
    (s.unitAt g n ch = none → ∀ e ∈ s.units.entries,
      ¬(e.2.record.seg = g ∧ e.2.record.node = n ∧ e.2.record.channel = ch))) ∧
  (∀ (s : State) (u : Nat) (e : UnitEntry) (o r : Bool), s.unit u = some e →
    let c : Contact := if o = true then .open_ else .closed
    let l : Latch := if r = true then .released else .engaged
    let latched := withUnit u (fun x =>
      { x with latch := l, relockOwed := if r = true then x.relockOwed else false }) s
    let changed := withUnit u (fun x => { x with contact := c }) latched
    (e.state = .unknown → unitReport u o r s =
      placeByDoor u .recovery (withUnit u (fun x => { x with contact := c, latch := l }) s)) ∧
    (e.state ≠ .unknown → e.contact = c → unitReport u o r s = latched) ∧
    (e.state ≠ .unknown → e.contact ≠ c → o = true → unitReport u o r s = unitOpens u changed) ∧
    (e.state ≠ .unknown → e.contact ≠ c → o = false →
      unitReport u o r s = unitCloses u changed)) ∧
  (∀ (s : State) (u : Nat) (r : UnitRec),
    let held (x : Node) : Prop := s.node r.seg r.node = some x ∧ x.entry.kind = .latch ∧
      x.reportHeld = true ∧ (x.liveness = .live ∨ x.liveness = .quiet)
    ((∀ x, ¬held x) → evaluateHeld u r s = s) ∧
    (∀ x, held x → evaluateHeld u r s = unitReport u
      (flagBit (beNat (x.mirror.take 2)) r.channel)
      (flagBit (beNat (x.mirror.drop 2)) r.channel) s)) ∧
  (∀ (s : State) (g : Seg) (n ch : Nat),
    let asks := releaseAsk g n ch s
    let refused (u t : Option Nat) (why : Reason) : Prop :=
      asks = putNotice (.releaseRefused g n ch u t why)
        (submit g n (.command (.denyBlink ch)) .normal .denyBlink s)
    let bars (u t : Option Nat) : Prop :=
      (s.site.mode = .evacuate → refused u t .evacuation) ∧
      (s.site.mode ≠ .evacuate → s.site.mode ≠ .run → refused u t .held)
    (s.unitAt g n ch = none → bars none none ∧ (s.site.mode = .run → refused none none .noUnit)) ∧
    (∀ u e, s.unitAt g n ch = some u → s.unit u = some e →
      let tenant := if e.record.tenant = 0 then none else some e.record.tenant
      bars (some u) tenant ∧
      (s.site.mode = .run →
        (e.state = .disarmed → asks =
          submit e.record.seg e.record.node (.command (.release e.record.channel)) .normal
            (.release u (e.number + 1)) (withUnit u (fun x =>
              { x with number := e.number + 1, relockOwed := false, state := .releasing }) s)) ∧
        (e.state = .armed → e.record.overlocked = true →
          refused (some u) tenant .overlocked) ∧
        (e.state = .armed → e.record.overlocked = false → refused (some u) tenant .noVisit) ∧
        (e.state ≠ .disarmed → e.state ≠ .armed → asks = s)))) ∧
  (∀ (s : State) (u : Nat) (e : UnitEntry), s.unit u = some e →
    let opened := toVisitsOpened u e.record.tenant
      (withUnit u (fun x => { x with state := .open_, timer := none }) s)
    let forced := putNotice (.unitForced u e.record.tenant e.state)
      (withUnit u (fun x => { x with state := .forced }) s)
    (e.state = .released ∨ e.state = .releasing → unitOpens u s = opened) ∧
    (e.state = .disarmed → e.latch = .released → unitOpens u s = opened) ∧
    (e.state = .disarmed → e.latch ≠ .released → unitOpens u s = forced) ∧
    (e.state = .armed → e.relockOwed = true → unitOpens u s =
      putNotice (.unitLeftOpen u e.record.tenant .relockOwed)
        (withUnit u (fun x => { x with state := .leftOpen }) s)) ∧
    (e.state = .armed → e.relockOwed = false → unitOpens u s = forced) ∧
    (e.state = .service ∨ e.state = .forced ∨ e.state = .leftOpen ∨ e.state = .open_ →
      unitOpens u s = s) ∧
    (e.state = .open_ ∨ e.state = .leftOpen → unitCloses u s =
      withUnit u (fun x => { x with state := s.closedState x.record }) s) ∧
    (e.state ≠ .open_ → e.state ≠ .leftOpen → unitCloses u s = s)) ∧
  (∀ (s : State) (g : Seg) (u : Nat) (k : Byte) (o : TxOutcome) (rest : List FieldReport)
      (e : UnitEntry), s.unit u = some e →
    let w := s.modSeg g fun x => { x with toUnits := rest }
    let current := e.state = .releasing ∧ e.number = k
    ((s.seg g).toUnits = .outcome (.release u k) o :: rest →
      (current → o = .ok → exec (.releaseOutcome g) s = .next (withUnit u (fun x =>
        { x with
          state := .released
          timer := some (s.site.seconds + s.site.params.val.releaseTime) }) w)) ∧
      (current → o = .noAck ∨ o = .nodeLost ∨ o = .segmentIsolated ∨ o = .displaced ∨ o = .fieldFull →
        exec (.releaseOutcome g) s = .next (putNotice (.releaseFailed u e.record.tenant .ask o)
          (withUnit u (fun x => { x with state := s.closedState x.record }) w))) ∧
      (¬current → exec (.releaseOutcome g) s = .next w)) ∧
    ((s.seg g).toUnits = .outcome (.serviceRelease u k) o :: rest →
      (o ≠ .ok → e.state = .service → e.number = k → exec (.serviceReleaseOutcome g) s =
        .next (putNotice (.releaseFailed u e.record.tenant .service o) w)) ∧
      (o = .ok ∨ e.state ≠ .service ∨ e.number ≠ k → exec (.serviceReleaseOutcome g) s = .next w))) ∧
  (∀ (s : State) (g : Seg) (u : Nat) (k : Option Byte) (o : TxOutcome) (rest : List FieldReport),
    (s.seg g).toUnits = .outcome (.relock u k) o :: rest →
    exec (.relockOutcome g) s = .next (withUnit u
      (fun x => { x with relockOwed := if k = some x.number then false else x.relockOwed })
      (s.modSeg g fun x => { x with toUnits := rest }))) ∧
  (∀ (s : State) (g : Seg) (o : TxOutcome) (rest : List FieldReport),
    (s.seg g).toUnits = .outcome .denyBlink o :: rest →
    exec (.denyBlinkOutcome g) s = .next (s.modSeg g fun x => { x with toUnits := rest })) ∧
  (∀ (f : Table UnitEntry → Table UnitEntry) (s : State),
    let forced (s : State) : Bool := s.units.entries.any fun e => e.2.state == .forced
    let t : State := { s with units := { s.units with entries := f s.units.entries } }
    let beaconTold : LineBlock := if forced t = forced s then s.lines
      else { s.lines with reports := s.lines.reports ++ [.unitForced (forced t)] }
    withUnits f s = { t with lines := beaconTold } ∧
      ∀ u g, withUnit u g s = withUnits (fun x => x.map fun e => if e.1 = u then (e.1, g e.2) else e) s)

/-- STARTING gives WRONG_MODE; an absent record NOT_FOUND and a damaged one RECORD_DAMAGED. BEGIN gives
NODE_LOST in UNKNOWN, OK in SERVICE, and otherwise queues a service RELEASE, enters SERVICE and gives OK.
END outside SERVICE gives WRONG_STATE, in SERVICE queues a RELOCK and places the entry by its contact. The
reset gives NOT_ALARMED outside FORCED and otherwise places the entry by its contact: CLOSED takes the
closed-door state; OPEN takes OPEN for a present tenant, LEFT_OPEN with a notice for another. -/
def Obligations.UnitServiceAndAlarmReset : Prop :=
  (∀ (s : State) (u : Nat) (e : UnitEntry) (cause : LeftOpenCause), s.unit u = some e →
    let here := e.record.tenant ≠ 0 ∧ e.record.tenant ∈ s.units.presence
    (e.contact = .closed → placeByDoor u cause s =
      withUnit u (fun x => { x with state := s.closedState x.record }) s) ∧
    (e.contact = .open_ → here →
      placeByDoor u cause s = withUnit u (fun x => { x with state := .open_ }) s) ∧
    (e.contact = .open_ → ¬here → placeByDoor u cause s =
      putNotice (.unitLeftOpen u e.record.tenant cause)
        (withUnit u (fun x => { x with state := .leftOpen }) s))) ∧
  (∀ (s : State) (f : Frame) (a b k : Byte), s.inHand f →
    let u := 256 * a.toNat + b.toNat
    let begins := f.kind = 0x49 ∧ f.body = [a, b, k] ∧ k = 0
    let ends := f.kind = 0x49 ∧ f.body = [a, b, k] ∧ k = 1
    let resets := f.kind = 0x4A ∧ f.body = [a, b]
    u ≤ 4095 → ∀ c : Instr, c = .unitServiceBegin ∧ begins ∨ c = .unitServiceEnd ∧ ends ∨
        c = .unitAlarmReset ∧ resets →
      (s.site.mode = .starting → exec c s = .next (s.answered f .wrongMode [])) ∧
      (s.site.mode ≠ .starting →
        (s.store.unitSlot u = none → exec c s = .next (s.answered f .notFound [])) ∧
        (s.store.unitSlot u = some .damaged → exec c s = .next (s.answered f .recordDamaged [])) ∧
        (∀ (r : UnitRec) (x : Word16) (e : UnitEntry), s.store.unitSlot u = some (.present r x) →
          s.unit u = some e →
          (c = .unitServiceBegin → e.state = .unknown →
            exec c s = .next (s.answered f .nodeLost [])) ∧
          (c = .unitServiceBegin → e.state = .service → exec c s = .next (s.answered f .ok [])) ∧
          (c = .unitServiceBegin → e.state ≠ .unknown → e.state ≠ .service →
            exec c s = .next ((submit e.record.seg e.record.node
              (.command (.release e.record.channel)) .normal (.serviceRelease u (e.number + 1))
              (withUnit u (fun x =>
                { x with
                  number := e.number + 1, relockOwed := false, timer := none
                  state := .service }) s)).answered f .ok [])) ∧
          (c = .unitServiceEnd → e.state ≠ .service →
            exec c s = .next (s.answered f .wrongState [])) ∧
          (c = .unitServiceEnd → e.state = .service → exec c s =
            .next ((placeByDoor u .serviceEnd (queueRelock u s)).answered f .ok [])) ∧
          (c = .unitAlarmReset → e.state ≠ .forced →
            exec c s = .next (s.answered f .notAlarmed [])) ∧
          (c = .unitAlarmReset → e.state = .forced →
            exec c s = .next ((placeByDoor u .alarmReset s).answered f .ok [])))))

/-! ## Lifts (R117 to R142) -/

/-- A call goes to the eligible car with the fewest queued calls, the lowest number first; with none it is
CALLS_FULL when a car serves it, else NO_CAR, and leaves no trace. It joins a boarding trip at its floor
with room, else the queue after the calls of equal or higher priority; an IDLE car with calls is dispatched
to the head's origin. A boarding timer that is due sends DEPART. A queued call whose deadline is reached
expires with its report and notice; a withdrawn one leaves its queue, or its trip, silently. When the head
of a car in TO_PICKUP leaves, the car stands, goes on or is sent to the new head. The model's choices: a
boarding timer or deadline may expire before its moment, or when it does not run, and then does nothing
(logs 7 and 2); a trip keeps the capacity the car had when it was built (log 38). A car serves a call when
it is present, not OUT, RECALL or PARKED, and both floors are in its range; it is eligible when it also has
fewer than 24 queued calls. -/
def Obligations.CallsArePlacedAndLeaveTheirQueues : Prop :=
  (∀ (s : State) (o d : Nat),
    (∀ c, s.chooseCar o d = some c → ∃ x, s.car c = some x ∧ x.eligible o d = true ∧
      ∀ c' y, s.car c' = some y → y.eligible o d = true →
        x.queue.length < y.queue.length ∨ (x.queue.length = y.queue.length ∧ c ≤ c')) ∧
    (s.chooseCar o d = none → ∀ c x, s.car c = some x → x.eligible o d = false)) ∧
  (∀ (k : Call) (q : List Call), ∃ a b, q = a ++ b ∧ insertCall k q = a ++ k :: b ∧
    (∀ x ∈ a, k.priority ≤ x.priority) ∧ ∀ x, b.head? = some x → x.priority < k.priority) ∧
  (∀ (k : Call) (s : State),
    (∀ c x, s.chooseCar k.origin k.dest = some c → s.car c = some x →
      let joins := x.state = .boarding ∧ ∃ t, x.trip = some t ∧ t.floor = k.origin ∧
        t.calls.length < t.capacity
      (joins → placeCall k s = (.boarded c, sendEnable c (withCar c (fun x =>
        { x with trip := x.trip.map fun t => { t with calls := t.calls ++ [k] } }) s))) ∧
      (¬joins → placeCall k s =
        (.queued c, idleDispatch c (withCar c (fun x => { x with queue := insertCall k x.queue }) s)))) ∧
    (s.chooseCar k.origin k.dest = none → placeCall k s =
      (if ∃ x ∈ s.lifts.cars, x.serves k.origin k.dest = true then .callsFull else .noCar, s))) ∧
  (∀ (s : State) (c : Nat) (x : Car), s.car c = some x →
    (∀ k rest, x.state = .idle → x.queue = k :: rest → idleDispatch c s =
      withCar c (fun x => { x with state := .toPickup, target := some k.origin })
        (liftSend c (.dispatch k.origin) s)) ∧
    (x.state ≠ .idle ∨ x.queue = [] → idleDispatch c s = s) ∧
    (x.state = .boarding → ∀ d, x.timer = some d →
      (d ≤ s.site.seconds → exec (.boardingTimerExpiry c) s = .next
        (withCar c (fun x => { x with departSent := true, timer := none }) (liftSend c .depart s))) ∧
      (s.site.seconds < d → exec (.boardingTimerExpiry c) s = .next s)) ∧
    (x.state ≠ .boarding ∨ x.timer = none → exec (.boardingTimerExpiry c) s = .next s) ∧
    (∀ id, let left := x.queue.filter fun k => k.id != id
      let w := withCar c (fun x => { x with queue := x.queue.filter fun k => k.id != id }) s
      let retargets := x.state = .toPickup ∧ x.queue.head?.map Call.id = some id
      (¬retargets → leaveQueue c id s = w) ∧
      (retargets → left = [] → leaveQueue c id s = standIdle c w) ∧
      (retargets → ∀ k more, left = k :: more →
        (x.target = some k.origin → leaveQueue c id s = w) ∧
        (x.target ≠ some k.origin → leaveQueue c id s =
          withCar c (fun x => { x with target := some k.origin })
            (liftSend c (.dispatch k.origin) w))))) ∧
  (∀ (s : State) (id c : Nat) (x : Car) (k : Call), s.queuedOn id = some c → s.car c = some x →
    x.queue.find? (fun k => k.id == id) = some k →
    (k.deadline ≤ s.site.seconds → exec (.callExpiry id) s = .next (leaveQueue c id
      (putNotice (.callExpired id c k.origin k.dest (s.site.seconds - k.queuedAt))
        (toVisitsCall (.expired id) s)))) ∧
    (s.site.seconds < k.deadline → exec (.callExpiry id) s = .next s)) ∧
  (∀ (s : State) (id : Nat) (rest : List Nat), s.lifts.withdrawals = id :: rest →
    let u := { s with lifts := { s.lifts with withdrawals := rest } }
    (∀ c, s.queuedOn id = some c → exec .callWithdrawal s = .next (leaveQueue c id u)) ∧
    (∀ c, s.queuedOn id = none → s.boardedOn id = some c → exec .callWithdrawal s =
      .next (sendEnable c (withCar c (fun x =>
        { x with trip := x.trip.map fun t => { t with calls := t.calls.filter fun k => k.id != id } })
        u))) ∧
    (s.queuedOn id = none → s.boardedOn id = none → exec .callWithdrawal s = .next u)) ∧
  (∀ (x : Car) (o d : Nat),
    let r := x.record.val
    (x.serves o d = true ↔ r.present = true ∧ x.state ≠ .out ∧ x.state ≠ .recall ∧ x.state ≠ .parked ∧
      r.low ≤ o ∧ o ≤ r.high ∧ r.low ≤ d ∧ d ≤ r.high) ∧
    (x.eligible o d = true ↔ x.serves o d = true ∧ x.queue.length < 24))

/-- A car not OUT is taken OUT: timer, target, trip and queue cleared, a CAR_STATE notice, its boarded calls
cancelled, its queued calls placed again, with a report of where, or cancelled. A command outcome OK does
nothing; a failure takes the car OUT with COMMAND_FAILED; NODE_LOST, SEGMENT_ISOLATED or the loss of the
panel its record names with NODE_LOSS. A car leaves OUT to RECALL, to the recall floor read when the
evacuation began, in EVACUATE, else to IDLE, with a RETURN notice. CAR_SERVICE gives WRONG_MODE in STARTING
and NOT_FOUND for a car not present; OUT takes the car OUT, or makes its cause HOST; IN returns a car OUT
with cause HOST whose panel is LIVE. The model's choices: while the order of the evacuation is on its way
the recall floor is the one it is about to read (log 36), several cars naming the lost panel go in turn (log
37), the panel's liveness is read by the segment and node of the car's record (log 34), and the mode that
decides RECALL or IDLE is the present one (log 4). Each change of a car reports the busy summary (some car
BOARDING or CARRYING) to Site Control exactly when it changes. -/
def Obligations.CarsGoOutAndReturn : Prop :=
  (∀ (s : State) (c : Nat) (x : Car) (cause : OutCause) (reason : CarReason)
      (failed : Option (NodeCommand × TxOutcome)), s.car c = some x →
    let calls := match x.trip with
      | some t => t.calls
      | none => []
    let gone := withCar c (fun x =>
      { x with
        timer := none, departSent := false, target := none, state := .out, cause := some cause
        lastFloor := if reason = .nodeLoss then none else x.lastFloor
        lastDoorsOpen := if reason = .nodeLoss then none else x.lastDoorsOpen
        trip := none, queue := [] }) s
    (x.state = .out → takeOut c cause reason failed s = s) ∧
    (x.state ≠ .out → takeOut c cause reason failed s =
      x.queue.foldl (replaceCall c) (calls.foldl (cancelCall c .carOut true)
        (putNotice (.carState c x.state .out (some cause) reason failed) gone))) ∧
    (∀ why boarded k, cancelCall c why boarded s k =
      putNotice (.callCancelled k.id c k.origin k.dest why boarded)
        (toVisitsCall (.cancelled k.id why) s)) ∧
    (let back := withCar c (fun x => { x with cause := none }) s
      let floor := max x.record.val.low (min x.record.val.high s.recallFloor)
      (s.site.mode = .evacuate → returnCar c s = putNotice (.carState c .out .recall none .return_ none)
        (withCar c (fun x => { x with target := some floor, state := .recall })
          (liftSend c (.recall floor) back))) ∧
      (s.site.mode ≠ .evacuate → returnCar c s =
        putNotice (.carState c .out .idle none .return_ none) (standIdle c back))) ∧
    (∀ k, replaceCall c s k = match placeCall k s with
      | (.boarded n, t) => toVisitsCall (.boarded k.id n) t
      | (.queued n, t) => toVisitsCall (.replaced k.id n) t
      | (_, t) => cancelCall c .noCar false t k)) ∧
  (∀ s : State, s.recallFloor =
    if .evacBegin ∈ s.lifts.orders then s.site.params.val.recallFloor else s.lifts.recallFloor) ∧
  (∀ (s : State) (g : Seg) (c : Nat) (cmd : NodeCommand) (o : TxOutcome) (rest : List FieldReport),
    (s.seg g).toLifts = .outcome (.lift c cmd) o :: rest →
    let u := s.modSeg g fun x => { x with toLifts := rest }
    (o = .ok → exec (.liftCommandOutcome g) s = .next u) ∧
    (o = .noAck ∨ o = .displaced ∨ o = .fieldFull → exec (.liftCommandOutcome g) s =
      .next (takeOut c .node .commandFailed (some (cmd, o)) u)) ∧
    (o = .nodeLost ∨ o = .segmentIsolated → exec (.liftCommandOutcome g) s =
      .next (takeOut c .node .nodeLoss none u))) ∧
  (∀ (s : State) (g : Seg) (n : Nat) (b : Binding) (rest : List FieldReport),
    (s.seg g).toLifts = .lost n b :: rest →
    exec (.panelLoss g) s = .next ((List.range 4).foldl (fun s c => match s.car c with
      | none => s
      | some x => if x.record.val.seg = g ∧ x.record.val.node = n then
          takeOut c .node .nodeLoss none s
        else s) (s.modSeg g fun x => { x with toLifts := rest }))) ∧
  (∀ (s : State) (f : Frame) (a b : Byte) (x : Car), s.inHand f → f.kind = 0x51 → f.body = [a, b] →
    a.toNat ≤ 3 → s.car a.toNat = some x →
    let c := a.toNat
    let live := (s.node x.record.val.seg x.record.val.node).map Node.liveness
    ∀ i : Instr, b = 0 ∧ i = .carServiceOut ∨ b = 1 ∧ i = .carServiceIn →
      (s.site.mode = .starting → exec i s = .next (s.answered f .wrongMode [])) ∧
      (s.site.mode ≠ .starting →
        (x.record.val.present = false → exec i s = .next (s.answered f .notFound [])) ∧
        (x.record.val.present = true →
          (b = 0 → x.state = .out → x.cause = some .host → exec i s = .next (s.answered f .ok [])) ∧
          (b = 0 → x.state = .out → x.cause ≠ some .host → exec i s =
            .next ((putNotice (.carState c .out .out (some .host) .host none)
              (withCar c (fun x => { x with cause := some .host }) s)).answered f .ok [])) ∧
          (b = 0 → x.state ≠ .out → exec i s = .next ((takeOut c .host .host none
            (if live = some .live ∨ live = some .quiet then liftSend c .stand s else s)).answered f
              .ok [])) ∧
          (b = 1 → x.state ≠ .out → exec i s = .next (s.answered f .ok [])) ∧
          (b = 1 → x.state = .out → x.cause ≠ some .host →
            exec i s = .next (s.answered f .wrongState [])) ∧
          (b = 1 → x.state = .out → x.cause = some .host → live ≠ some .live →
            exec i s = .next (s.answered f .nodeLost [])) ∧
          (b = 1 → x.state = .out → x.cause = some .host → live = some .live →
            exec i s = .next ((returnCar c s).answered f .ok []))))) ∧
  (∀ (c : Nat) (f : Car → Car) (s : State),
    let busy (s : State) : Bool := s.lifts.cars.any fun x => x.state == .boarding || x.state == .carrying
    let t : State := { s with lifts := { s.lifts with cars := s.lifts.cars.modify c f } }
    let siteTold : SiteControl := if busy t = busy s then s.site
      else { s.site with reports := s.site.reports ++ [.cars (busy t)] }
    withCar c f s = { t with site := siteTold })

/-- A STATUS of the panel a present car names, at a floor 0 to 15, gives its last floor and doors. OUT with
another cause than HOST the car returns; in RECALL open at the target it is PARKED. In TO_PICKUP open at the
target the calls from that floor, in queue order up to the capacity, become the trip, reported BOARDED, the
boarding timer starts and ENABLE_FLOORS goes out; with none it stands. Doors that close in BOARDING stop the
timer and enter CARRYING, or end an empty trip. In CARRYING with doors open the calls for the floor are
completed, each reported and recorded, the last 4 kept; with none left the trip ends and the car is IDLE,
else ENABLE_FLOORS goes out again. The drain takes the cars in turn: their queued calls are cancelled HELD,
a car in TO_PICKUP stands and is IDLE; then Site Control is answered. An evacuation cancels every boarded
and then every queued call of each present car not OUT, and recalls it to the recall floor it then reads, or
the nearest end of its range. The end of an evacuation stands every car in RECALL or PARKED, which is IDLE.
That the recall floor is kept from then on is log 36, the trip's capacity log 38, both the model's. -/
def Obligations.LiftsFollowTheSiteOrders : Prop :=
  (∀ (s : State) (rest : List LiftOrder),
    let u := { s with lifts := { s.lifts with orders := rest } }
    let cars := List.range 4
    (s.lifts.orders = .drain :: rest → exec .drainBegin s = .next (toSite .drainAnswer
      (cars.foldl (fun s c => match s.car c with
        | none => s
        | some x =>
          let t := x.queue.foldl (cancelCall c .held false)
            (withCar c (fun x => { x with queue := [] }) s)
          if x.state = .toPickup then standIdle c t else t) u))) ∧
    (s.lifts.orders = .evacBegin :: rest → exec .evacuationBeginLifts s = .next
      (cars.foldl (fun s c => match s.car c with
        | none => s
        | some x =>
          if x.record.val.present = true ∧ x.state ≠ .out then
            recallCar c (withCar c (fun x =>
                { x with trip := none, queue := [], timer := none, departSent := false, state := .recall })
              (x.queue.foldl (cancelCall c .evacuation false)
                ((match x.trip with
                  | some t => t.calls
                  | none => []).foldl (cancelCall c .evacuation true) s)))
          else s)
        { s with lifts :=
          { s.lifts with orders := rest, recallFloor := s.site.params.val.recallFloor } })) ∧
    (s.lifts.orders = .evacEnd :: rest → exec .evacuationEndLifts s = .next
      (cars.foldl (fun s c => match s.car c with
        | none => s
        | some x => if x.state = .recall ∨ x.state = .parked then standIdle c s else s) u)) ∧
    (∀ c, standIdle c s = idleDispatch c
      (withCar c (fun x => { x with target := none, state := .idle }) (liftSend c .stand s))) ∧
    (∀ c x, s.car c = some x →
      let floor := max x.record.val.low (min x.record.val.high s.recallFloor)
      recallCar c s = withCar c (fun x => { x with target := some floor, state := .recall })
        (liftSend c (.recall floor) s))) ∧
  (∀ (s : State) (g : Seg) (n c floor : Nat) (doors : Bool) (x : Car), s.car c = some x →
    let named := x.record.val.present = true ∧ x.record.val.seg = g ∧ x.record.val.node = n ∧
      floor ≤ 15
    let seen := withCar c (fun x => { x with lastFloor := some floor, lastDoorsOpen := some doors }) s
    let status := panelStatus g n c floor doors s
    let arrives := doors = true ∧ x.target = some floor
    let calls := match x.trip with
      | some t => t.calls
      | none => []
    let ended (u : State) : State :=
      idleDispatch c (withCar c (fun x => { x with trip := none, state := .idle }) u)
    (¬named → status = s) ∧
    (named →
      (x.state = .out → x.cause = some .host → status = seen) ∧
      (x.state = .out → x.cause ≠ some .host → status = returnCar c seen) ∧
      (x.state = .idle ∨ x.state = .parked → status = seen) ∧
      (x.state = .recall → arrives →
        status = withCar c (fun x => { x with state := .parked, target := none }) seen) ∧
      (x.state = .recall ∨ x.state = .toPickup → ¬arrives → status = seen) ∧
      (x.state = .toPickup → arrives →
        let boards := (takeCalls floor x.record.val.capacity x.queue).1
        let stays := (takeCalls floor x.record.val.capacity x.queue).2
        (boards = [] → status = standIdle c seen) ∧
        (boards ≠ [] → status = sendEnable c
          (boards.foldl (fun s k => toVisitsCall (.boarded k.id c) s) (withCar c (fun y =>
            { y with
              queue := stays, target := none, state := .boarding, departSent := false
              trip := some { calls := boards, floor := floor, capacity := y.record.val.capacity }
              timer := some (s.site.seconds + y.record.val.boardingWindow) }) seen)))) ∧
      (x.state = .boarding → doors = true → status = seen) ∧
      (x.state = .boarding → doors = false →
        let closed := withCar c (fun x => { x with timer := none }) seen
        (calls = [] → status = ended closed) ∧
        (calls ≠ [] → status = withCar c (fun x => { x with state := .carrying }) closed)) ∧
      (x.state = .carrying → calls = [] → status = ended seen) ∧
      (x.state = .carrying → calls ≠ [] → doors = false → status = seen) ∧
      (x.state = .carrying → calls ≠ [] → doors = true →
        let done := calls.filter fun k => k.dest == floor
        let after := done.foldl (fun u k => withCar c (fun x =>
          { x with
            trip := x.trip.map fun t => { t with calls := t.calls.filter fun j => j.id != k.id }
            history := (if x.history.length < 4 then x.history else x.history.drop 1) ++
              [{ id := k.id, origin := k.origin, dest := k.dest, at_ := u.site.seconds }] })
          (toVisitsCall (.completed k.id floor) u)) seen
        (done = [] → status = seen) ∧
        (done ≠ [] → (∀ k ∈ calls, k.dest = floor) → status = ended after) ∧
        (done ≠ [] → (∃ k ∈ calls, k.dest ≠ floor) → status = sendEnable c after)))) ∧
  (∀ (floor n : Nat) (q : List Call),
    let r := takeCalls floor n q
    r.1 = (q.filter fun k => k.origin == floor).take n ∧ r.2.Sublist q ∧
    (r.2.filter fun k => k.origin == floor) = (q.filter fun k => k.origin == floor).drop n ∧
    (r.2.filter fun k => k.origin != floor) = q.filter fun k => k.origin != floor) ∧
  (∀ (s : State) (c : Nat) (x : Car), s.car c = some x →
    (∀ cmd, liftSend c cmd s =
      submit x.record.val.seg x.record.val.node (.command cmd) .urgent (.lift c cmd) s) ∧
    (x.trip = none → sendEnable c s = s) ∧
    (∀ t, x.trip = some t → sendEnable c s = liftSend c (.enableFloors (floorSet t.calls)) s ∧
      ∀ i, i < 16 → ((floorSet t.calls).getLsbD i = true ↔ ∃ k ∈ t.calls, k.dest = i)))

/-! ## Field segments (R143 to R181) -/

/-- A submission to a node that cannot take it completes NODE_LOST; with room it joins by priority, after
the last of equal or higher; a full queue displaces the youngest POLL or, for URGENT, NORMAL, and else
refuses with FIELD_FULL. A change of the queue or the command in flight reports the segment's busy summary
exactly when it changes. A cancelled entry completes CANCELLED at once while queued or waiting, and at the
end of a copy being sent. A poll turn goes to the next enrolled node. After the gap a pending ack goes
first, then a repeat or resend, then the queue head with the node's next sequence. A clean copy takes 1 from
the transmit count and starts the wait; a mismatch adds 8; the counts put the segment in CAUTION or ACTIVE
with a notice, and at 255 isolate it: a notice, the command in flight and the queue SEGMENT_ISOLATED in
order, the ack and the ring dropped, the consumers of the nodes told. A wait that ends gives NO_ANSWER, a
repeat, or NO_ACK; while a frame is being received its end waits. RESTORE_SEGMENT brings back an ISOLATED
segment. A command to be ended ends with its copy, and a removal's loss that waited is then told. A disabled
segment still finishing a copy takes no wait, and ends its commands with the copy, which leaves the count as
it is. A POLL unanswered takes LIVE to QUIET and, at the third, QUIET to LOST: a notice, the queued commands
NODE_LOST, the consumer told. Outcomes go to the owner named by the token. The model's choices:
RESTORE_SEGMENT leaves the receiver on an idle line (log 24), an expiry of a timer, gap or wait that does
not run does nothing (log 2), and what waits for a copy being sent, with what its isolation makes of it (log
25). -/
def Obligations.CommandsStopAndWait : Prop :=
  (∀ (s : State) (g : Seg) (n : Nat) (fr : TxFrame) (p : Priority) (t : Token),
    let q := (s.seg g).queue
    let e : TxEntry := ⟨n, fr, p, t, none, 0⟩
    (s.node g n = none → submit g n fr p t s = handOutcome g .nodeLost t s) ∧
    (∀ x, s.node g n = some x →
      let refused := x.entry.kind.takes fr = false ∨ x.liveness = .unreachable ∨
        (x.liveness = .lost ∧ fr ≠ .poll)
      (refused → submit g n fr p t s = handOutcome g .nodeLost t s) ∧
      (¬refused → q.length < 16 →
        submit g n fr p t s = withSeg g (fun y => { y with queue := joinQueue e y.queue }) s) ∧
      (¬refused → 16 ≤ q.length →
        let holds (r : Priority) : Prop := ∃ y ∈ q, y.priority = r
        let drops (r : Priority) : Prop := ∃ a y b, q = a ++ y :: b ∧ y.priority = r ∧
          (∀ z ∈ b, z.priority ≠ r) ∧ submit g n fr p t s =
            handOutcome g .displaced y.token
              (withSeg g (fun y => { y with queue := joinQueue e (a ++ b) }) s)
        (p ≠ .poll → holds .poll → drops .poll) ∧
        (p = .urgent → ¬holds .poll → holds .normal → drops .normal) ∧
        (p = .poll ∨ ¬holds .poll ∧ (p = .normal ∨ ¬holds .normal) →
          submit g n fr p t s = handOutcome g .fieldFull t s)))) ∧
  (∀ (s : State) (g : Seg),
    let x := s.seg g
    let turn (n : Nat) : Answer := .next ((if x.polled n = true then s
      else submit g n .poll .poll .poll s).modSeg g fun y => { y with pollPos := n })
    (x.pollTimer = true → ∀ e, x.nodes.find? (fun e => x.pollPos < e.1) = some e →
      exec (.pollTimerExpiry g) s = turn e.1) ∧
    (x.pollTimer = true → (∀ e ∈ x.nodes, e.1 ≤ x.pollPos) → ∀ e, x.nodes.head? = some e →
      exec (.pollTimerExpiry g) s = turn e.1) ∧
    (x.pollTimer = false ∨ x.nodes = [] → exec (.pollTimerExpiry g) s = .next s)) ∧
  (∀ (s : State) (g : Seg),
    let x := s.seg g
    let gap := exec (.turnaroundGapExpiry g) s
    (x.state.running = false ∨ x.sending ≠ none → gap = .next s) ∧
    (x.state.running = true → x.sending = none →
      (∀ n k, x.pendingAck = some (n, k) →
        gap = .next (s.modSeg g fun y => { y with sending := some (.ack n k) })) ∧
      (x.pendingAck = none →
        (∀ f, x.inFlight = some f → f.phase = .repeatDue → gap = .next (withSeg g (fun y =>
          { y with
            inFlight := some { f with phase := .sending, repeatFlag := true }
            sending := some .command }) s)) ∧
        (∀ f, x.inFlight = some f → f.phase = .resendDue → gap = .next (withSeg g (fun y =>
          { y with inFlight := some { f with phase := .sending }, sending := some .command }) s)) ∧
        (∀ e rest d, x.inFlight = none → x.queue = e :: rest → s.node g e.node = some d →
          gap = .next (withSeg g (fun y =>
            { y with
              queue := rest
              inFlight := some ⟨{ e with seq := some d.nextSeq }, .sending, false, none⟩
              sending := some .command })
            (withNode g e.node (fun d => { d with nextSeq := d.nextSeq + 1 }) s)))))) ∧
  (∀ (s : State) (g : Seg) (c : Sending),
    let x := s.seg g
    let worse := min 255 (x.txFaults + 8)
    x.sending = some c → x.closing = false →
    (∃ t, exec (.copySent g) s = .next t ∧ (t.seg g).sending = none ∧ (t.seg g).lossesOwed = [] ∧
      (t.seg g).txFaults = x.txFaults - 1 ∧ (t.seg g).queue = x.queue ∧
      (∀ n k, c = .ack n k → x.pendingAck = some (n, k) → (t.seg g).pendingAck = none) ∧
      (∀ f, c = .command → x.inFlight = some f → f.endAs = none →
        (t.seg g).inFlight = some { f with phase := .waiting })) ∧
    (∀ f o, c = .command → x.inFlight = some f → f.endAs = some o →
      let clean := (setTxFaults g (x.txFaults - 1) s).modSeg g fun y => { y with sending := none }
      exec (.copySent g) s = .next (applyRate g (tellOwed g (handOutcome g o f.entry.token
        (withSeg g (fun y => { y with inFlight := none }) clean))))) ∧
    (∀ f o, worse < 255 → c = .command → x.inFlight = some f → f.endAs = some o →
      let stopped := (setTxFaults g worse s).modSeg g fun y => { y with sending := none }
      exec (.readbackMismatch g) s = .next (applyRate g (tellOwed g (handOutcome g o f.entry.token
        (withSeg g (fun y => { y with inFlight := none }) stopped))))) ∧
    (worse < 255 → ∃ t, exec (.readbackMismatch g) s = .next t ∧ (t.seg g).sending = none ∧
      (t.seg g).lossesOwed = [] ∧
      (t.seg g).txFaults = worse ∧ (t.seg g).queue = x.queue ∧ (t.seg g).pendingAck = x.pendingAck ∧
      (∀ f, c = .command → x.inFlight = some f → f.endAs = none →
        (t.seg g).inFlight = some { f with phase := .resendDue })) ∧
    (worse = 255 →
      let down := putNotice (.segmentState g x.state .isolated 255 x.rxFaults) (s.modSeg g fun y =>
        { y with txFaults := 255, state := .isolated, sending := none, pollTimer := false })
      let ended := completeQueued g (fun _ => true) .segmentIsolated
        (completeFlight g .segmentIsolated down)
      let emptied := tellOwed g (emptyRing g (ended.modSeg g fun y => { y with pendingAck := none }))
      exec (.readbackMismatch g) s = .next
        ((((emptied.seg g).nodes.filter fun e =>
            e.2.liveness == .live || e.2.liveness == .quiet).map fun e => (e.1, e.2.entry)).foldl
          (fun s e => tellLoss g e.1 e.2 s)
          (emptied.modSeg g fun y => { y with nodes := y.nodes.map fun e =>
            (e.1, { e.2 with liveness := .unreachable, reportHeld := false }) })) ∧
      ∃ t, exec (.readbackMismatch g) s = .next t ∧ (t.seg g).state = .isolated ∧
        (t.seg g).sending = none ∧ (t.seg g).txFaults = 255 ∧ (t.seg g).queue = [] ∧
        (t.seg g).inFlight = none ∧ (t.seg g).pendingAck = none ∧ (t.seg g).ring = [] ∧
        (t.seg g).pollTimer = false ∧ (t.seg g).lossesOwed = [] ∧
        ∀ e ∈ (t.seg g).nodes, e.2.liveness = .unreachable)) ∧
  (∀ (s : State) (g : Seg) (i : Instr), i = .copySent g ∨ i = .readbackMismatch g →
    let x := s.seg g
    (x.sending = none → exec i s = .next s) ∧
    (x.sending ≠ none → x.closing = true → ∃ t, exec i s = .next t ∧ (t.seg g).sending = none ∧
      (t.seg g).closing = false ∧ (t.seg g).txFaults = x.txFaults ∧ (t.seg g).queue = [] ∧
      (t.seg g).lossesOwed = [] ∧ (t.seg g).inFlight = none)) ∧
  (∀ (s : State) (g : Seg),
    let x := s.seg g
    let rests (i : Instr) : Prop := exec i s = .next s
    (x.closing = true ∨ x.inFlight = none ∨ (∃ f, x.inFlight = some f ∧ f.phase ≠ .waiting) →
      rests (.answerWindowExpiry g) ∧ rests (.ackWaitExpiry g))) ∧
  (∀ (s : State) (g : Seg) (o : TxOutcome) (t : Token),
    (t = .poll ∨ t = .show → handOutcome g o t s = s) ∧
    (t = .denyBlink ∨ (∃ u n, t = .release u n) ∨ (∃ u n, t = .relock u n) ∨
        (∃ u n, t = .serviceRelease u n) →
      handOutcome g o t s = s.modSeg g fun x => { x with toUnits := x.toUnits ++ [.outcome t o] }) ∧
    ((∃ p a n, t = .strike p a n) → handOutcome g o t s =
      s.modSeg g fun x => { x with toPortals := x.toPortals ++ [.outcome t o] }) ∧
    ((∃ c m, t = .lift c m) → handOutcome g o t s =
      s.modSeg g fun x => { x with toLifts := x.toLifts ++ [.outcome t o] })) ∧
  (∀ (s : State) (g : Seg) (n : Nat) (e : NodeEntry),
    (e.kind = .reader → tellLoss g n e s = s) ∧
    (e.kind = .latch → tellLoss g n e s =
      s.modSeg g fun x => { x with toUnits := x.toUnits ++ [.lost n e.binding] }) ∧
    (e.kind = .portalModule → tellLoss g n e s =
      s.modSeg g fun x => { x with toPortals := x.toPortals ++ [.lost n e.binding] }) ∧
    (e.kind = .carPanel → tellLoss g n e s =
      s.modSeg g fun x => { x with toLifts := x.toLifts ++ [.lost n e.binding] })) ∧
  (∀ (s : State) (g : Seg) (n : Nat),
    let missed (l : Liveness) (k : Nat) : State :=
      withNode g n (fun y => { y with liveness := l, missed := k }) s
    (s.node g n = none → pollUnanswered g n s = s) ∧
    (∀ x, s.node g n = some x →
      let dropped := withNode g n (fun y => { y with liveness := .lost, missed := 3, reportHeld := false }) s
      (x.liveness = .unreachable → pollUnanswered g n s = s) ∧
      (x.liveness = .live → pollUnanswered g n s = missed .quiet 1) ∧
      (x.liveness = .quiet → x.missed < 2 → pollUnanswered g n s =
        withNode g n (fun y => { y with missed := x.missed + 1 }) s) ∧
      (x.liveness = .quiet → 2 ≤ x.missed → pollUnanswered g n s = tellLoss g n x.entry
        (completeQueued g (fun e => e.node == n && e.frame != .poll) .nodeLost
          (putNotice (.nodeState g n x.entry.kind .lost 3) dropped))) ∧
      (x.liveness = .lost → pollUnanswered g n s = withNode g n (fun y => { y with missed := 3 }) s))) ∧
  (∀ (s : State) (g : Seg) (f : InFlight),
    let x := s.seg g
    x.closing = false → x.inFlight = some f → f.phase = .waiting →
    let ends := if f.entry.frame = .poll then exec (.answerWindowExpiry g) s else exec (.ackWaitExpiry g) s
    ((∃ r, x.rx = .frame r) →
      ends = .next (s.modSeg g fun y => { y with inFlight := some { f with phase := .waitOver } })) ∧
    ((¬∃ r, x.rx = .frame r) →
      (f.entry.frame = .poll → ends = .next (pollUnanswered g f.entry.node
        (withSeg g (fun y => { y with inFlight := none }) s))) ∧
      (f.entry.frame ≠ .poll → f.entry.repeats < x.settings.val.retryLimit →
        let again : InFlight :=
          { f with phase := .repeatDue, entry := { f.entry with repeats := f.entry.repeats + 1 } }
        ends = .next (withSeg g (fun y => { y with inFlight := some again }) s)) ∧
      (f.entry.frame ≠ .poll → x.settings.val.retryLimit ≤ f.entry.repeats →
        ends = .next (handOutcome g .noAck f.entry.token
          (withSeg g (fun y => { y with inFlight := none }) s))))) ∧
  (∀ (s : State) (f : Frame) (b : Byte) (g : Seg), s.inHand f → f.kind = 0x65 → f.body = [b] →
    b.toNat = segIndex g →
    (s.site.mode = .starting → exec .restoreSegment s = .next (s.answered f .wrongMode [])) ∧
    (s.site.mode ≠ .starting →
      ((s.seg g).state ≠ .isolated → exec .restoreSegment s = .next (s.answered f .wrongState [])) ∧
      ((s.seg g).state = .isolated → exec .restoreSegment s =
        .next ((putNotice (.segmentState g .isolated .active 0 0) (s.modSeg g fun x =>
          { x with
            txFaults := 0, rxFaults := 0, state := .active, ring := [], rx := .idle, overrunHeld := 0
            pendingAck := none, pollPos := 0, pollTimer := true
            rateInUse := x.settings.val.lineRate
            nodes := x.nodes.map fun e =>
              (e.1, { e.2 with liveness := .quiet, missed := 0, lastValid := false }) })).answered f
            .ok [])))) ∧
  (∀ (s : State) (g : Seg) (f : Segment → Segment) (n : Nat),
    let busy (x : Segment) : Bool := x.queue.any (fun e => e.priority != .poll) ||
      match x.inFlight with
      | some w => w.entry.priority != .poll
      | none => false
    let x := f (s.seg g)
    let set := s.modSeg g f
    let old := s.seg g
    let new : SegState := if 96 ≤ n ∨ 96 ≤ old.rxFaults then .caution else .active
    let counted := s.modSeg g fun y => { y with txFaults := n }
    withSeg g f s = (if busy x = busy old then set else { set with site :=
      { s.site with reports := s.site.reports ++ [.segment g (busy x)] } }) ∧
    setTxFaults g n s = (if (old.state = .active ∨ old.state = .caution) ∧ new ≠ old.state then
      putNotice (.segmentState g old.state new n old.rxFaults)
        (counted.modSeg g fun y => { y with state := new })
      else counted) ∧
    tellOwed g s = old.lossesOwed.foldl (fun s e => tellLoss g e.1 e.2 s)
      (s.modSeg g fun y => { y with lossesOwed := [] })) ∧
  (∀ (s : State) (g : Seg) (t : Token),
    let x := s.seg g
    ((∃ e ∈ x.queue, e.token = t) →
      cancel g t s = completeQueued g (fun e => e.token == t) .cancelled s) ∧
    ((∀ e ∈ x.queue, e.token ≠ t) →
      (∀ f, x.inFlight = some f → f.entry.token = t →
        (f.phase ≠ .sending → cancel g t s =
          handOutcome g .cancelled t (withSeg g (fun y => { y with inFlight := none }) s)) ∧
        (f.phase = .sending → f.endAs = none → cancel g t s =
          s.modSeg g fun y => { y with inFlight := some { f with endAs := some .cancelled } }) ∧
        (f.phase = .sending → f.endAs ≠ none → cancel g t s = s)) ∧
      ((∀ f, x.inFlight = some f → f.entry.token ≠ t) → cancel g t s = s))) ∧
  (∀ (e : TxEntry) (q : List TxEntry),
    let before (p r : Priority) : Prop := (p = .urgent ∧ r ≠ .urgent) ∨ (p = .normal ∧ r = .poll)
    ∃ a b, q = a ++ b ∧ joinQueue e q = a ++ e :: b ∧
      (∀ y ∈ a, ¬before e.priority y.priority) ∧
      (∀ y, b.head? = some y → before e.priority y.priority) ∧
      (q.Pairwise (fun y z => ¬before z.priority y.priority) →
        (∀ y ∈ b, before e.priority y.priority) ∧
        (joinQueue e q).Pairwise (fun y z => ¬before z.priority y.priority)))

/-- A character starts a frame when the line was idle, an overrun with fewer than 3 bytes of room, continues
one, its body kept while there is room, or is stray. A frame ends at its length, or corrupt when the line
falls idle; stray characters count once. A wrong check is corrupt; an unknown source, a destination other
than 0 or a kind, length or content its node may not send is foreign; an ACK is handled; a repeated sequence
is a duplicate, and anything else is accepted. Overrun, oversize, foreign and corrupt frames count, corrupt
ones as a receive fault too; a duplicate counts and is acknowledged again. An accepted frame joins the ring,
sets the node's last sequence, makes an ack pending, takes 1 from the receive faults, makes the node LIVE, a
STATUS sets its mirror, and it answers a POLL; an ACK does not join the ring and answers the command of its
sequence. A wait that ended meanwhile is then taken. The router, when nothing holds it, takes the oldest
record of the next ring holding one: discards it, moves on to its ring and hands a CREDENTIAL to the Visit
Engine and is held, or hands a RELEASE_ASK or STATUS on and frees it; it waits while every ring is empty,
and the commit that ends the wait sets its ring (log 43). The model's choices beside this: a record is
judged by its node's present kind alone and a byte a shorter body does not hold reads 0 (log 22), a STATUS
byte other than 1 is CLOSED or RELEASED (log 34), an idle line while sending is not heard (logs 24 and 34),
the order of SEGMENT_STATE and SEGMENT_DIAG (log 37). -/
def Obligations.FramesAreReceivedAndRouted : Prop :=
  (∀ (s : State) (g : Seg) (b : Byte),
    let x := s.seg g
    let room := 512 - x.committed
    let put (rx : Rx) : State := s.modSeg g fun y => { y with rx := rx, overrunHeld := 0 }
    let hears := x.state.running = true ∧ x.sending = none
    (¬hears → exec (.fieldCharacter g b) s = .next s ∧ exec (.fieldLineIdle g) s = .next s) ∧
    (hears → x.rx = .idle →
      (3 ≤ room → exec (.fieldCharacter g b) s = .next (put (.frame ⟨1, none, [b], .normal, 3⟩))) ∧
      (room < 3 → exec (.fieldCharacter g b) s = .next (put (.frame ⟨1, none, [], .overrun, 0⟩))) ∧
      exec (.fieldLineIdle g) s = .next s) ∧
    (hears → ∀ stray, x.rx = .ended stray →
      exec (.fieldCharacter g b) s = .next (s.modSeg g fun y => { y with rx := .ended true }) ∧
      exec (.fieldLineIdle g) s =
        .next (applyRate g (if stray = true then
            countCorrupt g (s.modSeg g fun y => { y with rx := .idle })
          else s.modSeg g fun y => { y with rx := .idle }))) ∧
    (hears → ∀ f, x.rx = .frame f →
      let f' := f.char b x.room
      let ends := ∃ n, f'.length = some n ∧ f'.count = 6 + n
      (ends → exec (.fieldCharacter g b) s = .next (endFrame g f' true (.ended false) s)) ∧
      (¬ends →
        exec (.fieldCharacter g b) s = .next (s.modSeg g fun y => { y with rx := .frame f' })) ∧
      exec (.fieldLineIdle g) s = .next (endFrame g f false .idle s))) ∧
  (∀ (f : RxFrame) (b : Byte) (room : Nat),
    let f' := f.char b room
    let k := f.count + 1
    let len := if k = 4 then some b.toNat else f.length
    let becomes (cls : RxClass) (chars : List Byte) (held : Nat) : Prop :=
      f' = { f with count := k, length := len, cls := cls, chars := chars, held := held }
    (f.cls ≠ .normal → becomes f.cls f.chars f.held) ∧
    (f.cls = .normal → len = none → becomes .normal (f.chars ++ [b]) f.held) ∧
    (f.cls = .normal → ∀ n, len = some n →
      (24 < n → becomes .oversize f.chars f.held) ∧
      (n ≤ 24 → k ≤ 4 ∨ 4 + n < k → becomes .normal (f.chars ++ [b]) f.held) ∧
      (n ≤ 24 → 4 < k → k ≤ 4 + n → room = 0 → becomes .overrun f.chars f.held) ∧
      (n ≤ 24 → 4 < k → k ≤ 4 + n → 0 < room → becomes .normal (f.chars ++ [b]) (f.held + 1)))) ∧
  (∀ (s : State) (g : Seg) (f : RxFrame) (whole : Bool) (rx : Rx),
    let kept := s.modSeg g fun x =>
      { x with rx := rx, overrunHeld := if f.cls = .overrun then f.held else 0 }
    let ends := endFrame g f whole rx s
    (f.cls = .overrun → ends = afterFrame g (countDrop g .overrun kept)) ∧
    (f.cls = .oversize → ends = afterFrame g (countDrop g .oversize kept)) ∧
    (f.cls = .normal → ends = afterFrame g (handleFrame g
      (if whole = true then (s.seg g).classify f.chars else .corrupt) kept)) ∧
    (∀ w, (s.seg g).inFlight = some w → w.phase = .waitOver →
      afterFrame g s = applyRate g (waitEnds g w s)) ∧
    ((∀ w, (s.seg g).inFlight = some w → w.phase ≠ .waitOver) → afterFrame g s = applyRate g s) ∧
    applyRate g s = s.modSeg g fun x => { x with
      rateInUse := if x.sending = none ∧ x.rx = .idle then x.settings.val.lineRate else x.rateInUse }) ∧
  (∀ (s : State) (g : Seg),
    let faults := (s.seg g).rxFaults
    handleFrame g .corrupt s = countCorrupt g s ∧
    countCorrupt g s = countDrop g .corrupt (setRxFaults g (min 255 (faults + 1)) s) ∧
    handleFrame g .foreign s = countDrop g .foreign s ∧
    (∀ n q, handleFrame g (.duplicate n q) s =
      (countDrop g .duplicate s).modSeg g fun x => { x with pendingAck := some (n, q) }) ∧
    (∀ n q, handleFrame g (.ack n q) s =
      answerPoll g n (answerCommand g n q (nodeHeard g n (setRxFaults g (faults - 1) s)))) ∧
    (∀ r : RingRecord,
      let waits := s.router.hand = none ∧ s.segA.ring = [] ∧ s.segB.ring = [] ∧ s.segC.ring = []
      let woken : State := { s with router :=
        { s.router with position := if waits then g else s.router.position } }
      let kept := withNode g r.source (fun x => { x with lastSeq := r.seq, lastValid := true })
        (woken.modSeg g fun x => { x with ring := x.ring ++ [r] })
      let owed := kept.modSeg g fun x => { x with pendingAck := some (r.source, r.seq) }
      let heard := nodeHeard g r.source (setRxFaults g (faults - 1) owed)
      handleFrame g (.accepted r) s = answerPoll g r.source
        (if r.kind = 2 then withNode g r.source (fun x =>
          { x with
            mirror := r.body, changed := x.changed || x.mirror != r.body, reportHeld := true }) heard
        else heard)) ∧
    (∀ c : DropClass,
      let old := (s.seg g).drops.get c
      let t := s.modSeg g fun x => { x with drops := x.drops.set c (min 65535 (old + 1)) }
      countDrop g c s = if (c = .corrupt ∨ c = .duplicate) ∧ old = 127 then
          putNotice (.segmentDiag g c (t.seg g).drops) t
        else t) ∧
    (∀ n : Nat,
      let x := s.seg g
      let t := s.modSeg g fun x => { x with rxFaults := n }
      let new : SegState := if 96 ≤ x.txFaults ∨ 96 ≤ n then .caution else .active
      setRxFaults g n s = if (x.state = .active ∨ x.state = .caution) ∧ new ≠ x.state then
          putNotice (.segmentState g x.state new x.txFaults n)
            (t.modSeg g fun x => { x with state := new })
        else t)) ∧
  (∀ (s : State) (g : Seg) (n : Nat) (q : BitVec 3),
    let live := withNode g n (fun y => { y with liveness := .live, missed := 0 }) s
    (s.node g n = none → nodeHeard g n s = s) ∧
    (∀ x, s.node g n = some x →
      (x.liveness = .unreachable → nodeHeard g n s = s) ∧
      (x.liveness = .lost →
        nodeHeard g n s = putNotice (.nodeState g n x.entry.kind .live 0) live) ∧
      (x.liveness = .live ∨ x.liveness = .quiet → nodeHeard g n s = live)) ∧
    ((s.seg g).inFlight = none → answerPoll g n s = s ∧ answerCommand g n q s = s) ∧
    (∀ f, (s.seg g).inFlight = some f →
      let awaited := f.entry.node = n ∧ (f.phase = .waiting ∨ f.phase = .waitOver)
      let done := handOutcome g .ok f.entry.token
        (withSeg g (fun y => { y with inFlight := none }) s)
      (awaited ∧ f.entry.frame = .poll → answerPoll g n s = done) ∧
      (¬(awaited ∧ f.entry.frame = .poll) → answerPoll g n s = s) ∧
      (awaited ∧ f.entry.frame ≠ .poll ∧ f.entry.seq = some q → answerCommand g n q s = done) ∧
      (¬(awaited ∧ f.entry.frame ≠ .poll ∧ f.entry.seq = some q) → answerCommand g n q s = s))) ∧
  (∀ (x : Segment) (d s c l k₁ k₂ : Byte) (body : List Byte),
    let chars := d :: s :: c :: l :: body ++ [k₁, k₂]
    let good := (crc16 (d :: s :: c :: l :: body)).toNat = 256 * k₁.toNat + k₂.toNat
    let kind := c.toNat / 16
    let seq : BitVec 3 := BitVec.ofNat 3 c.toNat
    (¬good → x.classify chars = .corrupt) ∧
    (good → x.nodes.find s.toNat = none → x.classify chars = .foreign) ∧
    (good → ∀ n, x.nodes.find s.toNat = some n →
      let fits := d = 0 ∧ n.entry.kind.sends kind = true ∧
        body.length = bodyLength n.entry.kind kind ∧ bodyFits kind body = true
      (¬fits → x.classify chars = .foreign) ∧
      (fits → kind = 0 → x.classify chars = .ack s.toNat seq) ∧
      (fits → kind ≠ 0 → n.lastValid = true → n.lastSeq = seq →
        x.classify chars = .duplicate s.toNat seq) ∧
      (fits → kind ≠ 0 → ¬(n.lastValid = true ∧ n.lastSeq = seq) →
        x.classify chars = .accepted ⟨s.toNat, kind, seq, body⟩))) ∧
  (∀ (s : State), (s.router.hand ≠ none ∨ (∀ g, (s.seg g).ring = []) →
      exec .frameRouterTurn s = .next s) ∧
    (s.router.hand = none → ∀ (g : Seg) (r : RingRecord) (more : List RingRecord),
      (s.seg g).ring = r :: more →
      (g = s.router.position ∨ (s.seg s.router.position).ring = [] ∧
        (g = nextSeg s.router.position ∨ (s.seg (nextSeg s.router.position)).ring = [])) →
      let freed (t : State) : State :=
        { t.modSeg g (fun x => { x with ring := x.ring.drop 1 }) with router := ⟨nextSeg g, none⟩ }
      (s.node g r.source = none → exec .frameRouterTurn s = .next (freed s)) ∧
      (∀ n, s.node g r.source = some n →
        let fits := n.entry.kind.sends r.kind = true
        (¬fits → exec .frameRouterTurn s = .next (freed s)) ∧
        (fits → r.kind = 3 → ∀ a, askedBy n.entry.binding (r.body.getD 4 0).toNat = some a →
          exec .frameRouterTurn s = .next
            { s with
              router := ⟨g, some ⟨g, false, true⟩⟩
              visits := { s.visits with waiting := s.visits.waiting ++
                [⟨a, .reader g r.source, BitVec.ofNat 32 (beNat (r.body.take 4))⟩] } }) ∧
        (fits → r.kind = 3 → askedBy n.entry.binding (r.body.getD 4 0).toNat = none →
          exec .frameRouterTurn s = .next (freed s)) ∧
        (fits → r.kind = 4 → exec .frameRouterTurn s =
          .next (freed (releaseAsk g r.source (r.body.getD 0 0).toNat s))) ∧
        (fits → r.kind ≠ 3 → r.kind ≠ 4 → exec .frameRouterTurn s =
          .next (freed (match n.entry.kind, n.entry.binding with
            | .latch, _ => latchStatus g r.source r.body s
            | .portalModule, .portal p =>
              portalStatus g r.source p (if (r.body.getD 0 0).toNat = 1 then .open_ else .closed)
                (if r.body.getD 1 0 = 1 then .pressed else .released) s
            | .carPanel, .car c =>
              panelStatus g r.source c (r.body.getD 0 0).toNat (r.body.getD 1 0 == 1) s
            | _, _ => s))))))

/-! ## Local lines (R182 to R191) -/

/-- A pin change is sampled under every function; under an input function it starts the debounce timer of a
settled line at a difference and stops it at a return, and restarts the count of an unsettled one. An
expiry, or the settle timeout of a line still unsettled, takes the pin level and hands it on as a change or
a starting level. A beacon input is recorded and the beacon worked out of its four inputs by the table of
R187; the phase timer turns the phase. The fire input's change is reported. LINE_WRITE sets the output
value, and a GENERAL_OUT line's pin follows. The model's choices: an expiry of a timer that does not run
does nothing (log 2), and one that runs holds its length and may expire at any moment (log 6). A change of a
CONTACT or EXIT_BUTTON line is told to its portal as a settled change and a starting level as a line
assigned; one of a FIRE_IN line works the fire input out anew; other functions tell nobody. That the portal
takes it within the step is the model's choice, assumption log 4. After a starting level the settled report,
when owed, is sent once no input line is unsettled; that a line written meanwhile is waited for too is the
model's choice, assumption log 42. -/
def Obligations.LinesSettleAndTheBeaconFollows : Prop :=
  (∀ (s : State) (n : Nat) (level : Level) (l : Line), s.line n = some l →
    let func := l.record.val.func
    let input := func.isInput = true
    let wait := s.site.params.val.debounce
    let put (f : Line → Line) : Answer := .next (s.modLine n f)
    (l.pin = level → exec (.linePinChange n level) s = .next s) ∧
    (l.pin ≠ level → ∃ f : Line → Line, exec (.linePinChange n level) s = put f ∧
      (¬input → f l = { l with pin := level }) ∧
      (input → ∀ d, l.debounced = some d →
        f l = { l with pin := level, timer := if d = level then none else some wait }) ∧
      (input → l.debounced = none → l.settleTimer = true →
        f l = { l with pin := level, timer := some wait })) ∧
    (let taken := s.modLine n fun l =>
        { l with debounced := some l.pin, timer := none, settleTimer := false }
      let goes (c : Instr) : Prop :=
        exec c s = .next (if input ∧ l.debounced = none then handStart func taken
          else handChange func taken)
      (l.timer ≠ none → goes (.debounceTimerExpiry n)) ∧
      (l.timer = none → exec (.debounceTimerExpiry n) s = .next s) ∧
      (l.settleTimer = true → input → l.debounced = none → goes (.lineSettleTimeout n)) ∧
      (l.settleTimer = false ∨ ¬input ∨ l.debounced ≠ none →
        exec (.lineSettleTimeout n) s = .next s))) ∧
  (∀ s : State,
    let active := ∃ l ∈ s.lines.list, l.record.val.func = .fireIn ∧
      l.debounced = some l.record.val.active
    (active → s.lines.fireInput = false → updateFire s =
      toSiteFire (.change true) { s with lines := { s.lines with fireInput := true } }) ∧
    (¬active → s.lines.fireInput = true → updateFire s =
      toSiteFire (.change false) { s with lines := { s.lines with fireInput := false } }) ∧
    ((active ↔ s.lines.fireInput = true) → updateFire s = s)) ∧
  (∀ (s : State) (r : BeaconReport) (rest : List BeaconReport), s.lines.reports = r :: rest →
    let l := { s.lines with reports := rest }
    let m : LineBlock := match r with
      | .evacuate b => { l with evacFlag := b }
      | .unitForced b => { l with unitForced := b }
      | .portalAlarm b => { l with portalAlarm := b }
      | .onAlarms b => { l with beaconOnAlarms := b }
    let alarmed := m.beaconOnAlarms = true ∧ (m.unitForced = true ∨ m.portalAlarm = true)
    let becomes (b : Beacon) (timer : Bool) : Prop := exec .beaconInputReport s =
      .next (setBeacon b { s with lines := { m with phaseTimer := timer } })
    (m.evacFlag = true → (∃ lit, m.beacon = .flashing lit) →
      exec .beaconInputReport s = .next { s with lines := m }) ∧
    (m.evacFlag = true → (¬∃ lit, m.beacon = .flashing lit) → becomes (.flashing true) true) ∧
    (m.evacFlag = false → alarmed → becomes .steady false) ∧
    (m.evacFlag = false → ¬alarmed → becomes .off false)) ∧
  (∀ s : State,
    (∀ lit, s.lines.phaseTimer = true → s.lines.beacon = .flashing lit →
      exec .phaseTimerExpiry s = .next (setBeacon (.flashing !lit) s)) ∧
    (s.lines.phaseTimer = false → exec .phaseTimerExpiry s = .next s) ∧
    (∀ b, setBeacon b s =
      { s with lines :=
        { s.lines with
          beacon := b
          list := s.lines.list.map fun l => if l.record.val.func = .beacon then
              { l with drive := if b = .steady ∨ b = .flashing true then .active else .other }
            else l } })) ∧
  (∀ (s : State) (f : Frame), s.inHand f → f.kind = 0x71 →
    (f.body.length ≠ 2 → exec .lineWrite s = .next (s.answered f .badFormat [])) ∧
    (∀ n v : Byte, f.body = [n, v] →
      (11 < n.toNat ∨ 1 < v.toNat → exec .lineWrite s = .next (s.answered f .badValue [])) ∧
      (n.toNat ≤ 11 → v.toNat ≤ 1 → s.site.mode = .starting →
        exec .lineWrite s = .next (s.answered f .wrongMode [])) ∧
      (n.toNat ≤ 11 → v.toNat ≤ 1 → s.site.mode ≠ .starting → exec .lineWrite s =
        .next ((s.modLine n.toNat fun l =>
          { l with
            output := v = 1
            drive := if l.record.val.func = .generalOut then if v = 1 then .active else .other
              else l.drive }).answered f .ok [])))) ∧
  (∀ (s : State) (func : LineFunction),
    let started : State := match func with
      | .contact p | .exitButton p => lineAssigned p s
      | .fireIn => updateFire s
      | _ => s
    handChange func s = (match func with
      | .contact p | .exitButton p => lineChanged p s
      | .fireIn => updateFire s
      | _ => s) ∧
    handStart func s = reportSettled started) ∧
  (∀ s : State,
    let unsettled := ∃ l ∈ s.lines.list, l.record.val.func.isInput = true ∧ l.debounced = none
    (s.lines.settledOwed = true → ¬unsettled → reportSettled s =
      toSiteFire (.settled s.lines.fireInput)
        { s with lines := { s.lines with settledOwed := false } }) ∧
    (s.lines.settledOwed = false ∨ unsettled → reportSettled s = s))
end

