-- ==== Sys2Proof/Laws/Moves.lean ====
section
/-! SUPPORT. What an operation may change: the relation `Moves` between two states, its composition, and its
form for one update of each block. Every shared operation has one lemma of this form in the files
Sys2Proof/Laws/Moves*.lean. -/

namespace Sys2Proof.Machine

/-- From `s` to `t` only the parts named by `m` may change, the commands waiting stay, and a state in form stays
in form, and so does a Visit Table. Where the visit number counter stays, no tenant gains a visit. -/
structure Moves (m : Cell → Prop) (s t : State) : Prop where
  pending : t.pending = s.pending
  same : ∀ c, ¬ m c → c.same s t
  inForm : s.inForm → t.inForm
  visits : s.visits.inForm → t.visits.inForm
  fewer : ¬ m .counter → ∀ n, (t.visitsOf n).length ≤ (s.visitsOf n).length

theorem Cell.same_refl (c : Cell) (s : State) : c.same s s := by
  cases c <;> simp [Cell.same]

theorem Cell.same_trans {c : Cell} {s t u : State} (h : c.same s t) (k : c.same t u) : c.same s u := by
  cases c <;> simp only [Cell.same] at h k ⊢ <;> simp_all

theorem Moves.refl (m : Cell → Prop) (s : State) : Moves m s s :=
  ⟨rfl, fun c _ => c.same_refl s, id, id, fun _ _ => Nat.le_refl _⟩

theorem Moves.trans {m : Cell → Prop} {s t u : State} (h : Moves m s t) (k : Moves m t u) : Moves m s u :=
  ⟨k.pending.trans h.pending, fun c hc => Cell.same_trans (h.same c hc) (k.same c hc),
    fun l => k.inForm (h.inForm l), fun v => k.visits (h.visits v),
    fun hc n => Nat.le_trans (k.fewer hc n) (h.fewer hc n)⟩

/-- A part that an operation leaves alone. -/
theorem Moves.keep {m : Cell → Prop} {s t : State} (h : Moves m s t) {c : Cell} (hc : ¬ m c) :
    c.same s t := h.same c hc

/-- A fold of an operation that moves moves. -/
theorem Moves.foldl {α : Type} {m : Cell → Prop} {s : State} {f : State → α → State}
    (hf : ∀ t a, Moves m s t → Moves m s (f t a)) (l : List α) :
    ∀ t, Moves m s t → Moves m s (l.foldl f t) := by
  induction l with
  | nil => exact fun _ h => h
  | cons a l ih => exact fun t h => ih _ (hf t a h)

/-! ## One block replaced -/

theorem moves_host {m : Cell → Prop} {s t : State} {v : HostLink} (h : Moves m s t)
    (hl : t.host.inForm → v.inForm)
    (h1 : m .hostRx ∨ v.rx = t.host.rx) (h2 : m .linkFaults ∨ v.linkFaults = t.host.linkFaults)
    (h3 : m .rate ∨ v.rate = t.host.rate) (h4 : m .requests ∨ v.requests = t.host.requests)
    (h5 : m .serving ∨ v.serving = t.host.serving) (h6 : m .replies ∨ v.replies = t.host.replies)
    (h7 : m .notices ∨ (v.notices = t.host.notices ∧ v.dropCount = t.host.dropCount)) :
    Moves m s { t with host := v } := by
  refine h.trans ⟨rfl, fun c hc => ?_, fun l => ⟨hl l.1, l.2, l.3, l.4, l.5, l.6⟩, id, fun _ _ => Nat.le_refl _⟩
  cases c <;> first
    | exact rfl
    | exact ⟨rfl, rfl⟩
    | exact ⟨rfl, rfl, rfl⟩
    | exact ⟨rfl, rfl, rfl, rfl⟩
    | exact ⟨rfl, rfl, rfl, rfl, rfl, rfl⟩
    | exact h1.resolve_left hc
    | exact h2.resolve_left hc
    | exact h3.resolve_left hc
    | exact h4.resolve_left hc
    | exact h5.resolve_left hc
    | exact h6.resolve_left hc
    | exact h7.resolve_left hc

theorem moves_store {m : Cell → Prop} {s t : State} {v : Store} (h : Moves m s t)
    (hl : t.store.inForm → v.inForm)
    (h1 : m .slots ∨
      { v with lookups := [], results := [] } = { t.store with lookups := [], results := [] })
    (h2 : m .lookups ∨ v.lookups = t.store.lookups) (h3 : m .results ∨ v.results = t.store.results) :
    Moves m s { t with store := v } := by
  refine h.trans ⟨rfl, fun c hc => ?_, fun l => ⟨l.1, hl l.2, l.3, l.4, l.5, l.6⟩, id, fun _ _ => Nat.le_refl _⟩
  cases c <;> first
    | exact rfl
    | exact ⟨rfl, rfl⟩
    | exact ⟨rfl, rfl, rfl⟩
    | exact ⟨rfl, rfl, rfl, rfl⟩
    | exact ⟨rfl, rfl, rfl, rfl, rfl, rfl⟩
    | exact h1.resolve_left hc
    | exact h2.resolve_left hc
    | exact h3.resolve_left hc

theorem moves_site {m : Cell → Prop} {s t : State} {v : SiteControl} (h : Moves m s t)
    (hl : t.site.seconds ≤ Config.maxSeconds → v.seconds ≤ Config.maxSeconds)
    (h1 : m .mode ∨ (v.mode = t.site.mode ∧ v.returnMode = t.site.returnMode ∧
      v.evacCause = t.site.evacCause))
    (h2 : m .fire ∨ (v.fireCheckDone = t.site.fireCheckDone ∧ v.fireInput = t.site.fireInput))
    (h3 : m .drain ∨ (v.portalsBusy = t.site.portalsBusy ∧ v.carsBusy = t.site.carsBusy ∧
      v.segABusy = t.site.segABusy ∧ v.segBBusy = t.site.segBBusy ∧ v.segCBusy = t.site.segCBusy ∧
      v.drainOwed = t.site.drainOwed))
    (h4 : m .seconds ∨ v.seconds = t.site.seconds) (h5 : m .clock ∨ v.clock = t.site.clock)
    (h6 : m .copies ∨ (v.params = t.site.params ∧ v.classes = t.site.classes ∧
      v.windows = t.site.windows))
    (h7 : m .siteIn ∨ (v.reports = t.site.reports ∧ v.fireReports = t.site.fireReports ∧
      v.closuresAnswer = t.site.closuresAnswer)) :
    Moves m s { t with site := v } := by
  refine h.trans ⟨rfl, fun c hc => ?_, fun l => ⟨l.1, l.2, hl l.3, l.4, l.5, l.6⟩, id, fun _ _ => Nat.le_refl _⟩
  cases c <;> first
    | exact rfl
    | exact ⟨rfl, rfl⟩
    | exact ⟨rfl, rfl, rfl⟩
    | exact ⟨rfl, rfl, rfl, rfl⟩
    | exact ⟨rfl, rfl, rfl, rfl, rfl, rfl⟩
    | exact h1.resolve_left hc
    | exact h2.resolve_left hc
    | exact h3.resolve_left hc
    | exact h4.resolve_left hc
    | exact h5.resolve_left hc
    | exact h6.resolve_left hc
    | exact h7.resolve_left hc

/-- A table that only loses visits gives no tenant a visit more. -/
theorem fewer_filter (l : List Visit) (p : Visit → Bool) (n : Nat) :
    ((l.filter p).filter fun v => v.tenant == n).length ≤ (l.filter fun v => v.tenant == n).length :=
  (List.filter_sublist.filter _).length_le

/-- A table whose visits keep their tenants gives no tenant a visit more. -/
theorem fewer_map (l : List Visit) {f : Visit → Visit} (hf : ∀ v, (f v).tenant = v.tenant) (n : Nat) :
    ((l.map f).filter fun v => v.tenant == n).length ≤ (l.filter fun v => v.tenant == n).length := by
  simp [List.filter_map, Function.comp_def, hf]

theorem moves_visits {m : Cell → Prop} {s t : State} {v : VisitEngine} (h : Moves m s t)
    (hl : t.visits.inForm → v.inForm)
    (h1 : m .table ∨ v.table = t.visits.table) (h2 : m .counter ∨ v.counter = t.visits.counter)
    (h3 : m .decision ∨ (v.decision = t.visits.decision ∧ v.waiting = t.visits.waiting))
    (h4 : m .visitsIn ∨ (v.portalReports = t.visits.portalReports ∧
      v.callReports = t.visits.callReports ∧ v.openedReports = t.visits.openedReports ∧
      v.orders = t.visits.orders))
    (h5 : m .counter ∨ ∀ n, (v.table.filter fun x => x.tenant == n).length ≤ (t.visitsOf n).length := by
      exact .inr fun _ => Nat.le_refl _) :
    Moves m s { t with visits := v } := by
  refine h.trans ⟨rfl, fun c hc => ?_, fun l => ⟨l.1, l.2, l.3, l.4, l.5, l.6⟩, hl, h5.resolve_left⟩
  cases c <;> first
    | exact rfl
    | exact ⟨rfl, rfl⟩
    | exact ⟨rfl, rfl, rfl⟩
    | exact ⟨rfl, rfl, rfl, rfl⟩
    | exact ⟨rfl, rfl, rfl, rfl, rfl, rfl⟩
    | exact h1.resolve_left hc
    | exact h2.resolve_left hc
    | exact h3.resolve_left hc
    | exact h4.resolve_left hc

theorem moves_portals {m : Cell → Prop} {s t : State} {v : PortalController} (h : Moves m s t)
    (h1 : m .portals ∨ v.list = t.portals.list)
    (h2 : m .portalsIn ∨ (v.orders = t.portals.orders ∧ v.evac = t.portals.evac)) :
    Moves m s { t with portals := v } := by
  refine h.trans ⟨rfl, fun c hc => ?_, fun l => ⟨l.1, l.2, l.3, l.4, l.5, l.6⟩, id, fun _ _ => Nat.le_refl _⟩
  cases c <;> first
    | exact rfl
    | exact ⟨rfl, rfl⟩
    | exact ⟨rfl, rfl, rfl⟩
    | exact ⟨rfl, rfl, rfl, rfl⟩
    | exact ⟨rfl, rfl, rfl, rfl, rfl, rfl⟩
    | exact h1.resolve_left hc
    | exact h2.resolve_left hc

theorem moves_units {m : Cell → Prop} {s t : State} {v : UnitDoors} (h : Moves m s t)
    (hl : t.inForm → Table.sorted v.entries)
    (h1 : m .entries ∨ v.entries = t.units.entries) (h2 : m .presence ∨ v.presence = t.units.presence)
    (h3 : m .unitsIn ∨ v.orders = t.units.orders) :
    Moves m s { t with units := v } := by
  refine h.trans ⟨rfl, fun c hc => ?_, fun l => ⟨l.1, l.2, l.3, l.4, hl l, l.6⟩, id, fun _ _ => Nat.le_refl _⟩
  cases c <;> first
    | exact rfl
    | exact ⟨rfl, rfl⟩
    | exact ⟨rfl, rfl, rfl⟩
    | exact ⟨rfl, rfl, rfl, rfl⟩
    | exact ⟨rfl, rfl, rfl, rfl, rfl, rfl⟩
    | exact h1.resolve_left hc
    | exact h2.resolve_left hc
    | exact h3.resolve_left hc

theorem moves_lifts {m : Cell → Prop} {s t : State} {v : LiftScheduler} (h : Moves m s t)
    (hl : (∀ x ∈ t.lifts.cars, x.inForm) → ∀ x ∈ v.cars, x.inForm)
    (h1 : m .cars ∨ v.cars = t.lifts.cars)
    (h2 : m .liftsIn ∨ (v.withdrawals = t.lifts.withdrawals ∧ v.orders = t.lifts.orders))
    (h3 : m .recallFloor ∨ v.recallFloor = t.lifts.recallFloor := by exact .inr rfl) :
    Moves m s { t with lifts := v } := by
  refine h.trans ⟨rfl, fun c hc => ?_, fun l => ⟨l.1, l.2, l.3, l.4, l.5, hl l.6⟩, id, fun _ _ => Nat.le_refl _⟩
  cases c <;> first
    | exact rfl
    | exact ⟨rfl, rfl⟩
    | exact ⟨rfl, rfl, rfl⟩
    | exact ⟨rfl, rfl, rfl, rfl⟩
    | exact ⟨rfl, rfl, rfl, rfl, rfl, rfl⟩
    | exact h1.resolve_left hc
    | exact h2.resolve_left hc
    | exact h3.resolve_left hc

theorem moves_router {m : Cell → Prop} {s t : State} {v : Router} (h : Moves m s t) (h1 : m .router) :
    Moves m s { t with router := v } := by
  refine h.trans ⟨rfl, fun c hc => ?_, fun l => ⟨l.1, l.2, l.3, l.4, l.5, l.6⟩, id, fun _ _ => Nat.le_refl _⟩
  cases c <;> first
    | exact rfl
    | exact ⟨rfl, rfl⟩
    | exact ⟨rfl, rfl, rfl⟩
    | exact ⟨rfl, rfl, rfl, rfl⟩
    | exact ⟨rfl, rfl, rfl, rfl, rfl, rfl⟩
    | exact absurd h1 hc

theorem moves_lines {m : Cell → Prop} {s t : State} {v : LineBlock} (h : Moves m s t)
    (h1 : m .lines ∨ (v.list = t.lines.list ∧ v.fireInput = t.lines.fireInput ∧
      v.settledOwed = t.lines.settledOwed))
    (h2 : m .beacon ∨ (v.beacon = t.lines.beacon ∧ v.phaseTimer = t.lines.phaseTimer ∧
      v.evacFlag = t.lines.evacFlag ∧ v.unitForced = t.lines.unitForced ∧
      v.portalAlarm = t.lines.portalAlarm ∧ v.beaconOnAlarms = t.lines.beaconOnAlarms))
    (h3 : m .linesIn ∨ v.reports = t.lines.reports) :
    Moves m s { t with lines := v } := by
  refine h.trans ⟨rfl, fun c hc => ?_, fun l => ⟨l.1, l.2, l.3, l.4, l.5, l.6⟩, id, fun _ _ => Nat.le_refl _⟩
  cases c <;> first
    | exact rfl
    | exact ⟨rfl, rfl⟩
    | exact ⟨rfl, rfl, rfl⟩
    | exact ⟨rfl, rfl, rfl, rfl⟩
    | exact ⟨rfl, rfl, rfl, rfl, rfl, rfl⟩
    | exact h1.resolve_left hc
    | exact h2.resolve_left hc
    | exact h3.resolve_left hc

/-! ## One segment replaced -/

theorem seg_setSeg (s : State) (g h : Seg) (x : Segment) :
    (s.setSeg g x).seg h = if h = g then x else s.seg h := by
  cases g <;> cases h <;> rfl

theorem setSeg_moves {m : Cell → Prop} {s t : State} {g : Seg} {x : Segment} (h : Moves m s t)
    (hl : (t.seg g).inForm → x.inForm) (h1 : m (.segment g)) : Moves m s (t.setSeg g x) := by
  refine h.trans ⟨by cases g <;> rfl, fun c hc => ?_, fun l => ?_, by cases g <;> exact id,
    by cases g <;> exact fun _ _ => Nat.le_refl _⟩
  · cases c with
    | segment k =>
      have hk : k ≠ g := fun e => hc (e ▸ h1)
      simp [Cell.same, seg_setSeg, hk]
    | _ =>
      cases g <;> first
        | exact rfl
        | exact ⟨rfl, rfl⟩
        | exact ⟨rfl, rfl, rfl⟩
        | exact ⟨rfl, rfl, rfl, rfl⟩
        | exact ⟨rfl, rfl, rfl, rfl, rfl, rfl⟩
  · refine ⟨by cases g <;> exact l.1, by cases g <;> exact l.2, by cases g <;> exact l.3, fun k => ?_,
      by cases g <;> exact l.5, by cases g <;> exact l.6⟩
    rw [seg_setSeg]
    split
    · exact hl (l.4 g)
    · exact l.4 k

/-- Nodes that are in canonical form keep a segment in form. -/
theorem inForm_nodes {x : Segment} (h : x.inForm) {n : Table Node} (hn : Table.sorted n) :
    Segment.inForm { x with nodes := n } :=
  ⟨h.1, h.2.1, h.2.2.1, h.2.2.2.1, h.2.2.2.2.1, h.2.2.2.2.2.1, h.2.2.2.2.2.2.1, h.2.2.2.2.2.2.2.1, hn,
    h.2.2.2.2.2.2.2.2.2⟩

theorem inForm_sorted {x : Segment} (h : x.inForm) : Table.sorted x.nodes := h.2.2.2.2.2.2.2.2.1

/-- A ring in form keeps a segment in form. -/
theorem inForm_ring {x y : Segment} (h : x.inForm) (hq : y.queue = x.queue) (h1 : y.txFaults ≤ 255)
    (h2 : y.rxFaults ≤ 255) (hd : y.drops = x.drops) (hn : y.nodes = x.nodes) (hr : y.ringInForm) :
    y.inForm := by
  obtain ⟨a, _, _, d, e, f, g, i, j, _⟩ := h
  exact ⟨hq ▸ a, h1, h2, hd ▸ d, hd ▸ e, hd ▸ f, hd ▸ g, hd ▸ i, hn ▸ j, hr⟩

/-- A segment whose receiver is idle holds no bytes but its committed records. -/
theorem ringInForm_idle {x y : Segment} (h : x.ringInForm) (hr : y.ring = x.ring ∨ y.ring = [])
    (hx : y.rx = .idle) (ho : y.overrunHeld = 0) : y.ringInForm := by
  have h0 : y.held = 0 := by simp only [Segment.held, hx, ho]
  refine ⟨?_, by rw [hx]; trivial⟩
  rw [h0]
  rcases hr with hr | hr
  · have := h.1
    simp only [Segment.committed, hr] at this ⊢
    omega
  · simp only [Segment.committed, hr]
    exact Nat.zero_le _

/-- A ring that loses records keeps its form. -/
theorem ringInForm_drop {x y : Segment} (h : x.ringInForm) {k : Nat} (hr : y.ring = x.ring.drop k)
    (hx : y.rx = x.rx) (ho : y.overrunHeld = x.overrunHeld) : y.ringInForm := by
  have h0 : y.held = x.held := by simp only [Segment.held, hx, ho]
  have h1 : ((x.ring.drop k).map RingRecord.bytes).sum ≤ (x.ring.map RingRecord.bytes).sum := by
    rw [List.map_drop]
    conv => rhs; rw [← List.take_append_drop k (x.ring.map RingRecord.bytes), List.sum_append]
    exact Nat.le_add_left _ _
  refine ⟨?_, by rw [hx]; exact h.2⟩
  have := h.1
  simp only [Segment.committed, hr, h0] at this ⊢
  omega

/-- A receiver that leaves one state without a frame for another keeps its ring's form. -/
theorem ringInForm_quiet {x y : Segment} (h : x.ringInForm) (hx : ∀ f, x.rx ≠ .frame f) (hr : y.ring = x.ring)
    (hy : ∀ f, y.rx ≠ .frame f) (ho : y.overrunHeld = x.overrunHeld) : y.ringInForm := by
  have held : ∀ z : Segment, (∀ f, z.rx ≠ .frame f) → z.held = z.overrunHeld := by
    intro z hz
    unfold Segment.held
    split
    · rename_i f hf
      exact absurd hf (hz f)
    · rfl
  refine ⟨?_, ?_⟩
  · have := h.1
    rw [held x hx] at this
    rw [held y hy, ho]
    simpa only [Segment.committed, hr] using this
  · cases hz : y.rx <;> first | trivial | exact absurd hz (hy _)

/-- Two changes of one segment are one. -/
theorem modSeg_modSeg (s : State) (g : Seg) (f k : Segment → Segment) :
    (s.modSeg g f).modSeg g k = s.modSeg g fun x => k (f x) := by
  cases g <;> rfl

theorem modSeg_moves {m : Cell → Prop} {s t : State} {g : Seg} {f : Segment → Segment} (h : Moves m s t)
    (hl : (t.seg g).inForm → (f (t.seg g)).inForm) (h1 : m (.segment g)) : Moves m s (t.modSeg g f) :=
  setSeg_moves h hl h1

end Sys2Proof.Machine
end

