-- ==== Sys2Proof/Laws/Tables.lean ====
section
/-! SUPPORT. Keyed tables: what finding, putting and removing do to one key and to the canonical form. -/

namespace Sys2Proof.Machine

/-- The canonical form, said of the keys alone. -/
theorem sorted_iff {α : Type} (t : Table α) :
    Table.sorted t ↔ (t.map Prod.fst).Pairwise (· < ·) := by
  unfold Table.sorted
  rw [List.pairwise_map]

/-- A table whose keys are those of a sorted table, or fewer of them, is sorted. -/
theorem sorted_of_keys {α β : Type} {t : Table α} {u : Table β} (h : Table.sorted t)
    (hk : (u.map Prod.fst).Sublist (t.map Prod.fst)) : Table.sorted u :=
  (sorted_iff u).mpr (((sorted_iff t).mp h).sublist hk)

theorem sorted_filter {α : Type} {t : Table α} (h : Table.sorted t) (p : Nat × α → Bool) :
    Table.sorted (t.filter p) := h.sublist List.filter_sublist

theorem sorted_remove {α : Type} {t : Table α} (h : Table.sorted t) (q : Nat) :
    Table.sorted (t.remove q) := sorted_filter h _

theorem sorted_map {α β : Type} {t : Table α} (h : Table.sorted t) (f : Nat × α → Nat × β)
    (hf : ∀ e, (f e).1 = e.1) : Table.sorted (List.map f t) := by
  rw [sorted_iff] at h ⊢
  simpa [List.map_map, Function.comp_def, hf] using h

theorem keys_modify {α : Type} (t : Table α) (q : Nat) (f : α → α) :
    (t.modify q f).map Prod.fst = t.map Prod.fst := by
  unfold Table.modify
  rw [List.map_map]
  refine List.map_congr_left fun e _ => ?_
  simp only [Function.comp_apply]
  split <;> rfl

theorem sorted_modify {α : Type} {t : Table α} (h : Table.sorted t) (q : Nat) (f : α → α) :
    Table.sorted (t.modify q f) := by
  refine sorted_map h _ fun e => ?_
  split <;> rfl

theorem sorted_filterMap {α β : Type} {t : Table α} (h : Table.sorted t) (f : Nat × α → Option (Nat × β))
    (hf : ∀ e e', f e = some e' → e'.1 = e.1) : Table.sorted (List.filterMap f t) := by
  refine sorted_of_keys h ?_
  clear h
  induction t with
  | nil => exact List.Sublist.refl _
  | cons e t ih =>
    cases he : f e with
    | none =>
      rw [List.filterMap_cons_none he]
      exact ih.trans (List.sublist_cons_self _ _)
    | some e' =>
      rw [List.filterMap_cons_some he, List.map_cons, List.map_cons, hf e e' he]
      exact ih.cons_cons _

/-- A table listed by rising numbers is in canonical form. -/
theorem sorted_list {α : Type} {l : List Nat} (h : l.Pairwise (· < ·)) (f : Nat → Option (Nat × α))
    (hf : ∀ n e, f n = some e → e.1 = n) : Table.sorted (l.filterMap f) := by
  rw [sorted_iff]
  refine h.sublist ?_
  clear h
  induction l with
  | nil => exact List.Sublist.refl _
  | cons n l ih =>
    cases he : f n with
    | none =>
      rw [List.filterMap_cons_none he]
      exact ih.trans (List.sublist_cons_self _ _)
    | some e =>
      rw [List.filterMap_cons_some he, List.map_cons, hf n e he]
      exact ih.cons_cons _

/-- The keys of a table after a put. -/
theorem mem_keys_put {α : Type} {t : Table α} {q : Nat} {w : α} {e : Nat × α} (h : e ∈ t.put q w) :
    e = (q, w) ∨ e ∈ t := by
  induction t with
  | nil => exact .inl (by simpa [Table.put] using h)
  | cons a t ih =>
    obtain ⟨k, v⟩ := a
    unfold Table.put at h
    split at h
    · exact (List.mem_cons.mp h).imp_right id
    · split at h
      · exact (List.mem_cons.mp h).imp_right (List.mem_cons_of_mem _)
      · rcases List.mem_cons.mp h with h | h
        · exact .inr (h ▸ List.mem_cons_self)
        · exact (ih h).imp_right (List.mem_cons_of_mem _)

/-- What holds of every key of a table holds of every key after a put of a key it holds of. -/
theorem keys_put {α : Type} {t : Table α} {P : Nat → Prop} (h : ∀ e ∈ t, P e.1) {q : Nat} (hq : P q) (w : α) :
    ∀ e ∈ t.put q w, P e.1 := fun _ he => (mem_keys_put he).elim (fun hw => hw ▸ hq) (h _)

/-- What holds of every key of a table holds of every key of one whose keys are among them. -/
theorem keys_subset {α β : Type} {t : Table α} {u : Table β} {P : Nat → Prop} (h : ∀ e ∈ t, P e.1)
    (hk : ∀ k ∈ u.map Prod.fst, k ∈ t.map Prod.fst) : ∀ e ∈ u, P e.1 := fun e he => by
  obtain ⟨d, hd, hde⟩ := List.mem_map.mp (hk e.1 (List.mem_map_of_mem he))
  exact hde ▸ h d hd

/-- A filtered and mapped table that keeps its keys has no key but those of the table. -/
theorem keys_filterMap {α β : Type} {t : Table α} {P : Nat → Prop} (h : ∀ e ∈ t, P e.1)
    (f : Nat × α → Option (Nat × β)) (hf : ∀ e e', f e = some e' → e'.1 = e.1) :
    ∀ e ∈ List.filterMap f t, P e.1 := fun e he => by
  obtain ⟨d, hd, hde⟩ := List.mem_filterMap.mp he
  exact hf d e hde ▸ h d hd

theorem sorted_put {α : Type} {t : Table α} (h : Table.sorted t) (q : Nat) (w : α) :
    Table.sorted (t.put q w) := by
  induction t with
  | nil => exact List.pairwise_singleton _ _
  | cons a t ih =>
    obtain ⟨k, v⟩ := a
    have hk := (List.pairwise_cons.mp h).1
    unfold Table.put
    split
    · rename_i hlt
      refine List.pairwise_cons.mpr ⟨fun e he => ?_, h⟩
      rcases List.mem_cons.mp he with he | he
      · exact he ▸ hlt
      · exact Nat.lt_trans hlt (hk e he)
    · split
      · rename_i heq
        subst heq
        exact List.pairwise_cons.mpr ⟨hk, (List.pairwise_cons.mp h).2⟩
      · rename_i hle hne
        refine List.pairwise_cons.mpr ⟨fun e he => ?_, ih (List.pairwise_cons.mp h).2⟩
        rcases mem_keys_put he with he | he
        · subst he
          show k < q
          omega
        · exact hk e he

/-- What a key holds after a put. -/
theorem find_put {α : Type} (t : Table α) (q r : Nat) (w : α) :
    (t.put q w).find r = if r = q then some w else t.find r := by
  induction t with
  | nil => simp [Table.put, Table.find, eq_comm]
  | cons a t ih =>
    obtain ⟨k, v⟩ := a
    unfold Table.put
    split
    · simp only [Table.find]
      by_cases hr : r = q
      · simp [hr]
      · simp [hr, Ne.symm hr]
    · split
      · rename_i heq
        subst heq
        simp only [Table.find]
        by_cases hr : r = q
        · simp [hr]
        · simp [hr, Ne.symm hr]
      · rename_i hle hne
        simp only [Table.find, ih]
        by_cases hkr : k = r
        · subst hkr
          simp [Ne.symm hne]
        · simp [hkr]

/-- What a key holds after a removal. -/
theorem find_remove {α : Type} (t : Table α) (q r : Nat) :
    (t.remove q).find r = if r = q then none else t.find r := by
  induction t with
  | nil => simp [Table.remove, Table.find]
  | cons a t ih =>
    obtain ⟨k, v⟩ := a
    simp only [Table.remove] at ih ⊢
    rw [List.filter_cons]
    by_cases hkq : k = q
    · subst hkq
      simp only [bne_self_eq_false, Bool.false_eq_true, if_false, ih, Table.find]
      by_cases hr : r = k
      · simp [hr]
      · simp [hr, Ne.symm hr]
    · simp only [bne_iff_ne, ne_eq, hkq, not_false_eq_true, if_true, Table.find, ih]
      by_cases hkr : k = r
      · subst hkr
        simp [hkq]
      · simp [hkr]

end Sys2Proof.Machine
end

