-- ==== Sys2Proof/Laws/StoreForm.lean ====
section
/-! SUPPORT. The store keeps its tables in canonical form under every operation on them, and the part is in
form on entry to STARTING. -/

namespace Sys2Proof.Machine

theorem sorted_setSlot {α : Type} {t : Table α} (h : Table.sorted t) (k : Nat) (new : Option α)
    (damaged : α) (ok : Bool) : Table.sorted (setSlot t k new damaged ok) := by
  unfold setSlot
  split
  · split
    · exact sorted_put h _ _
    · exact sorted_remove h _
  · exact sorted_put h _ _

theorem keys_setSlot {α : Type} {t : Table α} {P : Nat → Prop} (h : ∀ e ∈ t, P e.1) {k : Nat} (hk : P k)
    (new : Option α) (damaged : α) (ok : Bool) : ∀ e ∈ setSlot t k new damaged ok, P e.1 := by
  unfold setSlot
  split
  · split
    · exact keys_put h hk _
    · exact fun e he => h e (List.mem_filter.mp he).1
  · exact keys_put h hk _

theorem commitWrite_inForm {st : Store} (w : WriteOp) (ok : Bool) (h : st.inForm) (hw : w.inForm) :
    (commitWrite w ok st).inForm := by
  obtain ⟨h1, h2, h3, h4, h5, h6, h7, h8⟩ := h
  unfold commitWrite
  cases w with
  | tenant id r =>
    exact ⟨h1, h2, sorted_setSlot h3 _ _ _ _, h4, h5, h6, h7, h8⟩
  | unit u r =>
    exact ⟨h1, h2, h3, sorted_setSlot h4 _ _ _ _, h5, h6, h7, h8⟩
  | credential slot v r =>
    exact ⟨h1, h2, h3, h4, sorted_setSlot h5 _ _ _ _, h6, keys_setSlot (P := (· < Config.credentialSlots)) h7 hw _ _ _, h8⟩
  | site i v =>
    exact ⟨h1, h2, h3, h4, h5, sorted_setSlot h6 i.key (some (.present v (siteCheck i.key v))) .damaged ok,
      h7, h8⟩

theorem sorted_eraseBlock {α : Type} {tbl : Table α} (h : Table.sorted tbl) (t : TableName) (b : Nat)
    (damage : α → α) (ok : Bool) : Table.sorted (eraseBlock t b damage ok tbl) := by
  unfold eraseBlock
  split
  · exact sorted_filter h _
  · exact sorted_map h _ fun e => by split <;> rfl

theorem keys_eraseBlock {α : Type} {tbl : Table α} {P : Nat → Prop} (h : ∀ e ∈ tbl, P e.1) (t : TableName)
    (b : Nat) (damage : α → α) (ok : Bool) : ∀ e ∈ eraseBlock t b damage ok tbl, P e.1 := by
  unfold eraseBlock
  split
  · exact fun e he => h e (List.mem_filter.mp he).1
  · intro e he
    obtain ⟨d, hd, rfl⟩ := List.mem_map.mp he
    split <;> exact h d hd

theorem eraseStore_inForm {st : Store} (t : TableName) (b : Nat) (ok : Bool) (h : st.inForm) :
    (eraseStore t b ok st).inForm := by
  obtain ⟨h1, h2, h3, h4, h5, h6, h7, h8⟩ := h
  unfold eraseStore
  cases t
  · exact ⟨h1, h2, sorted_eraseBlock h3 .tenant b (fun _ => .damaged) ok, h4, h5, h6, h7, h8⟩
  · exact ⟨h1, h2, h3, sorted_eraseBlock h4 .unit b (fun _ => .damaged) ok, h5, h6, h7, h8⟩
  · exact ⟨h1, h2, h3, h4, sorted_eraseBlock h5 .credential b CredSlot.damage ok, h6,
      keys_eraseBlock (P := (· < Config.credentialSlots)) h7 .credential b CredSlot.damage ok, h8⟩
  · exact ⟨h1, h2, h3, h4, h5, sorted_eraseBlock h6 .site b (fun _ => .damaged) ok, h7, h8⟩

theorem sorted_cutSlot {α : Type} {t : Table α} (h : Table.sorted t) (how : Config.CutSlot) (spoil : α → α)
    (k : Nat) (new : Option α) : Table.sorted (cutSlot how spoil t k new) := by
  unfold cutSlot
  repeat' first
    | exact h
    | exact sorted_put h _ _
    | exact sorted_remove h _
    | exact sorted_modify h _ _
    | split

theorem keys_cutSlot {α : Type} {t : Table α} {P : Nat → Prop} (h : ∀ e ∈ t, P e.1) (how : Config.CutSlot)
    (spoil : α → α) {k : Nat} (hk : P k) (new : Option α) : ∀ e ∈ cutSlot how spoil t k new, P e.1 := by
  unfold cutSlot
  repeat' first
    | exact h
    | exact keys_put h hk _
    | exact fun e he => h e (List.mem_filter.mp he).1
    | exact keys_subset h (fun q hq => by simpa [keys_modify] using hq)
    | split

theorem cutWrite_inForm {st : Store} (how : Config.CutSlot) (w : WriteOp) (h : st.inForm)
    (hw : w.inForm) :
    (cutWrite how w st).inForm := by
  obtain ⟨h1, h2, h3, h4, h5, h6, h7, h8⟩ := h
  unfold cutWrite
  cases w with
  | tenant id r =>
    exact ⟨h1, h2, sorted_cutSlot h3 _ _ _ _, h4, h5, h6, h7, h8⟩
  | unit u r =>
    exact ⟨h1, h2, h3, sorted_cutSlot h4 _ _ _ _, h5, h6, h7, h8⟩
  | credential slot v r =>
    exact ⟨h1, h2, h3, h4, sorted_cutSlot h5 _ _ _ _, h6, keys_cutSlot (P := (· < Config.credentialSlots)) h7 _ _ hw _, h8⟩
  | site i v =>
    exact ⟨h1, h2, h3, h4, h5, sorted_cutSlot h6 how Slot.spoil i.key (some (.present v (siteCheck i.key v))),
      h7, h8⟩

theorem sorted_cutBlock {α : Type} {tbl : Table α} (h : Table.sorted tbl) (how : Nat → Config.CutSlot)
    (spoil : α → α) (t : TableName) (b : Nat) : Table.sorted (cutBlock how spoil t b tbl) := by
  refine sorted_filterMap h _ fun e e' he => ?_
  split at he
  · split at he <;> cases he <;> rfl
  · cases he
    rfl

theorem keys_cutBlock {α : Type} {tbl : Table α} {P : Nat → Prop} (h : ∀ e ∈ tbl, P e.1)
    (how : Nat → Config.CutSlot) (spoil : α → α) (t : TableName) (b : Nat) :
    ∀ e ∈ cutBlock how spoil t b tbl, P e.1 := by
  refine keys_filterMap h _ fun e e' he => ?_
  split at he
  · split at he <;> cases he <;> rfl
  · cases he
    rfl

theorem cutClear_inForm {st : Store} (how : Nat → Config.CutSlot) (c : ClearOp) (h : st.inForm) :
    (cutClear how c st).inForm := by
  obtain ⟨h1, h2, h3, h4, h5, h6, h7, h8⟩ := h
  unfold cutClear
  split
  · exact ⟨h1, h2, sorted_cutBlock h3 _ _ _ _, h4, h5, h6, h7, h8⟩
  · exact ⟨h1, h2, h3, sorted_cutBlock h4 _ _ _ _, h5, h6, h7, h8⟩
  · exact ⟨h1, h2, h3, h4, sorted_cutBlock h5 _ _ _ _, h6, keys_cutBlock (P := (· < Config.credentialSlots)) h7 _ _ _ _, h8⟩
  · exact ⟨h1, h2, h3, h4, h5, sorted_cutBlock h6 _ _ _ _, h7, h8⟩

/-- What a cold start leaves of the store is in form (R31, R42). -/
theorem cut_inForm {st : Store} (n : Nat) (h : st.inForm) : (st.cut n).unfaulted.inForm := by
  have h1 : ∀ u : Store, u.inForm → (match u.clear with
      | some c => cutClear (Config.cutErase n) c u
      | none => u).unfaulted.inForm := fun u hu => by
    split
    · exact cutClear_inForm _ _ hu
    · exact hu
  unfold Store.cut
  dsimp only
  cases hw : st.write with
  | none => exact h1 _ h
  | some w => exact h1 _ (cutWrite_inForm _ _ h (h.2.2.2.2.2.2.2 w hw))

theorem keys_scanCreds (bad : Nat → Bool) (seen : List Word32) (t : Table CredSlot) :
    (scanCreds bad seen t).map Prod.fst = t.map Prod.fst := by
  induction t generalizing seen with
  | nil => rfl
  | cons e t ih =>
    obtain ⟨k, c⟩ := e
    cases c <;> unfold scanCreds <;> (try split) <;> simp [ih]

theorem scanned_inForm {st : Store} (decayed : List SlotRef) (h : st.inForm) :
    (st.scanned decayed).inForm := by
  obtain ⟨h1, h2, h3, h4, h5, h6, h7, h8⟩ := h
  refine ⟨h1, h2, sorted_map h3 _ fun _ => rfl, sorted_map h4 _ fun _ => rfl, ?_,
    sorted_map h6 _ fun _ => rfl, keys_subset (P := (· < Config.credentialSlots)) h7 fun k hk => ?_, h8⟩
  · rw [sorted_iff] at h5 ⊢
    show ((scanCreds _ _ _).map Prod.fst).Pairwise _
    rw [keys_scanCreds]
    exact h5
  · rw [← keys_scanCreds]
    exact hk

/-- The slot that holds a credential value is one of the table's (R25). -/
theorem credSlot_lt {st : Store} (h : st.inForm) {v : Word32} {e : Nat × CredSlot} (he : st.credSlot v = some e) :
    e.1 < Config.credentialSlots := h.2.2.2.2.2.2.1 e (List.mem_of_find?_eq_some he)

theorem lowestFree_le (t : Table CredSlot) (n : Nat) : lowestFree n t ≤ n + t.length := by
  induction t generalizing n with
  | nil => exact Nat.le_refl _
  | cons e t ih =>
    unfold lowestFree
    split
    · have := ih (n + 1)
      simp only [List.length_cons]
      omega
    · exact Nat.le_add_right _ _

/-- The unit records present to a reader are listed by rising number (R2). -/
theorem sorted_presentUnits {st : Store} (h : st.inForm) : Table.sorted st.presentUnits := by
  refine sorted_filterMap h.2.2.2.1 _ fun e e' he => ?_
  split at he
  · split at he <;> cases he
    rfl
  · cases he

/-- The nodes a segment comes up with are listed by rising id (R148). -/
theorem sorted_startNodes (st : Store) (g : Seg) (l : Liveness) : Table.sorted (st.startNodes g l) := by
  refine sorted_list (by decide) _ fun n e he => ?_
  cases h : (st.nodeEntry g n).val with
  | none => simp [h] at he
  | some x =>
    simp only [h, Option.map_some, Option.some.injEq] at he
    exact he ▸ rfl

/-- The part is in form on entry to STARTING. -/
theorem starting_inForm {st : Store} (h : st.inForm) (pending : List Instr) (rate : Nat)
    (clock : Option Clock) (pins : List Level) (n : Nat) :
    (State.starting pending rate st.scanning clock pins n).inForm := by
  refine ⟨?_, ?_, Nat.zero_le _, fun g => ?_, List.Pairwise.nil, ?_⟩
  · exact ⟨Nat.zero_le _, Nat.zero_le _, Nat.zero_le _, Nat.zero_le _, Nat.zero_le _⟩
  · exact ⟨Nat.zero_le _, Nat.zero_le _, h.2.2.1, h.2.2.2.1, h.2.2.2.2.1, h.2.2.2.2.2.1, h.2.2.2.2.2.2.1,
      fun _ hw => nomatch hw⟩
  · cases g <;> exact ⟨Nat.zero_le _, Nat.zero_le _, Nat.zero_le _, Nat.zero_le _, Nat.zero_le _,
      Nat.zero_le _, Nat.zero_le _, Nat.zero_le _, List.Pairwise.nil, Nat.zero_le _, trivial⟩
  · intro x hx
    obtain rfl := List.eq_of_mem_replicate hx
    exact ⟨Nat.zero_le _, Nat.zero_le _, fun _ ht => nomatch ht⟩

/-- The Visit Table of a start is in form (R70). -/
theorem visits_blank : VisitEngine.blank.inForm :=
  ⟨Nat.zero_le _, List.nodup_nil, List.nodup_nil, fun _ h => (nomatch h), by decide, by decide,
    fun _ => Nat.zero_le _⟩

end Sys2Proof.Machine
end

