-- ==== Sys2Proof/Laws/Digests.lean ====
section
/-! SUPPORT. Digests and lookups of the record store after each shared operation on a table. -/

namespace Sys2Proof.Machine

/-- A fold of check values over a table, from any start. -/
theorem digestOf_fold {α : Type} (f : α → Word16) (t : Table α) (d : Word16) :
    t.foldl (fun d e => d ^^^ f e.2) d = d ^^^ digestOf f t := by
  unfold digestOf
  induction t generalizing d with
  | nil => simp
  | cons a t ih => rw [List.foldl_cons, List.foldl_cons, ih, ih (0 ^^^ _)]; simp [BitVec.xor_assoc]

/-- The digest of a table by its first slot. -/
theorem digestOf_cons {α : Type} (f : α → Word16) (a) (t : Table α) :
    digestOf f (a :: t) = f a.2 ^^^ digestOf f t := by
  rw [digestOf, List.foldl_cons, digestOf_fold]; simp

/-- The digests of two parts of a table make that of the whole. -/
theorem digestOf_filter {α : Type} (f : α → Word16) (p : Nat × α → Bool) (t : Table α) :
    digestOf f t ^^^ digestOf f (t.filter p) = digestOf f (t.filter fun e => !p e) := by
  induction t with
  | nil => simp [digestOf]
  | cons a t ih =>
    cases h : p a
    · rw [List.filter_cons_of_neg (by simp [h]), List.filter_cons_of_pos (by simp [h]), digestOf_cons,
          digestOf_cons, ← ih, BitVec.xor_assoc]
    · rw [List.filter_cons_of_pos (by simp [h]), List.filter_cons_of_neg (by simp [h]), digestOf_cons,
          digestOf_cons, ← ih]
      rw [BitVec.xor_comm (f a.2) (digestOf f t), BitVec.xor_assoc, ← BitVec.xor_assoc (f a.2),
          BitVec.xor_self, BitVec.zero_xor]

/-- A lookup in the part of a table that some keys keep. -/
theorem find_filter {α : Type} (t : Table α) (p : Nat → Bool) (k : Nat) :
    (Table.find (t.filter fun e => p e.1) k) = if p k then Table.find t k else none := by
  induction t with
  | nil => simp [Table.find]
  | cons a t ih =>
    obtain ⟨q, v⟩ := a
    by_cases h : p q = true
    · rw [List.filter_cons_of_pos (by simpa using h)]
      simp only [Table.find]
      rw [ih]
      by_cases hk : q = k
      · subst hk; simp [h]
      · simp [hk]
    · rw [List.filter_cons_of_neg (by simpa using h), ih]
      simp only [Table.find]
      by_cases hk : q = k
      · subst hk; simp [h]
      · simp [hk]

/-- A lookup after a change of the slots of some keys. -/
theorem find_map_if {α : Type} (t : Table α) (p : Nat → Bool) (d : α → α) (k : Nat) :
    (Table.find (t.map fun e => if p e.1 then (e.1,
    d e.2) else e) k) = if p k then (Table.find t k).map d else Table.find t k := by
  induction t with
  | nil => simp [Table.find]
  | cons a t ih =>
    obtain ⟨q, v⟩ := a
    rw [List.map_cons]
    by_cases h : p q = true
    · simp only [h, if_true, Table.find, ih]
      by_cases hk : q = k
      · subst hk; simp [h]
      · simp [hk]
    · simp only [h, if_false, Bool.false_eq_true, Table.find, ih]
      by_cases hk : q = k
      · subst hk; simp [h]
      · simp [hk]

/-- The digest after a slot is put (R21). -/
theorem digestOf_put {α : Type} (f : α → Word16) (t : Table α) (h : Table.sorted t) (k : Nat) (x : α) :
    digestOf f (t.put k x) = digestOf f t ^^^ digestAt f t k ^^^ f x := by
  induction t with
  | nil => simp [Table.put, digestOf, digestAt, Table.find]
  | cons a t ih =>
    obtain ⟨q, v⟩ := a
    have hk := (List.pairwise_cons.mp h).1
    have ht := (List.pairwise_cons.mp h).2
    have hno : ∀ r, r ≤ q → Table.find t r = none := by
      intro r hr
      clear ih h
      induction t with
      | nil => rfl
      | cons b t ih =>
        simp only [Table.find]
        have := hk b List.mem_cons_self
        dsimp only at this
        rw [if_neg (by omega)]
        exact ih (fun e he => hk e (List.mem_cons_of_mem _ he)) (List.pairwise_cons.mp ht).2
    unfold Table.put
    split
    · rename_i hlt
      have : digestAt f ((q, v) :: t) k = 0 := by
        unfold digestAt
        simp only [Table.find]
        rw [if_neg (by omega), hno k (by omega)]
      rw [this, digestOf_cons, show (0 : Word16) = 0#16 from rfl, BitVec.xor_zero, BitVec.xor_comm]
    · split
      · rename_i heq
        subst heq
        have : digestAt f ((k, v) :: t) k = f v := by simp [digestAt, Table.find]
        rw [this, digestOf_cons, digestOf_cons]
        dsimp only
        generalize f v = A; generalize f x = B; generalize digestOf f t = C
        rw [BitVec.xor_comm A C, BitVec.xor_assoc C A A, BitVec.xor_self, BitVec.xor_zero, BitVec.xor_comm]
      · rename_i hne
        have : digestAt f ((q, v) :: t) k = digestAt f t k := by
          unfold digestAt
          simp only [Table.find]
          rw [if_neg (by omega)]
        rw [this, digestOf_cons, digestOf_cons, ih ht]
        simp only [BitVec.xor_assoc]

/-- The digest after a slot is removed (R21). -/
theorem digestOf_remove {α : Type} (f : α → Word16) (t : Table α) (h : Table.sorted t) (k : Nat) :
    digestOf f (t.remove k) = digestOf f t ^^^ digestAt f t k := by
  induction t with
  | nil => simp [Table.remove, digestOf, digestAt, Table.find]
  | cons a t ih =>
    obtain ⟨q, v⟩ := a
    have hk := (List.pairwise_cons.mp h).1
    have ht := (List.pairwise_cons.mp h).2
    have ih := ih ht
    simp only [Table.remove] at ih ⊢
    by_cases hq : q = k
    · subst hq
      have h1 : List.filter (fun e : Nat × α => e.1 != q) ((q, v) :: t) = t := by
        rw [List.filter_cons_of_neg (by simp)]
        refine List.filter_eq_self.mpr fun e he => ?_
        have := hk e he
        simp only [bne_iff_ne]; omega
      have h2 : digestAt f ((q, v) :: t) q = f v := by simp [digestAt, Table.find]
      rw [h1, h2, digestOf_cons]
      dsimp only
      rw [BitVec.xor_comm (f v), BitVec.xor_assoc, BitVec.xor_self, BitVec.xor_zero]
    · rw [List.filter_cons_of_pos (by simpa using hq), digestOf_cons, digestOf_cons, ih]
      have : digestAt f ((q, v) :: t) k = digestAt f t k := by
        unfold digestAt
        simp only [Table.find]
        rw [if_neg (by simpa using hq)]
      rw [this, BitVec.xor_assoc]

/-- A write leaves the digest of its table agreeing with its slots (R21). -/
theorem digestOf_setSlot {α : Type} (f : α → Word16) (t : Table α) (h : Table.sorted t) (k new d ok) :
    digestOf f (setSlot t k new d ok) = redigest f (digestOf f t) t (setSlot t k new d ok) k := by
  unfold redigest setSlot
  have fp : ∀ x, digestAt f (t.put k x) k = f x := by intro x; simp [digestAt, find_put]
  have fr : digestAt f (t.remove k) k = 0 := by simp [digestAt, find_remove]
  cases ok
  · simp [fp, digestOf_put f t h]
  · cases new
    · simp [fr, digestOf_remove f t h]
    · simp [fp, digestOf_put f t h]

/-- Slots that lose their check value leave the digest with the rest (R21). -/
theorem digestOf_map_if {α : Type} (f : α → Word16) (p : Nat × α → Bool) (d : α → α) (hd : ∀ x, f (d x) = 0)
    (t : Table α) :
    digestOf f (t.map fun e => if p e then (e.1, d e.2) else e) = digestOf f (t.filter fun e => !p e) := by
  induction t with
  | nil => rfl
  | cons a t ih =>
    rw [List.map_cons, digestOf_cons, ih]
    cases h : p a
    · rw [List.filter_cons_of_pos (by simp [h]), digestOf_cons]; simp
    · rw [List.filter_cons_of_neg (by simp [h])]; simp [hd]

/-- A key below every key of a table has no slot. -/
theorem find_below (t : Table CredSlot) (k : Nat) (h : ∀ e ∈ t, k < e.1) : t.find k = none := by
  induction t with
  | nil => rfl
  | cons a t ih =>
    obtain ⟨q, v⟩ := a
    have := h (q, v) (by simp)
    simp only [Table.find]
    rw [if_neg (by simp at this; omega)]
    exact ih fun e he => h e (by simp [he])

/-- What the scan makes of a CREDENTIAL slot, given which values lower slots hold (R30, R41). -/
def scannedCred (bad : Nat → Bool) (met : Word32 → Prop) [DecidablePred met] (k : Nat) : CredSlot → CredSlot
  | .keyless => .keyless
  | .damaged v => if met v then .keyless else .damaged v
  | .present v id c =>
    if met v then .keyless
    else if bad k || c != credCheck v id then .damaged v else .present v id c

open Classical in
/-- A CREDENTIAL slot after the scan. -/
theorem find_scanCreds (bad : Nat → Bool) (t : Table CredSlot) (h : Table.sorted t) (k : Nat) :
    ∀ seen : List Word32, (scanCreds bad seen t).find k =
      (t.find k).map (scannedCred bad (fun v => v ∈ seen ∨ ∃ j d, j < k ∧
        t.find j = some d ∧ d.holds v = true) k) := by
  induction t with
  | nil => intro seen; rfl
  | cons a t ih =>
    obtain ⟨q, x⟩ := a
    have hs := List.pairwise_cons.mp h
    intro seen
    have key : ∀ (seen' : List Word32) (y : CredSlot), (∀ v, v ∈ seen' ↔ v ∈ seen ∨ x.holds v = true) →
        (y = scannedCred bad (fun v => v ∈ seen) q x) →
        Table.find ((q, y) :: scanCreds bad seen' t) k =
          (Table.find ((q, x) :: t) k).map (scannedCred bad (fun v => v ∈ seen ∨ ∃ j d, j < k ∧
            Table.find ((q, x) :: t) j = some d ∧ d.holds v = true) k) := by
      intro seen' y hv hy
      simp only [Table.find]
      by_cases hk : q = k
      · subst hk
        simp only [if_true, Option.map_some, hy]
        congr 2
        funext v
        apply propext
        constructor
        · exact Or.inl
        · rintro (h | ⟨j, d, hj, hf, hd⟩)
          · exact h
          · rw [if_neg (by omega)] at hf
            rw [find_below t j fun e he => by have := hs.1 e he; simp at this; omega] at hf
            cases hf
      · simp only [hk, if_false]
        rw [ih hs.2]
        by_cases hkt : Table.find t k = none
        · rw [hkt]; rfl
        · have hqk : q < k := by
            rcases Nat.lt_or_ge q k with h | h
            · exact h
            · exact absurd (find_below t k fun e he => by have := hs.1 e he; simp at this; omega) hkt
          congr 2
          funext v
          apply propext
          constructor
          · rintro (h | ⟨j, d, hj, hf, hd⟩)
            · rcases (hv v).1 h with h | h
              · exact .inl h
              · exact .inr ⟨q, x, hqk, by simp, h⟩
            · refine .inr ⟨j, d, hj, ?_, hd⟩
              rw [if_neg]
              · exact hf
              · intro e; subst e
                rw [find_below t q fun e he => hs.1 e he] at hf; cases hf
          · rintro (h | ⟨j, d, hj, hf, hd⟩)
            · exact .inl ((hv v).2 (.inl h))
            · by_cases hqj : q = j
              · subst hqj; simp at hf; subst hf; exact .inl ((hv v).2 (.inr hd))
              · rw [if_neg hqj] at hf; exact .inr ⟨j, d, hj, hf, hd⟩
    cases x with
    | keyless => exact key seen .keyless (by simp [CredSlot.holds]) rfl
    | damaged v =>
      simp only [scanCreds]
      by_cases hm : seen.contains v = true
      · rw [if_pos hm]
        have hm' : v ∈ seen := by simpa using hm
        refine key seen .keyless ?_ ?_
        · intro w; simp [CredSlot.holds]; intro e; subst e; exact hm'
        · simp [scannedCred, hm']
      · rw [if_neg hm]
        have hm' : v ∉ seen := by simpa using hm
        refine key (v :: seen) _ ?_ ?_
        · intro w; simp only [List.mem_cons, CredSlot.holds, beq_iff_eq]
          constructor
          · rintro (h | h)
            · exact .inr h.symm
            · exact .inl h
          · rintro (h | h)
            · exact .inr h
            · exact .inl h.symm
        · simp [scannedCred, hm']
    | present v id c =>
      simp only [scanCreds]
      by_cases hm : seen.contains v = true
      · rw [if_pos hm]
        have hm' : v ∈ seen := by simpa using hm
        refine key seen .keyless ?_ ?_
        · intro w; simp [CredSlot.holds]; intro e; subst e; exact hm'
        · simp [scannedCred, hm']
      · rw [if_neg hm]
        have hm' : v ∉ seen := by simpa using hm
        refine key (v :: seen) _ ?_ ?_
        · intro w; simp only [List.mem_cons, CredSlot.holds, beq_iff_eq]
          constructor
          · rintro (h | h)
            · exact .inr h.symm
            · exact .inl h
          · rintro (h | h)
            · exact .inr h
            · exact .inl h.symm
        · simp [scannedCred, hm']

end Sys2Proof.Machine
end

