-- ==== Sys2Proof/Laws/State.lean ====
section
/-! SUPPORT. One lemma for each field of the state after each named update of it, true by unfolding; what one
segment holds after an update; and what a notice changes. -/

namespace Sys2Proof.Machine

@[simp] theorem toSite_pending (r : SiteReport) (s : State) : (toSite r s).pending = s.pending := rfl
@[simp] theorem toSite_host (r : SiteReport) (s : State) : (toSite r s).host = s.host := rfl
@[simp] theorem toSite_store (r : SiteReport) (s : State) : (toSite r s).store = s.store := rfl
@[simp] theorem toSite_site (r : SiteReport) (s : State) :
    (toSite r s).site =
    { s.site with reports := s.site.reports ++ [r] } := rfl
@[simp] theorem toSite_visits (r : SiteReport) (s : State) : (toSite r s).visits = s.visits := rfl
@[simp] theorem toSite_portals (r : SiteReport) (s : State) : (toSite r s).portals = s.portals := rfl
@[simp] theorem toSite_units (r : SiteReport) (s : State) : (toSite r s).units = s.units := rfl
@[simp] theorem toSite_lifts (r : SiteReport) (s : State) : (toSite r s).lifts = s.lifts := rfl
@[simp] theorem toSite_segA (r : SiteReport) (s : State) : (toSite r s).segA = s.segA := rfl
@[simp] theorem toSite_segB (r : SiteReport) (s : State) : (toSite r s).segB = s.segB := rfl
@[simp] theorem toSite_segC (r : SiteReport) (s : State) : (toSite r s).segC = s.segC := rfl
@[simp] theorem toSite_router (r : SiteReport) (s : State) : (toSite r s).router = s.router := rfl
@[simp] theorem toSite_lines (r : SiteReport) (s : State) : (toSite r s).lines = s.lines := rfl
@[simp] theorem toSite_freeCount (r : SiteReport) (s : State) :
    (toSite r s).freeCount =
    s.freeCount := rfl
@[simp] theorem toSite_seg (r : SiteReport) (s : State) (g : Seg) : (toSite r s).seg g = s.seg g := by
  cases g <;> rfl

@[simp] theorem toSiteFire_pending (r : FireReport) (s : State) :
    (toSiteFire r s).pending =
    s.pending := rfl
@[simp] theorem toSiteFire_host (r : FireReport) (s : State) : (toSiteFire r s).host = s.host := rfl
@[simp] theorem toSiteFire_store (r : FireReport) (s : State) : (toSiteFire r s).store = s.store := rfl
@[simp] theorem toSiteFire_site (r : FireReport) (s : State) :
    (toSiteFire r s).site =
    { s.site with fireReports := s.site.fireReports ++ [r] } := rfl
@[simp] theorem toSiteFire_visits (r : FireReport) (s : State) : (toSiteFire r s).visits = s.visits := rfl
@[simp] theorem toSiteFire_portals (r : FireReport) (s : State) :
    (toSiteFire r s).portals =
    s.portals := rfl
@[simp] theorem toSiteFire_units (r : FireReport) (s : State) : (toSiteFire r s).units = s.units := rfl
@[simp] theorem toSiteFire_lifts (r : FireReport) (s : State) : (toSiteFire r s).lifts = s.lifts := rfl
@[simp] theorem toSiteFire_segA (r : FireReport) (s : State) : (toSiteFire r s).segA = s.segA := rfl
@[simp] theorem toSiteFire_segB (r : FireReport) (s : State) : (toSiteFire r s).segB = s.segB := rfl
@[simp] theorem toSiteFire_segC (r : FireReport) (s : State) : (toSiteFire r s).segC = s.segC := rfl
@[simp] theorem toSiteFire_router (r : FireReport) (s : State) : (toSiteFire r s).router = s.router := rfl
@[simp] theorem toSiteFire_lines (r : FireReport) (s : State) : (toSiteFire r s).lines = s.lines := rfl
@[simp] theorem toSiteFire_freeCount (r : FireReport) (s : State) :
    (toSiteFire r s).freeCount =
    s.freeCount := rfl
@[simp] theorem toSiteFire_seg (r : FireReport) (s : State) (g : Seg) : (toSiteFire r s).seg g = s.seg g := by
  cases g <;> rfl

@[simp] theorem toBeacon_pending (r : BeaconReport) (s : State) :
    (toBeacon r s).pending =
    s.pending := rfl
@[simp] theorem toBeacon_host (r : BeaconReport) (s : State) : (toBeacon r s).host = s.host := rfl
@[simp] theorem toBeacon_store (r : BeaconReport) (s : State) : (toBeacon r s).store = s.store := rfl
@[simp] theorem toBeacon_site (r : BeaconReport) (s : State) : (toBeacon r s).site = s.site := rfl
@[simp] theorem toBeacon_visits (r : BeaconReport) (s : State) : (toBeacon r s).visits = s.visits := rfl
@[simp] theorem toBeacon_portals (r : BeaconReport) (s : State) :
    (toBeacon r s).portals =
    s.portals := rfl
@[simp] theorem toBeacon_units (r : BeaconReport) (s : State) : (toBeacon r s).units = s.units := rfl
@[simp] theorem toBeacon_lifts (r : BeaconReport) (s : State) : (toBeacon r s).lifts = s.lifts := rfl
@[simp] theorem toBeacon_segA (r : BeaconReport) (s : State) : (toBeacon r s).segA = s.segA := rfl
@[simp] theorem toBeacon_segB (r : BeaconReport) (s : State) : (toBeacon r s).segB = s.segB := rfl
@[simp] theorem toBeacon_segC (r : BeaconReport) (s : State) : (toBeacon r s).segC = s.segC := rfl
@[simp] theorem toBeacon_router (r : BeaconReport) (s : State) : (toBeacon r s).router = s.router := rfl
@[simp] theorem toBeacon_lines (r : BeaconReport) (s : State) :
    (toBeacon r s).lines =
    { s.lines with reports := s.lines.reports ++ [r] } := rfl
@[simp] theorem toBeacon_freeCount (r : BeaconReport) (s : State) :
    (toBeacon r s).freeCount =
    s.freeCount := rfl
@[simp] theorem toBeacon_seg (r : BeaconReport) (s : State) (g : Seg) : (toBeacon r s).seg g = s.seg g := by
  cases g <;> rfl

@[simp] theorem toVisitsPortal_pending (r : PortalReport) (s : State) :
    (toVisitsPortal r s).pending =
    s.pending := rfl
@[simp] theorem toVisitsPortal_host (r : PortalReport) (s : State) :
    (toVisitsPortal r s).host =
    s.host := rfl
@[simp] theorem toVisitsPortal_store (r : PortalReport) (s : State) :
    (toVisitsPortal r s).store =
    s.store := rfl
@[simp] theorem toVisitsPortal_site (r : PortalReport) (s : State) :
    (toVisitsPortal r s).site =
    s.site := rfl
@[simp] theorem toVisitsPortal_visits (r : PortalReport) (s : State) :
    (toVisitsPortal r s).visits =
    { s.visits with portalReports := s.visits.portalReports ++ [r] } := rfl
@[simp] theorem toVisitsPortal_portals (r : PortalReport) (s : State) :
    (toVisitsPortal r s).portals =
    s.portals := rfl
@[simp] theorem toVisitsPortal_units (r : PortalReport) (s : State) :
    (toVisitsPortal r s).units =
    s.units := rfl
@[simp] theorem toVisitsPortal_lifts (r : PortalReport) (s : State) :
    (toVisitsPortal r s).lifts =
    s.lifts := rfl
@[simp] theorem toVisitsPortal_segA (r : PortalReport) (s : State) :
    (toVisitsPortal r s).segA =
    s.segA := rfl
@[simp] theorem toVisitsPortal_segB (r : PortalReport) (s : State) :
    (toVisitsPortal r s).segB =
    s.segB := rfl
@[simp] theorem toVisitsPortal_segC (r : PortalReport) (s : State) :
    (toVisitsPortal r s).segC =
    s.segC := rfl
@[simp] theorem toVisitsPortal_router (r : PortalReport) (s : State) :
    (toVisitsPortal r s).router =
    s.router := rfl
@[simp] theorem toVisitsPortal_lines (r : PortalReport) (s : State) :
    (toVisitsPortal r s).lines =
    s.lines := rfl
@[simp] theorem toVisitsPortal_freeCount (r : PortalReport) (s : State) :
    (toVisitsPortal r s).freeCount =
    s.freeCount := rfl
@[simp] theorem toVisitsPortal_seg (r : PortalReport) (s : State) (g : Seg) : (toVisitsPortal r s).seg g = s.seg g := by
  cases g <;> rfl

@[simp] theorem toVisitsCall_pending (r : CallReport) (s : State) :
    (toVisitsCall r s).pending =
    s.pending := rfl
@[simp] theorem toVisitsCall_host (r : CallReport) (s : State) : (toVisitsCall r s).host = s.host := rfl
@[simp] theorem toVisitsCall_store (r : CallReport) (s : State) :
    (toVisitsCall r s).store =
    s.store := rfl
@[simp] theorem toVisitsCall_site (r : CallReport) (s : State) : (toVisitsCall r s).site = s.site := rfl
@[simp] theorem toVisitsCall_visits (r : CallReport) (s : State) :
    (toVisitsCall r s).visits =
    { s.visits with callReports := s.visits.callReports ++ [r] } := rfl
@[simp] theorem toVisitsCall_portals (r : CallReport) (s : State) :
    (toVisitsCall r s).portals =
    s.portals := rfl
@[simp] theorem toVisitsCall_units (r : CallReport) (s : State) :
    (toVisitsCall r s).units =
    s.units := rfl
@[simp] theorem toVisitsCall_lifts (r : CallReport) (s : State) :
    (toVisitsCall r s).lifts =
    s.lifts := rfl
@[simp] theorem toVisitsCall_segA (r : CallReport) (s : State) : (toVisitsCall r s).segA = s.segA := rfl
@[simp] theorem toVisitsCall_segB (r : CallReport) (s : State) : (toVisitsCall r s).segB = s.segB := rfl
@[simp] theorem toVisitsCall_segC (r : CallReport) (s : State) : (toVisitsCall r s).segC = s.segC := rfl
@[simp] theorem toVisitsCall_router (r : CallReport) (s : State) :
    (toVisitsCall r s).router =
    s.router := rfl
@[simp] theorem toVisitsCall_lines (r : CallReport) (s : State) :
    (toVisitsCall r s).lines =
    s.lines := rfl
@[simp] theorem toVisitsCall_freeCount (r : CallReport) (s : State) :
    (toVisitsCall r s).freeCount =
    s.freeCount := rfl
@[simp] theorem toVisitsCall_seg (r : CallReport) (s : State) (g : Seg) : (toVisitsCall r s).seg g = s.seg g := by
  cases g <;> rfl

@[simp] theorem toVisitsOpened_pending (u t : Nat) (s : State) :
    (toVisitsOpened u t s).pending =
    s.pending := rfl
@[simp] theorem toVisitsOpened_host (u t : Nat) (s : State) : (toVisitsOpened u t s).host = s.host := rfl
@[simp] theorem toVisitsOpened_store (u t : Nat) (s : State) :
    (toVisitsOpened u t s).store =
    s.store := rfl
@[simp] theorem toVisitsOpened_site (u t : Nat) (s : State) : (toVisitsOpened u t s).site = s.site := rfl
@[simp] theorem toVisitsOpened_visits (u t : Nat) (s : State) :
    (toVisitsOpened u t s).visits =
    { s.visits with openedReports := s.visits.openedReports ++ [(u, t)] } := rfl
@[simp] theorem toVisitsOpened_portals (u t : Nat) (s : State) :
    (toVisitsOpened u t s).portals =
    s.portals := rfl
@[simp] theorem toVisitsOpened_units (u t : Nat) (s : State) :
    (toVisitsOpened u t s).units =
    s.units := rfl
@[simp] theorem toVisitsOpened_lifts (u t : Nat) (s : State) :
    (toVisitsOpened u t s).lifts =
    s.lifts := rfl
@[simp] theorem toVisitsOpened_segA (u t : Nat) (s : State) : (toVisitsOpened u t s).segA = s.segA := rfl
@[simp] theorem toVisitsOpened_segB (u t : Nat) (s : State) : (toVisitsOpened u t s).segB = s.segB := rfl
@[simp] theorem toVisitsOpened_segC (u t : Nat) (s : State) : (toVisitsOpened u t s).segC = s.segC := rfl
@[simp] theorem toVisitsOpened_router (u t : Nat) (s : State) :
    (toVisitsOpened u t s).router =
    s.router := rfl
@[simp] theorem toVisitsOpened_lines (u t : Nat) (s : State) :
    (toVisitsOpened u t s).lines =
    s.lines := rfl
@[simp] theorem toVisitsOpened_freeCount (u t : Nat) (s : State) :
    (toVisitsOpened u t s).freeCount =
    s.freeCount := rfl
@[simp] theorem toVisitsOpened_seg (u t : Nat) (s : State) (g : Seg) : (toVisitsOpened u t s).seg g = s.seg g := by
  cases g <;> rfl

@[simp] theorem toPortals_pending (o : PortalOrder) (s : State) :
    (toPortals o s).pending =
    s.pending := rfl
@[simp] theorem toPortals_host (o : PortalOrder) (s : State) : (toPortals o s).host = s.host := rfl
@[simp] theorem toPortals_store (o : PortalOrder) (s : State) : (toPortals o s).store = s.store := rfl
@[simp] theorem toPortals_site (o : PortalOrder) (s : State) : (toPortals o s).site = s.site := rfl
@[simp] theorem toPortals_visits (o : PortalOrder) (s : State) : (toPortals o s).visits = s.visits := rfl
@[simp] theorem toPortals_portals (o : PortalOrder) (s : State) :
    (toPortals o s).portals =
    { s.portals with orders := s.portals.orders ++ [o] } := rfl
@[simp] theorem toPortals_units (o : PortalOrder) (s : State) : (toPortals o s).units = s.units := rfl
@[simp] theorem toPortals_lifts (o : PortalOrder) (s : State) : (toPortals o s).lifts = s.lifts := rfl
@[simp] theorem toPortals_segA (o : PortalOrder) (s : State) : (toPortals o s).segA = s.segA := rfl
@[simp] theorem toPortals_segB (o : PortalOrder) (s : State) : (toPortals o s).segB = s.segB := rfl
@[simp] theorem toPortals_segC (o : PortalOrder) (s : State) : (toPortals o s).segC = s.segC := rfl
@[simp] theorem toPortals_router (o : PortalOrder) (s : State) : (toPortals o s).router = s.router := rfl
@[simp] theorem toPortals_lines (o : PortalOrder) (s : State) : (toPortals o s).lines = s.lines := rfl
@[simp] theorem toPortals_freeCount (o : PortalOrder) (s : State) :
    (toPortals o s).freeCount =
    s.freeCount := rfl
@[simp] theorem toPortals_seg (o : PortalOrder) (s : State) (g : Seg) : (toPortals o s).seg g = s.seg g := by
  cases g <;> rfl

@[simp] theorem toUnits_pending (o : UnitOrder) (s : State) : (toUnits o s).pending = s.pending := rfl
@[simp] theorem toUnits_host (o : UnitOrder) (s : State) : (toUnits o s).host = s.host := rfl
@[simp] theorem toUnits_store (o : UnitOrder) (s : State) : (toUnits o s).store = s.store := rfl
@[simp] theorem toUnits_site (o : UnitOrder) (s : State) : (toUnits o s).site = s.site := rfl
@[simp] theorem toUnits_visits (o : UnitOrder) (s : State) : (toUnits o s).visits = s.visits := rfl
@[simp] theorem toUnits_portals (o : UnitOrder) (s : State) : (toUnits o s).portals = s.portals := rfl
@[simp] theorem toUnits_units (o : UnitOrder) (s : State) :
    (toUnits o s).units =
    { s.units with orders := s.units.orders ++ [o] } := rfl
@[simp] theorem toUnits_lifts (o : UnitOrder) (s : State) : (toUnits o s).lifts = s.lifts := rfl
@[simp] theorem toUnits_segA (o : UnitOrder) (s : State) : (toUnits o s).segA = s.segA := rfl
@[simp] theorem toUnits_segB (o : UnitOrder) (s : State) : (toUnits o s).segB = s.segB := rfl
@[simp] theorem toUnits_segC (o : UnitOrder) (s : State) : (toUnits o s).segC = s.segC := rfl
@[simp] theorem toUnits_router (o : UnitOrder) (s : State) : (toUnits o s).router = s.router := rfl
@[simp] theorem toUnits_lines (o : UnitOrder) (s : State) : (toUnits o s).lines = s.lines := rfl
@[simp] theorem toUnits_freeCount (o : UnitOrder) (s : State) :
    (toUnits o s).freeCount =
    s.freeCount := rfl
@[simp] theorem toUnits_seg (o : UnitOrder) (s : State) (g : Seg) : (toUnits o s).seg g = s.seg g := by
  cases g <;> rfl

@[simp] theorem toLifts_pending (n : Nat) (s : State) : (toLifts n s).pending = s.pending := rfl
@[simp] theorem toLifts_host (n : Nat) (s : State) : (toLifts n s).host = s.host := rfl
@[simp] theorem toLifts_store (n : Nat) (s : State) : (toLifts n s).store = s.store := rfl
@[simp] theorem toLifts_site (n : Nat) (s : State) : (toLifts n s).site = s.site := rfl
@[simp] theorem toLifts_visits (n : Nat) (s : State) : (toLifts n s).visits = s.visits := rfl
@[simp] theorem toLifts_portals (n : Nat) (s : State) : (toLifts n s).portals = s.portals := rfl
@[simp] theorem toLifts_units (n : Nat) (s : State) : (toLifts n s).units = s.units := rfl
@[simp] theorem toLifts_lifts (n : Nat) (s : State) :
    (toLifts n s).lifts =
    { s.lifts with withdrawals := s.lifts.withdrawals ++ [n] } := rfl
@[simp] theorem toLifts_segA (n : Nat) (s : State) : (toLifts n s).segA = s.segA := rfl
@[simp] theorem toLifts_segB (n : Nat) (s : State) : (toLifts n s).segB = s.segB := rfl
@[simp] theorem toLifts_segC (n : Nat) (s : State) : (toLifts n s).segC = s.segC := rfl
@[simp] theorem toLifts_router (n : Nat) (s : State) : (toLifts n s).router = s.router := rfl
@[simp] theorem toLifts_lines (n : Nat) (s : State) : (toLifts n s).lines = s.lines := rfl
@[simp] theorem toLifts_freeCount (n : Nat) (s : State) : (toLifts n s).freeCount = s.freeCount := rfl
@[simp] theorem toLifts_seg (n : Nat) (s : State) (g : Seg) : (toLifts n s).seg g = s.seg g := by
  cases g <;> rfl

@[simp] theorem toLiftOrders_pending (o : LiftOrder) (s : State) :
    (toLiftOrders o s).pending =
    s.pending := rfl
@[simp] theorem toLiftOrders_host (o : LiftOrder) (s : State) : (toLiftOrders o s).host = s.host := rfl
@[simp] theorem toLiftOrders_store (o : LiftOrder) (s : State) : (toLiftOrders o s).store = s.store := rfl
@[simp] theorem toLiftOrders_site (o : LiftOrder) (s : State) : (toLiftOrders o s).site = s.site := rfl
@[simp] theorem toLiftOrders_visits (o : LiftOrder) (s : State) :
    (toLiftOrders o s).visits =
    s.visits := rfl
@[simp] theorem toLiftOrders_portals (o : LiftOrder) (s : State) :
    (toLiftOrders o s).portals =
    s.portals := rfl
@[simp] theorem toLiftOrders_units (o : LiftOrder) (s : State) : (toLiftOrders o s).units = s.units := rfl
@[simp] theorem toLiftOrders_lifts (o : LiftOrder) (s : State) :
    (toLiftOrders o s).lifts =
    { s.lifts with orders := s.lifts.orders ++ [o] } := rfl
@[simp] theorem toLiftOrders_segA (o : LiftOrder) (s : State) : (toLiftOrders o s).segA = s.segA := rfl
@[simp] theorem toLiftOrders_segB (o : LiftOrder) (s : State) : (toLiftOrders o s).segB = s.segB := rfl
@[simp] theorem toLiftOrders_segC (o : LiftOrder) (s : State) : (toLiftOrders o s).segC = s.segC := rfl
@[simp] theorem toLiftOrders_router (o : LiftOrder) (s : State) :
    (toLiftOrders o s).router =
    s.router := rfl
@[simp] theorem toLiftOrders_lines (o : LiftOrder) (s : State) : (toLiftOrders o s).lines = s.lines := rfl
@[simp] theorem toLiftOrders_freeCount (o : LiftOrder) (s : State) :
    (toLiftOrders o s).freeCount =
    s.freeCount := rfl
@[simp] theorem toLiftOrders_seg (o : LiftOrder) (s : State) (g : Seg) : (toLiftOrders o s).seg g = s.seg g := by
  cases g <;> rfl

@[simp] theorem toPortalEvac_pending (o : EvacOrder) (s : State) :
    (toPortalEvac o s).pending =
    s.pending := rfl
@[simp] theorem toPortalEvac_host (o : EvacOrder) (s : State) : (toPortalEvac o s).host = s.host := rfl
@[simp] theorem toPortalEvac_store (o : EvacOrder) (s : State) : (toPortalEvac o s).store = s.store := rfl
@[simp] theorem toPortalEvac_site (o : EvacOrder) (s : State) : (toPortalEvac o s).site = s.site := rfl
@[simp] theorem toPortalEvac_visits (o : EvacOrder) (s : State) :
    (toPortalEvac o s).visits =
    s.visits := rfl
@[simp] theorem toPortalEvac_portals (o : EvacOrder) (s : State) :
    (toPortalEvac o s).portals =
    { s.portals with evac := s.portals.evac ++ [o] } := rfl
@[simp] theorem toPortalEvac_units (o : EvacOrder) (s : State) : (toPortalEvac o s).units = s.units := rfl
@[simp] theorem toPortalEvac_lifts (o : EvacOrder) (s : State) : (toPortalEvac o s).lifts = s.lifts := rfl
@[simp] theorem toPortalEvac_segA (o : EvacOrder) (s : State) : (toPortalEvac o s).segA = s.segA := rfl
@[simp] theorem toPortalEvac_segB (o : EvacOrder) (s : State) : (toPortalEvac o s).segB = s.segB := rfl
@[simp] theorem toPortalEvac_segC (o : EvacOrder) (s : State) : (toPortalEvac o s).segC = s.segC := rfl
@[simp] theorem toPortalEvac_router (o : EvacOrder) (s : State) :
    (toPortalEvac o s).router =
    s.router := rfl
@[simp] theorem toPortalEvac_lines (o : EvacOrder) (s : State) : (toPortalEvac o s).lines = s.lines := rfl
@[simp] theorem toPortalEvac_freeCount (o : EvacOrder) (s : State) :
    (toPortalEvac o s).freeCount =
    s.freeCount := rfl
@[simp] theorem toPortalEvac_seg (o : EvacOrder) (s : State) (g : Seg) : (toPortalEvac o s).seg g = s.seg g := by
  cases g <;> rfl

@[simp] theorem toVisitsEvac_pending (o : EvacOrder) (s : State) :
    (toVisitsEvac o s).pending =
    s.pending := rfl
@[simp] theorem toVisitsEvac_host (o : EvacOrder) (s : State) : (toVisitsEvac o s).host = s.host := rfl
@[simp] theorem toVisitsEvac_store (o : EvacOrder) (s : State) : (toVisitsEvac o s).store = s.store := rfl
@[simp] theorem toVisitsEvac_site (o : EvacOrder) (s : State) : (toVisitsEvac o s).site = s.site := rfl
@[simp] theorem toVisitsEvac_visits (o : EvacOrder) (s : State) :
    (toVisitsEvac o s).visits =
    { s.visits with orders := s.visits.orders ++ [o] } := rfl
@[simp] theorem toVisitsEvac_portals (o : EvacOrder) (s : State) :
    (toVisitsEvac o s).portals =
    s.portals := rfl
@[simp] theorem toVisitsEvac_units (o : EvacOrder) (s : State) : (toVisitsEvac o s).units = s.units := rfl
@[simp] theorem toVisitsEvac_lifts (o : EvacOrder) (s : State) : (toVisitsEvac o s).lifts = s.lifts := rfl
@[simp] theorem toVisitsEvac_segA (o : EvacOrder) (s : State) : (toVisitsEvac o s).segA = s.segA := rfl
@[simp] theorem toVisitsEvac_segB (o : EvacOrder) (s : State) : (toVisitsEvac o s).segB = s.segB := rfl
@[simp] theorem toVisitsEvac_segC (o : EvacOrder) (s : State) : (toVisitsEvac o s).segC = s.segC := rfl
@[simp] theorem toVisitsEvac_router (o : EvacOrder) (s : State) :
    (toVisitsEvac o s).router =
    s.router := rfl
@[simp] theorem toVisitsEvac_lines (o : EvacOrder) (s : State) : (toVisitsEvac o s).lines = s.lines := rfl
@[simp] theorem toVisitsEvac_freeCount (o : EvacOrder) (s : State) :
    (toVisitsEvac o s).freeCount =
    s.freeCount := rfl
@[simp] theorem toVisitsEvac_seg (o : EvacOrder) (s : State) (g : Seg) : (toVisitsEvac o s).seg g = s.seg g := by
  cases g <;> rfl

@[simp] theorem askLookup_pending (l : Lookup) (s : State) : (askLookup l s).pending = s.pending := rfl
@[simp] theorem askLookup_host (l : Lookup) (s : State) : (askLookup l s).host = s.host := rfl
@[simp] theorem askLookup_store (l : Lookup) (s : State) :
    (askLookup l s).store =
    { s.store with lookups := s.store.lookups ++ [l] } := rfl
@[simp] theorem askLookup_site (l : Lookup) (s : State) : (askLookup l s).site = s.site := rfl
@[simp] theorem askLookup_visits (l : Lookup) (s : State) : (askLookup l s).visits = s.visits := rfl
@[simp] theorem askLookup_portals (l : Lookup) (s : State) : (askLookup l s).portals = s.portals := rfl
@[simp] theorem askLookup_units (l : Lookup) (s : State) : (askLookup l s).units = s.units := rfl
@[simp] theorem askLookup_lifts (l : Lookup) (s : State) : (askLookup l s).lifts = s.lifts := rfl
@[simp] theorem askLookup_segA (l : Lookup) (s : State) : (askLookup l s).segA = s.segA := rfl
@[simp] theorem askLookup_segB (l : Lookup) (s : State) : (askLookup l s).segB = s.segB := rfl
@[simp] theorem askLookup_segC (l : Lookup) (s : State) : (askLookup l s).segC = s.segC := rfl
@[simp] theorem askLookup_router (l : Lookup) (s : State) : (askLookup l s).router = s.router := rfl
@[simp] theorem askLookup_lines (l : Lookup) (s : State) : (askLookup l s).lines = s.lines := rfl
@[simp] theorem askLookup_freeCount (l : Lookup) (s : State) :
    (askLookup l s).freeCount =
    s.freeCount := rfl
@[simp] theorem askLookup_seg (l : Lookup) (s : State) (g : Seg) : (askLookup l s).seg g = s.seg g := by
  cases g <;> rfl

@[simp] theorem linkFault_pending (s : State) : (linkFault s).pending = s.pending := rfl
@[simp] theorem linkFault_host (s : State) :
    (linkFault s).host =
    { s.host with linkFaults := satAdd 65535 s.host.linkFaults 1 } := rfl
@[simp] theorem linkFault_store (s : State) : (linkFault s).store = s.store := rfl
@[simp] theorem linkFault_site (s : State) : (linkFault s).site = s.site := rfl
@[simp] theorem linkFault_visits (s : State) : (linkFault s).visits = s.visits := rfl
@[simp] theorem linkFault_portals (s : State) : (linkFault s).portals = s.portals := rfl
@[simp] theorem linkFault_units (s : State) : (linkFault s).units = s.units := rfl
@[simp] theorem linkFault_lifts (s : State) : (linkFault s).lifts = s.lifts := rfl
@[simp] theorem linkFault_segA (s : State) : (linkFault s).segA = s.segA := rfl
@[simp] theorem linkFault_segB (s : State) : (linkFault s).segB = s.segB := rfl
@[simp] theorem linkFault_segC (s : State) : (linkFault s).segC = s.segC := rfl
@[simp] theorem linkFault_router (s : State) : (linkFault s).router = s.router := rfl
@[simp] theorem linkFault_lines (s : State) : (linkFault s).lines = s.lines := rfl
@[simp] theorem linkFault_freeCount (s : State) : (linkFault s).freeCount = s.freeCount := rfl
@[simp] theorem linkFault_seg (s : State) (g : Seg) : (linkFault s).seg g = s.seg g := by
  cases g <;> rfl

@[simp] theorem setHostRx_pending (x : HostRx) (s : State) : (setHostRx x s).pending = s.pending := rfl
@[simp] theorem setHostRx_host (x : HostRx) (s : State) :
    (setHostRx x s).host =
    { s.host with rx := x } := rfl
@[simp] theorem setHostRx_store (x : HostRx) (s : State) : (setHostRx x s).store = s.store := rfl
@[simp] theorem setHostRx_site (x : HostRx) (s : State) : (setHostRx x s).site = s.site := rfl
@[simp] theorem setHostRx_visits (x : HostRx) (s : State) : (setHostRx x s).visits = s.visits := rfl
@[simp] theorem setHostRx_portals (x : HostRx) (s : State) : (setHostRx x s).portals = s.portals := rfl
@[simp] theorem setHostRx_units (x : HostRx) (s : State) : (setHostRx x s).units = s.units := rfl
@[simp] theorem setHostRx_lifts (x : HostRx) (s : State) : (setHostRx x s).lifts = s.lifts := rfl
@[simp] theorem setHostRx_segA (x : HostRx) (s : State) : (setHostRx x s).segA = s.segA := rfl
@[simp] theorem setHostRx_segB (x : HostRx) (s : State) : (setHostRx x s).segB = s.segB := rfl
@[simp] theorem setHostRx_segC (x : HostRx) (s : State) : (setHostRx x s).segC = s.segC := rfl
@[simp] theorem setHostRx_router (x : HostRx) (s : State) : (setHostRx x s).router = s.router := rfl
@[simp] theorem setHostRx_lines (x : HostRx) (s : State) : (setHostRx x s).lines = s.lines := rfl
@[simp] theorem setHostRx_freeCount (x : HostRx) (s : State) :
    (setHostRx x s).freeCount =
    s.freeCount := rfl
@[simp] theorem setHostRx_seg (x : HostRx) (s : State) (g : Seg) : (setHostRx x s).seg g = s.seg g := by
  cases g <;> rfl

@[simp] theorem clearDecision_pending (s : State) : (clearDecision s).pending = s.pending := rfl
@[simp] theorem clearDecision_host (s : State) : (clearDecision s).host = s.host := rfl
@[simp] theorem clearDecision_store (s : State) : (clearDecision s).store = s.store := rfl
@[simp] theorem clearDecision_site (s : State) : (clearDecision s).site = s.site := rfl
@[simp] theorem clearDecision_visits (s : State) :
    (clearDecision s).visits =
    { s.visits with decision := none } := rfl
@[simp] theorem clearDecision_portals (s : State) : (clearDecision s).portals = s.portals := rfl
@[simp] theorem clearDecision_units (s : State) : (clearDecision s).units = s.units := rfl
@[simp] theorem clearDecision_lifts (s : State) : (clearDecision s).lifts = s.lifts := rfl
@[simp] theorem clearDecision_segA (s : State) : (clearDecision s).segA = s.segA := rfl
@[simp] theorem clearDecision_segB (s : State) : (clearDecision s).segB = s.segB := rfl
@[simp] theorem clearDecision_segC (s : State) : (clearDecision s).segC = s.segC := rfl
@[simp] theorem clearDecision_router (s : State) : (clearDecision s).router = s.router := rfl
@[simp] theorem clearDecision_lines (s : State) : (clearDecision s).lines = s.lines := rfl
@[simp] theorem clearDecision_freeCount (s : State) : (clearDecision s).freeCount = s.freeCount := rfl
@[simp] theorem clearDecision_seg (s : State) (g : Seg) : (clearDecision s).seg g = s.seg g := by
  cases g <;> rfl

@[simp] theorem answered_pending (f : Frame) (st : Status) (b : List Byte) (s : State) :
    (s.answered f st b).pending =
    s.pending := rfl
@[simp] theorem answered_host (f : Frame) (st : Status) (b : List Byte) (s : State) :
    (s.answered f st b).host =
    { s.host with
      serving := some ⟨f, .replied⟩
      replies := s.host.replies ++ [⟨.served, f.tag, replyKind f.kind, st.code :: b⟩] } := rfl
@[simp] theorem answered_store (f : Frame) (st : Status) (b : List Byte) (s : State) :
    (s.answered f st b).store =
    s.store := rfl
@[simp] theorem answered_site (f : Frame) (st : Status) (b : List Byte) (s : State) :
    (s.answered f st b).site =
    s.site := rfl
@[simp] theorem answered_visits (f : Frame) (st : Status) (b : List Byte) (s : State) :
    (s.answered f st b).visits =
    s.visits := rfl
@[simp] theorem answered_portals (f : Frame) (st : Status) (b : List Byte) (s : State) :
    (s.answered f st b).portals =
    s.portals := rfl
@[simp] theorem answered_units (f : Frame) (st : Status) (b : List Byte) (s : State) :
    (s.answered f st b).units =
    s.units := rfl
@[simp] theorem answered_lifts (f : Frame) (st : Status) (b : List Byte) (s : State) :
    (s.answered f st b).lifts =
    s.lifts := rfl
@[simp] theorem answered_segA (f : Frame) (st : Status) (b : List Byte) (s : State) :
    (s.answered f st b).segA =
    s.segA := rfl
@[simp] theorem answered_segB (f : Frame) (st : Status) (b : List Byte) (s : State) :
    (s.answered f st b).segB =
    s.segB := rfl
@[simp] theorem answered_segC (f : Frame) (st : Status) (b : List Byte) (s : State) :
    (s.answered f st b).segC =
    s.segC := rfl
@[simp] theorem answered_router (f : Frame) (st : Status) (b : List Byte) (s : State) :
    (s.answered f st b).router =
    s.router := rfl
@[simp] theorem answered_lines (f : Frame) (st : Status) (b : List Byte) (s : State) :
    (s.answered f st b).lines =
    s.lines := rfl
@[simp] theorem answered_freeCount (f : Frame) (st : Status) (b : List Byte) (s : State) :
    (s.answered f st b).freeCount =
    s.freeCount := rfl
@[simp] theorem answered_seg (f : Frame) (st : Status) (b : List Byte) (s : State) (g : Seg) : (s.answered f st b).seg g = s.seg g := by
  cases g <;> rfl

@[simp] theorem kept_pending (f : Frame) (s : State) : (s.kept f).pending = s.pending := rfl
@[simp] theorem kept_host (f : Frame) (s : State) :
    (s.kept f).host =
    { s.host with serving := some ⟨f, .working⟩ } := rfl
@[simp] theorem kept_store (f : Frame) (s : State) : (s.kept f).store = s.store := rfl
@[simp] theorem kept_site (f : Frame) (s : State) : (s.kept f).site = s.site := rfl
@[simp] theorem kept_visits (f : Frame) (s : State) : (s.kept f).visits = s.visits := rfl
@[simp] theorem kept_portals (f : Frame) (s : State) : (s.kept f).portals = s.portals := rfl
@[simp] theorem kept_units (f : Frame) (s : State) : (s.kept f).units = s.units := rfl
@[simp] theorem kept_lifts (f : Frame) (s : State) : (s.kept f).lifts = s.lifts := rfl
@[simp] theorem kept_segA (f : Frame) (s : State) : (s.kept f).segA = s.segA := rfl
@[simp] theorem kept_segB (f : Frame) (s : State) : (s.kept f).segB = s.segB := rfl
@[simp] theorem kept_segC (f : Frame) (s : State) : (s.kept f).segC = s.segC := rfl
@[simp] theorem kept_router (f : Frame) (s : State) : (s.kept f).router = s.router := rfl
@[simp] theorem kept_lines (f : Frame) (s : State) : (s.kept f).lines = s.lines := rfl
@[simp] theorem kept_freeCount (f : Frame) (s : State) : (s.kept f).freeCount = s.freeCount := rfl
@[simp] theorem kept_seg (f : Frame) (s : State) (g : Seg) : (s.kept f).seg g = s.seg g := by
  cases g <;> rfl

@[simp] theorem modLine_pending (n : Nat) (f : Line → Line) (s : State) :
    (s.modLine n f).pending =
    s.pending := rfl
@[simp] theorem modLine_host (n : Nat) (f : Line → Line) (s : State) :
    (s.modLine n f).host =
    s.host := rfl
@[simp] theorem modLine_store (n : Nat) (f : Line → Line) (s : State) :
    (s.modLine n f).store =
    s.store := rfl
@[simp] theorem modLine_site (n : Nat) (f : Line → Line) (s : State) :
    (s.modLine n f).site =
    s.site := rfl
@[simp] theorem modLine_visits (n : Nat) (f : Line → Line) (s : State) :
    (s.modLine n f).visits =
    s.visits := rfl
@[simp] theorem modLine_portals (n : Nat) (f : Line → Line) (s : State) :
    (s.modLine n f).portals =
    s.portals := rfl
@[simp] theorem modLine_units (n : Nat) (f : Line → Line) (s : State) :
    (s.modLine n f).units =
    s.units := rfl
@[simp] theorem modLine_lifts (n : Nat) (f : Line → Line) (s : State) :
    (s.modLine n f).lifts =
    s.lifts := rfl
@[simp] theorem modLine_segA (n : Nat) (f : Line → Line) (s : State) :
    (s.modLine n f).segA =
    s.segA := rfl
@[simp] theorem modLine_segB (n : Nat) (f : Line → Line) (s : State) :
    (s.modLine n f).segB =
    s.segB := rfl
@[simp] theorem modLine_segC (n : Nat) (f : Line → Line) (s : State) :
    (s.modLine n f).segC =
    s.segC := rfl
@[simp] theorem modLine_router (n : Nat) (f : Line → Line) (s : State) :
    (s.modLine n f).router =
    s.router := rfl
@[simp] theorem modLine_lines (n : Nat) (f : Line → Line) (s : State) :
    (s.modLine n f).lines =
    { s.lines with list := s.lines.list.modify n f } := rfl
@[simp] theorem modLine_freeCount (n : Nat) (f : Line → Line) (s : State) :
    (s.modLine n f).freeCount =
    s.freeCount := rfl
@[simp] theorem modLine_seg (n : Nat) (f : Line → Line) (s : State) (g : Seg) : (s.modLine n f).seg g = s.seg g := by
  cases g <;> rfl

@[simp] theorem modVisit_pending (n : Nat) (f : Visit → Visit) (s : State) :
    (s.modVisit n f).pending =
    s.pending := rfl
@[simp] theorem modVisit_host (n : Nat) (f : Visit → Visit) (s : State) :
    (s.modVisit n f).host =
    s.host := rfl
@[simp] theorem modVisit_store (n : Nat) (f : Visit → Visit) (s : State) :
    (s.modVisit n f).store =
    s.store := rfl
@[simp] theorem modVisit_site (n : Nat) (f : Visit → Visit) (s : State) :
    (s.modVisit n f).site =
    s.site := rfl
@[simp] theorem modVisit_visits (n : Nat) (f : Visit → Visit) (s : State) :
    (s.modVisit n f).visits =
    { s.visits with table := s.visits.table.map fun v => if v.number = n then f v else v } := rfl
@[simp] theorem modVisit_portals (n : Nat) (f : Visit → Visit) (s : State) :
    (s.modVisit n f).portals =
    s.portals := rfl
@[simp] theorem modVisit_units (n : Nat) (f : Visit → Visit) (s : State) :
    (s.modVisit n f).units =
    s.units := rfl
@[simp] theorem modVisit_lifts (n : Nat) (f : Visit → Visit) (s : State) :
    (s.modVisit n f).lifts =
    s.lifts := rfl
@[simp] theorem modVisit_segA (n : Nat) (f : Visit → Visit) (s : State) :
    (s.modVisit n f).segA =
    s.segA := rfl
@[simp] theorem modVisit_segB (n : Nat) (f : Visit → Visit) (s : State) :
    (s.modVisit n f).segB =
    s.segB := rfl
@[simp] theorem modVisit_segC (n : Nat) (f : Visit → Visit) (s : State) :
    (s.modVisit n f).segC =
    s.segC := rfl
@[simp] theorem modVisit_router (n : Nat) (f : Visit → Visit) (s : State) :
    (s.modVisit n f).router =
    s.router := rfl
@[simp] theorem modVisit_lines (n : Nat) (f : Visit → Visit) (s : State) :
    (s.modVisit n f).lines =
    s.lines := rfl
@[simp] theorem modVisit_freeCount (n : Nat) (f : Visit → Visit) (s : State) :
    (s.modVisit n f).freeCount =
    s.freeCount := rfl
@[simp] theorem modVisit_seg (n : Nat) (f : Visit → Visit) (s : State) (g : Seg) : (s.modVisit n f).seg g = s.seg g := by
  cases g <;> rfl

/-! ## One segment -/

@[simp] theorem setSeg_seg (s : State) (g h : Seg) (x : Segment) :
    (s.setSeg g x).seg h = if h = g then x else s.seg h := by
  cases g <;> cases h <;> rfl

@[simp] theorem modSeg_seg (s : State) (g h : Seg) (f : Segment → Segment) :
    (s.modSeg g f).seg h = if h = g then f (s.seg g) else s.seg h := setSeg_seg s g h _

@[simp] theorem setSeg_pending (s : State) (g : Seg) (x : Segment) : (s.setSeg g x).pending = s.pending := by
  cases g <;> rfl
@[simp] theorem setSeg_host (s : State) (g : Seg) (x : Segment) : (s.setSeg g x).host = s.host := by
  cases g <;> rfl
@[simp] theorem setSeg_store (s : State) (g : Seg) (x : Segment) : (s.setSeg g x).store = s.store := by
  cases g <;> rfl
@[simp] theorem setSeg_site (s : State) (g : Seg) (x : Segment) : (s.setSeg g x).site = s.site := by
  cases g <;> rfl
@[simp] theorem setSeg_visits (s : State) (g : Seg) (x : Segment) : (s.setSeg g x).visits = s.visits := by
  cases g <;> rfl
@[simp] theorem setSeg_portals (s : State) (g : Seg) (x : Segment) : (s.setSeg g x).portals = s.portals := by
  cases g <;> rfl
@[simp] theorem setSeg_units (s : State) (g : Seg) (x : Segment) : (s.setSeg g x).units = s.units := by
  cases g <;> rfl
@[simp] theorem setSeg_lifts (s : State) (g : Seg) (x : Segment) : (s.setSeg g x).lifts = s.lifts := by
  cases g <;> rfl
@[simp] theorem setSeg_router (s : State) (g : Seg) (x : Segment) : (s.setSeg g x).router = s.router := by
  cases g <;> rfl
@[simp] theorem setSeg_lines (s : State) (g : Seg) (x : Segment) : (s.setSeg g x).lines = s.lines := by
  cases g <;> rfl
@[simp] theorem setSeg_freeCount (s : State) (g : Seg) (x : Segment) : (s.setSeg g x).freeCount = s.freeCount := by
  cases g <;> rfl

@[simp] theorem modSeg_pending (s : State) (g : Seg) (f : Segment → Segment) : (s.modSeg g f).pending = s.pending := by
  cases g <;> rfl
@[simp] theorem modSeg_host (s : State) (g : Seg) (f : Segment → Segment) : (s.modSeg g f).host = s.host := by
  cases g <;> rfl
@[simp] theorem modSeg_store (s : State) (g : Seg) (f : Segment → Segment) : (s.modSeg g f).store = s.store := by
  cases g <;> rfl
@[simp] theorem modSeg_site (s : State) (g : Seg) (f : Segment → Segment) : (s.modSeg g f).site = s.site := by
  cases g <;> rfl
@[simp] theorem modSeg_visits (s : State) (g : Seg) (f : Segment → Segment) : (s.modSeg g f).visits = s.visits := by
  cases g <;> rfl
@[simp] theorem modSeg_portals (s : State) (g : Seg) (f : Segment → Segment) : (s.modSeg g f).portals = s.portals := by
  cases g <;> rfl
@[simp] theorem modSeg_units (s : State) (g : Seg) (f : Segment → Segment) : (s.modSeg g f).units = s.units := by
  cases g <;> rfl
@[simp] theorem modSeg_lifts (s : State) (g : Seg) (f : Segment → Segment) : (s.modSeg g f).lifts = s.lifts := by
  cases g <;> rfl
@[simp] theorem modSeg_router (s : State) (g : Seg) (f : Segment → Segment) : (s.modSeg g f).router = s.router := by
  cases g <;> rfl
@[simp] theorem modSeg_lines (s : State) (g : Seg) (f : Segment → Segment) : (s.modSeg g f).lines = s.lines := by
  cases g <;> rfl
@[simp] theorem modSeg_freeCount (s : State) (g : Seg) (f : Segment → Segment) : (s.modSeg g f).freeCount = s.freeCount := by
  cases g <;> rfl

/-! ## A notice (R211) -/

/-- A notice that finds room joins the queue. -/
theorem putNotice_room {n : Notice} {s : State} (h : s.host.notices.length < Config.maxNotices) :
    putNotice n s =
      { s with host := { s.host with notices := s.host.notices ++ [⟨s.site.seconds, n⟩] } } := if_pos h

/-- A notice that finds the queue full is counted. -/
theorem putNotice_full {n : Notice} {s : State} (h : ¬s.host.notices.length < Config.maxNotices) :
    putNotice n s = { s with host := { s.host with dropCount := satAdd 255 s.host.dropCount 1 } } :=
  if_neg h

@[simp] theorem putNotice_pending (n : Notice) (s : State) : (putNotice n s).pending = s.pending := by
  unfold putNotice; split <;> rfl
@[simp] theorem putNotice_store (n : Notice) (s : State) : (putNotice n s).store = s.store := by
  unfold putNotice; split <;> rfl
@[simp] theorem putNotice_site (n : Notice) (s : State) : (putNotice n s).site = s.site := by
  unfold putNotice; split <;> rfl
@[simp] theorem putNotice_visits (n : Notice) (s : State) : (putNotice n s).visits = s.visits := by
  unfold putNotice; split <;> rfl
@[simp] theorem putNotice_portals (n : Notice) (s : State) : (putNotice n s).portals = s.portals := by
  unfold putNotice; split <;> rfl
@[simp] theorem putNotice_units (n : Notice) (s : State) : (putNotice n s).units = s.units := by
  unfold putNotice; split <;> rfl
@[simp] theorem putNotice_lifts (n : Notice) (s : State) : (putNotice n s).lifts = s.lifts := by
  unfold putNotice; split <;> rfl
@[simp] theorem putNotice_segA (n : Notice) (s : State) : (putNotice n s).segA = s.segA := by
  unfold putNotice; split <;> rfl
@[simp] theorem putNotice_segB (n : Notice) (s : State) : (putNotice n s).segB = s.segB := by
  unfold putNotice; split <;> rfl
@[simp] theorem putNotice_segC (n : Notice) (s : State) : (putNotice n s).segC = s.segC := by
  unfold putNotice; split <;> rfl
@[simp] theorem putNotice_router (n : Notice) (s : State) : (putNotice n s).router = s.router := by
  unfold putNotice; split <;> rfl
@[simp] theorem putNotice_lines (n : Notice) (s : State) : (putNotice n s).lines = s.lines := by
  unfold putNotice; split <;> rfl
@[simp] theorem putNotice_freeCount (n : Notice) (s : State) : (putNotice n s).freeCount = s.freeCount := by
  unfold putNotice; split <;> rfl
@[simp] theorem putNotice_host_rx (n : Notice) (s : State) :
    (putNotice n s).host.rx = s.host.rx := by
  unfold putNotice; split <;> rfl
@[simp] theorem putNotice_host_linkFaults (n : Notice) (s : State) :
    (putNotice n s).host.linkFaults = s.host.linkFaults := by
  unfold putNotice; split <;> rfl
@[simp] theorem putNotice_host_rate (n : Notice) (s : State) :
    (putNotice n s).host.rate = s.host.rate := by
  unfold putNotice; split <;> rfl
@[simp] theorem putNotice_host_requests (n : Notice) (s : State) :
    (putNotice n s).host.requests = s.host.requests := by
  unfold putNotice; split <;> rfl
@[simp] theorem putNotice_host_serving (n : Notice) (s : State) :
    (putNotice n s).host.serving = s.host.serving := by
  unfold putNotice; split <;> rfl
@[simp] theorem putNotice_host_replies (n : Notice) (s : State) :
    (putNotice n s).host.replies = s.host.replies := by
  unfold putNotice; split <;> rfl
@[simp] theorem putNotice_seg (n : Notice) (s : State) (g : Seg) : (putNotice n s).seg g = s.seg g := by
  unfold putNotice; split <;> cases g <;> rfl

end Sys2Proof.Machine
end

