-- ==== Sys2Proof/Laws/HostFrames.lean ====
section
/-! SUPPORT. What one byte does inside a host frame, by what the frame has come to (R207, R214). -/

namespace Sys2Proof.Machine

/-- A byte after which the length byte is out of range discards the frame. -/
theorem frameByte_badLength {before : List Byte} {b n : Byte} {s : State}
    (hn : (before ++ [b]).headD 0 = n) (h : n.toNat < 2 ∨ 200 < n.toNat) :
    frameByte before b s = linkFault (setHostRx .hunting s) := by
  subst hn
  exact if_pos (by simpa using h)

/-- A length byte of 2 to 200 passes. -/
theorem length_fits {m : Nat} (h1 : 2 ≤ m) (h2 : m ≤ 200) : ¬(decide (m < 2) || decide (200 < m)) = true := by
  simp
  omega

/-- A byte that ends nothing is kept. -/
theorem frameByte_more {before : List Byte} {b n : Byte} {s : State}
    (hn : (before ++ [b]).headD 0 = n) (h1 : 2 ≤ n.toNat) (h2 : n.toNat ≤ 200)
    (hl : (before ++ [b]).length < n.toNat + 3) :
    frameByte before b s = setHostRx (.inFrame (before ++ [b])) s := by
  subst hn
  unfold frameByte
  dsimp only
  rw [if_neg (length_fits h1 h2), if_pos hl]

/-- The last byte of a frame decides by the check. -/
theorem frameByte_last {before : List Byte} {b n c : Byte} {body : List Byte} {s : State}
    (hn : before ++ [b] = n :: body ++ [c, b]) (h1 : 2 ≤ n.toNat) (h2 : n.toNat ≤ 200)
    (hl : body.length = n.toNat) :
    frameByte before b s =
      if (crc16 (n :: body)).toNat = 256 * c.toNat + b.toNat then
        placeFrame ⟨body.getD 0 0, body.getD 1 0, body.drop 2⟩ (setHostRx .hunting s)
      else linkFault (setHostRx .hunting s) := by
  have e1 : (n :: body ++ [c, b]).take (n.toNat + 1) = n :: body := by
    rw [List.cons_append, List.take_succ_cons, ← hl, List.take_left]
  have e2 : (n :: body ++ [c, b]).drop (n.toNat + 1) = [c, b] := by
    rw [List.cons_append, List.drop_succ_cons, ← hl, List.drop_left]
  have e3 : beNat [c, b] = 256 * c.toNat + b.toNat := by simp [beNat]; omega
  have e4 : ∀ k, k < n.toNat → (n :: body ++ [c, b]).getD (k + 1) 0 = body.getD k 0 := by
    intro k hk
    simp only [List.cons_append, List.getD_cons_succ]
    rw [List.getD_eq_getElem?_getD, List.getElem?_append_left (by omega), List.getD_eq_getElem?_getD]
  have e5 : (n :: body ++ [c, b]).headD 0 = n := rfl
  unfold frameByte
  rw [hn]
  dsimp only
  rw [if_neg (by rw [e5]; exact length_fits h1 h2), if_neg (by rw [e5]; simp; omega)]
  have t0 := e4 0 (by omega)
  have t1 := e4 1 (by omega)
  simp only [e5, e1, e2, e3, t0, t1]
  rfl

end Sys2Proof.Machine
end

