-- ==== Sys2Proof/Laws/VisitTable.lean ====
section
/-! SUPPORT. The Visit Table stays in form: visits that change or leave, the number a new visit takes, and the
grant of an admission (R44, R45, R54). -/

namespace Sys2Proof.Machine

/-- Visits whose numbers and values are those of a table in form, or fewer of them, are in form. -/
theorem inForm_of_sublist {e e' : VisitEngine} (h : e.inForm)
    (hn : (e'.table.map fun v => (v.number, v.value, v.tenant)).Sublist
      (e.table.map fun v => (v.number, v.value, v.tenant)))
    (hc : e'.counter = e.counter) : e'.inForm := by
  have h1 : (e'.table.map Visit.number).Sublist (e.table.map Visit.number) := by
    simpa [List.map_map, Function.comp_def] using hn.map Prod.fst
  have h2 : (e'.table.map Visit.value).Sublist (e.table.map Visit.value) := by
    simpa [List.map_map, Function.comp_def] using hn.map fun x => x.2.1
  have h3 : (e'.table.map Visit.tenant).Sublist (e.table.map Visit.tenant) := by
    simpa [List.map_map, Function.comp_def] using hn.map fun x => x.2.2
  refine ⟨?_, h.2.1.sublist h1, h.2.2.1.sublist h2, fun v hv => ?_, hc ▸ h.2.2.2.2.1, hc ▸ h.2.2.2.2.2.1,
    fun t => Nat.le_trans ?_ (h.2.2.2.2.2.2 t)⟩
  · exact Nat.le_trans (by simpa using hn.length_le) h.1
  · obtain ⟨w, hw, he⟩ := List.mem_map.mp (h1.subset (List.mem_map_of_mem hv))
    exact he ▸ h.2.2.2.1 w hw
  · have h4 := (h3.filter (· == t)).length_le
    simpa only [List.filter_map, List.length_map, Function.comp_def] using h4

theorem inForm_filter {e : VisitEngine} (h : e.inForm) (p : Visit → Bool) :
    VisitEngine.inForm { e with table := e.table.filter p } :=
  inForm_of_sublist h (List.filter_sublist.map _) rfl

theorem inForm_map {e : VisitEngine} (h : e.inForm) (f : Visit → Visit)
    (hf : ∀ v, (f v).number = v.number ∧ (f v).value = v.value ∧ (f v).tenant = v.tenant) :
    VisitEngine.inForm { e with table := e.table.map f } := by
  refine inForm_of_sublist h ?_ rfl
  simp [List.map_map, Function.comp_def, hf]

/-! ## The number of a new visit (R45) -/

theorem nextVisitNumber_range {n : Nat} (h : 1 ≤ n ∧ n ≤ 65535) :
    1 ≤ nextVisitNumber n ∧ nextVisitNumber n ≤ 65535 := by
  unfold nextVisitNumber
  split <;> omega

theorem freeNumber_range (table : List Visit) (k : Nat) {n : Nat} (h : 1 ≤ n ∧ n ≤ 65535) :
    1 ≤ freeNumber table k n ∧ freeNumber table k n ≤ 65535 := by
  induction k generalizing n with
  | zero => exact h
  | succ k ih =>
    unfold freeNumber
    split
    · exact ih (nextVisitNumber_range h)
    · exact h

/-- The numbers offered one after another from `n` on. -/
def offers : Nat → Nat → List Nat
  | 0, _ => []
  | k + 1, n => n :: offers k (nextVisitNumber n)

theorem offers_mem {k n m : Nat} (h : m ∈ offers k n) (hn : 1 ≤ n ∧ n ≤ 65535) :
    (n ≤ m ∧ m < n + k) ∨ (m + 65535 < n + k) := by
  induction k generalizing n with
  | zero => cases h
  | succ k ih =>
    rcases List.mem_cons.mp h with h | h
    · omega
    · have := ih h (nextVisitNumber_range hn)
      unfold nextVisitNumber at this
      split at this <;> omega

theorem offers_nodup {k n : Nat} (hk : k ≤ 65535) (hn : 1 ≤ n ∧ n ≤ 65535) : (offers k n).Nodup := by
  induction k generalizing n with
  | zero => exact List.nodup_nil
  | succ k ih =>
    refine List.nodup_cons.mpr ⟨fun h => ?_, ih (by omega) (nextVisitNumber_range hn)⟩
    have := offers_mem h (nextVisitNumber_range hn)
    unfold nextVisitNumber at this
    split at this <;> omega

/-- Either the number taken is held by no visit, or every number offered is held by one. -/
theorem freeNumber_or (table : List Visit) (k n : Nat) :
    (∀ v ∈ table, v.number ≠ freeNumber table k n) ∨ ∀ m ∈ offers k n, m ∈ table.map Visit.number := by
  induction k generalizing n with
  | zero => exact .inr fun m hm => nomatch hm
  | succ k ih =>
    unfold freeNumber
    split
    · rename_i h
      refine (ih (nextVisitNumber n)).imp_right fun hi m hm => ?_
      rcases List.mem_cons.mp hm with hm | hm
      · obtain ⟨v, hv, he⟩ := List.any_eq_true.mp h
        exact List.mem_map.mpr ⟨v, hv, by simpa [hm] using he⟩
      · exact hi m hm
    · rename_i h
      refine .inl fun v hv he => h (List.any_eq_true.mpr ⟨v, hv, by simp [he]⟩)

/-- Distinct numbers that all stand in a list are no more than the list. -/
theorem nodup_length_le {a : List Nat} (h : a.Nodup) :
    ∀ {b : List Nat}, (∀ m ∈ a, m ∈ b) → a.length ≤ b.length := by
  induction a with
  | nil => exact fun _ => Nat.zero_le _
  | cons x l ih =>
    intro b hb
    have hx : x ∈ b := hb x (List.mem_cons_self ..)
    have h1 := ih (List.nodup_cons.mp h).2 (b := b.erase x) fun m hm =>
      (List.mem_erase_of_ne (by rintro rfl; exact (List.nodup_cons.mp h).1 hm)).mpr
        (hb m (List.mem_cons_of_mem _ hm))
    rw [List.length_erase_of_mem hx] at h1
    have := List.length_pos_of_mem hx
    simp only [List.length_cons]
    omega

/-- The number a new visit takes is held by no visit: 96 visits cannot hold 97 numbers (R45). -/
theorem freeNumber_fresh {table : List Visit} {n : Nat} (h : table.length ≤ Config.maxVisits)
    (hn : 1 ≤ n ∧ n ≤ 65535) : ∀ v ∈ table, v.number ≠ freeNumber table 97 n := by
  rcases freeNumber_or table 97 n with hf | hf
  · exact hf
  · have h1 := nodup_length_le (offers_nodup (k := 97) (by omega) hn) hf
    have h2 : ∀ k m, (offers k m).length = k := by
      intro k
      induction k with
      | zero => exact fun _ => rfl
      | succ k ih => exact fun m => congrArg (· + 1) (ih _)
    rw [h2, List.length_map] at h1
    exact absurd (Nat.le_trans h1 h) (by decide)

/-- A grant keeps the Visit Table in form: there is room, and no visit holds the value (R44, R54). -/
theorem inForm_grant {e : VisitEngine} (h : e.inForm) {v : Visit} (hs : e.table.length < Config.maxVisits)
    (hn : v.number = freeNumber e.table 97 e.counter) (hv : ∀ w ∈ e.table, w.value ≠ v.value)
    (ht : (e.table.filter fun w => w.tenant == v.tenant).length < Config.maxSharedVisits) :
    VisitEngine.inForm { e with table := e.table ++ [v], counter := nextVisitNumber v.number } := by
  have hc : 1 ≤ e.counter ∧ e.counter ≤ 65535 := ⟨h.2.2.2.2.1, h.2.2.2.2.2.1⟩
  have hr := freeNumber_range e.table 97 hc
  rw [← hn] at hr
  have hf := freeNumber_fresh h.1 hc
  rw [← hn] at hf
  refine ⟨by simpa using Nat.succ_le_of_lt hs, ?_, ?_, fun w hw => ?_, (nextVisitNumber_range hr).1,
    (nextVisitNumber_range hr).2, fun t => ?_⟩
  · simp only [List.map_append, List.map_cons, List.map_nil]
    refine List.nodup_append.mpr ⟨h.2.1, by simp, fun a ha b hb => ?_⟩
    obtain ⟨w, hw, rfl⟩ := List.mem_map.mp ha
    rw [List.mem_singleton.mp hb]
    exact hf w hw
  · simp only [List.map_append, List.map_cons, List.map_nil]
    refine List.nodup_append.mpr ⟨h.2.2.1, by simp, fun a ha b hb => ?_⟩
    obtain ⟨w, hw, rfl⟩ := List.mem_map.mp ha
    rw [List.mem_singleton.mp hb]
    exact hv w hw
  · rcases List.mem_append.mp hw with hw | hw
    · exact h.2.2.2.1 w hw
    · rw [List.mem_singleton.mp hw]
      exact hr
  · rw [List.filter_append, List.length_append]
    by_cases hvt : v.tenant = t
    · subst hvt
      simpa using Nat.succ_le_of_lt ht
    · simpa [hvt] using h.2.2.2.2.2.2 t

end Sys2Proof.Machine
end

