-- ==== Sys2Proof/Laws/MovesOps.lean ====
section
/-! SUPPORT. What the shared operations of Ops, Flags, HostLink and StoreAccess may change. -/

namespace Sys2Proof.Machine

theorem modLine_moves {M : Cell → Prop} {s₀ s₁ : State} {l : Nat} {f : Line → Line} (hm : Moves M s₀ s₁)
    (hLines : M .lines) : Moves M s₀ (s₁.modLine l f) := by
  exact moves_lines hm (.inl hLines) (.inr ⟨rfl, rfl, rfl, rfl, rfl, rfl⟩) (.inr rfl)

theorem putNotice_moves {M : Cell → Prop} {s₀ s₁ : State} {n : Notice} (hm : Moves M s₀ s₁)
    (hNotices : M .notices) : Moves M s₀ (putNotice n s₁) := by
  unfold putNotice
  split
  · rename_i h
    refine moves_host hm (fun l => ⟨?_, l.2⟩) ?_ ?_ ?_ ?_ ?_ ?_ (.inl hNotices) <;> try exact .inr rfl
    simp only [List.length_append, List.length_cons, List.length_nil]
    omega
  · refine moves_host hm (fun l => ⟨l.1, Nat.min_le_left _ _, l.2.2⟩) ?_ ?_ ?_ ?_ ?_ ?_ (.inl hNotices) <;>
      exact .inr rfl

theorem toSite_moves {M : Cell → Prop} {s₀ s₁ : State} {r : SiteReport} (hm : Moves M s₀ s₁)
    (hSiteIn : M .siteIn) : Moves M s₀ (toSite r s₁) := by
  exact moves_site hm (fun l => l) (.inr ⟨rfl, rfl, rfl⟩) (.inr ⟨rfl, rfl⟩) (.inr ⟨rfl, rfl, rfl, rfl, rfl, rfl⟩) (.inr rfl) (.inr rfl) (.inr ⟨rfl, rfl, rfl⟩) (.inl hSiteIn)

theorem toSiteFire_moves {M : Cell → Prop} {s₀ s₁ : State} {r : FireReport} (hm : Moves M s₀ s₁)
    (hSiteIn : M .siteIn) : Moves M s₀ (toSiteFire r s₁) := by
  exact moves_site hm (fun l => l) (.inr ⟨rfl, rfl, rfl⟩) (.inr ⟨rfl, rfl⟩) (.inr ⟨rfl, rfl, rfl, rfl, rfl, rfl⟩) (.inr rfl) (.inr rfl) (.inr ⟨rfl, rfl, rfl⟩) (.inl hSiteIn)

theorem toBeacon_moves {M : Cell → Prop} {s₀ s₁ : State} {r : BeaconReport} (hm : Moves M s₀ s₁)
    (hLinesIn : M .linesIn) : Moves M s₀ (toBeacon r s₁) := by
  exact moves_lines hm (.inr ⟨rfl, rfl, rfl⟩) (.inr ⟨rfl, rfl, rfl, rfl, rfl, rfl⟩) (.inl hLinesIn)

theorem toVisitsPortal_moves {M : Cell → Prop} {s₀ s₁ : State} {r : PortalReport} (hm : Moves M s₀ s₁)
    (hVisitsIn : M .visitsIn) : Moves M s₀ (toVisitsPortal r s₁) := by
  exact moves_visits hm (fun l => l) (.inr rfl) (.inr rfl) (.inr ⟨rfl, rfl⟩) (.inl hVisitsIn)

theorem toVisitsCall_moves {M : Cell → Prop} {s₀ s₁ : State} {r : CallReport} (hm : Moves M s₀ s₁)
    (hVisitsIn : M .visitsIn) : Moves M s₀ (toVisitsCall r s₁) := by
  exact moves_visits hm (fun l => l) (.inr rfl) (.inr rfl) (.inr ⟨rfl, rfl⟩) (.inl hVisitsIn)

theorem toVisitsOpened_moves {M : Cell → Prop} {s₀ s₁ : State} {unit tenant : Nat} (hm : Moves M s₀ s₁)
    (hVisitsIn : M .visitsIn) : Moves M s₀ (toVisitsOpened unit tenant s₁) := by
  exact moves_visits hm (fun l => l) (.inr rfl) (.inr rfl) (.inr ⟨rfl, rfl⟩) (.inl hVisitsIn)

theorem toPortals_moves {M : Cell → Prop} {s₀ s₁ : State} {o : PortalOrder} (hm : Moves M s₀ s₁)
    (hPortalsIn : M .portalsIn) : Moves M s₀ (toPortals o s₁) := by
  exact moves_portals hm (.inr rfl) (.inl hPortalsIn)

theorem toUnits_moves {M : Cell → Prop} {s₀ s₁ : State} {o : UnitOrder} (hm : Moves M s₀ s₁)
    (hUnitsIn : M .unitsIn) : Moves M s₀ (toUnits o s₁) := by
  exact moves_units hm (fun l => l.entries) (.inr rfl) (.inr rfl) (.inl hUnitsIn)

theorem toLifts_moves {M : Cell → Prop} {s₀ s₁ : State} {call : Nat} (hm : Moves M s₀ s₁)
    (hLiftsIn : M .liftsIn) : Moves M s₀ (toLifts call s₁) := by
  exact moves_lifts hm (fun l => l) (.inr rfl) (.inl hLiftsIn)

theorem toLiftOrders_moves {M : Cell → Prop} {s₀ s₁ : State} {o : LiftOrder} (hm : Moves M s₀ s₁)
    (hLiftsIn : M .liftsIn) : Moves M s₀ (toLiftOrders o s₁) := by
  exact moves_lifts hm (fun l => l) (.inr rfl) (.inl hLiftsIn)

theorem toPortalEvac_moves {M : Cell → Prop} {s₀ s₁ : State} {o : EvacOrder} (hm : Moves M s₀ s₁)
    (hPortalsIn : M .portalsIn) : Moves M s₀ (toPortalEvac o s₁) := by
  exact moves_portals hm (.inr rfl) (.inl hPortalsIn)

theorem toVisitsEvac_moves {M : Cell → Prop} {s₀ s₁ : State} {o : EvacOrder} (hm : Moves M s₀ s₁)
    (hVisitsIn : M .visitsIn) : Moves M s₀ (toVisitsEvac o s₁) := by
  exact moves_visits hm (fun l => l) (.inr rfl) (.inr rfl) (.inr ⟨rfl, rfl⟩) (.inl hVisitsIn)

theorem askLookup_moves {M : Cell → Prop} {s₀ s₁ : State} {l : Lookup} (hm : Moves M s₀ s₁)
    (hLookups : M .lookups) : Moves M s₀ (askLookup l s₁) := by
  exact moves_store hm (fun l => l) (.inr rfl) (.inl hLookups) (.inr rfl)

theorem modVisit_moves {M : Cell → Prop} {s₀ s₁ : State} {number : Nat} {f : Visit → Visit}
    (hm : Moves M s₀ s₁)
    (hTable : M .table)
    (hf : ∀ v, (f v).number = v.number ∧ (f v).value = v.value ∧ (f v).tenant = v.tenant) : Moves M s₀
    (s₁.modVisit number f) := by
  have h : ∀ v : Visit, (if v.number = number then f v else v).number = v.number ∧
      (if v.number = number then f v else v).value = v.value ∧
      (if v.number = number then f v else v).tenant = v.tenant := fun v => by
    split
    · exact hf v
    · exact ⟨rfl, rfl, rfl⟩
  exact moves_visits hm (fun l => inForm_map l _ h) (.inl hTable) (.inr rfl) (.inr ⟨rfl, rfl⟩)
    (.inr ⟨rfl, rfl, rfl, rfl⟩) (.inr (fewer_map _ fun v => (h v).2.2))

theorem withPortal_moves {M : Cell → Prop} {s₀ s₁ : State} {p : Nat} {f : Portal → Portal}
    (hm : Moves M s₀ s₁)
    (hSiteIn : M .siteIn) (hPortals : M .portals) (hLinesIn : M .linesIn) : Moves M s₀
    (withPortal p f s₁) := by
  have h : Moves M s₀ { s₁ with portals := { s₁.portals with list := s₁.portals.list.modify p f } } :=
    moves_portals hm (.inl hPortals) (.inr ⟨rfl, rfl⟩)
  unfold withPortal
  dsimp only
  repeat' first
    | assumption
    | with_reducible apply toSite_moves
    | with_reducible apply toBeacon_moves
    | split

theorem withUnits_moves {M : Cell → Prop} {s₀ s₁ : State} {f : Table UnitEntry → Table UnitEntry}
    (hm : Moves M s₀ s₁)
    (hEntries : M .entries) (hLinesIn : M .linesIn)
    (hf : Table.sorted s₁.units.entries → Table.sorted (f s₁.units.entries)) : Moves M s₀
    (withUnits f s₁) := by
  have h : Moves M s₀ { s₁ with units := { s₁.units with entries := f s₁.units.entries } } :=
    moves_units hm (fun l => hf l.entries) (.inl hEntries) (.inr rfl) (.inr rfl)
  unfold withUnits
  dsimp only
  repeat' first
    | assumption
    | with_reducible apply toBeacon_moves
    | split

theorem withUnit_moves {M : Cell → Prop} {s₀ s₁ : State} {u : Nat} {f : UnitEntry → UnitEntry}
    (hm : Moves M s₀ s₁)
    (hEntries : M .entries) (hLinesIn : M .linesIn) : Moves M s₀ (withUnit u f s₁) := by
  unfold withUnit
  try dsimp only
  repeat' first
    | with_reducible assumption
    | exact fun l => sorted_modify l _ _
    | exact fun l => sorted_put l _ _
    | exact fun l => sorted_remove l _
    | exact fun l => sorted_map l _ fun e => (by split <;> rfl)
    | intro _
    | with_reducible apply withUnits_moves
    | split

theorem withCar_moves {M : Cell → Prop} {s₀ s₁ : State} {c : Nat} {f : Car → Car} (hm : Moves M s₀ s₁)
    (hSiteIn : M .siteIn) (hCars : M .cars) (hf : ∀ x, s₁.car c = some x → x.inForm → (f x).inForm) :
    Moves M s₀ (withCar c f s₁) := by
  have h : Moves M s₀ { s₁ with lifts := { s₁.lifts with cars := s₁.lifts.cars.modify c f } } := by
    refine moves_lifts hm (fun l x hx => ?_) (.inl hCars) (.inr ⟨rfl, rfl⟩)
    rw [List.mem_iff_getElem?] at hx
    obtain ⟨i, hi⟩ := hx
    rw [List.getElem?_modify] at hi
    split at hi
    · cases hy : s₁.lifts.cars[i]? with
      | none => simp [hy] at hi
      | some y =>
        obtain rfl : f y = x := by simpa [hy] using hi
        exact hf y (by rename_i e; subst e; exact hy)
          (l y (List.mem_of_getElem? hy))
    · exact l x (List.mem_of_getElem? (by simpa using hi))
  unfold withCar
  dsimp only
  repeat' first
    | assumption
    | with_reducible apply toSite_moves
    | split

theorem withSeg_moves {M : Cell → Prop} {s₀ s₁ : State} {g : Seg} {f : Segment → Segment}
    (hm : Moves M s₀ s₁)
    (hSiteIn : M .siteIn) (hSeg : M (.segment g)) (hl : (s₁.seg g).inForm → (f (s₁.seg g)).inForm) :
    Moves M s₀ (withSeg g f s₁) := by
  have h := setSeg_moves hm hl hSeg
  unfold withSeg
  dsimp only
  repeat' first
    | assumption
    | with_reducible apply toSite_moves
    | split

theorem evaluateSeg_moves {M : Cell → Prop} {s₀ s₁ : State} {g : Seg} (hm : Moves M s₀ s₁)
    (hNotices : M .notices) (hSeg : M (.segment g)) : Moves M s₀ (evaluateSeg g s₁) := by
  unfold evaluateSeg
  try dsimp only
  repeat' first
    | with_reducible assumption
    | exact fun l => l
    | (show Segment.inForm _; assumption)
    | intro _
    | with_reducible apply modSeg_moves
    | with_reducible apply putNotice_moves
    | split

theorem setRxFaults_moves {M : Cell → Prop} {s₀ s₁ : State} {g : Seg} {n : Nat} (hm : Moves M s₀ s₁)
    (hNotices : M .notices) (hSeg : M (.segment g)) (hn : (s₁.seg g).inForm → n ≤ 255) : Moves M s₀
    (setRxFaults g n s₁) := by
  exact evaluateSeg_moves (modSeg_moves hm (fun l => ⟨l.1, l.2.1, hn l, l.2.2.2⟩) hSeg) hNotices hSeg

theorem setTxFaults_moves {M : Cell → Prop} {s₀ s₁ : State} {g : Seg} {n : Nat} (hm : Moves M s₀ s₁)
    (hNotices : M .notices) (hSeg : M (.segment g)) (hn : (s₁.seg g).inForm → n ≤ 255) : Moves M s₀
    (setTxFaults g n s₁) := by
  exact evaluateSeg_moves (modSeg_moves hm (fun l => ⟨l.1, hn l, l.2.2⟩) hSeg) hNotices hSeg

theorem countDrop_moves {M : Cell → Prop} {s₀ s₁ : State} {g : Seg} {c : DropClass} (hm : Moves M s₀ s₁)
    (hNotices : M .notices) (hSeg : M (.segment g)) : Moves M s₀ (countDrop g c s₁) := by
  have h : Moves M s₀ (s₁.modSeg g fun x =>
      { x with drops := x.drops.set c (satAdd 65535 ((s₁.seg g).drops.get c) 1) }) := by
    refine modSeg_moves hm (fun l => ?_) hSeg
    obtain ⟨l1, l2, l3, l4, l5, l6, l7, l8, l9⟩ := l
    cases c
    · exact ⟨l1, l2, l3, Nat.min_le_left _ _, l5, l6, l7, l8, l9⟩
    · exact ⟨l1, l2, l3, l4, Nat.min_le_left _ _, l6, l7, l8, l9⟩
    · exact ⟨l1, l2, l3, l4, l5, Nat.min_le_left _ _, l7, l8, l9⟩
    · exact ⟨l1, l2, l3, l4, l5, l6, Nat.min_le_left _ _, l8, l9⟩
    · exact ⟨l1, l2, l3, l4, l5, l6, l7, Nat.min_le_left _ _, l9⟩
  unfold countDrop
  dsimp only
  split
  · exact putNotice_moves h hNotices
  · exact h

theorem setBeacon_moves {M : Cell → Prop} {s₀ s₁ : State} {b : Beacon} (hm : Moves M s₀ s₁)
    (hLines : M .lines) (hBeacon : M .beacon) : Moves M s₀ (setBeacon b s₁) := by
  exact moves_lines hm (.inl hLines) (.inl hBeacon) (.inr rfl)

theorem evaluateBeacon_moves {M : Cell → Prop} {s₀ s₁ : State} (hm : Moves M s₀ s₁)
    (hLines : M .lines) (hBeacon : M .beacon) : Moves M s₀ (evaluateBeacon s₁) := by
  have h : ∀ b, Moves M s₀ { s₁ with lines := { s₁.lines with phaseTimer := b } } :=
    fun _ => moves_lines hm (.inr ⟨rfl, rfl, rfl⟩) (.inl hBeacon) (.inr rfl)
  unfold evaluateBeacon
  dsimp only
  repeat' first
    | assumption
    | exact h _
    | with_reducible apply setBeacon_moves
    | split

theorem linkFault_moves {M : Cell → Prop} {s₀ s₁ : State} (hm : Moves M s₀ s₁)
    (hLinkFaults : M .linkFaults) : Moves M s₀ (linkFault s₁) := by
  exact moves_host hm (fun l => ⟨l.1, l.2.1, l.2.2.1, l.2.2.2.1, Nat.min_le_left _ _⟩) (.inr rfl)
    (.inl hLinkFaults) (.inr rfl) (.inr rfl) (.inr rfl) (.inr rfl) (.inr ⟨rfl, rfl⟩)

theorem takeHead_moves {M : Cell → Prop} {s₀ s₁ : State} (hm : Moves M s₀ s₁)
    (hRequests : M .requests) (hServing : M .serving) : Moves M s₀ (takeHead s₁) := by
  unfold takeHead
  split
  · rename_i h
    refine moves_host hm (fun l => ⟨l.1, l.2.1, ?_, l.2.2.2⟩) (.inr rfl)
      (.inr rfl) (.inr rfl) (.inl hRequests) (.inl hServing) (.inr rfl) (.inr ⟨rfl, rfl⟩)
    have := l.2.2.1
    rw [h] at this
    exact Nat.le_of_succ_le this
  · exact hm

theorem replyAs_moves {M : Cell → Prop} {s₀ s₁ : State} {role : ReplyRole} {st : Status}
    {body : List Byte} (hm : Moves M s₀ s₁)
    (hServing : M .serving) (hReplies : M .replies) (hr : role ≠ .refusal) : Moves M s₀
    (replyAs role st body s₁) := by
  unfold replyAs
  split
  · exact hm
  · refine moves_host hm (fun l => ⟨l.1, l.2.1, l.2.2.1, ?_, l.2.2.2.2⟩) (.inr rfl)
      (.inr rfl) (.inr rfl) (.inr rfl) (.inl hServing) (.inl hReplies) (.inr ⟨rfl, rfl⟩)
    have := l.2.2.2.1
    cases role <;> simp_all [HostLink.refusals]

theorem reply_moves {M : Cell → Prop} {s₀ s₁ : State} {st : Status} {body : List Byte}
    (hm : Moves M s₀ s₁)
    (hServing : M .serving) (hReplies : M .replies) : Moves M s₀ (reply st body s₁) := by
  exact replyAs_moves hm hServing hReplies (by decide)

theorem working_moves {M : Cell → Prop} {s₀ s₁ : State} (hm : Moves M s₀ s₁)
    (hServing : M .serving) : Moves M s₀ (working s₁) := by
  unfold working
  split
  · exact hm
  · exact moves_host hm (fun l => l) (.inr rfl) (.inr rfl) (.inr rfl) (.inr rfl) (.inl hServing) (.inr rfl)
      (.inr ⟨rfl, rfl⟩)

theorem taking_moves {M : Cell → Prop} {s₀ s₁ : State} {kind : Nat} {f : List Byte → State → State}
    (hm : Moves M s₀ s₁) (hf : ∀ b t, Moves M s₀ t → Moves M s₀ (f b t)) :
    Moves M s₀ (taking kind f s₁) := by
  unfold taking
  split
  · split
    · exact hf _ _ hm
    · exact hm
  · exact hm

theorem takingStore_moves {M : Cell → Prop} {s₀ s₁ : State} {kind : Nat} {f : List Byte → State → State}
    (hm : Moves M s₀ s₁) (hf : ∀ b t, Moves M s₀ t → Moves M s₀ (f b t)) :
    Moves M s₀ (takingStore kind f s₁) := by
  unfold takingStore
  split
  · exact taking_moves hm hf
  · exact hm

theorem tested_moves {M : Cell → Prop} {s₀ s₁ : State} {α : Type} {p : Parsed α} {modeOk : Mode → Bool}
    {k : α → State → State} (hm : Moves M s₀ s₁) (hServing : M .serving) (hReplies : M .replies)
    (hk : ∀ x t, Moves M s₀ t → Moves M s₀ (k x t)) : Moves M s₀ (tested p modeOk k s₁) := by
  unfold tested
  split
  · exact reply_moves hm hServing hReplies
  · split
    · exact hk _ _ hm
    · exact reply_moves hm hServing hReplies

theorem unlessFaulted_moves {M : Cell → Prop} {s₀ s₁ : State} {k : State → State} (hm : Moves M s₀ s₁)
    (hServing : M .serving) (hReplies : M .replies) (hk : ∀ t, Moves M s₀ t → Moves M s₀ (k t)) :
    Moves M s₀ (unlessFaulted k s₁) := by
  unfold unlessFaulted
  split
  · exact reply_moves hm hServing hReplies
  · exact hk _ hm

theorem placeFrame_moves {M : Cell → Prop} {s₀ s₁ : State} {f : Frame} (hm : Moves M s₀ s₁)
    (hLinkFaults : M .linkFaults) (hRequests : M .requests) (hServing : M .serving)
    (hReplies : M .replies) : Moves M s₀ (placeFrame f s₁) := by
  unfold placeFrame
  split
  · rename_i h
    refine takeHead_moves (moves_host hm (fun l => ⟨l.1, l.2.1, ?_, l.2.2.2⟩) (.inr rfl) (.inr rfl)
      (.inr rfl) (.inl hRequests) (.inr rfl) (.inr rfl) (.inr ⟨rfl, rfl⟩)) hRequests hServing
    simp only [List.length_append, List.length_cons, List.length_nil]
    omega
  · split
    · rename_i h
      refine moves_host hm (fun l => ⟨l.1, l.2.1, l.2.2.1, ?_, l.2.2.2.2⟩) (.inr rfl) (.inr rfl)
        (.inr rfl) (.inr rfl) (.inr rfl) (.inl hReplies) (.inr ⟨rfl, rfl⟩)
      simp only [HostLink.refusals, List.filter_append, List.length_append] at h ⊢
      exact h
    · exact linkFault_moves hm hLinkFaults

theorem setHostRx_moves {M : Cell → Prop} {s₀ s₁ : State} {rx : HostRx} (hm : Moves M s₀ s₁)
    (hHostRx : M .hostRx) : Moves M s₀ (setHostRx rx s₁) := by
  exact moves_host hm (fun l => l) (.inl hHostRx) (.inr rfl) (.inr rfl) (.inr rfl) (.inr rfl) (.inr rfl)
    (.inr ⟨rfl, rfl⟩)

theorem frameByte_moves {M : Cell → Prop} {s₀ s₁ : State} {before : List Byte} {b : Byte}
    (hm : Moves M s₀ s₁)
    (hHostRx : M .hostRx) (hLinkFaults : M .linkFaults) (hRequests : M .requests)
    (hServing : M .serving) (hReplies : M .replies) : Moves M s₀ (frameByte before b s₁) := by
  unfold frameByte
  try dsimp only
  repeat' first
    | with_reducible assumption
    | with_reducible apply linkFault_moves
    | with_reducible apply placeFrame_moves
    | with_reducible apply setHostRx_moves
    | split

theorem execHostByte_moves {M : Cell → Prop} {b : Byte} {s : State} (hHostRx : M .hostRx)
    (hLinkFaults : M .linkFaults) (hRequests : M .requests) (hServing : M .serving)
    (hReplies : M .replies) :
    ∃ t, execHostByte b s = .next t ∧ Moves M s t := by
  have hm := Moves.refl M s
  refine ⟨_, rfl, ?_⟩
  try dsimp only
  repeat' first
    | with_reducible assumption
    | with_reducible apply setHostRx_moves
    | with_reducible apply frameByte_moves
    | split

theorem execFrameGapTimeout_moves {M : Cell → Prop} {s : State} (hHostRx : M .hostRx)
    (hLinkFaults : M .linkFaults) :
    ∃ t, execFrameGapTimeout s = .next t ∧ Moves M s t := by
  have hm := Moves.refl M s
  refine ⟨_, rfl, ?_⟩
  try dsimp only
  repeat' first
    | with_reducible assumption
    | with_reducible apply linkFault_moves
    | with_reducible apply setHostRx_moves
    | split

theorem execReplySent_moves {M : Cell → Prop} {s : State} (hRequests : M .requests)
    (hServing : M .serving) (hReplies : M .replies) :
    ∃ t, execReplySent s = .next t ∧ Moves M s t := by
  refine ⟨_, rfl, ?_⟩
  dsimp only
  split
  · exact Moves.refl M s
  · rename_i r rest h
    have hl : s.host.inForm →
        (rest.filter fun r => r.role == .refusal).length ≤ Config.maxRefusals := by
      intro l
      have := l.2.2.2.1
      simp only [HostLink.refusals, h, List.filter_cons] at this
      split at this
      · exact Nat.le_of_succ_le this
      · exact this
    split
    · exact Moves.refl M s
    · exact moves_host (Moves.refl M s) (fun l => ⟨l.1, l.2.1, l.2.2.1, hl l, l.2.2.2.2⟩) (.inr rfl)
        (.inr rfl) (.inr rfl) (.inr rfl) (.inr rfl) (.inl hReplies) (.inr ⟨rfl, rfl⟩)
    · exact takeHead_moves (moves_host (Moves.refl M s)
        (fun l => ⟨l.1, l.2.1, l.2.2.1, hl l, l.2.2.2.2⟩) (.inr rfl) (.inr rfl) (.inr rfl) (.inr rfl)
        (.inl hServing) (.inl hReplies) (.inr ⟨rfl, rfl⟩)) hRequests hServing

theorem execBadKind_moves {M : Cell → Prop} {s : State} (hServing : M .serving) (hReplies : M .replies) :
    ∃ t, execBadKind s = .next t ∧ Moves M s t := by
  have hm := Moves.refl M s
  refine ⟨_, rfl, ?_⟩
  try dsimp only
  repeat' first
    | with_reducible assumption
    | with_reducible apply reply_moves
    | split

theorem execIdentify_moves {M : Cell → Prop} {s : State} (hLinkFaults : M .linkFaults)
    (hServing : M .serving) (hReplies : M .replies) :
    ∃ t, execIdentify s = .next t ∧ Moves M s t := by
  refine ⟨_, rfl, taking_moves (Moves.refl M s) fun b t h => tested_moves h hServing hReplies fun c u h => ?_⟩
  dsimp only
  have k : Moves M s (reply .ok (identifyBody u) u) := reply_moves h hServing hReplies
  split
  · generalize reply .ok (identifyBody u) u = v at k
    exact moves_host k (fun l => ⟨l.1, l.2.1, l.2.2.1, l.2.2.2.1, Nat.zero_le _⟩) (.inr rfl)
      (.inl hLinkFaults) (.inr rfl) (.inr rfl) (.inr rfl) (.inr rfl) (.inr ⟨rfl, rfl⟩)
  · exact k

theorem execRestart_moves {M : Cell → Prop} {s : State} (hServing : M .serving) (hReplies : M .replies) :
    ∃ t, execRestart s = .next t ∧ Moves M s t := by
  have hm := Moves.refl M s
  refine ⟨_, rfl, ?_⟩
  try dsimp only
  repeat' first
    | with_reducible assumption
    | decide
    | intro _
    | with_reducible apply replyAs_moves
    | with_reducible apply taking_moves
    | with_reducible apply tested_moves
    | split

theorem execTakeNotices_moves {M : Cell → Prop} {s : State} (hServing : M .serving)
    (hReplies : M .replies) (hNotices : M .notices) :
    ∃ t, execTakeNotices s = .next t ∧ Moves M s t := by
  refine ⟨_, rfl, taking_moves (Moves.refl M s) fun b t h => tested_moves h hServing hReplies fun c u h => ?_⟩
  dsimp only
  have k : Moves M s (reply .ok (takeNoticesBody u) u) := reply_moves h hServing hReplies
  generalize reply .ok (takeNoticesBody u) u = v at k
  refine moves_host k (fun l => ⟨?_, Nat.zero_le _, l.2.2⟩) (.inr rfl) (.inr rfl) (.inr rfl) (.inr rfl)
    (.inr rfl) (.inr rfl) (.inl hNotices)
  exact Nat.le_trans (by simp) l.1

theorem beginWrite_moves {M : Cell → Prop} {s₀ s₁ : State} {w : WriteOp} (hm : Moves M s₀ s₁)
    (hServing : M .serving) (hSlots : M .slots)
    (hw : s₁.store.inForm → w.inForm := by exact fun _ => trivial) : Moves M s₀ (beginWrite w s₁) := by
  refine working_moves (moves_store hm (fun l => ?_) (.inl hSlots) (.inr rfl) (.inr rfl)) hServing
  have hl := hw l
  obtain ⟨l1, l2, l3, l4, l5, l6, l7, _⟩ := l
  exact ⟨l1, l2, l3, l4, l5, l6, l7, fun v hv => Option.some.inj hv ▸ hl⟩

theorem writeItem_moves {M : Cell → Prop} {s₀ s₁ : State} {i : SiteItem} {v : SiteValue}
    (hm : Moves M s₀ s₁)
    (hServing : M .serving) (hReplies : M .replies) (hSlots : M .slots) : Moves M s₀ (writeItem i v s₁)
    := by
  unfold writeItem
  try dsimp only
  repeat' first
    | with_reducible assumption
    | with_reducible apply reply_moves
    | with_reducible apply beginWrite_moves
    | exact fun _ => trivial
    | split

theorem serveLookup_moves {M : Cell → Prop} {s₀ s₁ : State} {rest : List Lookup} {r : LookupResult}
    (hm : Moves M s₀ s₁)
    (hSlots : M .slots) (hLookups : M .lookups) (hResults : M .results) : Moves M s₀
    (serveLookup rest r s₁) := by
  unfold serveLookup
  try dsimp only
  repeat' first
    | with_reducible assumption
    | exact fun l => l
    | exact .inl ‹_›
    | exact .inr rfl
    | exact .inr ⟨rfl, rfl⟩
    | exact .inr ⟨rfl, rfl, rfl⟩
    | exact .inr ⟨rfl, rfl, rfl, rfl⟩
    | exact .inr ⟨rfl, rfl, rfl, rfl, rfl, rfl⟩
    | intro _
    | split
    | with_reducible apply moves_store

theorem execCredentialLookup_moves {M : Cell → Prop} {s : State} (hSlots : M .slots)
    (hLookups : M .lookups) (hResults : M .results) :
    ∃ t, execCredentialLookup s = .next t ∧ Moves M s t := by
  have hm := Moves.refl M s
  refine ⟨_, rfl, ?_⟩
  try dsimp only
  repeat' first
    | with_reducible assumption
    | with_reducible apply serveLookup_moves
    | split

theorem execTenantLookup_moves {M : Cell → Prop} {s : State} (hSlots : M .slots) (hLookups : M .lookups)
    (hResults : M .results) :
    ∃ t, execTenantLookup s = .next t ∧ Moves M s t := by
  have hm := Moves.refl M s
  refine ⟨_, rfl, ?_⟩
  try dsimp only
  repeat' first
    | with_reducible assumption
    | with_reducible apply serveLookup_moves
    | split

end Sys2Proof.Machine
end

