-- ==== Sys2Proof/Laws/Queues.lean ====
section
/-! SUPPORT. The small facts about transmit queues and call queues that the laws cite. -/

namespace Sys2Proof.Machine

/-! ## Transmit queues (R153, R154) -/

theorem joinQueue_length (e : TxEntry) (q : List TxEntry) : (joinQueue e q).length = q.length + 1 := by
  induction q with
  | nil => rfl
  | cons x rest ih =>
    unfold joinQueue
    split
    · rfl
    · simp [ih]

/-- What a submission displaces is in the queue (R154). -/
theorem displaces_any {p o : Priority} {q : List TxEntry} (h : displaces p q = some o) :
    q.any (fun e => e.priority == o) = true := by
  unfold displaces at h
  cases p <;> dsimp only at h <;> (repeat' split at h) <;> first | (cases h; assumption) | cases h

/-- An entry that is there can be displaced, and leaves room for one (R154). -/
theorem dropYoungest_length {p : Priority} {q : List TxEntry}
    (h : q.any (fun e => e.priority == p) = true) : (dropYoungest p q).1.length + 1 = q.length := by
  obtain ⟨e, he, hp⟩ := List.any_eq_true.mp h
  unfold dropYoungest
  split
  · rename_i hn
    rw [List.find?_eq_none] at hn
    exact absurd hp (hn e (List.mem_reverse.mpr he))
  · simp only [List.length_reverse]
    rw [List.length_eraseP_of_mem (List.mem_reverse.mpr he) hp, List.length_reverse]
    have := List.length_pos_of_mem he
    omega

/-! ## Call queues (R120, R123, R126) -/

theorem insertCall_length (k : Call) (q : List Call) : (insertCall k q).length = q.length + 1 := by
  induction q with
  | nil => rfl
  | cons x rest ih =>
    unfold insertCall
    split
    · rfl
    · simp [ih]

/-- The calls left in a queue by an arrival are not more than were there (R126). -/
theorem takeCalls_length (floor n : Nat) (q : List Call) : (takeCalls floor n q).2.length ≤ q.length := by
  induction q generalizing n with
  | nil => cases n <;> exact Nat.le_refl 0
  | cons k rest ih =>
    cases n with
    | zero => exact Nat.le_refl _
    | succ n =>
      unfold takeCalls
      dsimp only
      split
      · exact Nat.le_succ_of_le (ih n)
      · exact Nat.succ_le_succ (ih (n + 1))

/-- A trip takes no more calls than it is asked for (R126). -/
theorem takeCalls_room (floor n : Nat) (q : List Call) : (takeCalls floor n q).1.length ≤ n := by
  induction q generalizing n with
  | nil => cases n <;> exact Nat.zero_le _
  | cons k rest ih =>
    cases n with
    | zero => exact Nat.le_refl _
    | succ n =>
      unfold takeCalls
      dsimp only
      split
      · exact Nat.succ_le_succ (ih n)
      · exact ih (n + 1)

/-- A trip within its capacity stays so under a change that keeps it so (R121). -/
theorem trip_map {o : Option Trip} {f : Trip → Trip} (h : ∀ t, o = some t → t.calls.length ≤ t.capacity)
    (hf : ∀ t, t.calls.length ≤ t.capacity → (f t).calls.length ≤ (f t).capacity) :
    ∀ t, o.map f = some t → t.calls.length ≤ t.capacity := by
  intro t ht
  obtain ⟨u, hu, rfl⟩ := Option.map_eq_some_iff.mp ht
  exact hf u (h u hu)

/-- A car without a trip has none beyond its capacity. -/
theorem trip_none : ∀ t, (none : Option Trip) = some t → t.calls.length ≤ t.capacity := nofun

/-- Calls that leave a trip leave it within its capacity (R129, R131). -/
theorem trip_filter {o : Option Trip} (p : Call → Bool)
    (h : ∀ t, o = some t → t.calls.length ≤ t.capacity) :
    ∀ t, (o.map fun t => { t with calls := t.calls.filter p }) = some t → t.calls.length ≤ t.capacity :=
  trip_map h fun _ ht => Nat.le_trans (List.length_filter_le _ _) ht

/-- A call that joins a trip at once finds room in it (R121, R123). -/
theorem trip_join {x : Car} {k : Call} (hj : x.joinsAtOnce k = true) :
    ∀ t, (x.trip.map fun t => { t with calls := t.calls ++ [k] }) = some t → t.calls.length ≤ t.capacity := by
  intro t ht
  obtain ⟨u, hu, rfl⟩ := Option.map_eq_some_iff.mp ht
  simp only [Car.joinsAtOnce, hu, Bool.and_eq_true, decide_eq_true_eq] at hj
  simpa using Nat.succ_le_of_lt hj.2.2

/-- Car choice gives a car of the list that is eligible (R123). -/
theorem fewestQueued_eligible {origin dest c d n : Nat} {l : List Car}
    (h : fewestQueued origin dest c l = some (d, n)) :
    ∃ x, c ≤ d ∧ l[d - c]? = some x ∧ x.eligible origin dest = true := by
  induction l generalizing c n with
  | nil => cases h
  | cons x rest ih =>
    unfold fewestQueued at h
    have later : ∀ {n}, fewestQueued origin dest (c + 1) rest = some (d, n) →
        ∃ y, c ≤ d ∧ (x :: rest)[d - c]? = some y ∧ y.eligible origin dest = true := by
      intro n h
      obtain ⟨y, hd, hy, he⟩ := ih h
      refine ⟨y, by omega, ?_, he⟩
      rw [show d - c = d - (c + 1) + 1 by omega]
      simpa using hy
    split at h
    · rename_i he
      split at h
      · rename_i d' n' h'
        split at h
        · exact later (n := n') (by rw [h']; cases h; rfl)
        · cases h
          exact ⟨x, Nat.le_refl _, by simp, he⟩
      · cases h
        exact ⟨x, Nat.le_refl _, by simp, he⟩
    · exact later h

/-- The car chosen for a call exists and has room in its queue (R123). -/
theorem chooseCar_room {s : State} {origin dest c : Nat} (h : s.chooseCar origin dest = some c) :
    ∃ x, s.car c = some x ∧ x.queue.length < Config.maxCalls := by
  unfold State.chooseCar at h
  cases hf : fewestQueued origin dest 0 s.lifts.cars with
  | none => simp [hf] at h
  | some r =>
    obtain ⟨d, n⟩ := r
    obtain rfl : d = c := by simpa [hf] using h
    obtain ⟨x, _, hx, he⟩ := fewestQueued_eligible hf
    refine ⟨x, hx, ?_⟩
    simp only [Car.eligible, Bool.and_eq_true, decide_eq_true_eq] at he
    exact he.2

/-- One car changed: what each car then is. -/
theorem car_withCar (c d : Nat) (f : Car → Car) (s : State) :
    (withCar c f s).car d = if c = d then (s.car d).map f else s.car d := by
  have h : (withCar c f s).lifts.cars = s.lifts.cars.modify c f := by
    unfold withCar
    dsimp only
    split <;> rfl
  unfold State.car
  rw [h, List.getElem?_modify]
  split <;> simp

end Sys2Proof.Machine
end

