-- ==== Sys2Proof/Laws/MovesSegments.lean ====
section
/-! SUPPORT. What the operations on the sending side of a segment may change. -/

namespace Sys2Proof.Machine

theorem handOutcome_moves {M : Cell → Prop} {s₀ s₁ : State} {g : Seg} {o : TxOutcome} {t : Token}
    (hm : Moves M s₀ s₁)
    (hSeg : M (.segment g)) : Moves M s₀ (handOutcome g o t s₁) := by
  unfold handOutcome
  try dsimp only
  repeat' first
    | with_reducible assumption
    | exact fun l => l
    | (show Segment.inForm _; assumption)
    | intro _
    | with_reducible apply modSeg_moves
    | split

theorem handOutcomes_moves {M : Cell → Prop} {s₀ s₁ : State} {g : Seg} {o : TxOutcome}
    {es : List TxEntry} (hm : Moves M s₀ s₁)
    (hSeg : M (.segment g)) : Moves M s₀ (handOutcomes g o es s₁) := by
  exact Moves.foldl (fun _ _ h => handOutcome_moves h hSeg) es _ hm

theorem tellLoss_moves {M : Cell → Prop} {s₀ s₁ : State} {g : Seg} {n : Nat} {e : NodeEntry}
    (hm : Moves M s₀ s₁)
    (hSeg : M (.segment g)) : Moves M s₀ (tellLoss g n e s₁) := by
  unfold tellLoss
  try dsimp only
  repeat' first
    | with_reducible assumption
    | exact fun l => l
    | (show Segment.inForm _; assumption)
    | intro _
    | with_reducible apply modSeg_moves
    | split

theorem completeQueued_moves {M : Cell → Prop} {s₀ s₁ : State} {g : Seg} {fits : TxEntry → Bool}
    {o : TxOutcome} (hm : Moves M s₀ s₁)
    (hSiteIn : M .siteIn) (hSeg : M (.segment g)) : Moves M s₀ (completeQueued g fits o s₁) := by
  unfold completeQueued
  try dsimp only
  repeat' first
    | with_reducible assumption
    | exact fun l => l
    | (show Segment.inForm _; assumption)
    | exact fun l => ⟨Nat.le_trans (List.length_filter_le _ _) l.1, l.2⟩
    | intro _
    | with_reducible apply withSeg_moves
    | with_reducible apply handOutcomes_moves
    | split

theorem completeFlight_moves {M : Cell → Prop} {s₀ s₁ : State} {g : Seg} {o : TxOutcome}
    (hm : Moves M s₀ s₁)
    (hSiteIn : M .siteIn) (hSeg : M (.segment g)) : Moves M s₀ (completeFlight g o s₁) := by
  unfold completeFlight
  try dsimp only
  repeat' first
    | with_reducible assumption
    | exact fun l => l
    | (show Segment.inForm _; assumption)
    | intro _
    | with_reducible apply withSeg_moves
    | with_reducible apply handOutcome_moves
    | split

theorem withNode_moves {M : Cell → Prop} {s₀ s₁ : State} {g : Seg} {n : Nat} {f : Node → Node}
    (hm : Moves M s₀ s₁)
    (hSeg : M (.segment g)) : Moves M s₀ (withNode g n f s₁) := by
  unfold withNode
  try dsimp only
  repeat' first
    | with_reducible assumption
    | exact fun l => l
    | (show Segment.inForm _; assumption)
    | exact fun l => inForm_nodes l (sorted_modify (inForm_sorted l) _ _)
    | exact fun l => inForm_nodes l (sorted_put (inForm_sorted l) _ _)
    | exact fun l => inForm_nodes l (sorted_remove (inForm_sorted l) _)
    | exact fun l => inForm_nodes l (sorted_map (inForm_sorted l) _ fun _ => rfl)
    | intro _
    | with_reducible apply modSeg_moves
    | split

theorem loseNode_moves {M : Cell → Prop} {s₀ s₁ : State} {g : Seg} {n : Nat} {x : Node}
    (hm : Moves M s₀ s₁)
    (hNotices : M .notices) (hSiteIn : M .siteIn) (hSeg : M (.segment g)) : Moves M s₀
    (loseNode g n x s₁) := by
  unfold loseNode
  try dsimp only
  repeat' first
    | with_reducible assumption
    | exact fun l => l
    | (show Segment.inForm _; assumption)
    | intro _
    | with_reducible apply putNotice_moves
    | with_reducible apply tellLoss_moves
    | with_reducible apply completeQueued_moves
    | with_reducible apply withNode_moves
    | split

theorem pollUnanswered_moves {M : Cell → Prop} {s₀ s₁ : State} {g : Seg} {n : Nat} (hm : Moves M s₀ s₁)
    (hNotices : M .notices) (hSiteIn : M .siteIn) (hSeg : M (.segment g)) : Moves M s₀
    (pollUnanswered g n s₁) := by
  unfold pollUnanswered
  try dsimp only
  repeat' first
    | with_reducible assumption
    | exact fun l => l
    | (show Segment.inForm _; assumption)
    | intro _
    | with_reducible apply withNode_moves
    | with_reducible apply loseNode_moves
    | split

theorem nodeHeard_moves {M : Cell → Prop} {s₀ s₁ : State} {g : Seg} {n : Nat} (hm : Moves M s₀ s₁)
    (hNotices : M .notices) (hSeg : M (.segment g)) : Moves M s₀ (nodeHeard g n s₁) := by
  unfold nodeHeard
  try dsimp only
  repeat' first
    | with_reducible assumption
    | exact fun l => l
    | (show Segment.inForm _; assumption)
    | intro _
    | with_reducible apply putNotice_moves
    | with_reducible apply withNode_moves
    | split

theorem tellLosses_moves {M : Cell → Prop} {s₀ s₁ : State} {g : Seg} {lost : Table NodeEntry}
    (hm : Moves M s₀ s₁)
    (hSeg : M (.segment g)) : Moves M s₀ (tellLosses g lost s₁) := by
  exact Moves.foldl (fun _ _ h => tellLoss_moves h hSeg) lost _ hm

theorem inForm_unreach {x : Segment} (l : x.inForm) : x.unreach.inForm :=
  inForm_nodes l (sorted_map (inForm_sorted l) _ fun _ => rfl)

theorem unreachNodes_moves {M : Cell → Prop} {s₀ s₁ : State} {g : Seg} (hm : Moves M s₀ s₁)
    (hSeg : M (.segment g)) : Moves M s₀ (unreachNodes g s₁) := by
  exact tellLosses_moves (modSeg_moves hm inForm_unreach hSeg) hSeg

theorem tellOwed_moves {M : Cell → Prop} {s₀ s₁ : State} {g : Seg} (hm : Moves M s₀ s₁)
    (hSeg : M (.segment g)) : Moves M s₀ (tellOwed g s₁) := by
  exact tellLosses_moves (modSeg_moves hm (fun l => l) hSeg) hSeg

theorem emptyRing_moves {M : Cell → Prop} {s₀ s₁ : State} {g : Seg} (hm : Moves M s₀ s₁)
    (hDecision : M .decision) (hSeg : M (.segment g)) (hRouter : M .router) : Moves M s₀
    (emptyRing g s₁) := by
  have h : Moves M s₀ (s₁.modSeg g fun x => { x with ring := [], rx := .idle, overrunHeld := 0 }) :=
    modSeg_moves hm (fun l => inForm_ring l rfl l.2.1 l.2.2.1 rfl rfl ⟨Nat.zero_le _, trivial⟩) hSeg
  unfold emptyRing
  dsimp only
  generalize s₁.modSeg g (fun x => { x with ring := [], rx := .idle, overrunHeld := 0 }) = t at h
  repeat' first
    | assumption
    | exact moves_router h hRouter
    | exact moves_visits (t := { t with router := { t.router with hand := none } })
        (moves_router h hRouter) (fun l => l) (.inr rfl) (.inr rfl) (.inl hDecision)
        (.inr ⟨rfl, rfl, rfl, rfl⟩)
    | split

theorem applyRate_moves {M : Cell → Prop} {s₀ s₁ : State} {g : Seg} (hm : Moves M s₀ s₁)
    (hSeg : M (.segment g)) : Moves M s₀ (applyRate g s₁) := by
  unfold applyRate
  try dsimp only
  repeat' first
    | with_reducible assumption
    | exact fun l => l
    | (show Segment.inForm _; assumption)
    | intro _
    | with_reducible apply modSeg_moves
    | split

theorem finishClosing_moves {M : Cell → Prop} {s₀ s₁ : State} {g : Seg} (hm : Moves M s₀ s₁)
    (hSiteIn : M .siteIn) (hSeg : M (.segment g)) : Moves M s₀ (finishClosing g s₁) := by
  unfold finishClosing
  try dsimp only
  repeat' first
    | with_reducible assumption
    | exact fun l => l
    | (show Segment.inForm _; assumption)
    | intro _
    | with_reducible apply tellOwed_moves
    | with_reducible apply modSeg_moves
    | with_reducible apply completeQueued_moves
    | with_reducible apply completeFlight_moves
    | split

theorem disableSeg_moves {M : Cell → Prop} {s₀ s₁ : State} {g : Seg} (hm : Moves M s₀ s₁)
    (hNotices : M .notices) (hSiteIn : M .siteIn) (hDecision : M .decision) (hSeg : M (.segment g))
    (hRouter : M .router) : Moves M s₀ (disableSeg g s₁) := by
  unfold disableSeg
  dsimp only
  repeat' first
    | with_reducible assumption
    | exact fun l => inForm_unreach l
    | with_reducible apply modSeg_moves
    | with_reducible apply putNotice_moves
    | with_reducible apply emptyRing_moves
    | with_reducible apply finishClosing_moves
    | split

theorem quietNodes_moves {M : Cell → Prop} {s₀ s₁ : State} {g : Seg} {f : Node → Node}
    (hm : Moves M s₀ s₁)
    (hSeg : M (.segment g)) : Moves M s₀ (quietNodes g f s₁) := by
  unfold quietNodes
  try dsimp only
  repeat' first
    | with_reducible assumption
    | exact fun l => l
    | (show Segment.inForm _; assumption)
    | exact fun l => inForm_nodes l (sorted_modify (inForm_sorted l) _ _)
    | exact fun l => inForm_nodes l (sorted_put (inForm_sorted l) _ _)
    | exact fun l => inForm_nodes l (sorted_remove (inForm_sorted l) _)
    | exact fun l => inForm_nodes l (sorted_map (inForm_sorted l) _ fun _ => rfl)
    | intro _
    | with_reducible apply modSeg_moves
    | split

theorem enableSeg_moves {M : Cell → Prop} {s₀ s₁ : State} {g : Seg} (hm : Moves M s₀ s₁)
    (hNotices : M .notices) (hSiteIn : M .siteIn) (hSeg : M (.segment g)) :
    Moves M s₀ (enableSeg g s₁) := by
  unfold enableSeg
  dsimp only
  refine quietNodes_moves (putNotice_moves (modSeg_moves ?_ (fun l =>
    inForm_ring l rfl (Nat.zero_le _) (Nat.zero_le _) rfl rfl
      (ringInForm_idle l.2.2.2.2.2.2.2.2.2 (.inl rfl) rfl rfl)) hSeg) hNotices) hSeg
  split
  · exact finishClosing_moves hm hSiteIn hSeg
  · exact hm

theorem isolateSeg_moves {M : Cell → Prop} {s₀ s₁ : State} {g : Seg} (hm : Moves M s₀ s₁)
    (hNotices : M .notices) (hSiteIn : M .siteIn) (hDecision : M .decision) (hSeg : M (.segment g))
    (hRouter : M .router) : Moves M s₀ (isolateSeg g s₁) := by
  unfold isolateSeg
  try dsimp only
  repeat' first
    | with_reducible assumption
    | exact fun l => l
    | (show Segment.inForm _; assumption)
    | intro _
    | with_reducible apply modSeg_moves
    | with_reducible apply putNotice_moves
    | with_reducible apply completeQueued_moves
    | with_reducible apply completeFlight_moves
    | with_reducible apply unreachNodes_moves
    | with_reducible apply tellOwed_moves
    | with_reducible apply emptyRing_moves
    | split

theorem applySettings_moves {M : Cell → Prop} {s₀ s₁ : State} {g : Seg} {new : Marked SegSettings}
    (hm : Moves M s₀ s₁)
    (hNotices : M .notices) (hSiteIn : M .siteIn) (hDecision : M .decision) (hSeg : M (.segment g))
    (hRouter : M .router) : Moves M s₀ (applySettings g new s₁) := by
  unfold applySettings
  try dsimp only
  repeat' first
    | with_reducible assumption
    | exact fun l => l
    | (show Segment.inForm _; assumption)
    | intro _
    | with_reducible apply modSeg_moves
    | with_reducible apply applyRate_moves
    | with_reducible apply disableSeg_moves
    | with_reducible apply enableSeg_moves
    | split

theorem enrolAtCommit_moves {M : Cell → Prop} {s₀ s₁ : State} {g : Seg} {n : Nat} {e : NodeEntry}
    (hm : Moves M s₀ s₁)
    (hSeg : M (.segment g)) : Moves M s₀ (enrolAtCommit g n e s₁) := by
  unfold enrolAtCommit
  try dsimp only
  repeat' first
    | with_reducible assumption
    | exact fun l => l
    | (show Segment.inForm _; assumption)
    | exact fun l => inForm_nodes l (sorted_modify (inForm_sorted l) _ _)
    | exact fun l => inForm_nodes l (sorted_put (inForm_sorted l) _ _)
    | exact fun l => inForm_nodes l (sorted_remove (inForm_sorted l) _)
    | exact fun l => inForm_nodes l (sorted_map (inForm_sorted l) _ fun _ => rfl)
    | intro _
    | with_reducible apply modSeg_moves
    | split

theorem loseFlight_moves {M : Cell → Prop} {s₀ s₁ : State} {g : Seg} {n : Nat} (hm : Moves M s₀ s₁)
    (hSiteIn : M .siteIn) (hSeg : M (.segment g)) : Moves M s₀ (loseFlight g n s₁) := by
  unfold loseFlight
  try dsimp only
  repeat' first
    | with_reducible assumption
    | exact fun l => l
    | (show Segment.inForm _; assumption)
    | intro _
    | with_reducible apply modSeg_moves
    | with_reducible apply completeFlight_moves
    | split

theorem tellRemoval_moves {M : Cell → Prop} {s₀ s₁ : State} {g : Seg} {n : Nat} {e : NodeEntry}
    (hm : Moves M s₀ s₁)
    (hSeg : M (.segment g)) : Moves M s₀ (tellRemoval g n e s₁) := by
  unfold tellRemoval
  split
  · exact modSeg_moves hm (fun l => l) hSeg
  · exact tellLoss_moves (modSeg_moves hm (fun l => l) hSeg) hSeg

theorem unenrolAtCommit_moves {M : Cell → Prop} {s₀ s₁ : State} {g : Seg} {n : Nat} (hm : Moves M s₀ s₁)
    (hSiteIn : M .siteIn) (hSeg : M (.segment g)) : Moves M s₀ (unenrolAtCommit g n s₁) := by
  unfold unenrolAtCommit
  try dsimp only
  repeat' first
    | with_reducible assumption
    | exact fun l => l
    | (show Segment.inForm _; assumption)
    | exact fun l => inForm_nodes l (sorted_modify (inForm_sorted l) _ _)
    | exact fun l => inForm_nodes l (sorted_put (inForm_sorted l) _ _)
    | exact fun l => inForm_nodes l (sorted_remove (inForm_sorted l) _)
    | exact fun l => inForm_nodes l (sorted_map (inForm_sorted l) _ fun _ => rfl)
    | intro _
    | with_reducible apply modSeg_moves
    | with_reducible apply tellRemoval_moves
    | with_reducible apply completeQueued_moves
    | with_reducible apply loseFlight_moves
    | split

theorem applyNode_moves {M : Cell → Prop} {s₀ s₁ : State} {g : Seg} {n : Nat} {e : Option NodeEntry}
    (hm : Moves M s₀ s₁)
    (hSiteIn : M .siteIn) (hSeg : M (.segment g)) : Moves M s₀ (applyNode g n e s₁) := by
  unfold applyNode
  try dsimp only
  repeat' first
    | with_reducible assumption
    | with_reducible apply enrolAtCommit_moves
    | with_reducible apply unenrolAtCommit_moves
    | split

theorem enqueue_moves {M : Cell → Prop} {s₀ s₁ : State} {g : Seg} {e : TxEntry} (hm : Moves M s₀ s₁)
    (hSiteIn : M .siteIn) (hSeg : M (.segment g)) : Moves M s₀ (enqueue g e s₁) := by
  unfold enqueue
  dsimp only
  split
  · rename_i h
    refine withSeg_moves hm hSiteIn hSeg fun l => ⟨?_, l.2⟩
    exact Nat.le_trans (Nat.le_of_eq (joinQueue_length _ _)) h
  · split
    · exact handOutcome_moves hm hSeg
    · rename_i p hp
      have h : Moves M s₀ (withSeg g (fun x =>
          { x with queue := joinQueue e (dropYoungest p (s₁.seg g).queue).1 }) s₁) := by
        refine withSeg_moves hm hSiteIn hSeg fun l => ⟨?_, l.2⟩
        dsimp only
        rw [joinQueue_length, dropYoungest_length (displaces_any hp)]
        exact l.1
      split
      · exact handOutcome_moves h hSeg
      · exact h

theorem submit_moves {M : Cell → Prop} {s₀ s₁ : State} {g : Seg} {n : Nat} {fr : TxFrame} {p : Priority}
    {t : Token} (hm : Moves M s₀ s₁)
    (hSiteIn : M .siteIn) (hSeg : M (.segment g)) : Moves M s₀ (submit g n fr p t s₁) := by
  unfold submit
  try dsimp only
  repeat' first
    | with_reducible assumption
    | with_reducible apply handOutcome_moves
    | with_reducible apply enqueue_moves
    | split

theorem cancel_moves {M : Cell → Prop} {s₀ s₁ : State} {g : Seg} {t : Token} (hm : Moves M s₀ s₁)
    (hSiteIn : M .siteIn) (hSeg : M (.segment g)) : Moves M s₀ (cancel g t s₁) := by
  unfold cancel
  try dsimp only
  repeat' first
    | with_reducible assumption
    | exact fun l => l
    | (show Segment.inForm _; assumption)
    | intro _
    | with_reducible apply modSeg_moves
    | with_reducible apply completeQueued_moves
    | with_reducible apply completeFlight_moves
    | split

theorem sendFlight_moves {M : Cell → Prop} {s₀ s₁ : State} {g : Seg} {f : InFlight} (hm : Moves M s₀ s₁)
    (hSiteIn : M .siteIn) (hSeg : M (.segment g)) : Moves M s₀ (sendFlight g f s₁) := by
  unfold sendFlight
  try dsimp only
  repeat' first
    | with_reducible assumption
    | exact fun l => l
    | (show Segment.inForm _; assumption)
    | intro _
    | with_reducible apply withSeg_moves
    | split

theorem sendHead_moves {M : Cell → Prop} {s₀ s₁ : State} {g : Seg} {e : TxEntry} {rest : List TxEntry}
    (hm : Moves M s₀ s₁)
    (hSiteIn : M .siteIn) (hSeg : M (.segment g)) (hr : rest.length ≤ (s₁.seg g).queue.length) : Moves M
    s₀ (sendHead g e rest s₁) := by
  have h := withNode_moves (f := fun x => { x with nextSeq := x.nextSeq + 1 }) (n := e.node) hm hSeg
  unfold sendHead
  dsimp only
  refine withSeg_moves h hSiteIn hSeg fun l => ⟨?_, l.2⟩
  have hq := l.1
  simp only [withNode, State.modSeg, seg_setSeg, if_true] at hq
  exact Nat.le_trans hr hq

theorem execTurnaroundGapExpiry_moves {M : Cell → Prop} {g : Seg} {s : State} (hSiteIn : M .siteIn)
    (hSeg : M (.segment g)) :
    ∃ t, execTurnaroundGapExpiry g s = .next t ∧ Moves M s t := by
  have hm := Moves.refl M s
  refine ⟨_, rfl, ?_⟩
  dsimp only
  repeat' first
    | assumption
    | exact modSeg_moves hm (fun l => l) hSeg
    | with_reducible apply sendFlight_moves
    | (rename_i h; exact sendHead_moves hm hSiteIn hSeg (by rw [h]; exact Nat.le_succ _))
    | split

theorem copyEnds_moves {M : Cell → Prop} {s₀ s₁ : State} {g : Seg} {next : FlightPhase}
    (hm : Moves M s₀ s₁)
    (hSiteIn : M .siteIn) (hSeg : M (.segment g)) : Moves M s₀ (copyEnds g next s₁) := by
  unfold copyEnds
  try dsimp only
  repeat' first
    | with_reducible assumption
    | exact fun l => l
    | (show Segment.inForm _; assumption)
    | intro _
    | with_reducible apply modSeg_moves
    | with_reducible apply completeFlight_moves
    | split

theorem ackSent_moves {M : Cell → Prop} {s₀ s₁ : State} {g : Seg} (hm : Moves M s₀ s₁)
    (hSeg : M (.segment g)) : Moves M s₀ (ackSent g s₁) := by
  unfold ackSent
  try dsimp only
  repeat' first
    | with_reducible assumption
    | exact fun l => l
    | (show Segment.inForm _; assumption)
    | intro _
    | with_reducible apply modSeg_moves
    | split

theorem afterCopy_moves {M : Cell → Prop} {s₀ s₁ : State} {g : Seg} (hm : Moves M s₀ s₁)
    (hSiteIn : M .siteIn) (hSeg : M (.segment g)) : Moves M s₀ (afterCopy g s₁) := by
  unfold afterCopy
  try dsimp only
  repeat' first
    | with_reducible assumption
    | with_reducible apply applyRate_moves
    | with_reducible apply finishClosing_moves
    | with_reducible apply tellOwed_moves
    | split

theorem execCopySent_moves {M : Cell → Prop} {g : Seg} {s : State} (hNotices : M .notices)
    (hSiteIn : M .siteIn) (hSeg : M (.segment g)) :
    ∃ t, execCopySent g s = .next t ∧ Moves M s t := by
  have hm := Moves.refl M s
  refine ⟨_, rfl, ?_⟩
  try dsimp only
  repeat' first
    | with_reducible assumption
    | exact fun l => l
    | (show Segment.inForm _; assumption)
    | exact fun l => Nat.le_trans (Nat.sub_le _ _) l.2.1
    | intro _
    | with_reducible apply setTxFaults_moves
    | with_reducible apply copyEnds_moves
    | with_reducible apply ackSent_moves
    | with_reducible apply afterCopy_moves
    | split

theorem execReadbackMismatch_moves {M : Cell → Prop} {g : Seg} {s : State} (hNotices : M .notices)
    (hSiteIn : M .siteIn) (hDecision : M .decision) (hSeg : M (.segment g)) (hRouter : M .router) :
    ∃ t, execReadbackMismatch g s = .next t ∧ Moves M s t := by
  have hm := Moves.refl M s
  refine ⟨_, rfl, ?_⟩
  try dsimp only
  repeat' first
    | with_reducible assumption
    | exact fun l => l
    | (show Segment.inForm _; assumption)
    | exact fun _ => Nat.min_le_left _ _
    | exact fun l => ⟨l.1, Nat.min_le_left _ _, l.2.2⟩
    | intro _
    | with_reducible apply modSeg_moves
    | with_reducible apply setTxFaults_moves
    | with_reducible apply isolateSeg_moves
    | with_reducible apply copyEnds_moves
    | with_reducible apply afterCopy_moves
    | split

theorem waitEnds_moves {M : Cell → Prop} {s₀ s₁ : State} {g : Seg} {f : InFlight} (hm : Moves M s₀ s₁)
    (hNotices : M .notices) (hSiteIn : M .siteIn) (hSeg : M (.segment g)) : Moves M s₀ (waitEnds g f s₁)
    := by
  unfold waitEnds
  try dsimp only
  repeat' first
    | with_reducible assumption
    | exact fun l => l
    | (show Segment.inForm _; assumption)
    | intro _
    | with_reducible apply withSeg_moves
    | with_reducible apply completeFlight_moves
    | with_reducible apply pollUnanswered_moves
    | split

theorem waitExpires_moves {M : Cell → Prop} {s₀ s₁ : State} {g : Seg} {isPoll : Bool} (hm : Moves M s₀ s₁)
    (hNotices : M .notices) (hSiteIn : M .siteIn) (hSeg : M (.segment g)) : Moves M s₀
    (waitExpires g isPoll s₁) := by
  unfold waitExpires
  try dsimp only
  repeat' first
    | with_reducible assumption
    | exact fun l => l
    | (show Segment.inForm _; assumption)
    | intro _
    | with_reducible apply modSeg_moves
    | with_reducible apply waitEnds_moves
    | split

theorem execAnswerWindowExpiry_moves {M : Cell → Prop} {g : Seg} {s : State} (hNotices : M .notices)
    (hSiteIn : M .siteIn) (hSeg : M (.segment g)) :
    ∃ t, execAnswerWindowExpiry g s = .next t ∧ Moves M s t := by
  have hm := Moves.refl M s
  refine ⟨_, rfl, ?_⟩
  try dsimp only
  repeat' first
    | with_reducible assumption
    | with_reducible apply waitExpires_moves
    | split

theorem execAckWaitExpiry_moves {M : Cell → Prop} {g : Seg} {s : State} (hNotices : M .notices)
    (hSiteIn : M .siteIn) (hSeg : M (.segment g)) :
    ∃ t, execAckWaitExpiry g s = .next t ∧ Moves M s t := by
  have hm := Moves.refl M s
  refine ⟨_, rfl, ?_⟩
  try dsimp only
  repeat' first
    | with_reducible assumption
    | with_reducible apply waitExpires_moves
    | split

theorem execPollTimerExpiry_moves {M : Cell → Prop} {g : Seg} {s : State} (hSiteIn : M .siteIn)
    (hSeg : M (.segment g)) :
    ∃ t, execPollTimerExpiry g s = .next t ∧ Moves M s t := by
  have hm := Moves.refl M s
  refine ⟨_, rfl, ?_⟩
  try dsimp only
  repeat' first
    | with_reducible assumption
    | exact fun l => l
    | (show Segment.inForm _; assumption)
    | intro _
    | with_reducible apply modSeg_moves
    | with_reducible apply submit_moves
    | split

theorem execPutSegment_moves {M : Cell → Prop} {s : State} (hServing : M .serving)
    (hReplies : M .replies) (hSlots : M .slots) :
    ∃ t, execPutSegment s = .next t ∧ Moves M s t := by
  have hm := Moves.refl M s
  refine ⟨_, rfl, ?_⟩
  try dsimp only
  repeat' first
    | with_reducible assumption
    | intro _
    | with_reducible apply takingStore_moves
    | with_reducible apply tested_moves
    | with_reducible apply unlessFaulted_moves
    | with_reducible apply writeItem_moves
    | split

theorem execEnrolNode_moves {M : Cell → Prop} {s : State} (hServing : M .serving)
    (hReplies : M .replies) (hSlots : M .slots) :
    ∃ t, execEnrolNode s = .next t ∧ Moves M s t := by
  have hm := Moves.refl M s
  refine ⟨_, rfl, ?_⟩
  try dsimp only
  repeat' first
    | with_reducible assumption
    | intro _
    | with_reducible apply reply_moves
    | with_reducible apply takingStore_moves
    | with_reducible apply tested_moves
    | with_reducible apply unlessFaulted_moves
    | with_reducible apply beginWrite_moves
    | exact trivial
    | split

theorem execRemoveNode_moves {M : Cell → Prop} {s : State} (hServing : M .serving)
    (hReplies : M .replies) (hSlots : M .slots) :
    ∃ t, execRemoveNode s = .next t ∧ Moves M s t := by
  have hm := Moves.refl M s
  refine ⟨_, rfl, ?_⟩
  try dsimp only
  repeat' first
    | with_reducible assumption
    | intro _
    | with_reducible apply reply_moves
    | with_reducible apply takingStore_moves
    | with_reducible apply tested_moves
    | with_reducible apply unlessFaulted_moves
    | with_reducible apply beginWrite_moves
    | exact trivial
    | split

theorem execGetNode_moves {M : Cell → Prop} {s : State} (hServing : M .serving) (hReplies : M .replies)
    (hSeg : ∀ g, M (.segment g)) :
    ∃ t, execGetNode s = .next t ∧ Moves M s t := by
  have hm := Moves.refl M s
  refine ⟨_, rfl, ?_⟩
  try dsimp only
  repeat' first
    | with_reducible assumption
    | exact hSeg _
    | exact fun l => l
    | (show Segment.inForm _; assumption)
    | intro _
    | with_reducible apply reply_moves
    | with_reducible apply taking_moves
    | with_reducible apply tested_moves
    | with_reducible apply withNode_moves
    | split

theorem execGetSegment_moves {M : Cell → Prop} {s : State} (hServing : M .serving)
    (hReplies : M .replies) (hSeg : ∀ g, M (.segment g)) :
    ∃ t, execGetSegment s = .next t ∧ Moves M s t := by
  have hm := Moves.refl M s
  refine ⟨_, rfl, ?_⟩
  try dsimp only
  repeat' first
    | with_reducible assumption
    | exact hSeg _
    | exact fun l => l
    | (show Segment.inForm _; assumption)
    | exact fun l => ⟨l.1, l.2.1, l.2.2.1, Nat.zero_le _, Nat.zero_le _, Nat.zero_le _, Nat.zero_le _,
        Nat.zero_le _, l.2.2.2.2.2.2.2.2⟩
    | intro _
    | with_reducible apply modSeg_moves
    | with_reducible apply reply_moves
    | with_reducible apply taking_moves
    | with_reducible apply tested_moves
    | split

theorem restoreSeg_moves {M : Cell → Prop} {s₀ s₁ : State} {g : Seg} (hm : Moves M s₀ s₁)
    (hNotices : M .notices) (hSeg : M (.segment g)) : Moves M s₀ (restoreSeg g s₁) := by
  unfold restoreSeg
  try dsimp only
  repeat' first
    | with_reducible assumption
    | exact fun l => l
    | (show Segment.inForm _; assumption)
    | exact fun l => ⟨l.1, Nat.zero_le _, Nat.zero_le _, l.2.2.2⟩
    | exact fun l => inForm_ring l rfl l.2.1 l.2.2.1 rfl rfl ⟨Nat.zero_le _, trivial⟩
    | intro _
    | with_reducible apply modSeg_moves
    | with_reducible apply putNotice_moves
    | with_reducible apply quietNodes_moves
    | split

theorem execRestoreSegment_moves {M : Cell → Prop} {s : State} (hServing : M .serving)
    (hReplies : M .replies) (hNotices : M .notices) (hSeg : ∀ g, M (.segment g)) :
    ∃ t, execRestoreSegment s = .next t ∧ Moves M s t := by
  have hm := Moves.refl M s
  refine ⟨_, rfl, ?_⟩
  try dsimp only
  repeat' first
    | with_reducible assumption
    | exact hSeg _
    | intro _
    | with_reducible apply reply_moves
    | with_reducible apply taking_moves
    | with_reducible apply tested_moves
    | with_reducible apply restoreSeg_moves
    | split

end Sys2Proof.Machine
end

