-- ==== Sys2Proof/Laws/MovesDoors.lean ====
section
/-! SUPPORT. What the operations of the Visit Engine, the portals and the unit doors may change. -/

namespace Sys2Proof.Machine

theorem closeVisit_moves {M : Cell → Prop} {s₀ s₁ : State} {v : Visit} {why : CloseReason}
    (hm : Moves M s₀ s₁)
    (hNotices : M .notices) (hTable : M .table) (hPortalsIn : M .portalsIn) (hUnitsIn : M .unitsIn)
    (hLiftsIn : M .liftsIn) : Moves M s₀ (closeVisit v why s₁) := by
  have h : Moves M s₀ { s₁ with visits :=
      { s₁.visits with table := s₁.visits.table.filter fun w => w.number != v.number } } :=
    moves_visits hm (fun l => inForm_filter l _) (.inl hTable) (.inr rfl) (.inr ⟨rfl, rfl⟩)
      (.inr ⟨rfl, rfl, rfl, rfl⟩) (.inr (fewer_filter _ _))
  unfold closeVisit
  dsimp only
  refine putNotice_moves (toUnits_moves ?_ hUnitsIn) hNotices
  repeat' first
    | assumption
    | with_reducible apply toLifts_moves
    | with_reducible apply toPortals_moves
    | split

theorem closeVisits_moves {M : Cell → Prop} {s₀ s₁ : State} {vs : List Visit} {why : CloseReason}
    (hm : Moves M s₀ s₁)
    (hNotices : M .notices) (hTable : M .table) (hPortalsIn : M .portalsIn) (hUnitsIn : M .unitsIn)
    (hLiftsIn : M .liftsIn) : Moves M s₀ (closeVisits vs why s₁) := by
  unfold closeVisits
  try dsimp only
  repeat' first
    | with_reducible assumption
    | intro _
    | with_reducible apply closeVisit_moves
    | with_reducible apply Moves.foldl
    | split

theorem takePassage_moves {M : Cell → Prop} {s₀ s₁ : State} {p n : Nat} (hm : Moves M s₀ s₁)
    (hNotices : M .notices) (hTable : M .table) (hPortalsIn : M .portalsIn) (hUnitsIn : M .unitsIn)
    (hLiftsIn : M .liftsIn) : Moves M s₀ (takePassage p n s₁) := by
  unfold takePassage
  try dsimp only
  repeat' first
    | with_reducible assumption
    | exact fun _ => ⟨rfl, rfl, rfl⟩
    | intro _
    | with_reducible apply modVisit_moves
    | with_reducible apply closeVisit_moves
    | split

theorem takeNoPassage_moves {M : Cell → Prop} {s₀ s₁ : State} {p n : Nat} (hm : Moves M s₀ s₁)
    (hNotices : M .notices) (hTable : M .table) (hPortalsIn : M .portalsIn) (hUnitsIn : M .unitsIn)
    (hLiftsIn : M .liftsIn) : Moves M s₀ (takeNoPassage p n s₁) := by
  unfold takeNoPassage
  try dsimp only
  repeat' first
    | with_reducible assumption
    | exact fun _ => ⟨rfl, rfl, rfl⟩
    | intro _
    | with_reducible apply modVisit_moves
    | with_reducible apply closeVisit_moves
    | split

theorem takePortalReport_moves {M : Cell → Prop} {s₀ s₁ : State} {r : PortalReport} (hm : Moves M s₀ s₁)
    (hNotices : M .notices) (hTable : M .table) (hPortalsIn : M .portalsIn) (hUnitsIn : M .unitsIn)
    (hLiftsIn : M .liftsIn) : Moves M s₀ (takePortalReport s₁ r) := by
  unfold takePortalReport
  try dsimp only
  repeat' first
    | with_reducible assumption
    | with_reducible apply takePassage_moves
    | with_reducible apply takeNoPassage_moves
    | split

theorem deliverPortalReports_moves {M : Cell → Prop} {s₀ s₁ : State} (hm : Moves M s₀ s₁)
    (hNotices : M .notices) (hTable : M .table) (hVisitsIn : M .visitsIn) (hPortalsIn : M .portalsIn)
    (hUnitsIn : M .unitsIn) (hLiftsIn : M .liftsIn) : Moves M s₀ (deliverPortalReports s₁) := by
  unfold deliverPortalReports
  try dsimp only
  repeat' first
    | with_reducible assumption
    | exact fun l => l
    | exact .inl ‹_›
    | exact .inr rfl
    | exact .inr ⟨rfl, rfl⟩
    | exact .inr ⟨rfl, rfl, rfl⟩
    | exact .inr ⟨rfl, rfl, rfl, rfl⟩
    | exact .inr ⟨rfl, rfl, rfl, rfl, rfl, rfl⟩
    | intro _
    | with_reducible apply takePortalReport_moves
    | with_reducible apply Moves.foldl
    | split
    | with_reducible refine moves_visits ?_ ?_ ?_ ?_ ?_ ?_

theorem execPassageReport_moves {M : Cell → Prop} {s : State} (hNotices : M .notices)
    (hTable : M .table) (hVisitsIn : M .visitsIn) (hPortalsIn : M .portalsIn) (hUnitsIn : M .unitsIn)
    (hLiftsIn : M .liftsIn) :
    ∃ t, execPassageReport s = .next t ∧ Moves M s t := by
  have hm := Moves.refl M s
  refine ⟨_, rfl, ?_⟩
  try dsimp only
  repeat' first
    | with_reducible assumption
    | exact fun l => l
    | exact .inl ‹_›
    | exact .inr rfl
    | exact .inr ⟨rfl, rfl⟩
    | exact .inr ⟨rfl, rfl, rfl⟩
    | exact .inr ⟨rfl, rfl, rfl, rfl⟩
    | exact .inr ⟨rfl, rfl, rfl, rfl, rfl, rfl⟩
    | intro _
    | with_reducible apply takePassage_moves
    | split
    | with_reducible refine moves_visits ?_ ?_ ?_ ?_ ?_ ?_

theorem execNoPassageReport_moves {M : Cell → Prop} {s : State} (hNotices : M .notices)
    (hTable : M .table) (hVisitsIn : M .visitsIn) (hPortalsIn : M .portalsIn) (hUnitsIn : M .unitsIn)
    (hLiftsIn : M .liftsIn) :
    ∃ t, execNoPassageReport s = .next t ∧ Moves M s t := by
  have hm := Moves.refl M s
  refine ⟨_, rfl, ?_⟩
  try dsimp only
  repeat' first
    | with_reducible assumption
    | exact fun l => l
    | exact .inl ‹_›
    | exact .inr rfl
    | exact .inr ⟨rfl, rfl⟩
    | exact .inr ⟨rfl, rfl, rfl⟩
    | exact .inr ⟨rfl, rfl, rfl, rfl⟩
    | exact .inr ⟨rfl, rfl, rfl, rfl, rfl, rfl⟩
    | intro _
    | with_reducible apply takeNoPassage_moves
    | split
    | with_reducible refine moves_visits ?_ ?_ ?_ ?_ ?_ ?_

theorem execDwellDeadline_moves {M : Cell → Prop} {n : Nat} {s : State} (hNotices : M .notices)
    (hTable : M .table) :
    ∃ t, execDwellDeadline n s = .next t ∧ Moves M s t := by
  have hm := Moves.refl M s
  refine ⟨_, rfl, ?_⟩
  try dsimp only
  repeat' first
    | with_reducible assumption
    | exact fun v => by unfold Visit.overstay; split <;> exact ⟨rfl, rfl, rfl⟩
    | intro _
    | with_reducible apply putNotice_moves
    | with_reducible apply modVisit_moves
    | split

theorem onCall_moves {M : Cell → Prop} {s₀ s₁ : State} {n : Nat} {f : Visit → Visit} (hm : Moves M s₀ s₁)
    (hTable : M .table)
    (hf : ∀ v, (f v).number = v.number ∧ (f v).value = v.value ∧ (f v).tenant = v.tenant) : Moves M s₀
    (onCall n f s₁) := by
  unfold onCall
  split
  · split
    · exact modVisit_moves hm hTable hf
    · exact hm
  · exact hm

theorem takeCallReport_moves {M : Cell → Prop} {s₀ s₁ : State} {r : CallReport} (hm : Moves M s₀ s₁)
    (hTable : M .table) : Moves M s₀ (takeCallReport s₁ r) := by
  unfold takeCallReport
  try dsimp only
  repeat' first
    | with_reducible assumption
    | exact fun _ => ⟨rfl, rfl, rfl⟩
    | intro _
    | with_reducible apply onCall_moves
    | split

theorem deliverCallReports_moves {M : Cell → Prop} {s₀ s₁ : State} (hm : Moves M s₀ s₁)
    (hTable : M .table) (hVisitsIn : M .visitsIn) : Moves M s₀ (deliverCallReports s₁) := by
  unfold deliverCallReports
  try dsimp only
  repeat' first
    | with_reducible assumption
    | exact fun l => l
    | exact .inl ‹_›
    | exact .inr rfl
    | exact .inr ⟨rfl, rfl⟩
    | exact .inr ⟨rfl, rfl, rfl⟩
    | exact .inr ⟨rfl, rfl, rfl, rfl⟩
    | exact .inr ⟨rfl, rfl, rfl, rfl, rfl, rfl⟩
    | intro _
    | with_reducible apply takeCallReport_moves
    | with_reducible apply Moves.foldl
    | split
    | with_reducible refine moves_visits ?_ ?_ ?_ ?_ ?_ ?_

theorem execCallReport_moves {M : Cell → Prop} {s : State} (hTable : M .table) (hVisitsIn : M .visitsIn) :
    ∃ t, execCallReport s = .next t ∧ Moves M s t := by
  have hm := Moves.refl M s
  refine ⟨_, rfl, ?_⟩
  try dsimp only
  repeat' first
    | with_reducible assumption
    | exact fun l => l
    | exact .inl ‹_›
    | exact .inr rfl
    | exact .inr ⟨rfl, rfl⟩
    | exact .inr ⟨rfl, rfl, rfl⟩
    | exact .inr ⟨rfl, rfl, rfl, rfl⟩
    | exact .inr ⟨rfl, rfl, rfl, rfl, rfl, rfl⟩
    | intro _
    | with_reducible apply takeCallReport_moves
    | split
    | with_reducible refine moves_visits ?_ ?_ ?_ ?_ ?_ ?_

theorem execUnitOpenedReport_moves {M : Cell → Prop} {s : State} (hTable : M .table)
    (hVisitsIn : M .visitsIn) :
    ∃ t, execUnitOpenedReport s = .next t ∧ Moves M s t := by
  have hm := Moves.refl M s
  refine ⟨_, rfl, ?_⟩
  try dsimp only
  repeat' first
    | with_reducible assumption
    | exact fun l => l
    | exact .inl ‹_›
    | exact .inr rfl
    | exact .inr ⟨rfl, rfl⟩
    | exact .inr ⟨rfl, rfl, rfl⟩
    | exact .inr ⟨rfl, rfl, rfl, rfl⟩
    | exact .inr ⟨rfl, rfl, rfl, rfl, rfl, rfl⟩
    | exact fun _ => ⟨rfl, rfl, rfl⟩
    | intro _
    | with_reducible apply modVisit_moves
    | split
    | with_reducible refine moves_visits ?_ ?_ ?_ ?_ ?_ ?_

theorem execEvacuationBeginVisits_moves {M : Cell → Prop} {s : State} (hTable : M .table)
    (hVisitsIn : M .visitsIn) :
    ∃ t, execEvacuationBeginVisits s = .next t ∧ Moves M s t := by
  have hm := Moves.refl M s
  refine ⟨_, rfl, ?_⟩
  try dsimp only
  repeat' first
    | with_reducible assumption
    | exact fun l => l
    | exact .inl ‹_›
    | exact .inr rfl
    | exact .inr ⟨rfl, rfl⟩
    | exact .inr ⟨rfl, rfl, rfl⟩
    | exact .inr ⟨rfl, rfl, rfl, rfl⟩
    | exact .inr ⟨rfl, rfl, rfl, rfl, rfl, rfl⟩
    | exact fun l => inForm_map (e := { s.visits with orders := _ }) l _ fun _ => ⟨rfl, rfl, rfl⟩
    | intro _
    | split
    | with_reducible refine moves_visits ?_ ?_ ?_ ?_ ?_ ?_ (.inr (fewer_map (f := Visit.evacuate) _ fun _ => rfl))

theorem execEvacuationEndVisits_moves {M : Cell → Prop} {s : State} (hNotices : M .notices)
    (hSiteIn : M .siteIn) (hTable : M .table) (hVisitsIn : M .visitsIn) (hPortalsIn : M .portalsIn)
    (hUnitsIn : M .unitsIn) (hLiftsIn : M .liftsIn) :
    ∃ t, execEvacuationEndVisits s = .next t ∧ Moves M s t := by
  have hm := Moves.refl M s
  refine ⟨_, rfl, ?_⟩
  try dsimp only
  repeat' first
    | with_reducible assumption
    | exact fun l => l
    | exact .inl ‹_›
    | exact .inr rfl
    | exact .inr ⟨rfl, rfl⟩
    | exact .inr ⟨rfl, rfl, rfl⟩
    | exact .inr ⟨rfl, rfl, rfl, rfl⟩
    | exact .inr ⟨rfl, rfl, rfl, rfl, rfl, rfl⟩
    | intro _
    | with_reducible apply closeVisits_moves
    | split
    | with_reducible apply moves_site
    | with_reducible refine moves_visits ?_ ?_ ?_ ?_ ?_ ?_

theorem execListVisits_moves {M : Cell → Prop} {s : State} (hServing : M .serving)
    (hReplies : M .replies) :
    ∃ t, execListVisits s = .next t ∧ Moves M s t := by
  have hm := Moves.refl M s
  refine ⟨_, rfl, ?_⟩
  try dsimp only
  repeat' first
    | with_reducible assumption
    | intro _
    | with_reducible apply reply_moves
    | with_reducible apply taking_moves
    | with_reducible apply tested_moves
    | split

theorem execGetVisit_moves {M : Cell → Prop} {s : State} (hServing : M .serving) (hReplies : M .replies) :
    ∃ t, execGetVisit s = .next t ∧ Moves M s t := by
  have hm := Moves.refl M s
  refine ⟨_, rfl, ?_⟩
  try dsimp only
  repeat' first
    | with_reducible assumption
    | intro _
    | with_reducible apply reply_moves
    | with_reducible apply taking_moves
    | with_reducible apply tested_moves
    | split

theorem execCloseVisit_moves {M : Cell → Prop} {s : State} (hServing : M .serving)
    (hReplies : M .replies) (hNotices : M .notices) (hTable : M .table) (hPortalsIn : M .portalsIn)
    (hUnitsIn : M .unitsIn) (hLiftsIn : M .liftsIn) :
    ∃ t, execCloseVisit s = .next t ∧ Moves M s t := by
  have hm := Moves.refl M s
  refine ⟨_, rfl, ?_⟩
  try dsimp only
  repeat' first
    | with_reducible assumption
    | intro _
    | with_reducible apply reply_moves
    | with_reducible apply taking_moves
    | with_reducible apply tested_moves
    | with_reducible apply closeVisit_moves
    | split

theorem strikeLine_moves {M : Cell → Prop} {s₀ s₁ : State} {p : Nat} {release : Bool} (hm : Moves M s₀ s₁)
    (hLines : M .lines) : Moves M s₀ (strikeLine p release s₁) := by
  unfold strikeLine
  try dsimp only
  repeat' first
    | with_reducible assumption
    | exact fun l => l
    | exact .inl ‹_›
    | exact .inr rfl
    | exact .inr ⟨rfl, rfl⟩
    | exact .inr ⟨rfl, rfl, rfl⟩
    | exact .inr ⟨rfl, rfl, rfl, rfl⟩
    | exact .inr ⟨rfl, rfl, rfl, rfl, rfl, rfl⟩
    | intro _
    | split
    | with_reducible apply moves_lines

theorem orderStrike_moves {M : Cell → Prop} {s₀ s₁ : State} {p : Nat} {release urgent : Bool}
    (hm : Moves M s₀ s₁)
    (hSiteIn : M .siteIn) (hPortals : M .portals) (hSeg : ∀ g, M (.segment g)) (hLines : M .lines)
    (hLinesIn : M .linesIn) : Moves M s₀ (orderStrike p release urgent s₁) := by
  unfold orderStrike
  try dsimp only
  repeat' first
    | with_reducible assumption
    | exact hSeg _
    | with_reducible apply withPortal_moves
    | with_reducible apply submit_moves
    | with_reducible apply strikeLine_moves
    | split

theorem forcePortal_moves {M : Cell → Prop} {s₀ s₁ : State} {p : Nat} (hm : Moves M s₀ s₁)
    (hNotices : M .notices) (hSiteIn : M .siteIn) (hTable : M .table) (hVisitsIn : M .visitsIn)
    (hPortals : M .portals) (hPortalsIn : M .portalsIn) (hUnitsIn : M .unitsIn) (hLiftsIn : M .liftsIn)
    (hLinesIn : M .linesIn) : Moves M s₀ (forcePortal p s₁) := by
  unfold forcePortal
  try dsimp only
  repeat' first
    | with_reducible assumption
    | with_reducible apply putNotice_moves
    | with_reducible apply withPortal_moves
    | with_reducible apply deliverPortalReports_moves
    | split

theorem placeByContact_moves {M : Cell → Prop} {s₀ s₁ : State} {p : Nat} (hm : Moves M s₀ s₁)
    (hNotices : M .notices) (hSiteIn : M .siteIn) (hTable : M .table) (hVisitsIn : M .visitsIn)
    (hPortals : M .portals) (hPortalsIn : M .portalsIn) (hUnitsIn : M .unitsIn) (hLiftsIn : M .liftsIn)
    (hLinesIn : M .linesIn) : Moves M s₀ (placeByContact p s₁) := by
  unfold placeByContact
  try dsimp only
  repeat' first
    | with_reducible assumption
    | with_reducible apply withPortal_moves
    | with_reducible apply forcePortal_moves
    | split

theorem regainDrive_moves {M : Cell → Prop} {s₀ s₁ : State} {p : Nat} (hm : Moves M s₀ s₁)
    (hNotices : M .notices) (hSiteIn : M .siteIn) (hTable : M .table) (hVisitsIn : M .visitsIn)
    (hPortals : M .portals) (hPortalsIn : M .portalsIn) (hUnitsIn : M .unitsIn) (hLiftsIn : M .liftsIn)
    (hSeg : ∀ g, M (.segment g)) (hLines : M .lines) (hLinesIn : M .linesIn) : Moves M s₀
    (regainDrive p s₁) := by
  unfold regainDrive
  try dsimp only
  repeat' first
    | with_reducible assumption
    | exact hSeg _
    | with_reducible apply withPortal_moves
    | with_reducible apply orderStrike_moves
    | with_reducible apply placeByContact_moves
    | split

theorem endOpening_moves {M : Cell → Prop} {s₀ s₁ : State} {p : Nat} (hm : Moves M s₀ s₁)
    (hSiteIn : M .siteIn) (hVisitsIn : M .visitsIn) (hPortals : M .portals) (hLinesIn : M .linesIn) :
    Moves M s₀ (endOpening p s₁) := by
  unfold endOpening
  try dsimp only
  repeat' first
    | with_reducible assumption
    | with_reducible apply toVisitsPortal_moves
    | with_reducible apply withPortal_moves
    | split

theorem loseDrive_moves {M : Cell → Prop} {s₀ s₁ : State} {p : Nat} (hm : Moves M s₀ s₁)
    (hSiteIn : M .siteIn) (hVisitsIn : M .visitsIn) (hPortals : M .portals) (hSeg : ∀ g, M (.segment g))
    (hLines : M .lines) (hLinesIn : M .linesIn) : Moves M s₀ (loseDrive p s₁) := by
  unfold loseDrive
  try dsimp only
  repeat' first
    | with_reducible assumption
    | exact hSeg _
    | with_reducible apply withPortal_moves
    | with_reducible apply orderStrike_moves
    | with_reducible apply endOpening_moves
    | split

theorem enterFree_moves {M : Cell → Prop} {s₀ s₁ : State} {p : Nat} {urgent : Bool} (hm : Moves M s₀ s₁)
    (hSiteIn : M .siteIn) (hVisitsIn : M .visitsIn) (hPortals : M .portals) (hSeg : ∀ g, M (.segment g))
    (hLines : M .lines) (hLinesIn : M .linesIn) : Moves M s₀ (enterFree p urgent s₁) := by
  unfold enterFree
  try dsimp only
  repeat' first
    | with_reducible assumption
    | exact hSeg _
    | with_reducible apply withPortal_moves
    | with_reducible apply orderStrike_moves
    | with_reducible apply endOpening_moves
    | split

theorem leaveFree_moves {M : Cell → Prop} {s₀ s₁ : State} {p : Nat} {urgent : Bool} (hm : Moves M s₀ s₁)
    (hNotices : M .notices) (hSiteIn : M .siteIn) (hTable : M .table) (hVisitsIn : M .visitsIn)
    (hPortals : M .portals) (hPortalsIn : M .portalsIn) (hUnitsIn : M .unitsIn) (hLiftsIn : M .liftsIn)
    (hSeg : ∀ g, M (.segment g)) (hLines : M .lines) (hLinesIn : M .linesIn) : Moves M s₀
    (leaveFree p urgent s₁) := by
  unfold leaveFree
  try dsimp only
  repeat' first
    | with_reducible assumption
    | exact hSeg _
    | with_reducible apply orderStrike_moves
    | with_reducible apply placeByContact_moves
    | split

theorem openPortal_moves {M : Cell → Prop} {s₀ s₁ : State} {p : Nat} {visit : Option Nat}
    (hm : Moves M s₀ s₁)
    (hSiteIn : M .siteIn) (hVisitsIn : M .visitsIn) (hPortals : M .portals) (hSeg : ∀ g, M (.segment g))
    (hLines : M .lines) (hLinesIn : M .linesIn) : Moves M s₀ (openPortal p visit s₁) := by
  unfold openPortal
  try dsimp only
  repeat' first
    | with_reducible assumption
    | exact hSeg _
    | with_reducible apply toVisitsPortal_moves
    | with_reducible apply withPortal_moves
    | with_reducible apply orderStrike_moves
    | split

theorem expireOpening_moves {M : Cell → Prop} {s₀ s₁ : State} {p : Nat} (hm : Moves M s₀ s₁)
    (hSiteIn : M .siteIn) (hVisitsIn : M .visitsIn) (hPortals : M .portals) (hSeg : ∀ g, M (.segment g))
    (hLines : M .lines) (hLinesIn : M .linesIn) : Moves M s₀ (expireOpening p s₁) := by
  unfold expireOpening
  try dsimp only
  repeat' first
    | with_reducible assumption
    | exact hSeg _
    | with_reducible apply withPortal_moves
    | with_reducible apply orderStrike_moves
    | with_reducible apply endOpening_moves
    | split

theorem contactOpens_moves {M : Cell → Prop} {s₀ s₁ : State} {p : Nat} (hm : Moves M s₀ s₁)
    (hNotices : M .notices) (hSiteIn : M .siteIn) (hTable : M .table) (hVisitsIn : M .visitsIn)
    (hPortals : M .portals) (hPortalsIn : M .portalsIn) (hUnitsIn : M .unitsIn) (hLiftsIn : M .liftsIn)
    (hSeg : ∀ g, M (.segment g)) (hLines : M .lines) (hLinesIn : M .linesIn) : Moves M s₀
    (contactOpens p s₁) := by
  unfold contactOpens
  try dsimp only
  repeat' first
    | with_reducible assumption
    | exact hSeg _
    | with_reducible apply toVisitsPortal_moves
    | with_reducible apply withPortal_moves
    | with_reducible apply orderStrike_moves
    | with_reducible apply forcePortal_moves
    | split

theorem contactCloses_moves {M : Cell → Prop} {s₀ s₁ : State} {p : Nat} (hm : Moves M s₀ s₁)
    (hNotices : M .notices) (hSiteIn : M .siteIn) (hPortals : M .portals) (hSeg : ∀ g, M (.segment g))
    (hLines : M .lines) (hLinesIn : M .linesIn) : Moves M s₀ (contactCloses p s₁) := by
  unfold contactCloses
  try dsimp only
  repeat' first
    | with_reducible assumption
    | exact hSeg _
    | with_reducible apply putNotice_moves
    | with_reducible apply withPortal_moves
    | with_reducible apply orderStrike_moves
    | split

theorem takeContact_moves {M : Cell → Prop} {s₀ s₁ : State} {p : Nat} {c : Contact} (hm : Moves M s₀ s₁)
    (hNotices : M .notices) (hSiteIn : M .siteIn) (hTable : M .table) (hVisitsIn : M .visitsIn)
    (hPortals : M .portals) (hPortalsIn : M .portalsIn) (hUnitsIn : M .unitsIn) (hLiftsIn : M .liftsIn)
    (hSeg : ∀ g, M (.segment g)) (hLines : M .lines) (hLinesIn : M .linesIn) : Moves M s₀
    (takeContact p c s₁) := by
  unfold takeContact
  try dsimp only
  repeat' first
    | with_reducible assumption
    | exact hSeg _
    | with_reducible apply withPortal_moves
    | with_reducible apply contactOpens_moves
    | with_reducible apply contactCloses_moves
    | split

theorem takeButton_moves {M : Cell → Prop} {s₀ s₁ : State} {p : Nat} {b : Button} (hm : Moves M s₀ s₁)
    (hNotices : M .notices) (hSiteIn : M .siteIn) (hVisitsIn : M .visitsIn) (hPortals : M .portals)
    (hSeg : ∀ g, M (.segment g)) (hLines : M .lines) (hLinesIn : M .linesIn) : Moves M s₀
    (takeButton p b s₁) := by
  unfold takeButton
  try dsimp only
  repeat' first
    | with_reducible assumption
    | exact hSeg _
    | with_reducible apply putNotice_moves
    | with_reducible apply withPortal_moves
    | with_reducible apply openPortal_moves
    | split

theorem takeInputs_moves {M : Cell → Prop} {s₀ s₁ : State} {p : Nat} {c : Contact} {b : Button}
    (hm : Moves M s₀ s₁)
    (hNotices : M .notices) (hSiteIn : M .siteIn) (hTable : M .table) (hVisitsIn : M .visitsIn)
    (hPortals : M .portals) (hPortalsIn : M .portalsIn) (hUnitsIn : M .unitsIn) (hLiftsIn : M .liftsIn)
    (hSeg : ∀ g, M (.segment g)) (hLines : M .lines) (hLinesIn : M .linesIn) : Moves M s₀
    (takeInputs p c b s₁) := by
  unfold takeInputs
  try dsimp only
  repeat' first
    | with_reducible assumption
    | exact hSeg _
    | with_reducible apply takeContact_moves
    | with_reducible apply takeButton_moves
    | split

theorem portalStatus_moves {M : Cell → Prop} {s₀ s₁ : State} {g : Seg} {n p : Nat} {c : Contact}
    {b : Button} (hm : Moves M s₀ s₁)
    (hNotices : M .notices) (hSiteIn : M .siteIn) (hTable : M .table) (hVisitsIn : M .visitsIn)
    (hPortals : M .portals) (hPortalsIn : M .portalsIn) (hUnitsIn : M .unitsIn) (hLiftsIn : M .liftsIn)
    (hSeg : ∀ g, M (.segment g)) (hLines : M .lines) (hLinesIn : M .linesIn) : Moves M s₀
    (portalStatus g n p c b s₁) := by
  unfold portalStatus
  try dsimp only
  repeat' first
    | with_reducible assumption
    | exact hSeg _
    | with_reducible apply withPortal_moves
    | with_reducible apply regainDrive_moves
    | with_reducible apply takeInputs_moves
    | split

theorem lineChanged_moves {M : Cell → Prop} {s₀ s₁ : State} {p : Nat} (hm : Moves M s₀ s₁)
    (hNotices : M .notices) (hSiteIn : M .siteIn) (hTable : M .table) (hVisitsIn : M .visitsIn)
    (hPortals : M .portals) (hPortalsIn : M .portalsIn) (hUnitsIn : M .unitsIn) (hLiftsIn : M .liftsIn)
    (hSeg : ∀ g, M (.segment g)) (hLines : M .lines) (hLinesIn : M .linesIn) : Moves M s₀
    (lineChanged p s₁) := by
  unfold lineChanged
  try dsimp only
  repeat' first
    | with_reducible assumption
    | exact hSeg _
    | with_reducible apply takeInputs_moves
    | split

theorem lineAssigned_moves {M : Cell → Prop} {s₀ s₁ : State} {p : Nat} (hm : Moves M s₀ s₁)
    (hNotices : M .notices) (hSiteIn : M .siteIn) (hTable : M .table) (hVisitsIn : M .visitsIn)
    (hPortals : M .portals) (hPortalsIn : M .portalsIn) (hUnitsIn : M .unitsIn) (hLiftsIn : M .liftsIn)
    (hSeg : ∀ g, M (.segment g)) (hLines : M .lines) (hLinesIn : M .linesIn) : Moves M s₀
    (lineAssigned p s₁) := by
  unfold lineAssigned
  try dsimp only
  repeat' first
    | with_reducible assumption
    | exact hSeg _
    | with_reducible apply withPortal_moves
    | with_reducible apply regainDrive_moves
    | split

theorem lineUnassigned_moves {M : Cell → Prop} {s₀ s₁ : State} {p : Nat} (hm : Moves M s₀ s₁)
    (hSiteIn : M .siteIn) (hVisitsIn : M .visitsIn) (hPortals : M .portals) (hSeg : ∀ g, M (.segment g))
    (hLines : M .lines) (hLinesIn : M .linesIn) : Moves M s₀ (lineUnassigned p s₁) := by
  unfold lineUnassigned
  try dsimp only
  repeat' first
    | with_reducible assumption
    | exact hSeg _
    | with_reducible apply withPortal_moves
    | with_reducible apply loseDrive_moves
    | split

theorem placePortal_moves {M : Cell → Prop} {s₀ s₁ : State} {p : Nat} {new : Marked PortalRec}
    (hm : Moves M s₀ s₁)
    (hNotices : M .notices) (hSiteIn : M .siteIn) (hTable : M .table) (hVisitsIn : M .visitsIn)
    (hPortals : M .portals) (hPortalsIn : M .portalsIn) (hUnitsIn : M .unitsIn) (hLiftsIn : M .liftsIn)
    (hSeg : ∀ g, M (.segment g)) (hLines : M .lines) (hLinesIn : M .linesIn) : Moves M s₀
    (placePortal p new s₁) := by
  unfold placePortal
  try dsimp only
  repeat' first
    | with_reducible assumption
    | exact hSeg _
    | with_reducible apply withPortal_moves
    | with_reducible apply strikeLine_moves
    | with_reducible apply orderStrike_moves
    | with_reducible apply placeByContact_moves
    | with_reducible apply endOpening_moves
    | with_reducible apply enterFree_moves
    | split

theorem execOpenOrder_moves {M : Cell → Prop} {s : State} (hSiteIn : M .siteIn)
    (hVisitsIn : M .visitsIn) (hPortals : M .portals) (hPortalsIn : M .portalsIn)
    (hSeg : ∀ g, M (.segment g)) (hLines : M .lines) (hLinesIn : M .linesIn) :
    ∃ t, execOpenOrder s = .next t ∧ Moves M s t := by
  have hm := Moves.refl M s
  refine ⟨_, rfl, ?_⟩
  try dsimp only
  repeat' first
    | with_reducible assumption
    | exact hSeg _
    | exact fun l => l
    | exact .inl ‹_›
    | exact .inr rfl
    | exact .inr ⟨rfl, rfl⟩
    | exact .inr ⟨rfl, rfl, rfl⟩
    | exact .inr ⟨rfl, rfl, rfl, rfl⟩
    | exact .inr ⟨rfl, rfl, rfl, rfl, rfl, rfl⟩
    | intro _
    | with_reducible apply openPortal_moves
    | split
    | with_reducible apply moves_portals

theorem execDropPendingVisit_moves {M : Cell → Prop} {s : State} (hSiteIn : M .siteIn)
    (hPortals : M .portals) (hPortalsIn : M .portalsIn) (hLinesIn : M .linesIn) :
    ∃ t, execDropPendingVisit s = .next t ∧ Moves M s t := by
  have hm := Moves.refl M s
  refine ⟨_, rfl, ?_⟩
  try dsimp only
  repeat' first
    | with_reducible assumption
    | exact fun l => l
    | exact .inl ‹_›
    | exact .inr rfl
    | exact .inr ⟨rfl, rfl⟩
    | exact .inr ⟨rfl, rfl, rfl⟩
    | exact .inr ⟨rfl, rfl, rfl, rfl⟩
    | exact .inr ⟨rfl, rfl, rfl, rfl, rfl, rfl⟩
    | intro _
    | with_reducible apply withPortal_moves
    | split
    | with_reducible apply moves_portals

theorem execPassTimerExpiry_moves {M : Cell → Prop} {p : Nat} {s : State} (hSiteIn : M .siteIn)
    (hVisitsIn : M .visitsIn) (hPortals : M .portals) (hSeg : ∀ g, M (.segment g)) (hLines : M .lines)
    (hLinesIn : M .linesIn) :
    ∃ t, execPassTimerExpiry p s = .next t ∧ Moves M s t := by
  have hm := Moves.refl M s
  refine ⟨_, rfl, ?_⟩
  try dsimp only
  repeat' first
    | with_reducible assumption
    | exact hSeg _
    | with_reducible apply expireOpening_moves
    | split

theorem execHoldTimerExpiry_moves {M : Cell → Prop} {p : Nat} {s : State} (hNotices : M .notices)
    (hSiteIn : M .siteIn) (hPortals : M .portals) (hLinesIn : M .linesIn) :
    ∃ t, execHoldTimerExpiry p s = .next t ∧ Moves M s t := by
  have hm := Moves.refl M s
  refine ⟨_, rfl, ?_⟩
  try dsimp only
  repeat' first
    | with_reducible assumption
    | with_reducible apply putNotice_moves
    | with_reducible apply withPortal_moves
    | split

theorem takeStrikeOutcome_moves {M : Cell → Prop} {s₀ s₁ : State} {g : Seg} {p : Nat} {opens : Bool}
    {number : Byte} {o : TxOutcome} (hm : Moves M s₀ s₁)
    (hNotices : M .notices) (hSiteIn : M .siteIn) (hTable : M .table) (hVisitsIn : M .visitsIn)
    (hPortals : M .portals) (hPortalsIn : M .portalsIn) (hUnitsIn : M .unitsIn) (hLiftsIn : M .liftsIn)
    (hSeg : ∀ g, M (.segment g)) (hLines : M .lines) (hLinesIn : M .linesIn) : Moves M s₀
    (takeStrikeOutcome g p opens number o s₁) := by
  unfold takeStrikeOutcome
  try dsimp only
  repeat' first
    | with_reducible assumption
    | exact hSeg _
    | with_reducible apply putNotice_moves
    | with_reducible apply deliverPortalReports_moves
    | with_reducible apply loseDrive_moves
    | with_reducible apply expireOpening_moves
    | split

theorem execStrikeOutcome_moves {M : Cell → Prop} {g : Seg} {s : State} (hNotices : M .notices)
    (hSiteIn : M .siteIn) (hTable : M .table) (hVisitsIn : M .visitsIn) (hPortals : M .portals)
    (hPortalsIn : M .portalsIn) (hUnitsIn : M .unitsIn) (hLiftsIn : M .liftsIn)
    (hSeg : ∀ g, M (.segment g)) (hLines : M .lines) (hLinesIn : M .linesIn) :
    ∃ t, execStrikeOutcome g s = .next t ∧ Moves M s t := by
  have hm := Moves.refl M s
  refine ⟨_, rfl, ?_⟩
  try dsimp only
  repeat' first
    | with_reducible assumption
    | exact hSeg _
    | exact fun l => l
    | (show Segment.inForm _; assumption)
    | intro _
    | with_reducible apply modSeg_moves
    | with_reducible apply takeStrikeOutcome_moves
    | split

theorem execPortalDriveLoss_moves {M : Cell → Prop} {g : Seg} {s : State} (hSiteIn : M .siteIn)
    (hVisitsIn : M .visitsIn) (hPortals : M .portals) (hSeg : ∀ g, M (.segment g)) (hLines : M .lines)
    (hLinesIn : M .linesIn) :
    ∃ t, execPortalDriveLoss g s = .next t ∧ Moves M s t := by
  have hm := Moves.refl M s
  refine ⟨_, rfl, ?_⟩
  try dsimp only
  repeat' first
    | with_reducible assumption
    | exact hSeg _
    | exact fun l => l
    | (show Segment.inForm _; assumption)
    | intro _
    | with_reducible apply modSeg_moves
    | with_reducible apply loseDrive_moves
    | split

theorem evacuatePortal_moves {M : Cell → Prop} {s₀ s₁ : State} {p : Nat} (hm : Moves M s₀ s₁)
    (hSiteIn : M .siteIn) (hVisitsIn : M .visitsIn) (hPortals : M .portals) (hSeg : ∀ g, M (.segment g))
    (hLines : M .lines) (hLinesIn : M .linesIn) : Moves M s₀ (evacuatePortal s₁ p) := by
  unfold evacuatePortal
  try dsimp only
  repeat' first
    | with_reducible assumption
    | exact hSeg _
    | with_reducible apply enterFree_moves
    | split

theorem execEvacuationBeginPortals_moves {M : Cell → Prop} {s : State} (hSiteIn : M .siteIn)
    (hVisitsIn : M .visitsIn) (hPortals : M .portals) (hPortalsIn : M .portalsIn)
    (hSeg : ∀ g, M (.segment g)) (hLines : M .lines) (hLinesIn : M .linesIn) :
    ∃ t, execEvacuationBeginPortals s = .next t ∧ Moves M s t := by
  have hm := Moves.refl M s
  refine ⟨_, rfl, ?_⟩
  try dsimp only
  repeat' first
    | with_reducible assumption
    | exact hSeg _
    | exact fun l => l
    | exact .inl ‹_›
    | exact .inr rfl
    | exact .inr ⟨rfl, rfl⟩
    | exact .inr ⟨rfl, rfl, rfl⟩
    | exact .inr ⟨rfl, rfl, rfl, rfl⟩
    | exact .inr ⟨rfl, rfl, rfl, rfl, rfl, rfl⟩
    | intro _
    | with_reducible apply evacuatePortal_moves
    | with_reducible apply Moves.foldl
    | split
    | with_reducible apply moves_portals

theorem unevacuatePortal_moves {M : Cell → Prop} {s₀ s₁ : State} {p : Nat} (hm : Moves M s₀ s₁)
    (hNotices : M .notices) (hSiteIn : M .siteIn) (hTable : M .table) (hVisitsIn : M .visitsIn)
    (hPortals : M .portals) (hPortalsIn : M .portalsIn) (hUnitsIn : M .unitsIn) (hLiftsIn : M .liftsIn)
    (hSeg : ∀ g, M (.segment g)) (hLines : M .lines) (hLinesIn : M .linesIn) : Moves M s₀
    (unevacuatePortal s₁ p) := by
  unfold unevacuatePortal
  try dsimp only
  repeat' first
    | with_reducible assumption
    | exact hSeg _
    | with_reducible apply leaveFree_moves
    | split

theorem execEvacuationEndPortals_moves {M : Cell → Prop} {s : State} (hNotices : M .notices)
    (hSiteIn : M .siteIn) (hTable : M .table) (hVisitsIn : M .visitsIn) (hPortals : M .portals)
    (hPortalsIn : M .portalsIn) (hUnitsIn : M .unitsIn) (hLiftsIn : M .liftsIn)
    (hSeg : ∀ g, M (.segment g)) (hLines : M .lines) (hLinesIn : M .linesIn) :
    ∃ t, execEvacuationEndPortals s = .next t ∧ Moves M s t := by
  have hm := Moves.refl M s
  refine ⟨_, rfl, ?_⟩
  try dsimp only
  repeat' first
    | with_reducible assumption
    | exact hSeg _
    | exact fun l => l
    | exact .inl ‹_›
    | exact .inr rfl
    | exact .inr ⟨rfl, rfl⟩
    | exact .inr ⟨rfl, rfl, rfl⟩
    | exact .inr ⟨rfl, rfl, rfl, rfl⟩
    | exact .inr ⟨rfl, rfl, rfl, rfl, rfl, rfl⟩
    | intro _
    | with_reducible apply unevacuatePortal_moves
    | with_reducible apply Moves.foldl
    | split
    | with_reducible apply moves_portals

theorem execPutPortal_moves {M : Cell → Prop} {s : State} (hServing : M .serving)
    (hReplies : M .replies) (hSlots : M .slots) :
    ∃ t, execPutPortal s = .next t ∧ Moves M s t := by
  have hm := Moves.refl M s
  refine ⟨_, rfl, ?_⟩
  try dsimp only
  repeat' first
    | with_reducible assumption
    | intro _
    | with_reducible apply reply_moves
    | with_reducible apply takingStore_moves
    | with_reducible apply tested_moves
    | with_reducible apply unlessFaulted_moves
    | with_reducible apply writeItem_moves
    | split

theorem takingAction_moves {M : Cell → Prop} {s₀ s₁ : State} {kind width high actions action : Nat}
    {k : Nat → State → State} (hm : Moves M s₀ s₁) (hServing : M .serving) (hReplies : M .replies)
    (hk : ∀ n t, Moves M s₀ t → Moves M s₀ (k n t)) :
    Moves M s₀ (takingAction kind width high actions action k s₁) := by
  refine taking_moves hm fun b t h => ?_
  split
  · split
    · exact tested_moves h hServing hReplies hk
    · exact h
  · exact reply_moves h hServing hReplies

theorem setPortal_moves {M : Cell → Prop} {s₀ s₁ : State} {evacuationRefuses : Bool}
    {k : Nat → Portal → State → State} {p : Nat} (hm : Moves M s₀ s₁) (hServing : M .serving)
    (hReplies : M .replies) (hk : ∀ p q t, Moves M s₀ t → Moves M s₀ (k p q t)) :
    Moves M s₀ (setPortal evacuationRefuses k p s₁) := by
  unfold setPortal
  repeat' first
    | exact hk _ _ _ hm
    | exact reply_moves hm hServing hReplies
    | split

theorem execSetPortalSecure_moves {M : Cell → Prop} {s : State} (hServing : M .serving)
    (hReplies : M .replies) (hNotices : M .notices) (hSiteIn : M .siteIn) (hTable : M .table)
    (hVisitsIn : M .visitsIn) (hPortals : M .portals) (hPortalsIn : M .portalsIn)
    (hUnitsIn : M .unitsIn) (hLiftsIn : M .liftsIn) (hSeg : ∀ g, M (.segment g)) (hLines : M .lines)
    (hLinesIn : M .linesIn) :
    ∃ t, execSetPortalSecure s = .next t ∧ Moves M s t := by
  have hm := Moves.refl M s
  refine ⟨_, rfl, ?_⟩
  try dsimp only
  repeat' first
    | with_reducible assumption
    | exact hSeg _
    | intro _
    | with_reducible apply reply_moves
    | with_reducible apply leaveFree_moves
    | with_reducible apply takingAction_moves
    | with_reducible apply setPortal_moves
    | split

theorem execSetPortalFree_moves {M : Cell → Prop} {s : State} (hServing : M .serving)
    (hReplies : M .replies) (hSiteIn : M .siteIn) (hVisitsIn : M .visitsIn) (hPortals : M .portals)
    (hSeg : ∀ g, M (.segment g)) (hLines : M .lines) (hLinesIn : M .linesIn) :
    ∃ t, execSetPortalFree s = .next t ∧ Moves M s t := by
  have hm := Moves.refl M s
  refine ⟨_, rfl, ?_⟩
  try dsimp only
  repeat' first
    | with_reducible assumption
    | exact hSeg _
    | intro _
    | with_reducible apply reply_moves
    | with_reducible apply enterFree_moves
    | with_reducible apply takingAction_moves
    | with_reducible apply setPortal_moves
    | split

theorem execSetPortalMomentary_moves {M : Cell → Prop} {s : State} (hServing : M .serving)
    (hReplies : M .replies) (hSiteIn : M .siteIn) (hVisitsIn : M .visitsIn) (hPortals : M .portals)
    (hSeg : ∀ g, M (.segment g)) (hLines : M .lines) (hLinesIn : M .linesIn) :
    ∃ t, execSetPortalMomentary s = .next t ∧ Moves M s t := by
  have hm := Moves.refl M s
  refine ⟨_, rfl, ?_⟩
  try dsimp only
  repeat' first
    | with_reducible assumption
    | exact hSeg _
    | intro _
    | with_reducible apply reply_moves
    | with_reducible apply openPortal_moves
    | with_reducible apply takingAction_moves
    | with_reducible apply setPortal_moves
    | split

theorem execGetPortal_moves {M : Cell → Prop} {s : State} (hServing : M .serving)
    (hReplies : M .replies) :
    ∃ t, execGetPortal s = .next t ∧ Moves M s t := by
  have hm := Moves.refl M s
  refine ⟨_, rfl, ?_⟩
  try dsimp only
  repeat' first
    | with_reducible assumption
    | intro _
    | with_reducible apply reply_moves
    | with_reducible apply taking_moves
    | with_reducible apply tested_moves
    | split

theorem placeClosed_moves {M : Cell → Prop} {s₀ s₁ : State} {u : Nat} (hm : Moves M s₀ s₁)
    (hEntries : M .entries) (hLinesIn : M .linesIn) : Moves M s₀ (placeClosed u s₁) := by
  unfold placeClosed
  try dsimp only
  repeat' first
    | with_reducible assumption
    | with_reducible apply withUnit_moves
    | split

theorem placeOpen_moves {M : Cell → Prop} {s₀ s₁ : State} {u : Nat} {cause : LeftOpenCause}
    (hm : Moves M s₀ s₁)
    (hNotices : M .notices) (hEntries : M .entries) (hLinesIn : M .linesIn) : Moves M s₀
    (placeOpen u cause s₁) := by
  unfold placeOpen
  try dsimp only
  repeat' first
    | with_reducible assumption
    | with_reducible apply putNotice_moves
    | with_reducible apply withUnit_moves
    | split

theorem placeByDoor_moves {M : Cell → Prop} {s₀ s₁ : State} {u : Nat} {cause : LeftOpenCause}
    (hm : Moves M s₀ s₁)
    (hNotices : M .notices) (hEntries : M .entries) (hLinesIn : M .linesIn) : Moves M s₀
    (placeByDoor u cause s₁) := by
  unfold placeByDoor
  try dsimp only
  repeat' first
    | with_reducible assumption
    | with_reducible apply placeClosed_moves
    | with_reducible apply placeOpen_moves
    | split

theorem queueRelock_moves {M : Cell → Prop} {s₀ s₁ : State} {u : Nat} (hm : Moves M s₀ s₁)
    (hSiteIn : M .siteIn) (hEntries : M .entries) (hSeg : ∀ g, M (.segment g)) (hLinesIn : M .linesIn) :
    Moves M s₀ (queueRelock u s₁) := by
  unfold queueRelock
  try dsimp only
  repeat' first
    | with_reducible assumption
    | exact hSeg _
    | with_reducible apply withUnit_moves
    | with_reducible apply submit_moves
    | split

theorem queueUntracked_moves {M : Cell → Prop} {s₀ s₁ : State} {u : Nat} {r : UnitRec}
    (hm : Moves M s₀ s₁)
    (hSiteIn : M .siteIn) (hSeg : ∀ g, M (.segment g)) : Moves M s₀ (queueUntracked u r s₁) := by
  unfold queueUntracked
  try dsimp only
  repeat' first
    | with_reducible assumption
    | exact hSeg _
    | with_reducible apply submit_moves
    | split

theorem cancelRelease_moves {M : Cell → Prop} {s₀ s₁ : State} {u : Nat} {e : UnitEntry}
    (hm : Moves M s₀ s₁)
    (hSiteIn : M .siteIn) (hSeg : ∀ g, M (.segment g)) : Moves M s₀ (cancelRelease u e s₁) := by
  unfold cancelRelease
  try dsimp only
  repeat' first
    | with_reducible assumption
    | exact hSeg _
    | with_reducible apply cancel_moves
    | split

theorem armDisarmed_moves {M : Cell → Prop} {s₀ s₁ : State} {u : Nat} {e : UnitEntry} (hm : Moves M s₀ s₁)
    (hSiteIn : M .siteIn) (hEntries : M .entries) (hSeg : ∀ g, M (.segment g)) (hLinesIn : M .linesIn) :
    Moves M s₀ (armDisarmed u e s₁) := by
  unfold armDisarmed
  try dsimp only
  repeat' first
    | with_reducible assumption
    | exact hSeg _
    | with_reducible apply withUnit_moves
    | with_reducible apply queueRelock_moves
    | split

theorem unitOpens_moves {M : Cell → Prop} {s₀ s₁ : State} {u : Nat} (hm : Moves M s₀ s₁)
    (hNotices : M .notices) (hVisitsIn : M .visitsIn) (hEntries : M .entries) (hLinesIn : M .linesIn) :
    Moves M s₀ (unitOpens u s₁) := by
  unfold unitOpens
  try dsimp only
  repeat' first
    | with_reducible assumption
    | with_reducible apply putNotice_moves
    | with_reducible apply toVisitsOpened_moves
    | with_reducible apply withUnit_moves
    | split

theorem unitCloses_moves {M : Cell → Prop} {s₀ s₁ : State} {u : Nat} (hm : Moves M s₀ s₁)
    (hEntries : M .entries) (hLinesIn : M .linesIn) : Moves M s₀ (unitCloses u s₁) := by
  unfold unitCloses
  try dsimp only
  repeat' first
    | with_reducible assumption
    | with_reducible apply placeClosed_moves
    | split

theorem unitReport_moves {M : Cell → Prop} {s₀ s₁ : State} {u : Nat} {opened released : Bool}
    (hm : Moves M s₀ s₁)
    (hNotices : M .notices) (hVisitsIn : M .visitsIn) (hEntries : M .entries) (hLinesIn : M .linesIn) :
    Moves M s₀ (unitReport u opened released s₁) := by
  unfold unitReport
  try dsimp only
  repeat' first
    | with_reducible assumption
    | with_reducible apply withUnit_moves
    | with_reducible apply placeByDoor_moves
    | with_reducible apply unitOpens_moves
    | with_reducible apply unitCloses_moves
    | split

theorem latchStatus_moves {M : Cell → Prop} {s₀ s₁ : State} {g : Seg} {n : Nat} {body : List Byte}
    (hm : Moves M s₀ s₁)
    (hNotices : M .notices) (hVisitsIn : M .visitsIn) (hEntries : M .entries) (hLinesIn : M .linesIn) :
    Moves M s₀ (latchStatus g n body s₁) := by
  unfold latchStatus
  try dsimp only
  repeat' first
    | with_reducible assumption
    | intro _
    | with_reducible apply unitReport_moves
    | with_reducible apply Moves.foldl
    | split

theorem disarmTenant_moves {M : Cell → Prop} {s₀ s₁ : State} {t : Nat} (hm : Moves M s₀ s₁)
    (hEntries : M .entries) (hPresence : M .presence) (hLinesIn : M .linesIn) : Moves M s₀
    (disarmTenant t s₁) := by
  unfold disarmTenant
  try dsimp only
  repeat' first
    | with_reducible assumption
    | exact fun l => l
    | exact .inl ‹_›
    | exact .inr rfl
    | exact .inr ⟨rfl, rfl⟩
    | exact .inr ⟨rfl, rfl, rfl⟩
    | exact .inr ⟨rfl, rfl, rfl, rfl⟩
    | exact .inr ⟨rfl, rfl, rfl, rfl, rfl, rfl⟩
    | exact fun l => sorted_modify l _ _
    | exact fun l => sorted_put l _ _
    | exact fun l => sorted_remove l _
    | exact fun l => sorted_map l _ fun e => (by split <;> rfl)
    | exact fun l => l.entries
    | intro _
    | with_reducible apply withUnits_moves
    | split
    | with_reducible apply moves_units

theorem rearm_moves {M : Cell → Prop} {s₀ s₁ : State} {u : Nat} (hm : Moves M s₀ s₁)
    (hNotices : M .notices) (hSiteIn : M .siteIn) (hEntries : M .entries) (hSeg : ∀ g, M (.segment g))
    (hLinesIn : M .linesIn) : Moves M s₀ (rearm u s₁) := by
  unfold rearm
  try dsimp only
  repeat' first
    | with_reducible assumption
    | exact hSeg _
    | with_reducible apply putNotice_moves
    | with_reducible apply withUnit_moves
    | with_reducible apply queueRelock_moves
    | with_reducible apply cancelRelease_moves
    | with_reducible apply armDisarmed_moves
    | split

theorem closeTenant_moves {M : Cell → Prop} {s₀ s₁ : State} {t : Nat} {visitLeft : Bool}
    (hm : Moves M s₀ s₁)
    (hNotices : M .notices) (hSiteIn : M .siteIn) (hEntries : M .entries) (hPresence : M .presence)
    (hSeg : ∀ g, M (.segment g)) (hLinesIn : M .linesIn) : Moves M s₀ (closeTenant t visitLeft s₁) := by
  unfold closeTenant
  try dsimp only
  repeat' first
    | with_reducible assumption
    | exact hSeg _
    | exact fun l => l
    | exact .inl ‹_›
    | exact .inr rfl
    | exact .inr ⟨rfl, rfl⟩
    | exact .inr ⟨rfl, rfl, rfl⟩
    | exact .inr ⟨rfl, rfl, rfl, rfl⟩
    | exact .inr ⟨rfl, rfl, rfl, rfl, rfl, rfl⟩
    | exact fun l => l.entries
    | intro _
    | with_reducible apply rearm_moves
    | with_reducible apply Moves.foldl
    | split
    | with_reducible apply moves_units

theorem takeUnitOrder_moves {M : Cell → Prop} {s₀ s₁ : State} {r : UnitOrder} (hm : Moves M s₀ s₁)
    (hNotices : M .notices) (hSiteIn : M .siteIn) (hEntries : M .entries) (hPresence : M .presence)
    (hSeg : ∀ g, M (.segment g)) (hLinesIn : M .linesIn) : Moves M s₀ (takeUnitOrder s₁ r) := by
  unfold takeUnitOrder
  try dsimp only
  repeat' first
    | with_reducible assumption
    | exact hSeg _
    | with_reducible apply disarmTenant_moves
    | with_reducible apply closeTenant_moves
    | split

theorem deliverUnitOrders_moves {M : Cell → Prop} {s₀ s₁ : State} (hm : Moves M s₀ s₁)
    (hNotices : M .notices) (hSiteIn : M .siteIn) (hEntries : M .entries) (hPresence : M .presence)
    (hUnitsIn : M .unitsIn) (hSeg : ∀ g, M (.segment g)) (hLinesIn : M .linesIn) : Moves M s₀
    (deliverUnitOrders s₁) := by
  unfold deliverUnitOrders
  try dsimp only
  repeat' first
    | with_reducible assumption
    | exact hSeg _
    | exact fun l => l
    | exact .inl ‹_›
    | exact .inr rfl
    | exact .inr ⟨rfl, rfl⟩
    | exact .inr ⟨rfl, rfl, rfl⟩
    | exact .inr ⟨rfl, rfl, rfl, rfl⟩
    | exact .inr ⟨rfl, rfl, rfl, rfl, rfl, rfl⟩
    | exact fun l => l.entries
    | intro _
    | with_reducible apply takeUnitOrder_moves
    | with_reducible apply Moves.foldl
    | split
    | with_reducible apply moves_units

theorem execDisarmOrder_moves {M : Cell → Prop} {s : State} (hEntries : M .entries)
    (hPresence : M .presence) (hUnitsIn : M .unitsIn) (hLinesIn : M .linesIn) :
    ∃ t, execDisarmOrder s = .next t ∧ Moves M s t := by
  have hm := Moves.refl M s
  refine ⟨_, rfl, ?_⟩
  try dsimp only
  repeat' first
    | with_reducible assumption
    | exact fun l => l
    | exact .inl ‹_›
    | exact .inr rfl
    | exact .inr ⟨rfl, rfl⟩
    | exact .inr ⟨rfl, rfl, rfl⟩
    | exact .inr ⟨rfl, rfl, rfl, rfl⟩
    | exact .inr ⟨rfl, rfl, rfl, rfl, rfl, rfl⟩
    | exact fun l => l.entries
    | intro _
    | with_reducible apply disarmTenant_moves
    | split
    | with_reducible apply moves_units

theorem execClosureOrder_moves {M : Cell → Prop} {s : State} (hNotices : M .notices)
    (hSiteIn : M .siteIn) (hEntries : M .entries) (hPresence : M .presence) (hUnitsIn : M .unitsIn)
    (hSeg : ∀ g, M (.segment g)) (hLinesIn : M .linesIn) :
    ∃ t, execClosureOrder s = .next t ∧ Moves M s t := by
  have hm := Moves.refl M s
  refine ⟨_, rfl, ?_⟩
  try dsimp only
  repeat' first
    | with_reducible assumption
    | exact hSeg _
    | exact fun l => l
    | exact .inl ‹_›
    | exact .inr rfl
    | exact .inr ⟨rfl, rfl⟩
    | exact .inr ⟨rfl, rfl, rfl⟩
    | exact .inr ⟨rfl, rfl, rfl, rfl⟩
    | exact .inr ⟨rfl, rfl, rfl, rfl, rfl, rfl⟩
    | exact fun l => l.entries
    | intro _
    | with_reducible apply closeTenant_moves
    | split
    | with_reducible apply moves_units

theorem refuseAsk_moves {M : Cell → Prop} {s₀ s₁ : State} {g : Seg} {n ch : Nat} {why : Reason}
    (hm : Moves M s₀ s₁)
    (hNotices : M .notices) (hSiteIn : M .siteIn) (hSeg : M (.segment g)) : Moves M s₀
    (refuseAsk g n ch why s₁) := by
  unfold refuseAsk
  try dsimp only
  repeat' first
    | with_reducible assumption
    | with_reducible apply putNotice_moves
    | with_reducible apply submit_moves
    | split

theorem queueRelease_moves {M : Cell → Prop} {s₀ s₁ : State} {u : Nat} {e : UnitEntry}
    (hm : Moves M s₀ s₁)
    (hSiteIn : M .siteIn) (hEntries : M .entries) (hSeg : ∀ g, M (.segment g)) (hLinesIn : M .linesIn) :
    Moves M s₀ (queueRelease u e s₁) := by
  unfold queueRelease
  try dsimp only
  repeat' first
    | with_reducible assumption
    | exact hSeg _
    | with_reducible apply withUnit_moves
    | with_reducible apply submit_moves
    | split

theorem releaseAsk_moves {M : Cell → Prop} {s₀ s₁ : State} {g : Seg} {n ch : Nat} (hm : Moves M s₀ s₁)
    (hNotices : M .notices) (hSiteIn : M .siteIn) (hEntries : M .entries) (hSeg : ∀ g, M (.segment g))
    (hLinesIn : M .linesIn) : Moves M s₀ (releaseAsk g n ch s₁) := by
  unfold releaseAsk
  try dsimp only
  repeat' first
    | with_reducible assumption
    | exact hSeg _
    | with_reducible apply refuseAsk_moves
    | with_reducible apply queueRelease_moves
    | split

theorem takeReleaseOutcome_moves {M : Cell → Prop} {s₀ s₁ : State} {u : Nat} {number : Byte}
    {o : TxOutcome} (hm : Moves M s₀ s₁)
    (hNotices : M .notices) (hEntries : M .entries) (hLinesIn : M .linesIn) : Moves M s₀
    (takeReleaseOutcome u number o s₁) := by
  unfold takeReleaseOutcome
  try dsimp only
  repeat' first
    | with_reducible assumption
    | with_reducible apply putNotice_moves
    | with_reducible apply withUnit_moves
    | with_reducible apply placeClosed_moves
    | split

theorem execReleaseOutcome_moves {M : Cell → Prop} {g : Seg} {s : State} (hNotices : M .notices)
    (hEntries : M .entries) (hSeg : M (.segment g)) (hLinesIn : M .linesIn) :
    ∃ t, execReleaseOutcome g s = .next t ∧ Moves M s t := by
  have hm := Moves.refl M s
  refine ⟨_, rfl, ?_⟩
  try dsimp only
  repeat' first
    | with_reducible assumption
    | exact fun l => l
    | (show Segment.inForm _; assumption)
    | intro _
    | with_reducible apply modSeg_moves
    | with_reducible apply takeReleaseOutcome_moves
    | split

theorem takeRelockOutcome_moves {M : Cell → Prop} {s₀ s₁ : State} {u : Nat} {number : Option Byte}
    (hm : Moves M s₀ s₁)
    (hEntries : M .entries) (hLinesIn : M .linesIn) : Moves M s₀ (takeRelockOutcome u number s₁) := by
  unfold takeRelockOutcome
  try dsimp only
  repeat' first
    | with_reducible assumption
    | with_reducible apply withUnit_moves
    | split

theorem execRelockOutcome_moves {M : Cell → Prop} {g : Seg} {s : State} (hEntries : M .entries)
    (hSeg : M (.segment g)) (hLinesIn : M .linesIn) :
    ∃ t, execRelockOutcome g s = .next t ∧ Moves M s t := by
  have hm := Moves.refl M s
  refine ⟨_, rfl, ?_⟩
  try dsimp only
  repeat' first
    | with_reducible assumption
    | exact fun l => l
    | (show Segment.inForm _; assumption)
    | intro _
    | with_reducible apply modSeg_moves
    | with_reducible apply takeRelockOutcome_moves
    | split

theorem execDenyBlinkOutcome_moves {M : Cell → Prop} {g : Seg} {s : State} (hSeg : M (.segment g)) :
    ∃ t, execDenyBlinkOutcome g s = .next t ∧ Moves M s t := by
  have hm := Moves.refl M s
  refine ⟨_, rfl, ?_⟩
  try dsimp only
  repeat' first
    | with_reducible assumption
    | exact fun l => l
    | (show Segment.inForm _; assumption)
    | intro _
    | with_reducible apply modSeg_moves
    | split

theorem takeServiceOutcome_moves {M : Cell → Prop} {s₀ s₁ : State} {u : Nat} {number : Byte}
    {o : TxOutcome} (hm : Moves M s₀ s₁)
    (hNotices : M .notices) : Moves M s₀ (takeServiceOutcome u number o s₁) := by
  unfold takeServiceOutcome
  try dsimp only
  repeat' first
    | with_reducible assumption
    | with_reducible apply putNotice_moves
    | split

theorem execServiceReleaseOutcome_moves {M : Cell → Prop} {g : Seg} {s : State} (hNotices : M .notices)
    (hSeg : M (.segment g)) :
    ∃ t, execServiceReleaseOutcome g s = .next t ∧ Moves M s t := by
  have hm := Moves.refl M s
  refine ⟨_, rfl, ?_⟩
  try dsimp only
  repeat' first
    | with_reducible assumption
    | exact fun l => l
    | (show Segment.inForm _; assumption)
    | intro _
    | with_reducible apply modSeg_moves
    | with_reducible apply takeServiceOutcome_moves
    | split

theorem execReleaseTimerExpiry_moves {M : Cell → Prop} {u : Nat} {s : State} (hEntries : M .entries)
    (hLinesIn : M .linesIn) :
    ∃ t, execReleaseTimerExpiry u s = .next t ∧ Moves M s t := by
  have hm := Moves.refl M s
  refine ⟨_, rfl, ?_⟩
  try dsimp only
  repeat' first
    | with_reducible assumption
    | with_reducible apply withUnit_moves
    | with_reducible apply placeClosed_moves
    | split

theorem loseLatchNode_moves {M : Cell → Prop} {s₀ s₁ : State} {g : Seg} {n : Nat} (hm : Moves M s₀ s₁)
    (hEntries : M .entries) (hLinesIn : M .linesIn) : Moves M s₀ (loseLatchNode g n s₁) := by
  unfold loseLatchNode
  try dsimp only
  repeat' first
    | with_reducible assumption
    | exact fun l => sorted_modify l _ _
    | exact fun l => sorted_put l _ _
    | exact fun l => sorted_remove l _
    | exact fun l => sorted_map l _ fun e => (by split <;> rfl)
    | intro _
    | with_reducible apply withUnits_moves
    | split

theorem execLatchNodeLoss_moves {M : Cell → Prop} {g : Seg} {s : State} (hEntries : M .entries)
    (hSeg : M (.segment g)) (hLinesIn : M .linesIn) :
    ∃ t, execLatchNodeLoss g s = .next t ∧ Moves M s t := by
  have hm := Moves.refl M s
  refine ⟨_, rfl, ?_⟩
  try dsimp only
  repeat' first
    | with_reducible assumption
    | exact fun l => l
    | (show Segment.inForm _; assumption)
    | intro _
    | with_reducible apply modSeg_moves
    | with_reducible apply loseLatchNode_moves
    | split

theorem evaluateHeld_moves {M : Cell → Prop} {s₀ s₁ : State} {u : Nat} {r : UnitRec} (hm : Moves M s₀ s₁)
    (hNotices : M .notices) (hVisitsIn : M .visitsIn) (hEntries : M .entries) (hLinesIn : M .linesIn) :
    Moves M s₀ (evaluateHeld u r s₁) := by
  unfold evaluateHeld
  try dsimp only
  repeat' first
    | with_reducible assumption
    | with_reducible apply unitReport_moves
    | split

theorem abandonRelease_moves {M : Cell → Prop} {s₀ s₁ : State} {u : Nat} {e : UnitEntry}
    (hm : Moves M s₀ s₁)
    (hSiteIn : M .siteIn) (hSeg : ∀ g, M (.segment g)) : Moves M s₀ (abandonRelease u e s₁) := by
  unfold abandonRelease
  try dsimp only
  repeat' first
    | with_reducible assumption
    | exact hSeg _
    | with_reducible apply queueUntracked_moves
    | with_reducible apply cancelRelease_moves
    | split

theorem overlockChanged_moves {M : Cell → Prop} {s₀ s₁ : State} {u : Nat} {set : Bool}
    (hm : Moves M s₀ s₁)
    (hSiteIn : M .siteIn) (hEntries : M .entries) (hSeg : ∀ g, M (.segment g)) (hLinesIn : M .linesIn) :
    Moves M s₀ (overlockChanged u set s₁) := by
  unfold overlockChanged
  try dsimp only
  repeat' first
    | with_reducible assumption
    | exact hSeg _
    | with_reducible apply withUnit_moves
    | with_reducible apply armDisarmed_moves
    | split

theorem applyUnit_moves {M : Cell → Prop} {s₀ s₁ : State} {u : Nat} {r : UnitRec} (hm : Moves M s₀ s₁)
    (hNotices : M .notices) (hSiteIn : M .siteIn) (hVisitsIn : M .visitsIn) (hEntries : M .entries)
    (hSeg : ∀ g, M (.segment g)) (hLinesIn : M .linesIn) : Moves M s₀ (applyUnit u r s₁) := by
  unfold applyUnit
  try dsimp only
  repeat' first
    | with_reducible assumption
    | exact hSeg _
    | exact fun l => sorted_modify l _ _
    | exact fun l => sorted_put l _ _
    | exact fun l => sorted_remove l _
    | exact fun l => sorted_map l _ fun e => (by split <;> rfl)
    | intro _
    | with_reducible apply withUnits_moves
    | with_reducible apply withUnit_moves
    | with_reducible apply rearm_moves
    | with_reducible apply evaluateHeld_moves
    | with_reducible apply abandonRelease_moves
    | with_reducible apply overlockChanged_moves
    | split

theorem dropUnitEntry_moves {M : Cell → Prop} {s₀ s₁ : State} {u : Nat} (hm : Moves M s₀ s₁)
    (hSiteIn : M .siteIn) (hEntries : M .entries) (hSeg : ∀ g, M (.segment g)) (hLinesIn : M .linesIn) :
    Moves M s₀ (dropUnitEntry u s₁) := by
  unfold dropUnitEntry
  try dsimp only
  repeat' first
    | with_reducible assumption
    | exact hSeg _
    | exact fun l => sorted_modify l _ _
    | exact fun l => sorted_put l _ _
    | exact fun l => sorted_remove l _
    | exact fun l => sorted_map l _ fun e => (by split <;> rfl)
    | intro _
    | with_reducible apply withUnits_moves
    | with_reducible apply abandonRelease_moves
    | split

theorem withUnitRecord_moves {M : Cell → Prop} {s₀ s₁ : State} {u : Nat}
    {k : UnitRec → UnitEntry → State → State} (hm : Moves M s₀ s₁) (hServing : M .serving)
    (hReplies : M .replies) (hk : ∀ r e t, Moves M s₀ t → Moves M s₀ (k r e t)) :
    Moves M s₀ (withUnitRecord u k s₁) := by
  unfold withUnitRecord
  repeat' first
    | exact hk _ _ _ hm
    | exact reply_moves hm hServing hReplies
    | split

theorem beginService_moves {M : Cell → Prop} {s₀ s₁ : State} {u : Nat} {e : UnitEntry}
    (hm : Moves M s₀ s₁)
    (hSiteIn : M .siteIn) (hEntries : M .entries) (hSeg : ∀ g, M (.segment g)) (hLinesIn : M .linesIn) :
    Moves M s₀ (beginService u e s₁) := by
  unfold beginService
  try dsimp only
  repeat' first
    | with_reducible assumption
    | exact hSeg _
    | with_reducible apply withUnit_moves
    | with_reducible apply submit_moves
    | split

theorem execUnitServiceBegin_moves {M : Cell → Prop} {s : State} (hServing : M .serving)
    (hReplies : M .replies) (hSiteIn : M .siteIn) (hEntries : M .entries) (hSeg : ∀ g, M (.segment g))
    (hLinesIn : M .linesIn) :
    ∃ t, execUnitServiceBegin s = .next t ∧ Moves M s t := by
  have hm := Moves.refl M s
  refine ⟨_, rfl, ?_⟩
  try dsimp only
  repeat' first
    | with_reducible assumption
    | exact hSeg _
    | intro _
    | with_reducible apply reply_moves
    | with_reducible apply takingAction_moves
    | with_reducible apply withUnitRecord_moves
    | with_reducible apply beginService_moves
    | split

theorem execUnitServiceEnd_moves {M : Cell → Prop} {s : State} (hServing : M .serving)
    (hReplies : M .replies) (hNotices : M .notices) (hSiteIn : M .siteIn) (hEntries : M .entries)
    (hSeg : ∀ g, M (.segment g)) (hLinesIn : M .linesIn) :
    ∃ t, execUnitServiceEnd s = .next t ∧ Moves M s t := by
  have hm := Moves.refl M s
  refine ⟨_, rfl, ?_⟩
  try dsimp only
  repeat' first
    | with_reducible assumption
    | exact hSeg _
    | intro _
    | with_reducible apply reply_moves
    | with_reducible apply takingAction_moves
    | with_reducible apply placeByDoor_moves
    | with_reducible apply queueRelock_moves
    | with_reducible apply withUnitRecord_moves
    | split

theorem execUnitAlarmReset_moves {M : Cell → Prop} {s : State} (hServing : M .serving)
    (hReplies : M .replies) (hNotices : M .notices) (hEntries : M .entries) (hLinesIn : M .linesIn) :
    ∃ t, execUnitAlarmReset s = .next t ∧ Moves M s t := by
  have hm := Moves.refl M s
  refine ⟨_, rfl, ?_⟩
  try dsimp only
  repeat' first
    | with_reducible assumption
    | intro _
    | with_reducible apply reply_moves
    | with_reducible apply taking_moves
    | with_reducible apply tested_moves
    | with_reducible apply placeByDoor_moves
    | with_reducible apply withUnitRecord_moves
    | split

theorem execGetUnit_moves {M : Cell → Prop} {s : State} (hServing : M .serving) (hReplies : M .replies) :
    ∃ t, execGetUnit s = .next t ∧ Moves M s t := by
  have hm := Moves.refl M s
  refine ⟨_, rfl, ?_⟩
  try dsimp only
  repeat' first
    | with_reducible assumption
    | intro _
    | with_reducible apply reply_moves
    | with_reducible apply takingStore_moves
    | with_reducible apply tested_moves
    | with_reducible apply withUnitRecord_moves
    | split

end Sys2Proof.Machine
end

