-- ==== Sys2Proof/Laws/MovesLifts.lean ====
section
/-! SUPPORT. What the operations of the Lift Scheduler and of the three decisions may change. -/

namespace Sys2Proof.Machine

theorem liftSend_moves {M : Cell → Prop} {s₀ s₁ : State} {c : Nat} {cmd : NodeCommand}
    (hm : Moves M s₀ s₁)
    (hSiteIn : M .siteIn) (hSeg : ∀ g, M (.segment g)) : Moves M s₀ (liftSend c cmd s₁) := by
  unfold liftSend
  try dsimp only
  repeat' first
    | with_reducible assumption
    | exact hSeg _
    | with_reducible apply submit_moves
    | split

theorem sendEnable_moves {M : Cell → Prop} {s₀ s₁ : State} {c : Nat} (hm : Moves M s₀ s₁)
    (hSiteIn : M .siteIn) (hSeg : ∀ g, M (.segment g)) : Moves M s₀ (sendEnable c s₁) := by
  unfold sendEnable
  try dsimp only
  repeat' first
    | with_reducible assumption
    | exact hSeg _
    | with_reducible apply liftSend_moves
    | split

theorem idleDispatch_moves {M : Cell → Prop} {s₀ s₁ : State} {c : Nat} (hm : Moves M s₀ s₁)
    (hSiteIn : M .siteIn) (hCars : M .cars) (hSeg : ∀ g, M (.segment g)) : Moves M s₀
    (idleDispatch c s₁) := by
  unfold idleDispatch
  try dsimp only
  repeat' first
    | with_reducible assumption
    | exact hSeg _
    | exact fun _ l => l
    | exact fun _ l => ⟨l.1, l.2.1, trip_filter _ l.2.2⟩
    | exact fun _ l => ⟨l.1, l.2.1, trip_none⟩
    | exact fun _ l => ⟨Nat.zero_le _, l.2.1, trip_none⟩
    | intro _
    | with_reducible apply withCar_moves
    | with_reducible apply liftSend_moves
    | split

theorem standIdle_moves {M : Cell → Prop} {s₀ s₁ : State} {c : Nat} (hm : Moves M s₀ s₁)
    (hSiteIn : M .siteIn) (hCars : M .cars) (hSeg : ∀ g, M (.segment g)) : Moves M s₀ (standIdle c s₁)
    := by
  unfold standIdle
  try dsimp only
  repeat' first
    | with_reducible assumption
    | exact hSeg _
    | exact fun _ l => l
    | exact fun _ l => ⟨l.1, l.2.1, trip_filter _ l.2.2⟩
    | exact fun _ l => ⟨l.1, l.2.1, trip_none⟩
    | exact fun _ l => ⟨Nat.zero_le _, l.2.1, trip_none⟩
    | intro _
    | with_reducible apply withCar_moves
    | with_reducible apply liftSend_moves
    | with_reducible apply idleDispatch_moves
    | split

theorem joinCar_moves {M : Cell → Prop} {s₀ s₁ : State} {c : Nat} {x : Car} {k : Call}
    (hm : Moves M s₀ s₁)
    (hSiteIn : M .siteIn) (hCars : M .cars) (hSeg : ∀ g, M (.segment g)) (hx : s₁.car c = some x)
    (hq : x.queue.length < Config.maxCalls) : Moves M s₀ (joinCar c x k s₁).2 := by
  unfold joinCar
  split
  · rename_i hj
    refine sendEnable_moves (withCar_moves hm hSiteIn hCars fun y hy l => ⟨l.1, l.2.1, ?_⟩) hSiteIn hSeg
    obtain rfl : x = y := Option.some.inj (hx.symm.trans hy)
    exact trip_join hj
  · refine idleDispatch_moves (withCar_moves hm hSiteIn hCars fun y hy l => ⟨?_, l.2⟩) hSiteIn hCars hSeg
    obtain rfl : x = y := Option.some.inj (hx.symm.trans hy)
    exact Nat.le_trans (Nat.le_of_eq (insertCall_length _ _)) hq

theorem placeCall_moves {M : Cell → Prop} {s₀ s₁ : State} {k : Call} (hm : Moves M s₀ s₁)
    (hSiteIn : M .siteIn) (hCars : M .cars) (hSeg : ∀ g, M (.segment g)) :
    Moves M s₀ (placeCall k s₁).2 := by
  unfold placeCall
  split
  · rename_i hc
    obtain ⟨x, hx, hq⟩ := chooseCar_room hc
    simp only [hx]
    exact joinCar_moves hm hSiteIn hCars hSeg hx hq
  · exact hm

theorem headLeft_moves {M : Cell → Prop} {s₀ s₁ : State} {c : Nat} (hm : Moves M s₀ s₁)
    (hSiteIn : M .siteIn) (hCars : M .cars) (hSeg : ∀ g, M (.segment g)) : Moves M s₀ (headLeft c s₁) :=
    by
  unfold headLeft
  try dsimp only
  repeat' first
    | with_reducible assumption
    | exact hSeg _
    | exact fun _ l => l
    | exact fun _ l => ⟨l.1, l.2.1, trip_filter _ l.2.2⟩
    | exact fun _ l => ⟨l.1, l.2.1, trip_none⟩
    | exact fun _ l => ⟨Nat.zero_le _, l.2.1, trip_none⟩
    | intro _
    | with_reducible apply withCar_moves
    | with_reducible apply liftSend_moves
    | with_reducible apply standIdle_moves
    | split

theorem leaveQueue_moves {M : Cell → Prop} {s₀ s₁ : State} {c id : Nat} (hm : Moves M s₀ s₁)
    (hSiteIn : M .siteIn) (hCars : M .cars) (hSeg : ∀ g, M (.segment g)) : Moves M s₀
    (leaveQueue c id s₁) := by
  unfold leaveQueue
  try dsimp only
  repeat' first
    | with_reducible assumption
    | exact hSeg _
    | exact fun _ l => l
    | exact fun _ l => ⟨l.1, l.2.1, trip_filter _ l.2.2⟩
    | exact fun _ l => ⟨l.1, l.2.1, trip_none⟩
    | exact fun _ l => ⟨Nat.zero_le _, l.2.1, trip_none⟩
    | exact fun _ l => ⟨Nat.le_trans (List.length_filter_le _ _) l.1, l.2⟩
    | intro _
    | with_reducible apply withCar_moves
    | with_reducible apply headLeft_moves
    | split

theorem leaveTrip_moves {M : Cell → Prop} {s₀ s₁ : State} {c id : Nat} (hm : Moves M s₀ s₁)
    (hSiteIn : M .siteIn) (hCars : M .cars) (hSeg : ∀ g, M (.segment g)) : Moves M s₀
    (leaveTrip c id s₁) := by
  unfold leaveTrip
  try dsimp only
  repeat' first
    | with_reducible assumption
    | exact hSeg _
    | exact fun _ l => l
    | exact fun _ l => ⟨l.1, l.2.1, trip_filter _ l.2.2⟩
    | exact fun _ l => ⟨l.1, l.2.1, trip_none⟩
    | exact fun _ l => ⟨Nat.zero_le _, l.2.1, trip_none⟩
    | exact fun _ l => ⟨Nat.le_trans (List.length_filter_le _ _) l.1, l.2⟩
    | intro _
    | with_reducible apply withCar_moves
    | with_reducible apply sendEnable_moves
    | split

theorem withdrawCall_moves {M : Cell → Prop} {s₀ s₁ : State} {id : Nat} (hm : Moves M s₀ s₁)
    (hSiteIn : M .siteIn) (hCars : M .cars) (hSeg : ∀ g, M (.segment g)) : Moves M s₀
    (withdrawCall s₁ id) := by
  unfold withdrawCall
  try dsimp only
  repeat' first
    | with_reducible assumption
    | exact hSeg _
    | with_reducible apply leaveQueue_moves
    | with_reducible apply leaveTrip_moves
    | split

theorem deliverWithdrawals_moves {M : Cell → Prop} {s₀ s₁ : State} (hm : Moves M s₀ s₁)
    (hSiteIn : M .siteIn) (hCars : M .cars) (hLiftsIn : M .liftsIn) (hSeg : ∀ g, M (.segment g)) : Moves
    M s₀ (deliverWithdrawals s₁) := by
  unfold deliverWithdrawals
  try dsimp only
  repeat' first
    | with_reducible assumption
    | exact hSeg _
    | exact fun l => l
    | exact .inl ‹_›
    | exact .inr rfl
    | exact .inr ⟨rfl, rfl⟩
    | exact .inr ⟨rfl, rfl, rfl⟩
    | exact .inr ⟨rfl, rfl, rfl, rfl⟩
    | exact .inr ⟨rfl, rfl, rfl, rfl, rfl, rfl⟩
    | intro _
    | with_reducible apply withdrawCall_moves
    | with_reducible apply Moves.foldl
    | split
    | with_reducible apply moves_lifts

theorem handOver_moves {M : Cell → Prop} {s₀ s₁ : State} {k : Call} (hm : Moves M s₀ s₁)
    (hSiteIn : M .siteIn) (hCars : M .cars) (hSeg : ∀ g, M (.segment g)) :
    Moves M s₀ (handOver k s₁).2 :=
  placeCall_moves (withdrawCall_moves hm hSiteIn hCars hSeg) hSiteIn hCars hSeg

theorem cancelCall_moves {M : Cell → Prop} {s₀ s₁ : State} {c : Nat} {why : CancelReason}
    {boarded : Bool} {k : Call} (hm : Moves M s₀ s₁)
    (hNotices : M .notices) (hVisitsIn : M .visitsIn) : Moves M s₀ (cancelCall c why boarded s₁ k) := by
  unfold cancelCall
  try dsimp only
  repeat' first
    | with_reducible assumption
    | with_reducible apply putNotice_moves
    | with_reducible apply toVisitsCall_moves
    | split

theorem replaceCall_moves {M : Cell → Prop} {s₀ s₁ : State} {c : Nat} {k : Call} (hm : Moves M s₀ s₁)
    (hNotices : M .notices) (hSiteIn : M .siteIn) (hVisitsIn : M .visitsIn) (hCars : M .cars)
    (hSeg : ∀ g, M (.segment g)) : Moves M s₀ (replaceCall c s₁ k) := by
  have h := placeCall_moves (k := k) hm hSiteIn hCars hSeg
  unfold replaceCall
  split <;> rename_i e <;> rw [e] at h
  · exact toVisitsCall_moves h hVisitsIn
  · exact toVisitsCall_moves h hVisitsIn
  · exact cancelCall_moves h hNotices hVisitsIn

theorem takeOut_moves {M : Cell → Prop} {s₀ s₁ : State} {c : Nat} {cause : OutCause}
    {reason : CarReason} {failed : Option (NodeCommand × TxOutcome)} (hm : Moves M s₀ s₁)
    (hNotices : M .notices) (hSiteIn : M .siteIn) (hVisitsIn : M .visitsIn) (hCars : M .cars)
    (hSeg : ∀ g, M (.segment g)) : Moves M s₀ (takeOut c cause reason failed s₁) := by
  unfold takeOut
  try dsimp only
  repeat' first
    | with_reducible assumption
    | exact hSeg _
    | exact fun _ l => l
    | exact fun _ l => ⟨l.1, l.2.1, trip_filter _ l.2.2⟩
    | exact fun _ l => ⟨l.1, l.2.1, trip_none⟩
    | exact fun _ l => ⟨Nat.zero_le _, l.2.1, trip_none⟩
    | exact fun _ l => ⟨Nat.zero_le _, l.2⟩
    | intro _
    | with_reducible apply putNotice_moves
    | with_reducible apply withCar_moves
    | with_reducible apply cancelCall_moves
    | with_reducible apply replaceCall_moves
    | with_reducible apply Moves.foldl
    | split

theorem recallCar_moves {M : Cell → Prop} {s₀ s₁ : State} {c : Nat} (hm : Moves M s₀ s₁)
    (hSiteIn : M .siteIn) (hCars : M .cars) (hSeg : ∀ g, M (.segment g)) : Moves M s₀ (recallCar c s₁)
    := by
  unfold recallCar
  try dsimp only
  repeat' first
    | with_reducible assumption
    | exact hSeg _
    | exact fun _ l => l
    | exact fun _ l => ⟨l.1, l.2.1, trip_filter _ l.2.2⟩
    | exact fun _ l => ⟨l.1, l.2.1, trip_none⟩
    | exact fun _ l => ⟨Nat.zero_le _, l.2.1, trip_none⟩
    | intro _
    | with_reducible apply withCar_moves
    | with_reducible apply liftSend_moves
    | split

theorem returnCar_moves {M : Cell → Prop} {s₀ s₁ : State} {c : Nat} (hm : Moves M s₀ s₁)
    (hNotices : M .notices) (hSiteIn : M .siteIn) (hCars : M .cars) (hSeg : ∀ g, M (.segment g)) : Moves
    M s₀ (returnCar c s₁) := by
  unfold returnCar
  try dsimp only
  repeat' first
    | with_reducible assumption
    | exact hSeg _
    | exact fun _ l => l
    | exact fun _ l => ⟨l.1, l.2.1, trip_filter _ l.2.2⟩
    | exact fun _ l => ⟨l.1, l.2.1, trip_none⟩
    | exact fun _ l => ⟨Nat.zero_le _, l.2.1, trip_none⟩
    | intro _
    | with_reducible apply putNotice_moves
    | with_reducible apply withCar_moves
    | with_reducible apply standIdle_moves
    | with_reducible apply recallCar_moves
    | split

theorem buildTrip_moves {M : Cell → Prop} {s₀ s₁ : State} {c : Nat} {x : Car} {floor : Nat}
    (hm : Moves M s₀ s₁)
    (hSiteIn : M .siteIn) (hVisitsIn : M .visitsIn) (hCars : M .cars) (hSeg : ∀ g, M (.segment g))
    (hx : ∀ y, s₁.car c = some y → y.queue = x.queue ∧ y.record = x.record) : Moves M s₀ (buildTrip c x floor s₁) := by
  unfold buildTrip
  dsimp only
  split
  · exact standIdle_moves hm hSiteIn hCars hSeg
  · refine sendEnable_moves (Moves.foldl (fun t _ h => toVisitsCall_moves h hVisitsIn) _ _
      (withCar_moves hm hSiteIn hCars fun y hy l => ⟨?_, l.2.1, fun t ht => ?_⟩)) hSiteIn hSeg
    · have hl := l.1
      rw [(hx y hy).1] at hl
      exact Nat.le_trans (takeCalls_length _ _ _) hl
    · obtain rfl := Option.some.inj ht
      rw [(hx y hy).2]
      exact takeCalls_room _ _ _

theorem endTrip_moves {M : Cell → Prop} {s₀ s₁ : State} {c : Nat} (hm : Moves M s₀ s₁)
    (hSiteIn : M .siteIn) (hCars : M .cars) (hSeg : ∀ g, M (.segment g)) : Moves M s₀ (endTrip c s₁) := by
  unfold endTrip
  try dsimp only
  repeat' first
    | with_reducible assumption
    | exact hSeg _
    | exact fun _ l => l
    | exact fun _ l => ⟨l.1, l.2.1, trip_filter _ l.2.2⟩
    | exact fun _ l => ⟨l.1, l.2.1, trip_none⟩
    | exact fun _ l => ⟨Nat.zero_le _, l.2.1, trip_none⟩
    | intro _
    | with_reducible apply withCar_moves
    | with_reducible apply idleDispatch_moves
    | split

theorem completeCall_moves {M : Cell → Prop} {s₀ s₁ : State} {c floor : Nat} {k : Call}
    (hm : Moves M s₀ s₁)
    (hSiteIn : M .siteIn) (hVisitsIn : M .visitsIn) (hCars : M .cars) : Moves M s₀
    (completeCall c floor s₁ k) := by
  unfold completeCall
  refine withCar_moves (toVisitsCall_moves hm hVisitsIn) hSiteIn hCars fun y hy l =>
    ⟨l.1, ?_, trip_filter _ l.2.2⟩
  have hl := l.2.1
  dsimp only
  split <;> simp <;> omega

theorem completeAt_moves {M : Cell → Prop} {s₀ s₁ : State} {c floor : Nat} {t : Trip} (hm : Moves M s₀ s₁)
    (hSiteIn : M .siteIn) (hVisitsIn : M .visitsIn) (hCars : M .cars) (hSeg : ∀ g, M (.segment g)) :
    Moves M s₀ (completeAt c floor t s₁) := by
  unfold completeAt
  try dsimp only
  repeat' first
    | with_reducible assumption
    | exact hSeg _
    | intro _
    | with_reducible apply sendEnable_moves
    | with_reducible apply endTrip_moves
    | with_reducible apply completeCall_moves
    | with_reducible apply Moves.foldl
    | split

theorem panelEvent_moves {M : Cell → Prop} {s₀ s₁ : State} {c : Nat} {x : Car} {floor : Nat}
    {doorsOpen : Bool} (hm : Moves M s₀ s₁)
    (hSiteIn : M .siteIn) (hVisitsIn : M .visitsIn) (hCars : M .cars) (hSeg : ∀ g, M (.segment g))
    (hx : ∀ y, s₁.car c = some y → y.queue = x.queue ∧ y.record = x.record) : Moves M s₀ (panelEvent c x floor doorsOpen s₁)
    := by
  unfold panelEvent
  dsimp only
  repeat' first
    | with_reducible assumption
    | exact fun _ _ l => l
    | with_reducible apply buildTrip_moves
    | with_reducible apply endTrip_moves
    | with_reducible apply completeAt_moves
    | with_reducible apply withCar_moves
    | exact hSeg _
    | split

theorem panelStatus_moves {M : Cell → Prop} {s₀ s₁ : State} {g : Seg} {n c floor : Nat}
    {doorsOpen : Bool} (hm : Moves M s₀ s₁)
    (hNotices : M .notices) (hSiteIn : M .siteIn) (hVisitsIn : M .visitsIn) (hCars : M .cars)
    (hSeg : ∀ g, M (.segment g)) : Moves M s₀ (panelStatus g n c floor doorsOpen s₁) := by
  unfold panelStatus
  split
  · exact hm
  · rename_i x hx
    split
    · have h : Moves M s₀ (withCar c
          (fun x => { x with lastFloor := some floor, lastDoorsOpen := some doorsOpen }) s₁) :=
        withCar_moves hm hSiteIn hCars fun _ _ l => l
      dsimp only
      split
      · split
        · exact h
        · exact returnCar_moves h hNotices hSiteIn hCars hSeg
      · refine panelEvent_moves h hSiteIn hVisitsIn hCars hSeg fun y hy => ?_
        rw [car_withCar, if_pos rfl, hx] at hy
        cases hy
        exact ⟨rfl, rfl⟩
    · exact hm

theorem placeOut_moves {M : Cell → Prop} {s₀ s₁ : State} {c : Nat} {keepHost : Bool} (hm : Moves M s₀ s₁)
    (hNotices : M .notices) (hSiteIn : M .siteIn) (hVisitsIn : M .visitsIn) (hCars : M .cars)
    (hSeg : ∀ g, M (.segment g)) : Moves M s₀ (placeOut c keepHost s₁) := by
  unfold placeOut
  try dsimp only
  repeat' first
    | with_reducible assumption
    | exact hSeg _
    | exact fun _ l => l
    | exact fun _ l => ⟨l.1, l.2.1, trip_filter _ l.2.2⟩
    | exact fun _ l => ⟨l.1, l.2.1, trip_none⟩
    | exact fun _ l => ⟨Nat.zero_le _, l.2.1, trip_none⟩
    | intro _
    | with_reducible apply withCar_moves
    | with_reducible apply takeOut_moves
    | split

theorem placeCar_moves {M : Cell → Prop} {s₀ s₁ : State} {c : Nat} {new : Marked CarRec}
    (hm : Moves M s₀ s₁)
    (hNotices : M .notices) (hSiteIn : M .siteIn) (hVisitsIn : M .visitsIn) (hCars : M .cars)
    (hSeg : ∀ g, M (.segment g)) : Moves M s₀ (placeCar c new s₁) := by
  unfold placeCar
  try dsimp only
  repeat' first
    | with_reducible assumption
    | exact hSeg _
    | exact fun _ l => l
    | exact fun _ l => ⟨l.1, l.2.1, trip_filter _ l.2.2⟩
    | exact fun _ l => ⟨l.1, l.2.1, trip_none⟩
    | exact fun _ l => ⟨Nat.zero_le _, l.2.1, trip_none⟩
    | intro _
    | with_reducible apply withCar_moves
    | with_reducible apply placeOut_moves
    | split

theorem execBoardingTimerExpiry_moves {M : Cell → Prop} {c : Nat} {s : State} (hSiteIn : M .siteIn)
    (hCars : M .cars) (hSeg : ∀ g, M (.segment g)) :
    ∃ t, execBoardingTimerExpiry c s = .next t ∧ Moves M s t := by
  have hm := Moves.refl M s
  refine ⟨_, rfl, ?_⟩
  try dsimp only
  repeat' first
    | with_reducible assumption
    | exact hSeg _
    | exact fun _ l => l
    | exact fun _ l => ⟨l.1, l.2.1, trip_filter _ l.2.2⟩
    | exact fun _ l => ⟨l.1, l.2.1, trip_none⟩
    | exact fun _ l => ⟨Nat.zero_le _, l.2.1, trip_none⟩
    | intro _
    | with_reducible apply withCar_moves
    | with_reducible apply liftSend_moves
    | split

theorem expireCall_moves {M : Cell → Prop} {s₀ s₁ : State} {c : Nat} {k : Call} (hm : Moves M s₀ s₁)
    (hNotices : M .notices) (hSiteIn : M .siteIn) (hVisitsIn : M .visitsIn) (hCars : M .cars)
    (hSeg : ∀ g, M (.segment g)) : Moves M s₀ (expireCall c k s₁) := by
  unfold expireCall
  try dsimp only
  repeat' first
    | with_reducible assumption
    | exact hSeg _
    | with_reducible apply putNotice_moves
    | with_reducible apply toVisitsCall_moves
    | with_reducible apply leaveQueue_moves
    | split

theorem execCallExpiry_moves {M : Cell → Prop} {id : Nat} {s : State} (hNotices : M .notices)
    (hSiteIn : M .siteIn) (hVisitsIn : M .visitsIn) (hCars : M .cars) (hSeg : ∀ g, M (.segment g)) :
    ∃ t, execCallExpiry id s = .next t ∧ Moves M s t := by
  have hm := Moves.refl M s
  refine ⟨_, rfl, ?_⟩
  try dsimp only
  repeat' first
    | with_reducible assumption
    | exact hSeg _
    | with_reducible apply expireCall_moves
    | split

theorem execCallWithdrawal_moves {M : Cell → Prop} {s : State} (hSiteIn : M .siteIn) (hCars : M .cars)
    (hLiftsIn : M .liftsIn) (hSeg : ∀ g, M (.segment g)) :
    ∃ t, execCallWithdrawal s = .next t ∧ Moves M s t := by
  have hm := Moves.refl M s
  refine ⟨_, rfl, ?_⟩
  try dsimp only
  repeat' first
    | with_reducible assumption
    | exact hSeg _
    | exact fun l => l
    | exact .inl ‹_›
    | exact .inr rfl
    | exact .inr ⟨rfl, rfl⟩
    | exact .inr ⟨rfl, rfl, rfl⟩
    | exact .inr ⟨rfl, rfl, rfl, rfl⟩
    | exact .inr ⟨rfl, rfl, rfl, rfl, rfl, rfl⟩
    | intro _
    | with_reducible apply withdrawCall_moves
    | split
    | with_reducible apply moves_lifts

theorem takeLiftOutcome_moves {M : Cell → Prop} {s₀ s₁ : State} {c : Nat} {cmd : NodeCommand}
    {o : TxOutcome} (hm : Moves M s₀ s₁)
    (hNotices : M .notices) (hSiteIn : M .siteIn) (hVisitsIn : M .visitsIn) (hCars : M .cars)
    (hSeg : ∀ g, M (.segment g)) : Moves M s₀ (takeLiftOutcome c cmd o s₁) := by
  unfold takeLiftOutcome
  try dsimp only
  repeat' first
    | with_reducible assumption
    | exact hSeg _
    | with_reducible apply takeOut_moves
    | split

theorem execLiftCommandOutcome_moves {M : Cell → Prop} {g : Seg} {s : State} (hNotices : M .notices)
    (hSiteIn : M .siteIn) (hVisitsIn : M .visitsIn) (hCars : M .cars) (hSeg : ∀ g, M (.segment g)) :
    ∃ t, execLiftCommandOutcome g s = .next t ∧ Moves M s t := by
  have hm := Moves.refl M s
  refine ⟨_, rfl, ?_⟩
  try dsimp only
  repeat' first
    | with_reducible assumption
    | exact hSeg _
    | exact fun l => l
    | (show Segment.inForm _; assumption)
    | intro _
    | with_reducible apply modSeg_moves
    | with_reducible apply takeLiftOutcome_moves
    | split

theorem losePanel_moves {M : Cell → Prop} {s₀ s₁ : State} {g : Seg} {n c : Nat} (hm : Moves M s₀ s₁)
    (hNotices : M .notices) (hSiteIn : M .siteIn) (hVisitsIn : M .visitsIn) (hCars : M .cars)
    (hSeg : ∀ g, M (.segment g)) : Moves M s₀ (losePanel g n s₁ c) := by
  unfold losePanel
  try dsimp only
  repeat' first
    | with_reducible assumption
    | exact hSeg _
    | with_reducible apply takeOut_moves
    | split

theorem execPanelLoss_moves {M : Cell → Prop} {g : Seg} {s : State} (hNotices : M .notices)
    (hSiteIn : M .siteIn) (hVisitsIn : M .visitsIn) (hCars : M .cars) (hSeg : ∀ g, M (.segment g)) :
    ∃ t, execPanelLoss g s = .next t ∧ Moves M s t := by
  have hm := Moves.refl M s
  refine ⟨_, rfl, ?_⟩
  try dsimp only
  repeat' first
    | with_reducible assumption
    | exact hSeg _
    | exact fun l => l
    | (show Segment.inForm _; assumption)
    | intro _
    | with_reducible apply modSeg_moves
    | with_reducible apply losePanel_moves
    | with_reducible apply Moves.foldl
    | split

theorem drainCar_moves {M : Cell → Prop} {s₀ s₁ : State} {c : Nat} (hm : Moves M s₀ s₁)
    (hNotices : M .notices) (hSiteIn : M .siteIn) (hVisitsIn : M .visitsIn) (hCars : M .cars)
    (hSeg : ∀ g, M (.segment g)) : Moves M s₀ (drainCar s₁ c) := by
  unfold drainCar
  try dsimp only
  repeat' first
    | with_reducible assumption
    | exact hSeg _
    | exact fun _ l => l
    | exact fun _ l => ⟨l.1, l.2.1, trip_filter _ l.2.2⟩
    | exact fun _ l => ⟨l.1, l.2.1, trip_none⟩
    | exact fun _ l => ⟨Nat.zero_le _, l.2.1, trip_none⟩
    | exact fun _ l => ⟨Nat.zero_le _, l.2⟩
    | intro _
    | with_reducible apply withCar_moves
    | with_reducible apply standIdle_moves
    | with_reducible apply cancelCall_moves
    | with_reducible apply Moves.foldl
    | split

theorem execDrainBegin_moves {M : Cell → Prop} {s : State} (hNotices : M .notices) (hSiteIn : M .siteIn)
    (hVisitsIn : M .visitsIn) (hCars : M .cars) (hLiftsIn : M .liftsIn) (hSeg : ∀ g, M (.segment g)) :
    ∃ t, execDrainBegin s = .next t ∧ Moves M s t := by
  have hm := Moves.refl M s
  refine ⟨_, rfl, ?_⟩
  try dsimp only
  repeat' first
    | with_reducible assumption
    | exact hSeg _
    | exact fun l => l
    | exact .inl ‹_›
    | exact .inr rfl
    | exact .inr ⟨rfl, rfl⟩
    | exact .inr ⟨rfl, rfl, rfl⟩
    | exact .inr ⟨rfl, rfl, rfl, rfl⟩
    | exact .inr ⟨rfl, rfl, rfl, rfl, rfl, rfl⟩
    | intro _
    | with_reducible apply toSite_moves
    | with_reducible apply drainCar_moves
    | with_reducible apply Moves.foldl
    | split
    | with_reducible apply moves_lifts

theorem evacuateCar_moves {M : Cell → Prop} {s₀ s₁ : State} {c : Nat} (hm : Moves M s₀ s₁)
    (hNotices : M .notices) (hSiteIn : M .siteIn) (hVisitsIn : M .visitsIn) (hCars : M .cars)
    (hSeg : ∀ g, M (.segment g)) : Moves M s₀ (evacuateCar s₁ c) := by
  unfold evacuateCar
  try dsimp only
  repeat' first
    | with_reducible assumption
    | exact hSeg _
    | exact fun _ l => l
    | exact fun _ l => ⟨l.1, l.2.1, trip_filter _ l.2.2⟩
    | exact fun _ l => ⟨l.1, l.2.1, trip_none⟩
    | exact fun _ l => ⟨Nat.zero_le _, l.2.1, trip_none⟩
    | exact fun _ l => ⟨Nat.zero_le _, l.2⟩
    | intro _
    | with_reducible apply withCar_moves
    | with_reducible apply cancelCall_moves
    | with_reducible apply recallCar_moves
    | with_reducible apply Moves.foldl
    | split

theorem execEvacuationBeginLifts_moves {M : Cell → Prop} {s : State} (hNotices : M .notices)
    (hSiteIn : M .siteIn) (hVisitsIn : M .visitsIn) (hCars : M .cars) (hRecall : M .recallFloor)
    (hLiftsIn : M .liftsIn) (hSeg : ∀ g, M (.segment g)) :
    ∃ t, execEvacuationBeginLifts s = .next t ∧ Moves M s t := by
  have hm := Moves.refl M s
  refine ⟨_, rfl, ?_⟩
  try dsimp only
  repeat' first
    | with_reducible assumption
    | exact hSeg _
    | exact fun l => l
    | exact .inl ‹_›
    | exact .inr rfl
    | exact .inr ⟨rfl, rfl⟩
    | exact .inr ⟨rfl, rfl, rfl⟩
    | exact .inr ⟨rfl, rfl, rfl, rfl⟩
    | exact .inr ⟨rfl, rfl, rfl, rfl, rfl, rfl⟩
    | intro _
    | with_reducible apply evacuateCar_moves
    | with_reducible apply Moves.foldl
    | split
    | with_reducible apply moves_lifts

theorem unevacuateCar_moves {M : Cell → Prop} {s₀ s₁ : State} {c : Nat} (hm : Moves M s₀ s₁)
    (hSiteIn : M .siteIn) (hCars : M .cars) (hSeg : ∀ g, M (.segment g)) : Moves M s₀
    (unevacuateCar s₁ c) := by
  unfold unevacuateCar
  try dsimp only
  repeat' first
    | with_reducible assumption
    | exact hSeg _
    | with_reducible apply standIdle_moves
    | split

theorem execEvacuationEndLifts_moves {M : Cell → Prop} {s : State} (hSiteIn : M .siteIn)
    (hCars : M .cars) (hLiftsIn : M .liftsIn) (hSeg : ∀ g, M (.segment g)) :
    ∃ t, execEvacuationEndLifts s = .next t ∧ Moves M s t := by
  have hm := Moves.refl M s
  refine ⟨_, rfl, ?_⟩
  try dsimp only
  repeat' first
    | with_reducible assumption
    | exact hSeg _
    | exact fun l => l
    | exact .inl ‹_›
    | exact .inr rfl
    | exact .inr ⟨rfl, rfl⟩
    | exact .inr ⟨rfl, rfl, rfl⟩
    | exact .inr ⟨rfl, rfl, rfl, rfl⟩
    | exact .inr ⟨rfl, rfl, rfl, rfl, rfl, rfl⟩
    | intro _
    | with_reducible apply unevacuateCar_moves
    | with_reducible apply Moves.foldl
    | split
    | with_reducible apply moves_lifts

theorem execPutCar_moves {M : Cell → Prop} {s : State} (hServing : M .serving) (hReplies : M .replies)
    (hSlots : M .slots) :
    ∃ t, execPutCar s = .next t ∧ Moves M s t := by
  have hm := Moves.refl M s
  refine ⟨_, rfl, ?_⟩
  try dsimp only
  repeat' first
    | with_reducible assumption
    | intro _
    | with_reducible apply takingStore_moves
    | with_reducible apply tested_moves
    | with_reducible apply unlessFaulted_moves
    | with_reducible apply writeItem_moves
    | split

theorem withPresentCar_moves {M : Cell → Prop} {s₀ s₁ : State} {c : Nat}
    {k : Nat → Car → State → State} (hm : Moves M s₀ s₁) (hServing : M .serving)
    (hReplies : M .replies) (hk : ∀ r e t, Moves M s₀ t → Moves M s₀ (k r e t)) :
    Moves M s₀ (withPresentCar k c s₁) := by
  unfold withPresentCar
  repeat' first
    | exact hk _ _ _ hm
    | exact reply_moves hm hServing hReplies
    | split

theorem serviceOut_moves {M : Cell → Prop} {s₀ s₁ : State} {c : Nat} {x : Car} (hm : Moves M s₀ s₁)
    (hNotices : M .notices) (hSiteIn : M .siteIn) (hVisitsIn : M .visitsIn) (hCars : M .cars)
    (hSeg : ∀ g, M (.segment g)) : Moves M s₀ (serviceOut c x s₁) := by
  unfold serviceOut
  try dsimp only
  repeat' first
    | with_reducible assumption
    | exact hSeg _
    | with_reducible apply liftSend_moves
    | with_reducible apply takeOut_moves
    | split

theorem causeHost_moves {M : Cell → Prop} {s₀ s₁ : State} {c : Nat} (hm : Moves M s₀ s₁)
    (hNotices : M .notices) (hSiteIn : M .siteIn) (hCars : M .cars) : Moves M s₀ (causeHost c s₁) := by
  unfold causeHost
  try dsimp only
  repeat' first
    | with_reducible assumption
    | exact fun _ l => l
    | exact fun _ l => ⟨l.1, l.2.1, trip_filter _ l.2.2⟩
    | exact fun _ l => ⟨l.1, l.2.1, trip_none⟩
    | exact fun _ l => ⟨Nat.zero_le _, l.2.1, trip_none⟩
    | intro _
    | with_reducible apply putNotice_moves
    | with_reducible apply withCar_moves
    | split

theorem execCarServiceOut_moves {M : Cell → Prop} {s : State} (hServing : M .serving)
    (hReplies : M .replies) (hNotices : M .notices) (hSiteIn : M .siteIn) (hVisitsIn : M .visitsIn)
    (hCars : M .cars) (hSeg : ∀ g, M (.segment g)) :
    ∃ t, execCarServiceOut s = .next t ∧ Moves M s t := by
  have hm := Moves.refl M s
  refine ⟨_, rfl, ?_⟩
  try dsimp only
  repeat' first
    | with_reducible assumption
    | exact hSeg _
    | intro _
    | with_reducible apply reply_moves
    | with_reducible apply takingAction_moves
    | with_reducible apply withPresentCar_moves
    | with_reducible apply serviceOut_moves
    | with_reducible apply causeHost_moves
    | split

theorem execCarServiceIn_moves {M : Cell → Prop} {s : State} (hServing : M .serving)
    (hReplies : M .replies) (hNotices : M .notices) (hSiteIn : M .siteIn) (hCars : M .cars)
    (hSeg : ∀ g, M (.segment g)) :
    ∃ t, execCarServiceIn s = .next t ∧ Moves M s t := by
  have hm := Moves.refl M s
  refine ⟨_, rfl, ?_⟩
  try dsimp only
  repeat' first
    | with_reducible assumption
    | exact hSeg _
    | intro _
    | with_reducible apply reply_moves
    | with_reducible apply takingAction_moves
    | with_reducible apply returnCar_moves
    | with_reducible apply withPresentCar_moves
    | split

theorem execGetCar_moves {M : Cell → Prop} {s : State} (hServing : M .serving) (hReplies : M .replies) :
    ∃ t, execGetCar s = .next t ∧ Moves M s t := by
  have hm := Moves.refl M s
  refine ⟨_, rfl, ?_⟩
  try dsimp only
  repeat' first
    | with_reducible assumption
    | intro _
    | with_reducible apply reply_moves
    | with_reducible apply taking_moves
    | with_reducible apply tested_moves
    | split

theorem clearDecision_moves {M : Cell → Prop} {s₀ s₁ : State} (hm : Moves M s₀ s₁)
    (hDecision : M .decision) : Moves M s₀ (clearDecision s₁) := by
  unfold clearDecision
  try dsimp only
  repeat' first
    | with_reducible assumption
    | exact fun l => l
    | exact .inl ‹_›
    | exact .inr rfl
    | exact .inr ⟨rfl, rfl⟩
    | exact .inr ⟨rfl, rfl, rfl⟩
    | exact .inr ⟨rfl, rfl, rfl, rfl⟩
    | exact .inr ⟨rfl, rfl, rfl, rfl, rfl, rfl⟩
    | intro _
    | split
    | with_reducible refine moves_visits ?_ ?_ ?_ ?_ ?_ ?_

theorem releaseRouter_moves {M : Cell → Prop} {s₀ s₁ : State} (hm : Moves M s₀ s₁)
    (hSeg : ∀ g, M (.segment g)) (hRouter : M .router) : Moves M s₀ (releaseRouter s₁) := by
  unfold releaseRouter
  try dsimp only
  repeat' first
    | with_reducible assumption
    | exact hSeg _
    | (show Segment.inForm _; assumption)
    | exact fun l => l
    | exact .inl ‹_›
    | exact .inr rfl
    | exact .inr ⟨rfl, rfl⟩
    | exact .inr ⟨rfl, rfl, rfl⟩
    | exact .inr ⟨rfl, rfl, rfl, rfl⟩
    | exact .inr ⟨rfl, rfl, rfl, rfl, rfl, rfl⟩
    | exact fun l => inForm_ring l rfl l.2.1 l.2.2.1 rfl rfl
        (ringInForm_drop l.2.2.2.2.2.2.2.2.2 rfl rfl rfl)
    | intro _
    | with_reducible apply modSeg_moves
    | split
    | with_reducible apply moves_router

theorem endDecision_moves {M : Cell → Prop} {s₀ s₁ : State} {p : Presentation} (hm : Moves M s₀ s₁)
    (hDecision : M .decision) (hSeg : ∀ g, M (.segment g)) (hRouter : M .router) : Moves M s₀
    (endDecision p s₁) := by
  unfold endDecision
  try dsimp only
  repeat' first
    | with_reducible assumption
    | exact hSeg _
    | with_reducible apply clearDecision_moves
    | with_reducible apply releaseRouter_moves
    | split

theorem showReader_moves {M : Cell → Prop} {s₀ s₁ : State} {p : Presentation} {o : Show}
    (hm : Moves M s₀ s₁)
    (hSiteIn : M .siteIn) (hSeg : ∀ g, M (.segment g)) : Moves M s₀ (showReader p o s₁) := by
  unfold showReader
  try dsimp only
  repeat' first
    | with_reducible assumption
    | exact hSeg _
    | with_reducible apply submit_moves
    | split

theorem takeWaiting_moves {M : Cell → Prop} {s₀ s₁ : State} {p : Presentation}
    {rest : List Presentation} (hm : Moves M s₀ s₁)
    (hDecision : M .decision) (hRouter : M .router) : Moves M s₀ (takeWaiting p rest s₁) := by
  have h : Moves M s₀ { s₁ with visits := { s₁.visits with waiting := rest } } :=
    moves_visits hm (fun l => l) (.inr rfl) (.inr rfl) (.inl hDecision) (.inr ⟨rfl, rfl, rfl, rfl⟩)
  unfold takeWaiting
  split
  · exact moves_router (t := { s₁ with visits := { s₁.visits with waiting := rest } }) h hRouter
  · exact h

theorem awaitLookup_moves {M : Cell → Prop} {s₀ s₁ : State} {p : Presentation} {a : Awaits} {l : Lookup}
    (hm : Moves M s₀ s₁)
    (hLookups : M .lookups) (hDecision : M .decision) : Moves M s₀ (awaitLookup p a l s₁) := by
  unfold awaitLookup
  try dsimp only
  repeat' first
    | with_reducible assumption
    | exact fun l => l
    | exact .inl ‹_›
    | exact .inr rfl
    | exact .inr ⟨rfl, rfl⟩
    | exact .inr ⟨rfl, rfl, rfl⟩
    | exact .inr ⟨rfl, rfl, rfl, rfl⟩
    | exact .inr ⟨rfl, rfl, rfl, rfl, rfl, rfl⟩
    | intro _
    | with_reducible apply askLookup_moves
    | split
    | with_reducible refine moves_visits ?_ ?_ ?_ ?_ ?_ ?_

theorem nextPresentation_moves {M : Cell → Prop} {s₀ s₁ : State} {sort : Asked → Bool}
    {k : Presentation → State → State} (hm : Moves M s₀ s₁) (hDecision : M .decision) (hRouter : M .router)
    (hk : ∀ p t, Moves M s₀ t → Moves M s₀ (k p t)) : Moves M s₀ (nextPresentation sort k s₁) := by
  unfold nextPresentation
  split
  · split
    · exact hk _ _ (takeWaiting_moves hm hDecision hRouter)
    · exact hm
  · exact hm

theorem lookupResult_moves {M : Cell → Prop} {s₀ s₁ : State} {sort : Asked → Awaits → Bool}
    {k : Decision → LookupResult → State → State} (hm : Moves M s₀ s₁) (hResults : M .results)
    (hk : ∀ d r t, Moves M s₀ t → Moves M s₀ (k d r t)) : Moves M s₀ (lookupResult sort k s₁) := by
  unfold lookupResult
  split
  · split
    · exact hk _ _ _ (moves_store hm (fun l => l) (.inr rfl) (.inr rfl) (.inl hResults))
    · exact hm
  · exact hm

theorem endAdmission_moves {M : Cell → Prop} {s₀ s₁ : State} {p : Presentation}
    {refusal : Option Reason} {tenant visit : Option Nat} (hm : Moves M s₀ s₁)
    (hServing : M .serving) (hReplies : M .replies) (hNotices : M .notices) (hDecision : M .decision)
    (hSeg : ∀ g, M (.segment g)) (hRouter : M .router) : Moves M s₀
    (endAdmission p refusal tenant visit s₁) := by
  unfold endAdmission
  try dsimp only
  repeat' first
    | with_reducible assumption
    | exact hSeg _
    | with_reducible apply putNotice_moves
    | with_reducible apply reply_moves
    | with_reducible apply endDecision_moves
    | split

theorem refuseAdmission_moves {M : Cell → Prop} {s₀ s₁ : State} {p : Presentation} {why : Reason}
    {tenant : Option Nat} (hm : Moves M s₀ s₁)
    (hServing : M .serving) (hReplies : M .replies) (hNotices : M .notices) (hSiteIn : M .siteIn)
    (hDecision : M .decision) (hSeg : ∀ g, M (.segment g)) (hRouter : M .router) : Moves M s₀
    (refuseAdmission p why tenant s₁) := by
  unfold refuseAdmission
  try dsimp only
  repeat' first
    | with_reducible assumption
    | exact hSeg _
    | with_reducible apply showReader_moves
    | with_reducible apply endAdmission_moves
    | split

theorem execAdmissionDecision_moves {M : Cell → Prop} {s : State} (hServing : M .serving)
    (hReplies : M .replies) (hNotices : M .notices) (hLookups : M .lookups) (hSiteIn : M .siteIn)
    (hDecision : M .decision) (hSeg : ∀ g, M (.segment g)) (hRouter : M .router) :
    ∃ t, execAdmissionDecision s = .next t ∧ Moves M s t := by
  have hm := Moves.refl M s
  refine ⟨_, rfl, ?_⟩
  try dsimp only
  repeat' first
    | with_reducible assumption
    | exact hSeg _
    | intro _
    | with_reducible apply awaitLookup_moves
    | with_reducible apply nextPresentation_moves
    | with_reducible apply refuseAdmission_moves
    | split

theorem grantAdmission_moves {M : Cell → Prop} {s₀ s₁ : State} {p : Presentation} {tenant : Nat}
    {c : AccessClass} (hm : Moves M s₀ s₁)
    (hServing : M .serving) (hReplies : M .replies) (hNotices : M .notices) (hSiteIn : M .siteIn)
    (hTable : M .table) (hCounter : M .counter) (hDecision : M .decision) (hPortalsIn : M .portalsIn)
    (hUnitsIn : M .unitsIn) (hSeg : ∀ g, M (.segment g)) (hRouter : M .router)
    (hs : s₁.visits.table.length < Config.maxVisits) (hv : ∀ w ∈ s₁.visits.table, w.value ≠ p.value)
    (ht : (s₁.visitsOf tenant).length < Config.maxSharedVisits) :
    Moves M s₀ (grantAdmission p tenant c s₁) := by
  have h : Moves M s₀ { s₁ with visits :=
      { s₁.visits with
        table := s₁.visits.table ++ [newVisit (freeNumber s₁.visits.table 97 s₁.visits.counter) tenant
          p.asked.place s₁.site.seconds p.value c.dwellLimit (s₁.portalState p.asked.place == .free)]
        counter := nextVisitNumber (freeNumber s₁.visits.table 97 s₁.visits.counter) } } :=
    moves_visits hm (fun l => inForm_grant l hs rfl hv ht) (.inl hTable) (.inl hCounter) (.inr ⟨rfl, rfl⟩)
      (.inr ⟨rfl, rfl, rfl, rfl⟩) (.inl hCounter)
  unfold grantAdmission
  dsimp only
  repeat' first
    | assumption
    | exact hSeg _
    | with_reducible apply endAdmission_moves
    | with_reducible apply showReader_moves
    | with_reducible apply toPortals_moves
    | with_reducible apply toUnits_moves
    | split

/-- A visit that stays when others are closed is one of the table and none of those (R49). -/
theorem closeVisit_mem {v w : Visit} {why : CloseReason} {s : State}
    (h : w ∈ (closeVisit v why s).visits.table) : w ∈ s.visits.table ∧ w.number ≠ v.number := by
  have k : Moves (fun c => c ≠ .table)
      { s with visits := { s.visits with table := s.visits.table.filter fun w => w.number != v.number } }
      (closeVisit v why s) := by
    have hm := Moves.refl (fun c => c ≠ .table)
      { s with visits := { s.visits with table := s.visits.table.filter fun w => w.number != v.number } }
    unfold closeVisit
    dsimp only
    repeat' first
      | assumption
      | exact (by decide)
      | with_reducible apply putNotice_moves
      | with_reducible apply toUnits_moves
      | with_reducible apply toLifts_moves
      | with_reducible apply toPortals_moves
      | split
  have e := k.same .table fun h => h rfl
  simp only [Cell.same] at e
  rw [e, List.mem_filter] at h
  exact ⟨h.1, by simpa using h.2⟩

theorem closeVisits_mem {w : Visit} {why : CloseReason} (vs : List Visit) {s : State}
    (h : w ∈ (closeVisits vs why s).visits.table) :
    w ∈ s.visits.table ∧ ∀ v ∈ vs, w.number ≠ v.number := by
  unfold closeVisits at h
  induction vs generalizing s with
  | nil => exact ⟨h, fun _ hv => (nomatch hv)⟩
  | cons v vs ih =>
    obtain ⟨h1, h2⟩ := ih h
    obtain ⟨h3, h4⟩ := closeVisit_mem h1
    exact ⟨h3, fun u hu => (List.mem_cons.mp hu).elim (fun e => e ▸ h4) (h2 u)⟩

theorem supersede_mem {w : Visit} {vs : List Visit} {s : State} (h : w ∈ (supersede vs s).visits.table) :
    w ∈ s.visits.table ∧ ∀ v ∈ vs, w.number ≠ v.number := by
  unfold supersede at h
  split at h
  · rename_i e
    exact ⟨h, fun v hv => by simp [List.isEmpty_iff.mp e] at hv⟩
  · have k : Moves (fun c => c ≠ .table) (closeVisits vs .superseded s)
        (deliverUnitOrders (closeVisits vs .superseded s)) := by
      apply deliverUnitOrders_moves (Moves.refl _ _) <;> first | decide | exact fun _ h => nomatch h
    have e := k.same .table fun h => h rfl
    simp only [Cell.same] at e
    rw [e] at h
    exact closeVisits_mem vs h

theorem supersede_moves {M : Cell → Prop} {s₀ s₁ : State} {vs : List Visit} (hm : Moves M s₀ s₁)
    (hNotices : M .notices) (hSiteIn : M .siteIn) (hTable : M .table) (hPortalsIn : M .portalsIn)
    (hEntries : M .entries) (hPresence : M .presence) (hUnitsIn : M .unitsIn) (hLiftsIn : M .liftsIn)
    (hSeg : ∀ g, M (.segment g)) (hLinesIn : M .linesIn) : Moves M s₀ (supersede vs s₁) := by
  unfold supersede
  try dsimp only
  repeat' first
    | with_reducible assumption
    | exact hSeg _
    | intro _
    | with_reducible apply closeVisits_moves
    | with_reducible apply deliverUnitOrders_moves
    | split

theorem admitTenant_moves {M : Cell → Prop} {s₀ s₁ : State} {p : Presentation} {id : Nat} {t : Tenant}
    (hm : Moves M s₀ s₁)
    (hServing : M .serving) (hReplies : M .replies) (hNotices : M .notices) (hSiteIn : M .siteIn)
    (hTable : M .table) (hCounter : M .counter) (hDecision : M .decision) (hPortalsIn : M .portalsIn)
    (hEntries : M .entries) (hPresence : M .presence) (hUnitsIn : M .unitsIn) (hLiftsIn : M .liftsIn)
    (hSeg : ∀ g, M (.segment g)) (hRouter : M .router) (hLinesIn : M .linesIn) : Moves M s₀
    (admitTenant p id t s₁) := by
  have h : ∀ vs, Moves M s₀ (supersede vs s₁) := fun vs => supersede_moves hm hNotices hSiteIn hTable hPortalsIn hEntries hPresence hUnitsIn hLiftsIn hSeg hLinesIn
  unfold admitTenant
  dsimp only
  split
  · exact refuseAdmission_moves hm hServing hReplies hNotices hSiteIn hDecision hSeg hRouter
  · split
    · exact refuseAdmission_moves (h _) hServing hReplies hNotices hSiteIn hDecision hSeg hRouter
    · rename_i hn
      split
      · exact refuseAdmission_moves (h _) hServing hReplies hNotices hSiteIn hDecision hSeg hRouter
      · rename_i hl
        refine grantAdmission_moves (h _) hServing hReplies hNotices hSiteIn hTable hCounter hDecision hPortalsIn hUnitsIn hSeg hRouter (Nat.lt_of_not_le hl) (fun w hw he => ?_) ?_
        · obtain ⟨h1, h2⟩ := supersede_mem hw
          exact h2 w (List.mem_filter.mpr ⟨h1, by simp [he]⟩) rfl
        · by_cases hsh : t.shared = true
          · simp only [hsh, Bool.true_and, decide_eq_true_eq] at hn ⊢
            exact Nat.lt_of_not_le hn
          · refine Nat.lt_of_le_of_lt (Nat.le_of_eq ?_) (Nat.zero_lt_succ 7)
            rw [State.visitsOf, List.length_eq_zero_iff, List.filter_eq_nil_iff]
            intro w hw he
            obtain ⟨h1, h2⟩ := supersede_mem hw
            exact h2 w (List.mem_filter.mpr ⟨h1, by simp [hsh, beq_iff_eq.mp he]⟩) rfl

theorem execAdmissionLookupResult_moves {M : Cell → Prop} {s : State} (hServing : M .serving)
    (hReplies : M .replies) (hNotices : M .notices) (hResults : M .results) (hSiteIn : M .siteIn)
    (hTable : M .table) (hCounter : M .counter) (hDecision : M .decision) (hPortalsIn : M .portalsIn)
    (hEntries : M .entries) (hPresence : M .presence) (hUnitsIn : M .unitsIn) (hLiftsIn : M .liftsIn)
    (hSeg : ∀ g, M (.segment g)) (hRouter : M .router) (hLinesIn : M .linesIn) :
    ∃ t, execAdmissionLookupResult s = .next t ∧ Moves M s t := by
  have hm := Moves.refl M s
  refine ⟨_, rfl, ?_⟩
  try dsimp only
  repeat' first
    | with_reducible assumption
    | exact hSeg _
    | intro _
    | with_reducible apply lookupResult_moves
    | with_reducible apply refuseAdmission_moves
    | with_reducible apply admitTenant_moves
    | split

theorem endExit_moves {M : Cell → Prop} {s₀ s₁ : State} {p : Presentation} {o : Show} (hm : Moves M s₀ s₁)
    (hSiteIn : M .siteIn) (hDecision : M .decision) (hSeg : ∀ g, M (.segment g)) (hRouter : M .router) :
    Moves M s₀ (endExit p o s₁) := by
  unfold endExit
  try dsimp only
  repeat' first
    | with_reducible assumption
    | exact hSeg _
    | with_reducible apply endDecision_moves
    | with_reducible apply showReader_moves
    | split

theorem exitWithoutVisit_moves {M : Cell → Prop} {s₀ s₁ : State} {p : Presentation}
    {tenant : Option Nat} (hm : Moves M s₀ s₁)
    (hNotices : M .notices) (hPortalsIn : M .portalsIn) : Moves M s₀ (exitWithoutVisit p tenant s₁) := by
  unfold exitWithoutVisit
  try dsimp only
  repeat' first
    | with_reducible assumption
    | with_reducible apply putNotice_moves
    | with_reducible apply toPortals_moves
    | split

theorem exitMatched_moves {M : Cell → Prop} {s₀ s₁ : State} {p : Presentation} {v : Option Visit}
    {tenant : Option Nat} (hm : Moves M s₀ s₁)
    (hNotices : M .notices) (hTable : M .table) (hPortalsIn : M .portalsIn) (hUnitsIn : M .unitsIn)
    (hLiftsIn : M .liftsIn) : Moves M s₀ (exitMatched p v tenant s₁) := by
  unfold exitMatched
  try dsimp only
  repeat' first
    | with_reducible assumption
    | exact fun _ => ⟨rfl, rfl, rfl⟩
    | intro _
    | with_reducible apply toPortals_moves
    | with_reducible apply modVisit_moves
    | with_reducible apply closeVisit_moves
    | with_reducible apply exitWithoutVisit_moves
    | split

theorem execExitDecision_moves {M : Cell → Prop} {s : State} (hNotices : M .notices)
    (hLookups : M .lookups) (hSiteIn : M .siteIn) (hTable : M .table) (hDecision : M .decision)
    (hPortalsIn : M .portalsIn) (hUnitsIn : M .unitsIn) (hLiftsIn : M .liftsIn)
    (hSeg : ∀ g, M (.segment g)) (hRouter : M .router) :
    ∃ t, execExitDecision s = .next t ∧ Moves M s t := by
  have hm := Moves.refl M s
  refine ⟨_, rfl, ?_⟩
  try dsimp only
  repeat' first
    | with_reducible assumption
    | exact hSeg _
    | intro _
    | with_reducible apply awaitLookup_moves
    | with_reducible apply nextPresentation_moves
    | with_reducible apply endExit_moves
    | with_reducible apply exitMatched_moves
    | split

theorem execExitLookupResult_moves {M : Cell → Prop} {s : State} (hNotices : M .notices)
    (hResults : M .results) (hSiteIn : M .siteIn) (hTable : M .table) (hDecision : M .decision)
    (hPortalsIn : M .portalsIn) (hUnitsIn : M .unitsIn) (hLiftsIn : M .liftsIn)
    (hSeg : ∀ g, M (.segment g)) (hRouter : M .router) :
    ∃ t, execExitLookupResult s = .next t ∧ Moves M s t := by
  have hm := Moves.refl M s
  refine ⟨_, rfl, ?_⟩
  try dsimp only
  repeat' first
    | with_reducible assumption
    | exact hSeg _
    | intro _
    | with_reducible apply lookupResult_moves
    | with_reducible apply endExit_moves
    | with_reducible apply exitMatched_moves
    | split

theorem denyCall_moves {M : Cell → Prop} {s₀ s₁ : State} {p : Presentation} {why : Reason}
    (hm : Moves M s₀ s₁)
    (hSiteIn : M .siteIn) (hDecision : M .decision) (hSeg : ∀ g, M (.segment g)) (hRouter : M .router) :
    Moves M s₀ (denyCall p why s₁) := by
  unfold denyCall
  try dsimp only
  repeat' first
    | with_reducible assumption
    | exact hSeg _
    | with_reducible apply endExit_moves
    | split

theorem intakeVisit_moves {M : Cell → Prop} {s₀ s₁ : State} {p : Presentation} {v : Visit}
    (hm : Moves M s₀ s₁)
    (hLookups : M .lookups) (hSiteIn : M .siteIn) (hTable : M .table) (hDecision : M .decision)
    (hSeg : ∀ g, M (.segment g)) (hRouter : M .router) : Moves M s₀ (intakeVisit p v s₁) := by
  unfold intakeVisit
  try dsimp only
  repeat' first
    | with_reducible assumption
    | exact hSeg _
    | exact fun _ => ⟨rfl, rfl, rfl⟩
    | intro _
    | with_reducible apply modVisit_moves
    | with_reducible apply awaitLookup_moves
    | with_reducible apply denyCall_moves
    | split

theorem execLiftCallIntake_moves {M : Cell → Prop} {s : State} (hLookups : M .lookups)
    (hSiteIn : M .siteIn) (hTable : M .table) (hDecision : M .decision) (hSeg : ∀ g, M (.segment g))
    (hRouter : M .router) :
    ∃ t, execLiftCallIntake s = .next t ∧ Moves M s t := by
  have hm := Moves.refl M s
  refine ⟨_, rfl, ?_⟩
  try dsimp only
  repeat' first
    | with_reducible assumption
    | exact hSeg _
    | intro _
    | with_reducible apply awaitLookup_moves
    | with_reducible apply nextPresentation_moves
    | with_reducible apply denyCall_moves
    | with_reducible apply intakeVisit_moves
    | split

theorem execLiftCallLookupResult_moves {M : Cell → Prop} {s : State} (hLookups : M .lookups)
    (hResults : M .results) (hSiteIn : M .siteIn) (hTable : M .table) (hDecision : M .decision)
    (hSeg : ∀ g, M (.segment g)) (hRouter : M .router) :
    ∃ t, execLiftCallLookupResult s = .next t ∧ Moves M s t := by
  have hm := Moves.refl M s
  refine ⟨_, rfl, ?_⟩
  try dsimp only
  repeat' first
    | with_reducible assumption
    | exact hSeg _
    | intro _
    | with_reducible apply lookupResult_moves
    | with_reducible apply denyCall_moves
    | with_reducible apply intakeVisit_moves
    | split

theorem setCall_moves {M : Cell → Prop} {s₀ s₁ : State} {number : Nat} {c : Option CallRef}
    (hm : Moves M s₀ s₁)
    (hTable : M .table) : Moves M s₀ (setCall number c s₁) := by
  unfold setCall
  try dsimp only
  repeat' first
    | with_reducible assumption
    | exact fun _ => ⟨rfl, rfl, rfl⟩
    | intro _
    | with_reducible apply modVisit_moves
    | split

theorem takeAnswer_moves {M : Cell → Prop} {s₀ s₁ : State} {p : Presentation} {number : Nat}
    {a : Placed} (hm : Moves M s₀ s₁)
    (hSiteIn : M .siteIn) (hTable : M .table) (hDecision : M .decision) (hSeg : ∀ g, M (.segment g))
    (hRouter : M .router) : Moves M s₀ (takeAnswer p number a s₁) := by
  unfold takeAnswer
  try dsimp only
  repeat' first
    | with_reducible assumption
    | exact hSeg _
    | with_reducible apply endExit_moves
    | with_reducible apply denyCall_moves
    | with_reducible apply setCall_moves
    | split

theorem handOverCall_moves {M : Cell → Prop} {s₀ s₁ : State} {p : Presentation} {v : Visit}
    {floor dest priority : Nat} (hm : Moves M s₀ s₁)
    (hSiteIn : M .siteIn) (hTable : M .table) (hDecision : M .decision) (hVisitsIn : M .visitsIn)
    (hCars : M .cars) (hLiftsIn : M .liftsIn) (hSeg : ∀ g, M (.segment g)) (hRouter : M .router) : Moves
    M s₀ (handOverCall p v floor dest priority s₁) := by
  have h : Moves M s₀ (if v.call.isSome then toLifts v.number (setCall v.number none s₁) else s₁) := by
    split
    · exact toLifts_moves (setCall_moves hm hTable) hLiftsIn
    · exact hm
  have h := deliverWithdrawals_moves h hSiteIn hCars hLiftsIn hSeg
  unfold handOverCall
  exact takeAnswer_moves (deliverCallReports_moves (handOver_moves h hSiteIn hCars hSeg) hTable hVisitsIn)
    hSiteIn hTable hDecision hSeg hRouter

theorem intakeCall_moves {M : Cell → Prop} {s₀ s₁ : State} {p : Presentation} {number : Nat}
    {r : LookupResult} (hm : Moves M s₀ s₁)
    (hSiteIn : M .siteIn) (hTable : M .table) (hDecision : M .decision) (hVisitsIn : M .visitsIn)
    (hCars : M .cars) (hLiftsIn : M .liftsIn) (hSeg : ∀ g, M (.segment g)) (hRouter : M .router) : Moves
    M s₀ (intakeCall p number r s₁) := by
  unfold intakeCall
  try dsimp only
  repeat' first
    | with_reducible assumption
    | exact hSeg _
    | with_reducible apply denyCall_moves
    | with_reducible apply handOverCall_moves
    | split

theorem execLiftCallTenantResult_moves {M : Cell → Prop} {s : State} (hResults : M .results)
    (hSiteIn : M .siteIn) (hTable : M .table) (hDecision : M .decision) (hVisitsIn : M .visitsIn)
    (hCars : M .cars) (hLiftsIn : M .liftsIn) (hSeg : ∀ g, M (.segment g)) (hRouter : M .router) :
    ∃ t, execLiftCallTenantResult s = .next t ∧ Moves M s t := by
  have hm := Moves.refl M s
  refine ⟨_, rfl, ?_⟩
  try dsimp only
  repeat' first
    | with_reducible assumption
    | exact hSeg _
    | intro _
    | with_reducible apply lookupResult_moves
    | with_reducible apply denyCall_moves
    | with_reducible apply intakeCall_moves
    | split

theorem execHostAdmit_moves {M : Cell → Prop} {s : State} (hServing : M .serving)
    (hReplies : M .replies) (hDecision : M .decision) :
    ∃ t, execHostAdmit s = .next t ∧ Moves M s t := by
  have hm := Moves.refl M s
  refine ⟨_, rfl, ?_⟩
  try dsimp only
  repeat' first
    | with_reducible assumption
    | exact fun l => l
    | exact .inl ‹_›
    | exact .inr rfl
    | exact .inr ⟨rfl, rfl⟩
    | exact .inr ⟨rfl, rfl, rfl⟩
    | exact .inr ⟨rfl, rfl, rfl, rfl⟩
    | exact .inr ⟨rfl, rfl, rfl, rfl, rfl, rfl⟩
    | intro _
    | with_reducible apply reply_moves
    | with_reducible apply working_moves
    | with_reducible apply taking_moves
    | with_reducible apply tested_moves
    | split
    | with_reducible refine moves_visits ?_ ?_ ?_ ?_ ?_ ?_

end Sys2Proof.Machine
end

