-- ==== Sys2Proof/Laws/MovesLines.lean ====
section
/-! SUPPORT. What the operations of the lines, of reception and of the router may change. -/

namespace Sys2Proof.Machine

theorem updateFire_moves {M : Cell → Prop} {s₀ s₁ : State} (hm : Moves M s₀ s₁)
    (hSiteIn : M .siteIn) (hLines : M .lines) : Moves M s₀ (updateFire s₁) := by
  unfold updateFire
  try dsimp only
  repeat' first
    | with_reducible assumption
    | exact fun l => l
    | exact .inl ‹_›
    | exact .inr rfl
    | exact .inr ⟨rfl, rfl⟩
    | exact .inr ⟨rfl, rfl, rfl⟩
    | exact .inr ⟨rfl, rfl, rfl, rfl⟩
    | exact .inr ⟨rfl, rfl, rfl, rfl, rfl, rfl⟩
    | intro _
    | with_reducible apply toSiteFire_moves
    | split
    | with_reducible apply moves_lines

theorem reportSettled_moves {M : Cell → Prop} {s₀ s₁ : State} (hm : Moves M s₀ s₁)
    (hSiteIn : M .siteIn) (hLines : M .lines) : Moves M s₀ (reportSettled s₁) := by
  unfold reportSettled
  try dsimp only
  repeat' first
    | with_reducible assumption
    | exact fun l => l
    | exact .inl ‹_›
    | exact .inr rfl
    | exact .inr ⟨rfl, rfl⟩
    | exact .inr ⟨rfl, rfl, rfl⟩
    | exact .inr ⟨rfl, rfl, rfl, rfl⟩
    | exact .inr ⟨rfl, rfl, rfl, rfl, rfl, rfl⟩
    | intro _
    | with_reducible apply toSiteFire_moves
    | split
    | with_reducible apply moves_lines

theorem handChange_moves {M : Cell → Prop} {s₀ s₁ : State} {f : LineFunction} (hm : Moves M s₀ s₁)
    (hNotices : M .notices) (hSiteIn : M .siteIn) (hTable : M .table) (hVisitsIn : M .visitsIn)
    (hPortals : M .portals) (hPortalsIn : M .portalsIn) (hUnitsIn : M .unitsIn) (hLiftsIn : M .liftsIn)
    (hSeg : ∀ g, M (.segment g)) (hLines : M .lines) (hLinesIn : M .linesIn) : Moves M s₀
    (handChange f s₁) := by
  unfold handChange
  try dsimp only
  repeat' first
    | with_reducible assumption
    | exact hSeg _
    | with_reducible apply lineChanged_moves
    | with_reducible apply updateFire_moves
    | split

theorem handStart_moves {M : Cell → Prop} {s₀ s₁ : State} {f : LineFunction} (hm : Moves M s₀ s₁)
    (hNotices : M .notices) (hSiteIn : M .siteIn) (hTable : M .table) (hVisitsIn : M .visitsIn)
    (hPortals : M .portals) (hPortalsIn : M .portalsIn) (hUnitsIn : M .unitsIn) (hLiftsIn : M .liftsIn)
    (hSeg : ∀ g, M (.segment g)) (hLines : M .lines) (hLinesIn : M .linesIn) : Moves M s₀
    (handStart f s₁) := by
  unfold handStart
  try dsimp only
  repeat' first
    | with_reducible assumption
    | exact hSeg _
    | with_reducible apply lineAssigned_moves
    | with_reducible apply updateFire_moves
    | with_reducible apply reportSettled_moves
    | split

theorem takeLevel_moves {M : Cell → Prop} {s₀ s₁ : State} {n : Nat} {l : Line} (hm : Moves M s₀ s₁)
    (hNotices : M .notices) (hSiteIn : M .siteIn) (hTable : M .table) (hVisitsIn : M .visitsIn)
    (hPortals : M .portals) (hPortalsIn : M .portalsIn) (hUnitsIn : M .unitsIn) (hLiftsIn : M .liftsIn)
    (hSeg : ∀ g, M (.segment g)) (hLines : M .lines) (hLinesIn : M .linesIn) : Moves M s₀
    (takeLevel n l s₁) := by
  unfold takeLevel
  try dsimp only
  repeat' first
    | with_reducible assumption
    | exact hSeg _
    | with_reducible apply modLine_moves
    | with_reducible apply handChange_moves
    | with_reducible apply handStart_moves
    | split

theorem execLinePinChange_moves {M : Cell → Prop} {n : Nat} {level : Level} {s : State}
    (hLines : M .lines) :
    ∃ t, execLinePinChange n level s = .next t ∧ Moves M s t := by
  have hm := Moves.refl M s
  refine ⟨_, rfl, ?_⟩
  try dsimp only
  repeat' first
    | with_reducible assumption
    | with_reducible apply modLine_moves
    | split

theorem execDebounceTimerExpiry_moves {M : Cell → Prop} {n : Nat} {s : State} (hNotices : M .notices)
    (hSiteIn : M .siteIn) (hTable : M .table) (hVisitsIn : M .visitsIn) (hPortals : M .portals)
    (hPortalsIn : M .portalsIn) (hUnitsIn : M .unitsIn) (hLiftsIn : M .liftsIn)
    (hSeg : ∀ g, M (.segment g)) (hLines : M .lines) (hLinesIn : M .linesIn) :
    ∃ t, execDebounceTimerExpiry n s = .next t ∧ Moves M s t := by
  have hm := Moves.refl M s
  refine ⟨_, rfl, ?_⟩
  try dsimp only
  repeat' first
    | with_reducible assumption
    | exact hSeg _
    | with_reducible apply takeLevel_moves
    | split

theorem execLineSettleTimeout_moves {M : Cell → Prop} {n : Nat} {s : State} (hNotices : M .notices)
    (hSiteIn : M .siteIn) (hTable : M .table) (hVisitsIn : M .visitsIn) (hPortals : M .portals)
    (hPortalsIn : M .portalsIn) (hUnitsIn : M .unitsIn) (hLiftsIn : M .liftsIn)
    (hSeg : ∀ g, M (.segment g)) (hLines : M .lines) (hLinesIn : M .linesIn) :
    ∃ t, execLineSettleTimeout n s = .next t ∧ Moves M s t := by
  have hm := Moves.refl M s
  refine ⟨_, rfl, ?_⟩
  try dsimp only
  repeat' first
    | with_reducible assumption
    | exact hSeg _
    | with_reducible apply takeLevel_moves
    | split

theorem takeUpLine_moves {M : Cell → Prop} {s₀ s₁ : State} {n : Nat} {new : Marked LineRec}
    (hm : Moves M s₀ s₁)
    (hNotices : M .notices) (hSiteIn : M .siteIn) (hTable : M .table) (hVisitsIn : M .visitsIn)
    (hPortals : M .portals) (hPortalsIn : M .portalsIn) (hUnitsIn : M .unitsIn) (hLiftsIn : M .liftsIn)
    (hSeg : ∀ g, M (.segment g)) (hLines : M .lines) (hLinesIn : M .linesIn) : Moves M s₀
    (takeUpLine n new s₁) := by
  unfold takeUpLine
  try dsimp only
  repeat' first
    | with_reducible assumption
    | exact hSeg _
    | with_reducible apply modLine_moves
    | with_reducible apply lineAssigned_moves
    | split

theorem endLine_moves {M : Cell → Prop} {s₀ s₁ : State} {n : Nat} (hm : Moves M s₀ s₁)
    (hSiteIn : M .siteIn) (hVisitsIn : M .visitsIn) (hPortals : M .portals) (hSeg : ∀ g, M (.segment g))
    (hLines : M .lines) (hLinesIn : M .linesIn) : Moves M s₀ (endLine n s₁) := by
  unfold endLine
  try dsimp only
  repeat' first
    | with_reducible assumption
    | exact hSeg _
    | with_reducible apply modLine_moves
    | with_reducible apply lineUnassigned_moves
    | split

theorem applyLine_moves {M : Cell → Prop} {s₀ s₁ : State} {n : Nat} {new : Marked LineRec}
    (hm : Moves M s₀ s₁)
    (hNotices : M .notices) (hSiteIn : M .siteIn) (hTable : M .table) (hVisitsIn : M .visitsIn)
    (hPortals : M .portals) (hPortalsIn : M .portalsIn) (hUnitsIn : M .unitsIn) (hLiftsIn : M .liftsIn)
    (hSeg : ∀ g, M (.segment g)) (hLines : M .lines) (hLinesIn : M .linesIn) : Moves M s₀
    (applyLine n new s₁) := by
  unfold applyLine
  try dsimp only
  repeat' first
    | with_reducible assumption
    | exact hSeg _
    | with_reducible apply updateFire_moves
    | with_reducible apply reportSettled_moves
    | with_reducible apply takeUpLine_moves
    | with_reducible apply endLine_moves
    | split

theorem execBeaconInputReport_moves {M : Cell → Prop} {s : State} (hLines : M .lines)
    (hBeacon : M .beacon) (hLinesIn : M .linesIn) :
    ∃ t, execBeaconInputReport s = .next t ∧ Moves M s t := by
  have hm := Moves.refl M s
  refine ⟨_, rfl, ?_⟩
  try dsimp only
  repeat' first
    | with_reducible assumption
    | exact fun l => l
    | exact .inl ‹_›
    | exact .inr rfl
    | exact .inr ⟨rfl, rfl⟩
    | exact .inr ⟨rfl, rfl, rfl⟩
    | exact .inr ⟨rfl, rfl, rfl, rfl⟩
    | exact .inr ⟨rfl, rfl, rfl, rfl, rfl, rfl⟩
    | intro _
    | with_reducible apply evaluateBeacon_moves
    | split
    | with_reducible apply moves_lines

theorem execPhaseTimerExpiry_moves {M : Cell → Prop} {s : State} (hLines : M .lines)
    (hBeacon : M .beacon) :
    ∃ t, execPhaseTimerExpiry s = .next t ∧ Moves M s t := by
  have hm := Moves.refl M s
  refine ⟨_, rfl, ?_⟩
  try dsimp only
  repeat' first
    | with_reducible assumption
    | with_reducible apply setBeacon_moves
    | split

theorem execPutLine_moves {M : Cell → Prop} {s : State} (hServing : M .serving) (hReplies : M .replies)
    (hSlots : M .slots) :
    ∃ t, execPutLine s = .next t ∧ Moves M s t := by
  have hm := Moves.refl M s
  refine ⟨_, rfl, ?_⟩
  try dsimp only
  repeat' first
    | with_reducible assumption
    | intro _
    | with_reducible apply reply_moves
    | with_reducible apply takingStore_moves
    | with_reducible apply tested_moves
    | with_reducible apply unlessFaulted_moves
    | with_reducible apply writeItem_moves
    | split

theorem execLineWrite_moves {M : Cell → Prop} {s : State} (hServing : M .serving)
    (hReplies : M .replies) (hLines : M .lines) :
    ∃ t, execLineWrite s = .next t ∧ Moves M s t := by
  have hm := Moves.refl M s
  refine ⟨_, rfl, ?_⟩
  try dsimp only
  repeat' first
    | with_reducible assumption
    | intro _
    | with_reducible apply modLine_moves
    | with_reducible apply reply_moves
    | with_reducible apply taking_moves
    | with_reducible apply tested_moves
    | split

theorem execLineRead_moves {M : Cell → Prop} {s : State} (hServing : M .serving) (hReplies : M .replies) :
    ∃ t, execLineRead s = .next t ∧ Moves M s t := by
  have hm := Moves.refl M s
  refine ⟨_, rfl, ?_⟩
  try dsimp only
  repeat' first
    | with_reducible assumption
    | intro _
    | with_reducible apply reply_moves
    | with_reducible apply taking_moves
    | with_reducible apply tested_moves
    | split

theorem countCorrupt_moves {M : Cell → Prop} {s₀ s₁ : State} {g : Seg} (hm : Moves M s₀ s₁)
    (hNotices : M .notices) (hSeg : M (.segment g)) : Moves M s₀ (countCorrupt g s₁) := by
  unfold countCorrupt
  try dsimp only
  repeat' first
    | with_reducible assumption
    | exact fun l => l
    | (show Segment.inForm _; assumption)
    | exact fun _ => Nat.min_le_left _ _
    | intro _
    | with_reducible apply setRxFaults_moves
    | with_reducible apply countDrop_moves
    | split

theorem rxFaultFalls_moves {M : Cell → Prop} {s₀ s₁ : State} {g : Seg} (hm : Moves M s₀ s₁)
    (hNotices : M .notices) (hSeg : M (.segment g)) : Moves M s₀ (rxFaultFalls g s₁) := by
  unfold rxFaultFalls
  try dsimp only
  repeat' first
    | with_reducible assumption
    | exact fun l => l
    | (show Segment.inForm _; assumption)
    | exact fun l => Nat.le_trans (Nat.sub_le _ _) l.2.2.1
    | intro _
    | with_reducible apply setRxFaults_moves
    | split

theorem pendAck_moves {M : Cell → Prop} {s₀ s₁ : State} {g : Seg} {n : Nat} {q : BitVec 3}
    (hm : Moves M s₀ s₁)
    (hSeg : M (.segment g)) : Moves M s₀ (pendAck g n q s₁) := by
  unfold pendAck
  try dsimp only
  repeat' first
    | with_reducible assumption
    | exact fun l => l
    | (show Segment.inForm _; assumption)
    | intro _
    | with_reducible apply modSeg_moves
    | split

theorem answerPoll_moves {M : Cell → Prop} {s₀ s₁ : State} {g : Seg} {n : Nat} (hm : Moves M s₀ s₁)
    (hSiteIn : M .siteIn) (hSeg : M (.segment g)) : Moves M s₀ (answerPoll g n s₁) := by
  unfold answerPoll
  try dsimp only
  repeat' first
    | with_reducible assumption
    | with_reducible apply completeFlight_moves
    | split

theorem answerCommand_moves {M : Cell → Prop} {s₀ s₁ : State} {g : Seg} {n : Nat} {q : BitVec 3}
    (hm : Moves M s₀ s₁)
    (hSiteIn : M .siteIn) (hSeg : M (.segment g)) : Moves M s₀ (answerCommand g n q s₁) := by
  unfold answerCommand
  try dsimp only
  repeat' first
    | with_reducible assumption
    | with_reducible apply completeFlight_moves
    | split

theorem commitRecord_moves {M : Cell → Prop} {s₀ s₁ : State} {g : Seg} {r : RingRecord}
    (hm : Moves M s₀ (s₁.modSeg g fun x => { x with ring := x.ring ++ [r] }))
    (hRouter : M .router) : Moves M s₀ (commitRecord g r s₁) := by
  unfold commitRecord wakeRouter
  split
  · have h : ({ s₁ with router := { s₁.router with position := g } }.modSeg g fun x =>
          { x with ring := x.ring ++ [r] }) =
        { (s₁.modSeg g fun x => { x with ring := x.ring ++ [r] }) with
          router := { s₁.router with position := g } } := by cases g <;> rfl
    rw [h]
    exact moves_router hm hRouter
  · exact hm

theorem acceptFrame_moves {M : Cell → Prop} {s₀ s₁ : State} {g : Seg} {r : RingRecord}
    (hm : Moves M s₀ (s₁.modSeg g fun x => { x with ring := x.ring ++ [r] }))
    (hNotices : M .notices) (hSiteIn : M .siteIn) (hSeg : M (.segment g)) (hRouter : M .router) :
    Moves M s₀ (acceptFrame g r s₁) := by
  have hm := commitRecord_moves hm hRouter
  unfold acceptFrame
  try dsimp only
  repeat' first
    | with_reducible assumption
    | exact fun l => l
    | (show Segment.inForm _; assumption)
    | intro _
    | with_reducible apply modSeg_moves
    | with_reducible apply withNode_moves
    | with_reducible apply nodeHeard_moves
    | with_reducible apply rxFaultFalls_moves
    | with_reducible apply pendAck_moves
    | with_reducible apply answerPoll_moves
    | split

theorem acceptAck_moves {M : Cell → Prop} {s₀ s₁ : State} {g : Seg} {n : Nat} {q : BitVec 3}
    (hm : Moves M s₀ s₁)
    (hNotices : M .notices) (hSiteIn : M .siteIn) (hSeg : M (.segment g)) : Moves M s₀
    (acceptAck g n q s₁) := by
  unfold acceptAck
  try dsimp only
  repeat' first
    | with_reducible assumption
    | with_reducible apply nodeHeard_moves
    | with_reducible apply rxFaultFalls_moves
    | with_reducible apply answerPoll_moves
    | with_reducible apply answerCommand_moves
    | split

theorem handleFrame_moves {M : Cell → Prop} {s₀ s₁ : State} {g : Seg} {c : FrameClass}
    (hm : Moves M s₀ s₁)
    (hNotices : M .notices) (hSiteIn : M .siteIn) (hSeg : M (.segment g))
    (hr : ∀ r, c = .accepted r → M .router ∧
      Moves M s₀ (s₁.modSeg g fun x => { x with ring := x.ring ++ [r] })) :
    Moves M s₀ (handleFrame g c s₁) := by
  unfold handleFrame
  split
  · exact countCorrupt_moves hm hNotices hSeg
  · exact countDrop_moves hm hNotices hSeg
  · exact pendAck_moves (countDrop_moves hm hNotices hSeg) hSeg
  · exact acceptAck_moves hm hNotices hSiteIn hSeg
  · exact acceptFrame_moves (hr _ rfl).2 hNotices hSiteIn hSeg (hr _ rfl).1

theorem afterFrame_moves {M : Cell → Prop} {s₀ s₁ : State} {g : Seg} (hm : Moves M s₀ s₁)
    (hNotices : M .notices) (hSiteIn : M .siteIn) (hSeg : M (.segment g)) : Moves M s₀ (afterFrame g s₁)
    := by
  unfold afterFrame
  try dsimp only
  repeat' first
    | with_reducible assumption
    | with_reducible apply applyRate_moves
    | with_reducible apply waitEnds_moves
    | split

/-- The body of an accepted record is the frame without its 4 bytes of head and its check (R166). -/
theorem classify_body {x : Segment} {chars : List Byte} {r : RingRecord} (h : x.classify chars = .accepted r) :
    r.body = (chars.drop 4).dropLast.dropLast := by
  unfold Segment.classify at h
  dsimp only at h
  repeat' split at h
  all_goals first
    | cases h
    | skip
  rfl

theorem endFrame_moves {M : Cell → Prop} {s₀ s₁ : State} {g : Seg} {f : RxFrame} {whole : Bool}
    {rx : Rx} (hm : Moves M s₀ s₁)
    (hNotices : M .notices) (hSiteIn : M .siteIn) (hSeg : M (.segment g))
    (hRouter : whole = true → M .router) (hrx : ∀ f, rx ≠ .frame f)
    (hw : whole = true → f.complete = true)
    (hf : (s₁.seg g).inForm → f.inForm ∧ (s₁.seg g).committed + f.held ≤ Config.ringBytes) : Moves M s₀
    (endFrame g f whole rx s₁) := by
  have held : ∀ k : Nat, ∀ ring, Segment.held { s₁.seg g with
      rx := rx, overrunHeld := k, ring := ring } = k := by
    intro k ring
    cases rx <;> first | rfl | exact absurd rfl (hrx _)
  have form : rx.inForm := by cases rx <;> first | trivial | exact absurd rfl (hrx _)
  have h : Moves M s₀ (s₁.modSeg g fun x =>
      { x with rx := rx, overrunHeld := if f.cls = .overrun then f.held else 0 }) := by
    refine modSeg_moves hm (fun l => inForm_ring l rfl l.2.1 l.2.2.1 rfl rfl ⟨?_, form⟩) hSeg
    have h1 := (hf l).2
    have h2 := held (if f.cls = .overrun then f.held else 0) (s₁.seg g).ring
    simp only [Segment.committed] at h1 h2 ⊢
    rw [h2]
    split <;> omega
  have hr : f.cls = .normal → ∀ r,
      (if whole then (s₁.seg g).classify f.chars else FrameClass.corrupt) = .accepted r →
      M .router ∧ Moves M s₀ ((s₁.modSeg g fun x =>
        { x with rx := rx, overrunHeld := if f.cls = .overrun then f.held else 0 }).modSeg g fun x =>
          { x with ring := x.ring ++ [r] }) := by
    intro hc r hr
    cases whole with
    | false => cases hr
    | true =>
      have hb := classify_body hr
      have hcomp := hw rfl
      rw [modSeg_modSeg]
      refine ⟨hRouter rfl, modSeg_moves hm (fun l => inForm_ring l rfl l.2.1 l.2.2.1 rfl rfl ⟨?_, form⟩) hSeg⟩
      obtain ⟨h1, h2⟩ := hf l
      have h3 := held 0 ((s₁.seg g).ring ++ [r])
      obtain ⟨h4, h5⟩ := h1 hc
      simp only [hc, reduceCtorEq, if_false, Segment.committed] at h2 h3 ⊢
      rw [h3]
      cases hl : f.length with
      | none => simp [RxFrame.complete, hl] at hcomp
      | some n =>
        simp only [RxFrame.complete, hl, beq_iff_eq] at hcomp
        simp only [hl] at h5
        simp only [List.map_append, List.map_cons, List.map_nil, List.sum_append, List.sum_cons, List.sum_nil,
          RingRecord.bytes, hb, List.length_dropLast, List.length_drop]
        omega
  unfold endFrame
  dsimp only
  refine afterFrame_moves ?_ hNotices hSiteIn hSeg
  split
  · exact countDrop_moves h hNotices hSeg
  · exact countDrop_moves h hNotices hSeg
  · rename_i hc
    exact handleFrame_moves h hNotices hSiteIn hSeg (hr hc)

/-- A later character keeps a frame in form (R164, R165). -/
theorem char_inForm {f : RxFrame} (h : f.inForm) (b : Byte) (room : Nat) : (f.char b room).inForm := by
  obtain ⟨count, length, chars, cls, held⟩ := f
  cases cls with
  | overrun => exact fun hc => nomatch hc
  | oversize => exact fun hc => nomatch hc
  | normal =>
    obtain ⟨h1, h2⟩ := h rfl
    dsimp only at h1 h2
    cases length with
    | none =>
      by_cases hk : count + 1 = 4
      · simp only [RxFrame.char, hk, if_true]
        split
        · exact fun hc => nomatch hc
        · refine fun _ => ⟨by simp [h1, hk], Nat.le_refl 4, by omega, ?_⟩
          simpa using h2.2
      · simp only [RxFrame.char, hk, if_false]
        exact fun _ => ⟨by simp [h1], by dsimp only; omega, h2.2⟩
    | some n =>
      have hk : count + 1 ≠ 4 := by dsimp only at h2; omega
      simp only [RxFrame.char, hk, if_false]
      split
      · exact fun hc => nomatch hc
      · split
        · rename_i hp
          simp only [Bool.or_eq_true, decide_eq_true_eq] at hp
          exact fun _ => ⟨by simp [h1], by dsimp only; omega⟩
        · rename_i hp
          simp only [Bool.or_eq_true, decide_eq_true_eq, not_or] at hp
          split
          · exact fun hc => nomatch hc
          · exact fun _ => ⟨by simp [h1], by dsimp only; omega⟩

/-- A later character takes at most one byte of the ring, and only where there is room (R164). -/
theorem char_held (f : RxFrame) (b : Byte) (room : Nat) :
    (f.char b room).held ≤ f.held ∨ (room ≠ 0 ∧ (f.char b room).held = f.held + 1) := by
  unfold RxFrame.char
  dsimp only
  repeat' first
    | exact .inl (Nat.le_refl _)
    | exact .inr ⟨by assumption, rfl⟩
    | split

theorem takeChar_moves {M : Cell → Prop} {s₀ s₁ : State} {g : Seg} {b : Byte} (hm : Moves M s₀ s₁)
    (hNotices : M .notices) (hSiteIn : M .siteIn) (hSeg : M (.segment g)) (hRouter : M .router) :
    Moves M s₀ (takeChar g b s₁) := by
  unfold takeChar
  split
  · refine modSeg_moves hm (fun l => ?_) hSeg
    have h := l.2.2.2.2.2.2.2.2.2.1
    unfold startFrame
    dsimp only
    split
    · rename_i hroom
      refine inForm_ring l rfl l.2.1 l.2.2.1 rfl rfl ⟨?_, fun _ => ⟨rfl, Nat.le_add_left 1 2, rfl⟩⟩
      simp only [Segment.room, Segment.held, Segment.committed] at hroom ⊢
      omega
    · refine inForm_ring l rfl l.2.1 l.2.2.1 rfl rfl ⟨?_, fun hc => nomatch hc⟩
      simp only [Segment.held, Segment.committed] at h ⊢
      omega
  · rename_i he
    exact modSeg_moves hm (fun l => inForm_ring l rfl l.2.1 l.2.2.1 rfl rfl
      (ringInForm_quiet l.2.2.2.2.2.2.2.2.2 (by simp [he]) rfl (by simp) rfl)) hSeg
  · rename_i f he
    have hf : (s₁.seg g).inForm → (f.char b (s₁.seg g).room).inForm ∧
        (s₁.seg g).committed + (f.char b (s₁.seg g).room).held ≤ Config.ringBytes := by
      intro l
      obtain ⟨h1, h2⟩ := l.2.2.2.2.2.2.2.2.2
      rw [he] at h2
      refine ⟨char_inForm h2 _ _, ?_⟩
      have h3 := char_held f b (s₁.seg g).room
      simp only [Segment.room, Segment.held, he] at h1 h3 ⊢
      omega
    dsimp only
    split
    · rename_i hc
      exact endFrame_moves hm hNotices hSiteIn hSeg (fun _ => hRouter) (by simp) (fun _ => hc) hf
    · exact modSeg_moves hm (fun l => inForm_ring l rfl l.2.1 l.2.2.1 rfl rfl ⟨(hf l).2, (hf l).1⟩) hSeg

theorem execFieldCharacter_moves {M : Cell → Prop} {g : Seg} {b : Byte} {s : State}
    (hNotices : M .notices) (hSiteIn : M .siteIn) (hSeg : M (.segment g)) (hRouter : M .router) :
    ∃ t, execFieldCharacter g b s = .next t ∧ Moves M s t := by
  have hm := Moves.refl M s
  refine ⟨_, rfl, ?_⟩
  try dsimp only
  repeat' first
    | with_reducible assumption
    | with_reducible apply takeChar_moves
    | split

theorem execFieldLineIdle_moves {M : Cell → Prop} {g : Seg} {s : State} (hNotices : M .notices)
    (hSiteIn : M .siteIn) (hSeg : M (.segment g)) :
    ∃ t, execFieldLineIdle g s = .next t ∧ Moves M s t := by
  have hm := Moves.refl M s
  refine ⟨_, rfl, ?_⟩
  split
  · split
    · exact hm
    · rename_i f he
      refine endFrame_moves hm hNotices hSiteIn hSeg (by simp) (by simp) (by simp) fun l => ?_
      obtain ⟨h1, h2⟩ := l.2.2.2.2.2.2.2.2.2
      simp only [Segment.held, he] at h1 h2
      exact ⟨h2, h1⟩
    · rename_i stray he
      have h : Moves M s (s.modSeg g fun x => { x with rx := .idle }) :=
        modSeg_moves hm (fun l => inForm_ring l rfl l.2.1 l.2.2.1 rfl rfl
          (ringInForm_quiet l.2.2.2.2.2.2.2.2.2 (by simp [he]) rfl (by simp) rfl)) hSeg
      refine applyRate_moves ?_ hSeg
      split
      · exact countCorrupt_moves h hNotices hSeg
      · exact h
  · exact hm

theorem freeRecord_moves {M : Cell → Prop} {s₀ s₁ : State} {g : Seg} (hm : Moves M s₀ s₁)
    (hSeg : M (.segment g)) (hRouter : M .router) : Moves M s₀ (freeRecord g s₁) := by
  unfold freeRecord
  try dsimp only
  repeat' first
    | with_reducible assumption
    | (show Segment.inForm _; assumption)
    | exact fun l => inForm_ring l rfl l.2.1 l.2.2.1 rfl rfl
        (ringInForm_drop l.2.2.2.2.2.2.2.2.2 rfl rfl rfl)
    | exact fun l => l
    | exact .inl ‹_›
    | exact .inr rfl
    | exact .inr ⟨rfl, rfl⟩
    | exact .inr ⟨rfl, rfl, rfl⟩
    | exact .inr ⟨rfl, rfl, rfl, rfl⟩
    | exact .inr ⟨rfl, rfl, rfl, rfl, rfl, rfl⟩
    | intro _
    | with_reducible apply modSeg_moves
    | split
    | with_reducible apply moves_router

theorem handCredential_moves {M : Cell → Prop} {s₀ s₁ : State} {g : Seg} {r : RingRecord} {b : Binding}
    (hm : Moves M s₀ s₁)
    (hDecision : M .decision) (hSeg : M (.segment g)) (hRouter : M .router) : Moves M s₀
    (handCredential g r b s₁) := by
  unfold handCredential
  split
  · exact freeRecord_moves hm hSeg hRouter
  · rename_i asked _
    exact moves_router (t := { s₁ with visits :=
        { s₁.visits with waiting := s₁.visits.waiting ++
          [⟨asked, .reader g r.source, BitVec.ofNat 32 (beNat (r.body.take 4))⟩] } })
      (moves_visits hm (fun l => l) (.inr rfl) (.inr rfl) (.inl hDecision) (.inr ⟨rfl, rfl, rfl, rfl⟩)) hRouter

theorem handStatus_moves {M : Cell → Prop} {s₀ s₁ : State} {g : Seg} {r : RingRecord} {e : NodeEntry}
    (hm : Moves M s₀ s₁)
    (hNotices : M .notices) (hSiteIn : M .siteIn) (hTable : M .table) (hVisitsIn : M .visitsIn)
    (hPortals : M .portals) (hPortalsIn : M .portalsIn) (hEntries : M .entries) (hUnitsIn : M .unitsIn)
    (hCars : M .cars) (hLiftsIn : M .liftsIn) (hSeg : ∀ g, M (.segment g)) (hLines : M .lines)
    (hLinesIn : M .linesIn) : Moves M s₀ (handStatus g r e s₁) := by
  unfold handStatus
  try dsimp only
  repeat' first
    | with_reducible assumption
    | exact hSeg _
    | with_reducible apply portalStatus_moves
    | with_reducible apply latchStatus_moves
    | with_reducible apply panelStatus_moves
    | split

theorem handRecord_moves {M : Cell → Prop} {s₀ s₁ : State} {g : Seg} {r : RingRecord} (hm : Moves M s₀ s₁)
    (hNotices : M .notices) (hSiteIn : M .siteIn) (hTable : M .table) (hDecision : M .decision)
    (hVisitsIn : M .visitsIn) (hPortals : M .portals) (hPortalsIn : M .portalsIn)
    (hEntries : M .entries) (hUnitsIn : M .unitsIn) (hCars : M .cars) (hLiftsIn : M .liftsIn)
    (hSeg : ∀ g, M (.segment g)) (hRouter : M .router) (hLines : M .lines) (hLinesIn : M .linesIn) :
    Moves M s₀ (handRecord g r s₁) := by
  unfold handRecord
  try dsimp only
  repeat' first
    | with_reducible assumption
    | exact hSeg _
    | with_reducible apply releaseAsk_moves
    | with_reducible apply freeRecord_moves
    | with_reducible apply handCredential_moves
    | with_reducible apply handStatus_moves
    | split

theorem execFrameRouterTurn_moves {M : Cell → Prop} {s : State} (hNotices : M .notices)
    (hSiteIn : M .siteIn) (hTable : M .table) (hDecision : M .decision) (hVisitsIn : M .visitsIn)
    (hPortals : M .portals) (hPortalsIn : M .portalsIn) (hEntries : M .entries) (hUnitsIn : M .unitsIn)
    (hCars : M .cars) (hLiftsIn : M .liftsIn) (hSeg : ∀ g, M (.segment g)) (hRouter : M .router)
    (hLines : M .lines) (hLinesIn : M .linesIn) :
    ∃ t, execFrameRouterTurn s = .next t ∧ Moves M s t := by
  have hm := Moves.refl M s
  refine ⟨_, rfl, ?_⟩
  try dsimp only
  repeat' first
    | with_reducible assumption
    | exact hSeg _
    | with_reducible apply handRecord_moves
    | split

end Sys2Proof.Machine
end

