-- ==== Sys2Proof/Laws/MovesStore.lean ====
section
/-! SUPPORT. What the operations of the store, the site modes and the starts may change. -/

namespace Sys2Proof.Machine

theorem withTenant_moves {M : Cell → Prop} {s₀ s₁ : State} {id : Nat}
    {k : Tenant → State → State} (hm : Moves M s₀ s₁) (hServing : M .serving)
    (hReplies : M .replies) (hk : ∀ r t, Moves M s₀ t → Moves M s₀ (k r t)) :
    Moves M s₀ (withTenant id k s₁) := by
  unfold withTenant
  repeat' first
    | exact hk _ _ hm
    | exact reply_moves hm hServing hReplies
    | split

theorem execPutTenant_moves {M : Cell → Prop} {s : State} (hServing : M .serving)
    (hReplies : M .replies) (hSlots : M .slots) :
    ∃ t, execPutTenant s = .next t ∧ Moves M s t := by
  have hm := Moves.refl M s
  refine ⟨_, rfl, ?_⟩
  try dsimp only
  repeat' first
    | with_reducible assumption
    | intro _
    | with_reducible apply reply_moves
    | with_reducible apply takingStore_moves
    | with_reducible apply tested_moves
    | with_reducible apply unlessFaulted_moves
    | with_reducible apply beginWrite_moves
    | exact trivial
    | split

theorem execDropTenant_moves {M : Cell → Prop} {s : State} (hServing : M .serving)
    (hReplies : M .replies) (hSlots : M .slots) :
    ∃ t, execDropTenant s = .next t ∧ Moves M s t := by
  have hm := Moves.refl M s
  refine ⟨_, rfl, ?_⟩
  try dsimp only
  repeat' first
    | with_reducible assumption
    | intro _
    | with_reducible apply reply_moves
    | with_reducible apply takingStore_moves
    | with_reducible apply tested_moves
    | with_reducible apply unlessFaulted_moves
    | with_reducible apply beginWrite_moves
    | exact trivial
    | split

theorem execGetTenant_moves {M : Cell → Prop} {s : State} (hServing : M .serving)
    (hReplies : M .replies) :
    ∃ t, execGetTenant s = .next t ∧ Moves M s t := by
  have hm := Moves.refl M s
  refine ⟨_, rfl, ?_⟩
  try dsimp only
  repeat' first
    | with_reducible assumption
    | intro _
    | with_reducible apply reply_moves
    | with_reducible apply takingStore_moves
    | with_reducible apply tested_moves
    | with_reducible apply withTenant_moves
    | split

theorem putCredential_moves {M : Cell → Prop} {s₀ s₁ : State} {v : Word32} {id : Nat} (hm : Moves M s₀ s₁)
    (hServing : M .serving) (hReplies : M .replies) (hSlots : M .slots) : Moves M s₀
    (putCredential v id s₁) := by
  unfold putCredential
  dsimp only
  split
  · split
    · exact reply_moves hm hServing hReplies
    · exact reply_moves hm hServing hReplies
  · rename_i he
    split
    · exact reply_moves hm hServing hReplies
    · exact beginWrite_moves hm hServing hSlots fun l => credSlot_lt l he
  · split
    · exact reply_moves hm hServing hReplies
    · rename_i hn
      simp only [Bool.or_eq_true, decide_eq_true_eq, not_or, Nat.not_le] at hn
      refine beginWrite_moves hm hServing hSlots fun _ => ?_
      have := lowestFree_le s₁.store.creds 0
      show lowestFree 0 _ < _
      omega

theorem execPutCredential_moves {M : Cell → Prop} {s : State} (hServing : M .serving)
    (hReplies : M .replies) (hSlots : M .slots) :
    ∃ t, execPutCredential s = .next t ∧ Moves M s t := by
  have hm := Moves.refl M s
  refine ⟨_, rfl, ?_⟩
  try dsimp only
  repeat' first
    | with_reducible assumption
    | intro _
    | with_reducible apply takingStore_moves
    | with_reducible apply tested_moves
    | with_reducible apply unlessFaulted_moves
    | with_reducible apply withTenant_moves
    | with_reducible apply putCredential_moves
    | split

theorem execDropCredential_moves {M : Cell → Prop} {s : State} (hServing : M .serving)
    (hReplies : M .replies) (hSlots : M .slots) :
    ∃ t, execDropCredential s = .next t ∧ Moves M s t := by
  have hm := Moves.refl M s
  refine ⟨_, rfl, ?_⟩
  try dsimp only
  repeat' first
    | with_reducible assumption
    | intro _
    | with_reducible apply reply_moves
    | with_reducible apply takingStore_moves
    | with_reducible apply tested_moves
    | with_reducible apply unlessFaulted_moves
    | (rename_i he; exact beginWrite_moves ‹_› hServing hSlots fun l => credSlot_lt l he)
    | split

theorem putUnit_moves {M : Cell → Prop} {s₀ s₁ : State} {u : Nat} {r : UnitRec} (hm : Moves M s₀ s₁)
    (hServing : M .serving) (hReplies : M .replies) (hSlots : M .slots) : Moves M s₀ (putUnit u r s₁) :=
    by
  unfold putUnit
  try dsimp only
  repeat' first
    | with_reducible assumption
    | with_reducible apply reply_moves
    | with_reducible apply beginWrite_moves
    | exact trivial
    | exact fun _ => trivial
    | split

theorem execPutUnit_moves {M : Cell → Prop} {s : State} (hServing : M .serving) (hReplies : M .replies)
    (hSlots : M .slots) :
    ∃ t, execPutUnit s = .next t ∧ Moves M s t := by
  have hm := Moves.refl M s
  refine ⟨_, rfl, ?_⟩
  try dsimp only
  repeat' first
    | with_reducible assumption
    | intro _
    | with_reducible apply takingStore_moves
    | with_reducible apply tested_moves
    | with_reducible apply unlessFaulted_moves
    | with_reducible apply withTenant_moves
    | with_reducible apply putUnit_moves
    | split

theorem execDropUnit_moves {M : Cell → Prop} {s : State} (hServing : M .serving) (hReplies : M .replies)
    (hSlots : M .slots) :
    ∃ t, execDropUnit s = .next t ∧ Moves M s t := by
  have hm := Moves.refl M s
  refine ⟨_, rfl, ?_⟩
  try dsimp only
  repeat' first
    | with_reducible assumption
    | intro _
    | with_reducible apply reply_moves
    | with_reducible apply takingStore_moves
    | with_reducible apply tested_moves
    | with_reducible apply unlessFaulted_moves
    | with_reducible apply beginWrite_moves
    | exact trivial
    | split

theorem execSetOverlock_moves {M : Cell → Prop} {s : State} (hServing : M .serving)
    (hReplies : M .replies) (hSlots : M .slots) :
    ∃ t, execSetOverlock s = .next t ∧ Moves M s t := by
  have hm := Moves.refl M s
  refine ⟨_, rfl, ?_⟩
  try dsimp only
  repeat' first
    | with_reducible assumption
    | intro _
    | with_reducible apply reply_moves
    | with_reducible apply takingStore_moves
    | with_reducible apply tested_moves
    | with_reducible apply unlessFaulted_moves
    | with_reducible apply beginWrite_moves
    | exact trivial
    | split

theorem execPutPattern_moves {M : Cell → Prop} {s : State} (hServing : M .serving)
    (hReplies : M .replies) (hSlots : M .slots) :
    ∃ t, execPutPattern s = .next t ∧ Moves M s t := by
  have hm := Moves.refl M s
  refine ⟨_, rfl, ?_⟩
  try dsimp only
  repeat' first
    | with_reducible assumption
    | intro _
    | with_reducible apply takingStore_moves
    | with_reducible apply tested_moves
    | with_reducible apply unlessFaulted_moves
    | with_reducible apply writeItem_moves
    | split

theorem execPutClass_moves {M : Cell → Prop} {s : State} (hServing : M .serving) (hReplies : M .replies)
    (hSlots : M .slots) :
    ∃ t, execPutClass s = .next t ∧ Moves M s t := by
  have hm := Moves.refl M s
  refine ⟨_, rfl, ?_⟩
  try dsimp only
  repeat' first
    | with_reducible assumption
    | intro _
    | with_reducible apply takingStore_moves
    | with_reducible apply tested_moves
    | with_reducible apply unlessFaulted_moves
    | with_reducible apply writeItem_moves
    | split

theorem execPutWindow_moves {M : Cell → Prop} {s : State} (hServing : M .serving)
    (hReplies : M .replies) (hSlots : M .slots) :
    ∃ t, execPutWindow s = .next t ∧ Moves M s t := by
  have hm := Moves.refl M s
  refine ⟨_, rfl, ?_⟩
  try dsimp only
  repeat' first
    | with_reducible assumption
    | intro _
    | with_reducible apply takingStore_moves
    | with_reducible apply tested_moves
    | with_reducible apply unlessFaulted_moves
    | with_reducible apply writeItem_moves
    | split

theorem enterMode_moves {M : Cell → Prop} {s₀ s₁ : State} {new : Mode} {ret : Option Mode}
    {cause : ModeCause} (hm : Moves M s₀ s₁)
    (hNotices : M .notices) (hMode : M .mode) (hLinesIn : M .linesIn) : Moves M s₀
    (enterMode new ret cause s₁) := by
  unfold enterMode
  try dsimp only
  repeat' first
    | with_reducible assumption
    | exact fun l => l
    | exact .inl ‹_›
    | exact .inr rfl
    | exact .inr ⟨rfl, rfl⟩
    | exact .inr ⟨rfl, rfl, rfl⟩
    | exact .inr ⟨rfl, rfl, rfl, rfl⟩
    | exact .inr ⟨rfl, rfl, rfl, rfl, rfl, rfl⟩
    | intro _
    | with_reducible apply putNotice_moves
    | with_reducible apply toBeacon_moves
    | split
    | with_reducible apply moves_site

theorem beginEvacuation_moves {M : Cell → Prop} {s₀ s₁ : State} {cause : EvacCause} (hm : Moves M s₀ s₁)
    (hNotices : M .notices) (hMode : M .mode) (hVisitsIn : M .visitsIn) (hPortalsIn : M .portalsIn)
    (hLiftsIn : M .liftsIn) (hLinesIn : M .linesIn) : Moves M s₀ (beginEvacuation cause s₁) := by
  unfold beginEvacuation
  try dsimp only
  repeat' first
    | with_reducible assumption
    | exact fun l => l
    | exact .inl ‹_›
    | exact .inr rfl
    | exact .inr ⟨rfl, rfl⟩
    | exact .inr ⟨rfl, rfl, rfl⟩
    | exact .inr ⟨rfl, rfl, rfl, rfl⟩
    | exact .inr ⟨rfl, rfl, rfl, rfl, rfl, rfl⟩
    | intro _
    | with_reducible apply toLiftOrders_moves
    | with_reducible apply toPortalEvac_moves
    | with_reducible apply toVisitsEvac_moves
    | with_reducible apply enterMode_moves
    | split
    | with_reducible apply moves_site

theorem drainCheck_moves {M : Cell → Prop} {s₀ s₁ : State} (hm : Moves M s₀ s₁)
    (hNotices : M .notices) (hMode : M .mode) (hLinesIn : M .linesIn) : Moves M s₀ (drainCheck s₁) := by
  unfold drainCheck
  try dsimp only
  repeat' first
    | with_reducible assumption
    | with_reducible apply enterMode_moves
    | split

theorem takeSiteReport_moves {M : Cell → Prop} {s₀ s₁ : State} {r : SiteReport} {rest : List SiteReport}
    (hm : Moves M s₀ s₁)
    (hNotices : M .notices) (hMode : M .mode) (hDrain : M .drain) (hSiteIn : M .siteIn)
    (hLinesIn : M .linesIn) : Moves M s₀ (takeSiteReport r rest s₁) := by
  refine drainCheck_moves ?_ hNotices hMode hLinesIn
  cases r with
  | segment g b =>
    cases g <;>
    exact moves_site hm (fun l => l) (.inr ⟨rfl, rfl, rfl⟩) (.inr ⟨rfl, rfl⟩)
      (.inl hDrain) (.inr rfl) (.inr rfl) (.inr ⟨rfl, rfl, rfl⟩) (.inl hSiteIn)
  | _ =>
    exact moves_site hm (fun l => l) (.inr ⟨rfl, rfl, rfl⟩) (.inr ⟨rfl, rfl⟩)
      (.inl hDrain) (.inr rfl) (.inr rfl) (.inr ⟨rfl, rfl, rfl⟩) (.inl hSiteIn)

theorem execDrainAnswer_moves {M : Cell → Prop} {s : State} (hNotices : M .notices) (hMode : M .mode)
    (hDrain : M .drain) (hSiteIn : M .siteIn) (hLinesIn : M .linesIn) :
    ∃ t, execDrainAnswer s = .next t ∧ Moves M s t := by
  have hm := Moves.refl M s
  refine ⟨_, rfl, ?_⟩
  try dsimp only
  repeat' first
    | with_reducible assumption
    | with_reducible apply takeSiteReport_moves
    | split

theorem execBusyReport_moves {M : Cell → Prop} {s : State} (hNotices : M .notices) (hMode : M .mode)
    (hDrain : M .drain) (hSiteIn : M .siteIn) (hLinesIn : M .linesIn) :
    ∃ t, execBusyReport s = .next t ∧ Moves M s t := by
  have hm := Moves.refl M s
  refine ⟨_, rfl, ?_⟩
  try dsimp only
  repeat' first
    | with_reducible assumption
    | with_reducible apply takeSiteReport_moves
    | split

theorem execHold_moves {M : Cell → Prop} {s : State} (hServing : M .serving) (hReplies : M .replies)
    (hNotices : M .notices) (hMode : M .mode) (hDrain : M .drain) (hLiftsIn : M .liftsIn)
    (hLinesIn : M .linesIn) :
    ∃ t, execHold s = .next t ∧ Moves M s t := by
  have hm := Moves.refl M s
  refine ⟨_, rfl, ?_⟩
  try dsimp only
  repeat' first
    | with_reducible assumption
    | exact fun l => l
    | exact .inl ‹_›
    | exact .inr rfl
    | exact .inr ⟨rfl, rfl⟩
    | exact .inr ⟨rfl, rfl, rfl⟩
    | exact .inr ⟨rfl, rfl, rfl, rfl⟩
    | exact .inr ⟨rfl, rfl, rfl, rfl, rfl, rfl⟩
    | intro _
    | with_reducible apply toLiftOrders_moves
    | with_reducible apply reply_moves
    | with_reducible apply taking_moves
    | with_reducible apply tested_moves
    | with_reducible apply enterMode_moves
    | split
    | with_reducible apply moves_site

theorem resumeSetup_moves {M : Cell → Prop} {s₀ s₁ : State} (hm : Moves M s₀ s₁)
    (hServing : M .serving) (hReplies : M .replies) (hNotices : M .notices) (hSlots : M .slots)
    (hMode : M .mode) (hLinesIn : M .linesIn) : Moves M s₀ (resumeSetup s₁) := by
  unfold resumeSetup
  try dsimp only
  repeat' first
    | with_reducible assumption
    | intro _
    | with_reducible apply reply_moves
    | with_reducible apply unlessFaulted_moves
    | with_reducible apply beginWrite_moves
    | exact trivial
    | with_reducible apply enterMode_moves
    | split

theorem resumeByMode_moves {M : Cell → Prop} {s₀ s₁ : State} (hm : Moves M s₀ s₁)
    (hServing : M .serving) (hReplies : M .replies) (hNotices : M .notices) (hSlots : M .slots)
    (hMode : M .mode) (hLinesIn : M .linesIn) : Moves M s₀ (resumeByMode s₁) := by
  unfold resumeByMode
  try dsimp only
  repeat' first
    | with_reducible assumption
    | with_reducible apply reply_moves
    | with_reducible apply enterMode_moves
    | with_reducible apply resumeSetup_moves
    | split

theorem execResume_moves {M : Cell → Prop} {s : State} (hServing : M .serving) (hReplies : M .replies)
    (hNotices : M .notices) (hSlots : M .slots) (hMode : M .mode) (hLinesIn : M .linesIn) :
    ∃ t, execResume s = .next t ∧ Moves M s t := by
  have hm := Moves.refl M s
  refine ⟨_, rfl, ?_⟩
  try dsimp only
  repeat' first
    | with_reducible assumption
    | intro _
    | with_reducible apply taking_moves
    | with_reducible apply takingStore_moves
    | with_reducible apply tested_moves
    | with_reducible apply resumeByMode_moves
    | split

theorem resumeCommitted_moves {M : Cell → Prop} {s₀ s₁ : State} (hm : Moves M s₀ s₁)
    (hNotices : M .notices) (hMode : M .mode) (hLinesIn : M .linesIn) : Moves M s₀ (resumeCommitted s₁)
    := by
  unfold resumeCommitted
  try dsimp only
  repeat' first
    | with_reducible assumption
    | exact fun l => l
    | exact .inl ‹_›
    | exact .inr rfl
    | exact .inr ⟨rfl, rfl⟩
    | exact .inr ⟨rfl, rfl, rfl⟩
    | exact .inr ⟨rfl, rfl, rfl, rfl⟩
    | exact .inr ⟨rfl, rfl, rfl, rfl, rfl, rfl⟩
    | intro _
    | with_reducible apply enterMode_moves
    | split
    | with_reducible apply moves_site

theorem execEvacuate_moves {M : Cell → Prop} {s : State} (hServing : M .serving) (hReplies : M .replies)
    (hNotices : M .notices) (hMode : M .mode) (hVisitsIn : M .visitsIn) (hPortalsIn : M .portalsIn)
    (hLiftsIn : M .liftsIn) (hLinesIn : M .linesIn) :
    ∃ t, execEvacuate s = .next t ∧ Moves M s t := by
  have hm := Moves.refl M s
  refine ⟨_, rfl, ?_⟩
  try dsimp only
  repeat' first
    | with_reducible assumption
    | intro _
    | with_reducible apply reply_moves
    | with_reducible apply taking_moves
    | with_reducible apply tested_moves
    | with_reducible apply beginEvacuation_moves
    | split

theorem execEvacuateEnd_moves {M : Cell → Prop} {s : State} (hServing : M .serving)
    (hReplies : M .replies) (hVisitsIn : M .visitsIn) :
    ∃ t, execEvacuateEnd s = .next t ∧ Moves M s t := by
  have hm := Moves.refl M s
  refine ⟨_, rfl, ?_⟩
  try dsimp only
  repeat' first
    | with_reducible assumption
    | intro _
    | with_reducible apply toVisitsEvac_moves
    | with_reducible apply reply_moves
    | with_reducible apply working_moves
    | with_reducible apply taking_moves
    | with_reducible apply tested_moves
    | split

theorem endEvacuation_moves {M : Cell → Prop} {s₀ s₁ : State} (hm : Moves M s₀ s₁)
    (hServing : M .serving) (hReplies : M .replies) (hNotices : M .notices) (hMode : M .mode)
    (hPortalsIn : M .portalsIn) (hLiftsIn : M .liftsIn) (hLinesIn : M .linesIn) : Moves M s₀
    (endEvacuation s₁) := by
  unfold endEvacuation
  try dsimp only
  repeat' first
    | with_reducible assumption
    | exact fun l => l
    | exact .inl ‹_›
    | exact .inr rfl
    | exact .inr ⟨rfl, rfl⟩
    | exact .inr ⟨rfl, rfl, rfl⟩
    | exact .inr ⟨rfl, rfl, rfl, rfl⟩
    | exact .inr ⟨rfl, rfl, rfl, rfl, rfl, rfl⟩
    | intro _
    | with_reducible apply toLiftOrders_moves
    | with_reducible apply toPortalEvac_moves
    | with_reducible apply reply_moves
    | with_reducible apply enterMode_moves
    | split
    | with_reducible apply moves_site

theorem execEvacuationClosuresDone_moves {M : Cell → Prop} {s : State} (hServing : M .serving)
    (hReplies : M .replies) (hNotices : M .notices) (hMode : M .mode) (hSiteIn : M .siteIn)
    (hVisitsIn : M .visitsIn) (hPortalsIn : M .portalsIn) (hLiftsIn : M .liftsIn)
    (hLinesIn : M .linesIn) :
    ∃ t, execEvacuationClosuresDone s = .next t ∧ Moves M s t := by
  have hm := Moves.refl M s
  refine ⟨_, rfl, ?_⟩
  try dsimp only
  repeat' first
    | with_reducible assumption
    | exact fun l => l
    | exact .inl ‹_›
    | exact .inr rfl
    | exact .inr ⟨rfl, rfl⟩
    | exact .inr ⟨rfl, rfl, rfl⟩
    | exact .inr ⟨rfl, rfl, rfl, rfl⟩
    | exact .inr ⟨rfl, rfl, rfl, rfl, rfl, rfl⟩
    | intro _
    | with_reducible apply beginEvacuation_moves
    | with_reducible apply endEvacuation_moves
    | split
    | with_reducible apply moves_site

theorem fireReported_moves {M : Cell → Prop} {s₀ s₁ : State} {active : Bool} (hm : Moves M s₀ s₁)
    (hNotices : M .notices) (hMode : M .mode) (hVisitsIn : M .visitsIn) (hPortalsIn : M .portalsIn)
    (hLiftsIn : M .liftsIn) (hLinesIn : M .linesIn) : Moves M s₀ (fireReported active s₁) := by
  unfold fireReported
  try dsimp only
  repeat' first
    | with_reducible assumption
    | with_reducible apply beginEvacuation_moves
    | split

theorem execFireInputChange_moves {M : Cell → Prop} {s : State} (hNotices : M .notices)
    (hMode : M .mode) (hFire : M .fire) (hSiteIn : M .siteIn) (hVisitsIn : M .visitsIn)
    (hPortalsIn : M .portalsIn) (hLiftsIn : M .liftsIn) (hLinesIn : M .linesIn) :
    ∃ t, execFireInputChange s = .next t ∧ Moves M s t := by
  have hm := Moves.refl M s
  refine ⟨_, rfl, ?_⟩
  try dsimp only
  repeat' first
    | with_reducible assumption
    | exact fun l => l
    | exact .inl ‹_›
    | exact .inr rfl
    | exact .inr ⟨rfl, rfl⟩
    | exact .inr ⟨rfl, rfl, rfl⟩
    | exact .inr ⟨rfl, rfl, rfl, rfl⟩
    | exact .inr ⟨rfl, rfl, rfl, rfl, rfl, rfl⟩
    | intro _
    | with_reducible apply fireReported_moves
    | split
    | with_reducible apply moves_site

theorem execSettledReport_moves {M : Cell → Prop} {s : State} (hNotices : M .notices) (hMode : M .mode)
    (hFire : M .fire) (hSiteIn : M .siteIn) (hVisitsIn : M .visitsIn) (hPortalsIn : M .portalsIn)
    (hLiftsIn : M .liftsIn) (hLinesIn : M .linesIn) :
    ∃ t, execSettledReport s = .next t ∧ Moves M s t := by
  have hm := Moves.refl M s
  refine ⟨_, rfl, ?_⟩
  try dsimp only
  repeat' first
    | with_reducible assumption
    | exact fun l => l
    | exact .inl ‹_›
    | exact .inr rfl
    | exact .inr ⟨rfl, rfl⟩
    | exact .inr ⟨rfl, rfl, rfl⟩
    | exact .inr ⟨rfl, rfl, rfl, rfl⟩
    | exact .inr ⟨rfl, rfl, rfl, rfl, rfl, rfl⟩
    | intro _
    | with_reducible apply fireReported_moves
    | split
    | with_reducible apply moves_site

theorem execSiteSecondTick_moves {M : Cell → Prop} {s : State} (hSeconds : M .seconds)
    (hClock : M .clock) :
    ∃ t, execSiteSecondTick s = .next t ∧ Moves M s t := by
  refine ⟨_, rfl, ?_⟩
  split
  · rename_i h
    exact moves_site (Moves.refl M s) (fun _ => h) (.inr ⟨rfl, rfl, rfl⟩) (.inr ⟨rfl, rfl⟩)
      (.inr ⟨rfl, rfl, rfl, rfl, rfl, rfl⟩) (.inl hSeconds) (.inl hClock) (.inr ⟨rfl, rfl, rfl⟩)
      (.inr ⟨rfl, rfl, rfl⟩)
  · exact Moves.refl M s

theorem execSetClock_moves {M : Cell → Prop} {s : State} (hServing : M .serving) (hReplies : M .replies)
    (hClock : M .clock) :
    ∃ t, execSetClock s = .next t ∧ Moves M s t := by
  have hm := Moves.refl M s
  refine ⟨_, rfl, ?_⟩
  try dsimp only
  repeat' first
    | with_reducible assumption
    | exact fun l => l
    | exact .inl ‹_›
    | exact .inr rfl
    | exact .inr ⟨rfl, rfl⟩
    | exact .inr ⟨rfl, rfl, rfl⟩
    | exact .inr ⟨rfl, rfl, rfl, rfl⟩
    | exact .inr ⟨rfl, rfl, rfl, rfl, rfl, rfl⟩
    | intro _
    | with_reducible apply reply_moves
    | with_reducible apply taking_moves
    | with_reducible apply tested_moves
    | split
    | with_reducible apply moves_site

theorem execPutSite_moves {M : Cell → Prop} {s : State} (hServing : M .serving) (hReplies : M .replies)
    (hSlots : M .slots) :
    ∃ t, execPutSite s = .next t ∧ Moves M s t := by
  have hm := Moves.refl M s
  refine ⟨_, rfl, ?_⟩
  try dsimp only
  repeat' first
    | with_reducible assumption
    | intro _
    | with_reducible apply takingStore_moves
    | with_reducible apply tested_moves
    | with_reducible apply unlessFaulted_moves
    | with_reducible apply writeItem_moves
    | split

theorem takeParams_moves {M : Cell → Prop} {s₀ s₁ : State} {p : Marked SiteParams} (hm : Moves M s₀ s₁)
    (hCopies : M .copies) (hLinesIn : M .linesIn) : Moves M s₀ (takeParams p s₁) := by
  unfold takeParams
  try dsimp only
  repeat' first
    | with_reducible assumption
    | exact fun l => l
    | exact .inl ‹_›
    | exact .inr rfl
    | exact .inr ⟨rfl, rfl⟩
    | exact .inr ⟨rfl, rfl, rfl⟩
    | exact .inr ⟨rfl, rfl, rfl, rfl⟩
    | exact .inr ⟨rfl, rfl, rfl, rfl, rfl, rfl⟩
    | intro _
    | with_reducible apply toBeacon_moves
    | split
    | with_reducible apply moves_site

theorem execGetState_moves {M : Cell → Prop} {s : State} (hServing : M .serving) (hReplies : M .replies) :
    ∃ t, execGetState s = .next t ∧ Moves M s t := by
  have hm := Moves.refl M s
  refine ⟨_, rfl, ?_⟩
  try dsimp only
  repeat' first
    | with_reducible assumption
    | intro _
    | with_reducible apply reply_moves
    | with_reducible apply taking_moves
    | with_reducible apply tested_moves
    | split

theorem applyItem_moves {M : Cell → Prop} {s₀ s₁ : State} {i : SiteItem} (hm : Moves M s₀ s₁)
    (hNotices : M .notices) (hCopies : M .copies) (hSiteIn : M .siteIn) (hTable : M .table)
    (hDecision : M .decision) (hVisitsIn : M .visitsIn) (hPortals : M .portals)
    (hPortalsIn : M .portalsIn) (hUnitsIn : M .unitsIn) (hCars : M .cars) (hLiftsIn : M .liftsIn)
    (hSeg : ∀ g, M (.segment g)) (hRouter : M .router) (hLines : M .lines) (hLinesIn : M .linesIn) :
    Moves M s₀ (applyItem s₁ i) := by
  unfold applyItem
  try dsimp only
  repeat' first
    | with_reducible assumption
    | exact hSeg _
    | exact fun l => l
    | exact .inl ‹_›
    | exact .inr rfl
    | exact .inr ⟨rfl, rfl⟩
    | exact .inr ⟨rfl, rfl, rfl⟩
    | exact .inr ⟨rfl, rfl, rfl, rfl⟩
    | exact .inr ⟨rfl, rfl, rfl, rfl, rfl, rfl⟩
    | intro _
    | with_reducible apply applySettings_moves
    | with_reducible apply applyNode_moves
    | with_reducible apply placePortal_moves
    | with_reducible apply placeCar_moves
    | with_reducible apply applyLine_moves
    | with_reducible apply takeParams_moves
    | split
    | with_reducible apply moves_site

theorem tellMirror_moves {M : Cell → Prop} {s₀ s₁ : State} {w : WriteOp} {ok : Bool} (hm : Moves M s₀ s₁)
    (hNotices : M .notices) (hMode : M .mode) (hCopies : M .copies) (hSiteIn : M .siteIn)
    (hTable : M .table) (hDecision : M .decision) (hVisitsIn : M .visitsIn) (hPortals : M .portals)
    (hPortalsIn : M .portalsIn) (hEntries : M .entries) (hUnitsIn : M .unitsIn) (hCars : M .cars)
    (hLiftsIn : M .liftsIn) (hSeg : ∀ g, M (.segment g)) (hRouter : M .router) (hLines : M .lines)
    (hLinesIn : M .linesIn) : Moves M s₀ (tellMirror w ok s₁) := by
  unfold tellMirror
  try dsimp only
  repeat' first
    | with_reducible assumption
    | exact hSeg _
    | with_reducible apply applyUnit_moves
    | with_reducible apply dropUnitEntry_moves
    | with_reducible apply resumeCommitted_moves
    | with_reducible apply applyItem_moves
    | split

theorem execWriteCompletion_moves {M : Cell → Prop} {ok : Bool} {s : State} (hServing : M .serving)
    (hReplies : M .replies) (hNotices : M .notices) (hSlots : M .slots) (hMode : M .mode)
    (hCopies : M .copies) (hSiteIn : M .siteIn) (hTable : M .table) (hDecision : M .decision)
    (hVisitsIn : M .visitsIn) (hPortals : M .portals) (hPortalsIn : M .portalsIn)
    (hEntries : M .entries) (hUnitsIn : M .unitsIn) (hCars : M .cars) (hLiftsIn : M .liftsIn)
    (hSeg : ∀ g, M (.segment g)) (hRouter : M .router) (hLines : M .lines) (hLinesIn : M .linesIn) :
    ∃ t, execWriteCompletion ok s = .next t ∧ Moves M s t := by
  have hm := Moves.refl M s
  refine ⟨_, rfl, ?_⟩
  split
  · exact hm
  · rename_i w hw
    dsimp only
    refine reply_moves (toSite_moves (tellMirror_moves ?_ hNotices hMode hCopies hSiteIn hTable hDecision
      hVisitsIn hPortals hPortalsIn hEntries hUnitsIn hCars hLiftsIn hSeg hRouter hLines hLinesIn) hSiteIn)
      hServing hReplies
    refine moves_store hm ?_ (.inl hSlots) ?_ ?_
    · intro l
      obtain ⟨k1, k2, k3, k4, k5, k6, k7, _⟩ := commitWrite_inForm w ok l (l.2.2.2.2.2.2.2 w hw)
      cases ok
      · exact ⟨Nat.min_le_left _ _, k2, k3, k4, k5, k6, k7, fun _ h => nomatch h⟩
      · exact ⟨k1, k2, k3, k4, k5, k6, k7, fun _ h => nomatch h⟩
    · cases ok <;> cases w <;> exact .inr rfl
    · cases ok <;> cases w <;> exact .inr rfl

theorem endClear_moves {M : Cell → Prop} {s₀ s₁ : State} {c : ClearOp} (hm : Moves M s₀ s₁)
    (hServing : M .serving) (hReplies : M .replies) (hNotices : M .notices) (hSlots : M .slots)
    (hCopies : M .copies) (hSiteIn : M .siteIn) (hTable : M .table) (hDecision : M .decision)
    (hVisitsIn : M .visitsIn) (hPortals : M .portals) (hPortalsIn : M .portalsIn)
    (hUnitsIn : M .unitsIn) (hCars : M .cars) (hLiftsIn : M .liftsIn) (hSeg : ∀ g, M (.segment g))
    (hRouter : M .router) (hLines : M .lines) (hLinesIn : M .linesIn) : Moves M s₀ (endClear c s₁) := by
  unfold endClear
  try dsimp only
  repeat' first
    | with_reducible assumption
    | exact hSeg _
    | exact fun l => l
    | exact .inl ‹_›
    | exact .inr rfl
    | exact .inr ⟨rfl, rfl⟩
    | exact .inr ⟨rfl, rfl, rfl⟩
    | exact .inr ⟨rfl, rfl, rfl, rfl⟩
    | exact .inr ⟨rfl, rfl, rfl, rfl, rfl, rfl⟩
    | intro _
    | with_reducible apply toSite_moves
    | with_reducible apply reply_moves
    | with_reducible apply applyItem_moves
    | with_reducible apply Moves.foldl
    | split
    | with_reducible apply moves_store

theorem completeBlock_moves {M : Cell → Prop} {s₀ s₁ : State} {c : ClearOp} {ok : Bool}
    (hm : Moves M s₀ s₁)
    (hServing : M .serving) (hReplies : M .replies) (hNotices : M .notices) (hSlots : M .slots)
    (hCopies : M .copies) (hSiteIn : M .siteIn) (hTable : M .table) (hDecision : M .decision)
    (hVisitsIn : M .visitsIn) (hPortals : M .portals) (hPortalsIn : M .portalsIn)
    (hEntries : M .entries) (hUnitsIn : M .unitsIn) (hCars : M .cars) (hLiftsIn : M .liftsIn)
    (hSeg : ∀ g, M (.segment g)) (hRouter : M .router) (hLines : M .lines) (hLinesIn : M .linesIn) :
    Moves M s₀ (completeBlock c ok s₁) := by
  have h : ∀ st : Store, st = (if ok then eraseStore c.table c.block ok s₁.store
      else failErase c.table c.block (eraseStore c.table c.block ok s₁.store)) →
      Moves M s₀ { s₁ with store := st } := by
    rintro st rfl
    refine moves_store hm ?_ (.inl hSlots) ?_ ?_
    · intro l
      have k := eraseStore_inForm c.table c.block ok l
      cases ok <;> first | exact k | exact ⟨k.1, Nat.min_le_left _ _, k.2.2⟩
    · cases ok <;> cases c.table <;> exact .inr rfl
    · cases ok <;> cases c.table <;> exact .inr rfl
  unfold completeBlock
  dsimp only
  have k := Moves.foldl (s := s₀) (m := M) (f := fun s u => dropUnitEntry u s)
    (fun t u h => dropUnitEntry_moves h hSiteIn hEntries hSeg hLinesIn)
    (if c.table = .unit then s₁.store.unitsIn c.block else []) _ (h _ rfl)
  split
  · exact moves_store k (fun l => l) (.inl hSlots) (.inr rfl) (.inr rfl)
  · exact endClear_moves k hServing hReplies hNotices hSlots hCopies hSiteIn hTable hDecision hVisitsIn
      hPortals hPortalsIn hUnitsIn hCars hLiftsIn hSeg hRouter hLines hLinesIn

theorem execBlockEraseCompletion_moves {M : Cell → Prop} {ok : Bool} {s : State} (hServing : M .serving)
    (hReplies : M .replies) (hNotices : M .notices) (hSlots : M .slots) (hCopies : M .copies)
    (hSiteIn : M .siteIn) (hTable : M .table) (hDecision : M .decision) (hVisitsIn : M .visitsIn)
    (hPortals : M .portals) (hPortalsIn : M .portalsIn) (hEntries : M .entries) (hUnitsIn : M .unitsIn)
    (hCars : M .cars) (hLiftsIn : M .liftsIn) (hSeg : ∀ g, M (.segment g)) (hRouter : M .router)
    (hLines : M .lines) (hLinesIn : M .linesIn) :
    ∃ t, execBlockEraseCompletion ok s = .next t ∧ Moves M s t := by
  have hm := Moves.refl M s
  refine ⟨_, rfl, ?_⟩
  try dsimp only
  repeat' first
    | with_reducible assumption
    | exact hSeg _
    | with_reducible apply completeBlock_moves
    | split

theorem execClearTable_moves {M : Cell → Prop} {s : State} (hServing : M .serving)
    (hReplies : M .replies) (hSlots : M .slots) :
    ∃ t, execClearTable s = .next t ∧ Moves M s t := by
  have hm := Moves.refl M s
  refine ⟨_, rfl, ?_⟩
  try dsimp only
  repeat' first
    | with_reducible assumption
    | exact fun l => l
    | exact .inl ‹_›
    | exact .inr rfl
    | exact .inr ⟨rfl, rfl⟩
    | exact .inr ⟨rfl, rfl, rfl⟩
    | exact .inr ⟨rfl, rfl, rfl, rfl⟩
    | exact .inr ⟨rfl, rfl, rfl, rfl, rfl, rfl⟩
    | intro _
    | with_reducible apply reply_moves
    | with_reducible apply working_moves
    | with_reducible apply takingStore_moves
    | with_reducible apply tested_moves
    | with_reducible apply unlessFaulted_moves
    | split
    | with_reducible apply moves_store

theorem execGetStore_moves {M : Cell → Prop} {s : State} (hServing : M .serving) (hReplies : M .replies)
    (hSlots : M .slots) :
    ∃ t, execGetStore s = .next t ∧ Moves M s t := by
  have hm := Moves.refl M s
  refine ⟨_, rfl, ?_⟩
  try dsimp only
  repeat' first
    | with_reducible assumption
    | exact fun l => l
    | exact .inl ‹_›
    | exact .inr rfl
    | exact .inr ⟨rfl, rfl⟩
    | exact .inr ⟨rfl, rfl, rfl⟩
    | exact .inr ⟨rfl, rfl, rfl, rfl⟩
    | exact .inr ⟨rfl, rfl, rfl, rfl, rfl, rfl⟩
    | exact fun l => ⟨Nat.zero_le _, Nat.zero_le _, l.2.2⟩
    | intro _
    | with_reducible apply reply_moves
    | with_reducible apply takingStore_moves
    | with_reducible apply tested_moves
    | split
    | with_reducible apply moves_store

theorem execClearStoreFault_moves {M : Cell → Prop} {s : State} (hServing : M .serving)
    (hReplies : M .replies) (hSlots : M .slots) :
    ∃ t, execClearStoreFault s = .next t ∧ Moves M s t := by
  have hm := Moves.refl M s
  refine ⟨_, rfl, ?_⟩
  try dsimp only
  repeat' first
    | with_reducible assumption
    | exact fun l => l
    | exact .inl ‹_›
    | exact .inr rfl
    | exact .inr ⟨rfl, rfl⟩
    | exact .inr ⟨rfl, rfl, rfl⟩
    | exact .inr ⟨rfl, rfl, rfl, rfl⟩
    | exact .inr ⟨rfl, rfl, rfl, rfl, rfl, rfl⟩
    | intro _
    | with_reducible apply reply_moves
    | with_reducible apply takingStore_moves
    | with_reducible apply tested_moves
    | split
    | with_reducible apply moves_store

theorem execGetDigest_moves {M : Cell → Prop} {s : State} (hServing : M .serving)
    (hReplies : M .replies) :
    ∃ t, execGetDigest s = .next t ∧ Moves M s t := by
  have hm := Moves.refl M s
  refine ⟨_, rfl, ?_⟩
  try dsimp only
  repeat' first
    | with_reducible assumption
    | intro _
    | with_reducible apply reply_moves
    | with_reducible apply takingStore_moves
    | with_reducible apply tested_moves
    | split

theorem execColdStart_moves {M : Cell → Prop} {hrate0 hrate1 : Bool} {s : State} (hHostRx : M .hostRx)
    (hLinkFaults : M .linkFaults) (hRate : M .rate) (hRequests : M .requests) (hServing : M .serving)
    (hReplies : M .replies) (hNotices : M .notices) (hSlots : M .slots) (hLookups : M .lookups)
    (hResults : M .results) (hMode : M .mode) (hFire : M .fire) (hDrain : M .drain)
    (hSeconds : M .seconds) (hClock : M .clock) (hCopies : M .copies) (hSiteIn : M .siteIn)
    (hTable : M .table) (hCounter : M .counter) (hDecision : M .decision) (hVisitsIn : M .visitsIn)
    (hPortals : M .portals) (hPortalsIn : M .portalsIn) (hEntries : M .entries)
    (hPresence : M .presence) (hUnitsIn : M .unitsIn) (hCars : M .cars)
    (hRecallFloor : M .recallFloor) (hLiftsIn : M .liftsIn)
    (hSeg : ∀ g, M (.segment g)) (hRouter : M .router) (hLines : M .lines) (hBeacon : M .beacon)
    (hLinesIn : M .linesIn) (hFreeCount : M .freeCount) :
    ∃ t, execColdStart hrate0 hrate1 s = .next t ∧ Moves M s t := by
  refine ⟨_, rfl, rfl, fun c hc => ?_, fun l => starting_inForm (cut_inForm s.freeCount l.store) _ _ _ _ _,
    fun _ => visits_blank, fun h => absurd hCounter h⟩
  cases c <;> first
    | exact absurd ‹M _› hc
    | exact absurd (hSeg _) hc

theorem execWarmRestart_moves {M : Cell → Prop} {s : State} (hHostRx : M .hostRx)
    (hLinkFaults : M .linkFaults) (hRequests : M .requests) (hServing : M .serving)
    (hReplies : M .replies) (hNotices : M .notices) (hSlots : M .slots) (hLookups : M .lookups)
    (hResults : M .results) (hMode : M .mode) (hFire : M .fire) (hDrain : M .drain)
    (hSeconds : M .seconds) (hCopies : M .copies) (hSiteIn : M .siteIn) (hTable : M .table)
    (hCounter : M .counter) (hDecision : M .decision) (hVisitsIn : M .visitsIn) (hPortals : M .portals)
    (hPortalsIn : M .portalsIn) (hEntries : M .entries) (hPresence : M .presence)
    (hUnitsIn : M .unitsIn) (hCars : M .cars) (hRecallFloor : M .recallFloor) (hLiftsIn : M .liftsIn)
    (hSeg : ∀ g, M (.segment g))
    (hRouter : M .router) (hLines : M .lines) (hBeacon : M .beacon) (hLinesIn : M .linesIn) :
    ∃ t, execWarmRestart s = .next t ∧ Moves M s t := by
  refine ⟨_, rfl, ?_⟩
  split
  · refine ⟨rfl, fun c hc => ?_, fun l => starting_inForm l.store _ _ _ _ _, fun _ => visits_blank,
      fun h => absurd hCounter h⟩
    cases c <;> first
      | exact absurd ‹M _› hc
      | exact absurd (hSeg _) hc
      | rfl
  · exact Moves.refl M s

theorem noteDamage_moves {M : Cell → Prop} {s₀ s₁ : State} {t : TableName} {before after : Nat}
    (hm : Moves M s₀ s₁)
    (hNotices : M .notices) : Moves M s₀ (noteDamage t before after s₁) := by
  unfold noteDamage
  try dsimp only
  repeat' first
    | with_reducible assumption
    | with_reducible apply putNotice_moves
    | split

theorem scanStore_moves {M : Cell → Prop} {s₀ s₁ : State} {decayed : List SlotRef} (hm : Moves M s₀ s₁)
    (hNotices : M .notices) (hSlots : M .slots) : Moves M s₀ (scanStore decayed s₁) := by
  have h : Moves M s₀ { s₁ with store := s₁.store.scanned decayed } :=
    moves_store hm (fun l => scanned_inForm decayed l) (.inl hSlots) (.inr rfl) (.inr rfl)
  unfold scanStore
  exact noteDamage_moves (noteDamage_moves (noteDamage_moves (noteDamage_moves h hNotices) hNotices)
    hNotices) hNotices

theorem fillCopies_moves {M : Cell → Prop} {s₀ s₁ : State} (hm : Moves M s₀ s₁)
    (hCopies : M .copies) (hPortals : M .portals) (hEntries : M .entries) (hCars : M .cars)
    (hSeg : ∀ g, M (.segment g)) : Moves M s₀ (fillCopies s₁) := by
  have h1 := moves_site (v := { s₁.site with
      params := s₁.store.params
      classes := (List.range 8).map s₁.store.cls
      windows := (List.range 15).map fun n => s₁.store.window (n + 1) }) hm (fun l => l) (.inr ⟨rfl, rfl, rfl⟩)
    (.inr ⟨rfl, rfl⟩) (.inr ⟨rfl, rfl, rfl, rfl, rfl, rfl⟩) (.inr rfl) (.inr rfl) (.inl hCopies)
    (.inr ⟨rfl, rfl, rfl⟩)
  have h2 := moves_portals (v := { s₁.portals with
      list := (List.range 8).map fun p => { Portal.blank with record := s₁.store.portal p } }) h1
    (.inl hPortals) (.inr ⟨rfl, rfl⟩)
  have h3 := moves_units (v := { s₁.units with
      entries := s₁.store.presentUnits.map fun e => (e.1, UnitEntry.fresh e.2 0) }) h2
    (fun l => sorted_map (sorted_presentUnits l.store) _ fun _ => rfl) (.inl hEntries) (.inr rfl)
    (.inr rfl)
  have h4 := moves_lifts (v := { s₁.lifts with
      cars := (List.range 4).map fun c => { Car.blank with record := s₁.store.car c } }) h3
    (fun _ x hx => by
      obtain ⟨c, _, rfl⟩ := List.mem_map.mp hx
      exact ⟨Nat.zero_le _, Nat.zero_le _, trip_none⟩)
    (.inl hCars) (.inr ⟨rfl, rfl⟩)
  have l : ∀ g, (s₁.store.startSegment g).inForm := fun g =>
    ⟨Nat.zero_le _, Nat.zero_le _, Nat.zero_le _, Nat.zero_le _, Nat.zero_le _, Nat.zero_le _,
      Nat.zero_le _, Nat.zero_le _, sorted_startNodes _ _ _, Nat.zero_le _, trivial⟩
  exact setSeg_moves (g := .c) (setSeg_moves (g := .b) (setSeg_moves (g := .a) h4 (fun _ => l .a)
    (hSeg _)) (fun _ => l .b) (hSeg _)) (fun _ => l .c) (hSeg _)

theorem startLines_moves {M : Cell → Prop} {s₀ s₁ : State} (hm : Moves M s₀ s₁)
    (hNotices : M .notices) (hSiteIn : M .siteIn) (hTable : M .table) (hVisitsIn : M .visitsIn)
    (hPortals : M .portals) (hPortalsIn : M .portalsIn) (hUnitsIn : M .unitsIn) (hLiftsIn : M .liftsIn)
    (hSeg : ∀ g, M (.segment g)) (hLines : M .lines) (hLinesIn : M .linesIn) : Moves M s₀
    (startLines s₁) := by
  have h := Moves.foldl (f := fun s n => takeUpLine n (s.store.line n) s)
    (fun t n h => takeUpLine_moves h hNotices hSiteIn hTable hVisitsIn hPortals hPortalsIn hUnitsIn hLiftsIn
      hSeg hLines hLinesIn) (List.range 12) _ hm
  unfold startLines
  dsimp only
  generalize (List.range 12).foldl _ s₁ = t at h
  exact moves_lines h (.inl hLines) (.inr ⟨rfl, rfl, rfl, rfl, rfl, rfl⟩) (.inr rfl)

theorem chooseMode_moves {M : Cell → Prop} {s₀ s₁ : State} (hm : Moves M s₀ s₁)
    (hNotices : M .notices) (hMode : M .mode) (hLinesIn : M .linesIn) : Moves M s₀ (chooseMode s₁) := by
  unfold chooseMode
  try dsimp only
  repeat' first
    | with_reducible assumption
    | with_reducible apply enterMode_moves
    | split

theorem execScanEnd_moves {M : Cell → Prop} {decayed : List SlotRef} {s : State} (hNotices : M .notices)
    (hSlots : M .slots) (hMode : M .mode) (hCopies : M .copies) (hSiteIn : M .siteIn)
    (hTable : M .table) (hVisitsIn : M .visitsIn) (hPortals : M .portals) (hPortalsIn : M .portalsIn)
    (hEntries : M .entries) (hUnitsIn : M .unitsIn) (hCars : M .cars) (hLiftsIn : M .liftsIn)
    (hSeg : ∀ g, M (.segment g)) (hLines : M .lines) (hLinesIn : M .linesIn) :
    ∃ t, execScanEnd decayed s = .next t ∧ Moves M s t := by
  refine ⟨_, rfl, ?_⟩
  split
  · exact reportSettled_moves (chooseMode_moves (toBeacon_moves (startLines_moves (fillCopies_moves
      (toSite_moves (scanStore_moves (Moves.refl M s) hNotices hSlots) hSiteIn) hCopies hPortals hEntries
      hCars hSeg) hNotices hSiteIn hTable hVisitsIn hPortals hPortalsIn hUnitsIn hLiftsIn hSeg hLines
      hLinesIn) hLinesIn) hNotices hMode hLinesIn) hSiteIn hLines
  · exact Moves.refl M s

end Sys2Proof.Machine
end

