-- ==== Sys2Proof/Laws/Records.lean ====
section
/-! SUPPORT. What a portal, a unit entry, a segment or a queue holds after each shared operation: the lemmas to
rewrite with, so that no proof unfolds an update twice. -/

namespace Sys2Proof.Machine

/-- A lookup after a change of the entry of one key. -/
theorem find_modify {α : Type} (t : Table α) (u f) (v : Nat) :
    (Table.modify t u f).find v = if v = u then (t.find v).map f else t.find v := by
  induction t with
  | nil => simp [Table.modify, Table.find]
  | cons a t ih =>
    obtain ⟨k, x⟩ := a
    unfold Table.modify at ih ⊢
    simp only [List.map_cons]
    by_cases hk : k = u
    · subst hk
      simp only [if_true, Table.find]
      by_cases hv : k = v
      · subst hv; simp
      · simp only [hv, if_false, ih]
    · simp only [hk, if_false, Table.find]
      by_cases hv : k = v
      · subst hv; simp [hk]
      · simp only [hv, if_false, ih]

/-- A portal after a change of portal `p`. -/
theorem portal_withPortal (p f) (s : State) (r : Nat) :
    (withPortal p f s).portal r = if r = p then (s.portal r).map f else s.portal r := by
  have : (withPortal p f s).portals.list = s.portals.list.modify p f := by
    unfold withPortal; dsimp only; repeat' split
    all_goals rfl
  unfold State.portal
  rw [this, List.getElem?_modify]
  by_cases h : r = p
  · subst h; simp
  · rw [if_neg h]
    have : ∀ o : Option Portal, (fun a => if p = r then f a else a) <$> o = o := by
      intro o; rw [show (fun a => if p = r then f a else a) = id from funext fun a => if_neg (
          fun e => h e.symm)]; cases o <;> rfl
    exact this _

/-- A change of a portal leaves site seconds, the mode and the host link. -/
theorem withPortal_others (p f) (s : State) : (withPortal p f s).site.seconds = s.site.seconds ∧
    (withPortal p f s).site.mode = s.site.mode ∧ (withPortal p f s).host = s.host := by
  unfold withPortal; dsimp only; repeat' split
  all_goals exact ⟨rfl, rfl, rfl⟩

/-- What a submission may change beside its segment: the reports to Site Control. -/
def submitCells : Cell → Prop := fun c => c = .siteIn ∨ ∃ g, c = .segment g

/-- A submission leaves the portals. -/
theorem portals_submit (g n fr p t s) : (submit g n fr p t s).portals.list = s.portals.list :=
  (submit_moves (M := submitCells) (Moves.refl _ _) (.inl rfl) (.inr ⟨g, rfl⟩)).keep
    (c := .portals) (by simp [submitCells])

/-- A strike order changes the strike field of its portal alone. -/
theorem portal_orderStrike (p r u) (s : State) (x : Nat) :
    (orderStrike p r u s).portal x =
      if x = p then (s.portal x).map (fun q => { q with strikeReleased := r }) else s.portal x := by
  rw [← portal_withPortal p (fun q => { q with strikeReleased := r }) s x]
  unfold orderStrike
  dsimp only
  split
  · rfl
  · split
    · rfl
    · unfold State.portal; rw [portals_submit]

/-- The end of an opening as one update of its portal (R74). -/
theorem endOpening_eq (p) (s : State) (q : Portal) (h : s.portal p = some q) :
    endOpening p s =
      withPortal p (fun x => { x with pending := none, passTimer := none, holdTimer := none })
        (match q.state, q.pending with
          | .opening, some v => toVisitsPortal (.noPassage p v) s
          | _, _ => s) := by
  unfold endOpening; rw [h]; try (dsimp only; congr 1)

/-- A change of the unit entries, field by field. -/
theorem withUnits_fields (f) (s : State) : (withUnits f s).units.entries = f s.units.entries ∧
    (withUnits f s).units.presence = s.units.presence ∧ (withUnits f s).site.seconds = s.site.seconds ∧
    (withUnits f s).host = s.host := by
  unfold withUnits; dsimp only; split <;> exact ⟨rfl, rfl, rfl, rfl⟩

/-- A unit entry after a change of the entry of unit `u`. -/
theorem unit_withUnit (u f) (s : State) (v) :
    (withUnit u f s).unit v = if v = u then (s.unit v).map f else s.unit v := by
  unfold withUnit State.unit; rw [(withUnits_fields _ _).1, find_modify]

/-- The members after an insertion into the presence set. -/
theorem mem_insertNat (t : Nat) (l : List Nat) (x : Nat) : x ∈ insertNat t l ↔ x = t ∨ x ∈ l := by
  induction l with
  | nil => simp [insertNat]
  | cons k l ih =>
    unfold insertNat
    split
    · simp
    · split
      · rename_i h; subst h; simp
      · simp only [List.mem_cons, ih]; constructor
        · rintro (h | h | h) <;> simp [h]
        · rintro (h | h | h) <;> simp [h]

/-- A change of a segment leaves the unit entries. -/
theorem unit_modSeg (s : State) (g f u) : (s.modSeg g f).unit u = s.unit u := by
  unfold State.modSeg State.setSeg; cases g <;> rfl

/-- A flag of two bytes, most significant byte first. -/
theorem flagBit_beNat (a b : Byte) (i : Nat) :
    flagBit (beNat [a, b]) i = if i < 8 then b.getLsbD i else a.getLsbD (i - 8) := by
  have e : beNat [a, b] = 2 ^ 8 * a.toNat + b.toNat := by simp [beNat]; omega
  have f : ∀ w, flagBit w i = w.testBit i := by
    intro w; rw [Nat.testBit_eq_decide_div_mod_eq]; unfold flagBit; rw [Bool.eq_iff_iff]; simp
  rw [f, e, Nat.testBit_two_pow_mul_add _ b.isLt]
  rfl

/-- What boards and what stays of a queue: the calls of the floor up to the capacity, in queue order (R126). -/
theorem takeCalls_splits (floor n : Nat) (q : List Call) :
    let r := takeCalls floor n q
    r.1 = (q.filter fun k => k.origin == floor).take n ∧ r.2.Sublist q ∧
    (r.2.filter fun k => k.origin == floor) = (q.filter fun k => k.origin == floor).drop n ∧
    (r.2.filter fun k => k.origin != floor) = q.filter fun k => k.origin != floor := by
  dsimp only
  induction q generalizing n with
  | nil => cases n <;> simp [takeCalls]
  | cons k q ih =>
    cases n with
    | zero => simp [takeCalls]
    | succ n =>
      unfold takeCalls
      by_cases hk : k.origin = floor
      · rw [if_pos hk]
        obtain ⟨a, b, c, d⟩ := ih n
        dsimp only
        have hb : (k.origin == floor) = true := by simpa using hk
        have hb2 : (k.origin != floor) = false := by simpa using hk
        simp only [List.filter_cons, hb, hb2, if_true]
        exact ⟨by rw [a]; rfl, b.cons _, by rw [c]; rfl, by simpa using d⟩
      · rw [if_neg hk]
        obtain ⟨a, b, c, d⟩ := ih (n + 1)
        dsimp only
        have hb : (k.origin == floor) = false := by simpa using hk
        have hb2 : (k.origin != floor) = true := by simpa using hk
        simp only [List.filter_cons, hb, hb2, if_true]
        exact ⟨by simpa using a, b.cons_cons _, by simpa using c, by simpa using d⟩

/-- The floor set of a list of calls, over a set already there. -/
theorem floorSet_fold (l : List Call) (w : Word16) (i : Nat) (hi : i < 16) :
    (l.foldl (fun w k => w ||| (1#16 <<< k.dest)) w).getLsbD i =
      (w.getLsbD i || decide (∃ k ∈ l, k.dest = i)) := by
  induction l generalizing w with
  | nil => simp
  | cons k l ih =>
    rw [List.foldl_cons, ih]
    have : (1#16 <<< k.dest).getLsbD i = decide (k.dest = i) := by
      simp [hi]
      by_cases h : k.dest = i
      · subst h; simp
      · by_cases h2 : i < k.dest
        · simp [h2]; omega
        · have : i - k.dest ≠ 0 := by omega
          simp [h, h2]
          omega
    rw [BitVec.getLsbD_or, this, Bool.or_assoc]
    simp [Bool.decide_or]

/-- The floor set holds the destinations of its calls (R127). -/
theorem floorSet_getLsbD (l : List Call) (i : Nat) (hi : i < 16) :
    (floorSet l).getLsbD i = true ↔ ∃ k ∈ l, k.dest = i := by
  unfold floorSet; rw [floorSet_fold _ _ _ hi]; simp

/-- A segment that has been set. -/
theorem seg_setSeg_self (s : State) (g x) : (s.setSeg g x).seg g = x := by cases g <;> rfl

/-- A segment that has been changed. -/
theorem seg_modSeg (s : State) (g f) : (s.modSeg g f).seg g = f (s.seg g) := seg_setSeg_self _ _ _

/-- A segment that has been changed with its busy report. -/
theorem seg_withSeg (s : State) (g f) : (withSeg g f s).seg g = f (s.seg g) := by
  unfold withSeg; dsimp only; split
  · exact seg_setSeg_self _ _ _
  · rw [toSite_seg]; exact seg_setSeg_self _ _ _

/-- A notice leaves every segment. -/
theorem seg_putNotice (n) (s : State) (g) : (putNotice n s).seg g = s.seg g := by
  unfold putNotice; split <;> (cases g <;> rfl)

/-- The youngest entry of a priority leaves the queue (R154). -/
theorem dropYoungest_splits (r : Priority) (q : List TxEntry) (h : ∃ y ∈ q, y.priority = r) :
   ∃ a y b, q = a ++ y :: b ∧ y.priority = r ∧ (∀ z ∈ b, z.priority ≠ r) ∧
       dropYoungest r q = (a ++ b, some y) := by
  have : ∃ y ∈ q.reverse, (y.priority == r) = true := by
    obtain ⟨y, h1, h2⟩ := h; exact ⟨y, List.mem_reverse.mpr h1, by simp [h2]⟩
  obtain ⟨y, h1, h2⟩ := this
  obtain ⟨y, a, b, hb, hy, hq, he⟩ := List.exists_of_eraseP (p := fun e : TxEntry => e.priority == r) h1 h2
  refine ⟨b.reverse, y, a.reverse, ?_, by simpa using hy,
      fun z hz => by simpa using hb z (List.mem_reverse.mp hz), ?_⟩
  · rw [← List.reverse_reverse q, hq]; simp
  · unfold dropYoungest
    have : q.reverse.find? (fun e => e.priority == r) = some y := by
      rw [hq, List.find?_append]
      have : a.find? (fun e => e.priority == r) = none := by
        rw [List.find?_eq_none]; exact hb
      rw [this]; simp [hy]
    rw [this]; dsimp only; rw [he]; simp

/-- An outcome handed to its owner changes three report lists of its segment at most. -/
theorem seg_handOutcome (g o t) (s : State) : ∃ a b c,
    (handOutcome g o t s).seg g = { s.seg g with toUnits := a, toPortals := b, toLifts := c } := by
  unfold handOutcome; dsimp only; split
  all_goals first
    | exact ⟨_, _, _, rfl⟩
    | (rw [seg_modSeg]; exact ⟨_, _, _, rfl⟩)

/-- The evaluation of a segment changes its state at most (R176). -/
theorem seg_evaluateSeg (g) (s : State) :
    ∃ st, (evaluateSeg g s).seg g = { s.seg g with state := st } := by
  unfold evaluateSeg; dsimp only; repeat' split
  all_goals first
   | (rw [seg_putNotice, seg_modSeg]; exact ⟨_, rfl⟩)
   | exact ⟨(s.seg g).state, rfl⟩

/-- A new transmit fault count with the state that follows from it. -/
theorem seg_setTxFaults (g n) (s : State) : ∃ st,
    (setTxFaults g n s).seg g = { s.seg g with txFaults := n, state := st } := by
  unfold setTxFaults
  obtain ⟨st, h⟩ := seg_evaluateSeg g (s.modSeg g fun x => { x with txFaults := n })
  rw [h, seg_modSeg]; exact ⟨st, rfl⟩

/-- A rate taken up changes the rate in use at most. -/
theorem seg_applyRate (g) (s : State) : ∃ r, (applyRate g s).seg g = { s.seg g with rateInUse := r } := by
  unfold applyRate; rw [seg_modSeg]; split <;> exact ⟨_, rfl⟩

/-- As `seg_handOutcome`, for the outcomes of several entries. -/
theorem seg_handOutcomes (g o) (es : List TxEntry) : ∀ (s : State), ∃ a b c,
    (handOutcomes g o es s).seg g = { s.seg g with toUnits := a, toPortals := b, toLifts := c } := by
  induction es with
  | nil => exact fun s => ⟨_, _, _, rfl⟩
  | cons e es ih =>
    intro s
    obtain ⟨a, b, c, h⟩ := seg_handOutcome g o e.token s
    obtain ⟨a', b', c', h'⟩ := ih (handOutcome g o e.token s)
    exact ⟨a', b', c', by unfold handOutcomes at h' ⊢; rw [List.foldl_cons, h', h]⟩

/-- The command in flight completed. -/
theorem seg_completeFlight (g o) (s : State) : ∃ a b c,
    (completeFlight g o s).seg g =
      { s.seg g with toUnits := a, toPortals := b, toLifts := c, inFlight := none } := by
  unfold completeFlight; split
  · rename_i h; exact ⟨(s.seg g).toUnits, (s.seg g).toPortals, (s.seg g).toLifts, by rw [← h]⟩
  · rename_i f h
    obtain ⟨a, b, c, e⟩ := seg_handOutcome g o f.entry.token (withSeg g (
        fun x => { x with inFlight := none }) s)
    exact ⟨a, b, c, by rw [e, seg_withSeg]⟩

/-- The whole transmit queue completed. -/
theorem seg_completeQueued (g o) (s : State) : ∃ a b c,
    (completeQueued g (fun _ => true) o s).seg g =
      { s.seg g with toUnits := a, toPortals := b, toLifts := c, queue := [] } := by
  unfold completeQueued
  obtain ⟨a, b, c, e⟩ := seg_handOutcomes g o ((s.seg g).queue.filter fun _ => true) (withSeg g (
      fun x => { x with queue := x.queue.filter fun e => !true }) s)
  exact ⟨a, b, c, by rw [e, seg_withSeg]; simp⟩

/-- A receive ring emptied, its reception ended. -/
theorem seg_emptyRing (g) (s : State) :
    (emptyRing g s).seg g = { s.seg g with ring := [], rx := .idle, overrunHeld := 0 } := by
  have : ∀ (t : State) r v, ({ t with router := r, visits := v } : State).seg g = t.seg g := by
    intro t r v; cases g <;> rfl
  have h2 : ∀ (t : State) r,
      ({ t with router := r } : State).seg g = t.seg g := by intro t r; cases g <;> rfl
  unfold emptyRing; dsimp only; repeat' split
  all_goals first
    | rw [seg_modSeg]
    | (rw [h2, seg_modSeg])
    | (rw [this, seg_modSeg])

/-- A loss told to its consumer changes three report lists of its segment at most. -/
theorem seg_tellLoss (g n e) (s : State) : ∃ a b c,
    (tellLoss g n e s).seg g = { s.seg g with toUnits := a, toPortals := b, toLifts := c } := by
  unfold tellLoss; dsimp only; split
  all_goals first
    | exact ⟨_, _, _, rfl⟩
    | (rw [seg_modSeg]; exact ⟨_, _, _, rfl⟩)

/-- As `seg_tellLoss`, for several nodes. -/
theorem seg_tellLosses (g) (es : Table NodeEntry) : ∀ (s : State), ∃ a b c,
    (tellLosses g es s).seg g = { s.seg g with toUnits := a, toPortals := b, toLifts := c } := by
  unfold tellLosses
  induction es with
  | nil => exact fun s => ⟨_, _, _, rfl⟩
  | cons e es ih =>
    intro s
    obtain ⟨a, b, c, h⟩ := seg_tellLoss g e.1 e.2 s
    obtain ⟨a', b', c', h'⟩ := ih (tellLoss g e.1 e.2 s)
    exact ⟨a', b', c', by rw [List.foldl_cons, h', h]⟩

/-- All nodes of a segment UNREACHABLE, their consumers told. -/
theorem seg_unreachNodes (g) (s : State) : ∃ a b c,
    (unreachNodes g s).seg g = { s.seg g with
      toUnits := a, toPortals := b, toLifts := c
      nodes := (s.seg g).nodes.map fun e =>
        (e.1, { e.2 with liveness := .unreachable, reportHeld := false }) } := by
  unfold unreachNodes
  obtain ⟨a, b, c, e⟩ := seg_tellLosses g (s.seg g).reached (s.modSeg g Segment.unreach)
  exact ⟨a, b, c, by rw [e, seg_modSeg]; rfl⟩

/-- The losses that waited for a copy have been told. -/
theorem seg_tellOwed (g) (s : State) : ∃ a b c, (tellOwed g s).seg g =
    { s.seg g with toUnits := a, toPortals := b, toLifts := c, lossesOwed := [] } := by
  obtain ⟨a, b, c, e⟩ := seg_tellLosses g (s.seg g).lossesOwed
    (s.modSeg g fun x => { x with lossesOwed := [] })
  exact ⟨a, b, c, by unfold tellOwed; rw [e, seg_modSeg]⟩

/-- A segment whose closing has ended (R144). -/
theorem seg_finishClosing (g) (s : State) : ∃ a b c,
    (finishClosing g s).seg g =
      { s.seg g with
        toUnits := a, toPortals := b, toLifts := c, inFlight := none, queue := []
        closing := false, sending := none, lossesOwed := [] } := by
  obtain ⟨o, ho⟩ : ∃ o, finishClosing g s = tellOwed g
      ((completeQueued g (fun _ => true) .nodeLost (completeFlight g o s)).modSeg g
        fun x => { x with closing := false, sending := none }) := ⟨_, rfl⟩
  rw [ho]
  obtain ⟨a1, a2, a3, e1⟩ := seg_completeFlight g o s
  obtain ⟨b1, b2, b3, e2⟩ := seg_completeQueued g .nodeLost (completeFlight g o s)
  obtain ⟨c1, c2, c3, e3⟩ := seg_tellOwed g
    ((completeQueued g (fun _ => true) .nodeLost (completeFlight g o s)).modSeg g
      fun x => { x with closing := false, sending := none })
  exact ⟨c1, c2, c3, by rw [e3, seg_modSeg, e2, e1]⟩

/-- A copy of an ACK that was clean takes the pending ack it carried. -/
theorem seg_ackSent (g) (s : State) : ∃ p, (ackSent g s).seg g = { s.seg g with pendingAck := p } ∧
    (∀ n k, (s.seg g).sending = some (.ack n k) → (s.seg g).pendingAck = some (n, k) → p = none) := by
  unfold ackSent; split
  · rename_i n q h
    rw [seg_modSeg]; split
    · exact ⟨none, rfl, fun _ _ _ _ => rfl⟩
    · rename_i hne
      refine ⟨_, rfl, fun n' k' h1 h2 => ?_⟩
      rw [h] at h1; cases h1; exact absurd h2 hne
  · rename_i h
    exact ⟨_, rfl, fun n k h1 _ => absurd h1 (h n k)⟩

/-- A copy that ends: the command in flight goes to its phase unless it is to end. -/
theorem seg_copyEnds (g ph) (s : State) : ∃ a b c d,
    (copyEnds g ph s).seg g =
      { s.seg g with toUnits := a, toPortals := b, toLifts := c, sending := none, inFlight := d } ∧
    (∀ f, (s.seg g).sending = some .command → (s.seg g).inFlight = some f → f.endAs = none →
      d = some { f with phase := ph }) := by
  unfold copyEnds; split
  · rename_i f h1 h2
    dsimp only
    split
    · rename_i o ho
      unfold completeFlight; rw [seg_modSeg]; dsimp only; rw [h2]; dsimp only
      obtain ⟨a, b, c, h⟩ := seg_handOutcome g o f.entry.token (withSeg g (
          fun x => { x with inFlight := none }) (s.modSeg g fun x => { x with sending := none }))
      refine ⟨a, b, c, none, ?_, fun f' e1 e2 e3 => ?_⟩
      · rw [h, seg_withSeg, seg_modSeg]
      · try rw [h2] at e2
        cases e2; rw [ho] at e3; exact nomatch e3
    · rename_i ho
      rw [seg_modSeg, seg_modSeg]
      exact ⟨_, _, _, _, rfl, fun f' e1 e2 e3 => by (try rw [h2] at e2); cases e2; rfl⟩
  · rename_i h
    rw [seg_modSeg]
    exact ⟨_, _, _, _, rfl, fun f e1 e2 e3 => absurd e2 (h f e1)⟩

end Sys2Proof.Machine
end

