-- ==== Sys2Proof/Laws/Requests.lean ====
section
/-! SUPPORT. What the operations that take up and answer a request do to one in hand, and to a state with no
such request (R27, R31, R208, R209). -/

namespace Sys2Proof.Machine

/-- A reply to the request in hand. -/
theorem reply_inHand {s : State} {f : Frame} (h : s.inHand f) (st : Status) (b : List Byte) :
    reply st b s = s.answered f st (if st = .ok then b else []) := by
  simp only [State.inHand] at h
  simp only [reply, replyAs, h, State.answered]

/-- A reply other than OK to the request in hand carries the status alone. -/
theorem reply_refused {s : State} {f : Frame} (h : s.inHand f) {st : Status} (hs : st ≠ .ok) (b : List Byte) :
    reply st b s = s.answered f st [] := by
  rw [reply_inHand h, if_neg hs]

/-- An OK reply to the request in hand carries its fields. -/
theorem reply_ok {s : State} {f : Frame} (h : s.inHand f) (b : List Byte) :
    reply .ok b s = s.answered f .ok b := by
  rw [reply_inHand h, if_pos rfl]

/-- The request in hand is kept by its owner. -/
theorem working_inHand {s : State} {f : Frame} (h : s.inHand f) : working s = s.kept f := by
  simp only [State.inHand] at h
  simp only [working, h, State.kept]

/-- The reply to a request that its owner has kept. -/
theorem reply_working {s : State} {f : Frame} (h : s.host.serving = some ⟨f, .working⟩) (st : Status)
    (b : List Byte) : reply st b s = s.answered f st (if st = .ok then b else []) := by
  simp only [reply, replyAs, h, State.answered]

/-- The request in hand is taken up by the rows of its kind. -/
theorem taking_inHand {s : State} {f : Frame} (h : s.inHand f) (k : List Byte → State → State) {kind : Nat}
    (hk : f.kind.toNat = kind) : taking kind k s = k f.body s := by
  simp only [State.inHand] at h
  simp only [taking, h, hk, if_true]

/-- With no request of its kind in hand a row does nothing. -/
theorem taking_other {s : State} {kind : Nat} {k : List Byte → State → State}
    (h : ∀ f, s.inHand f → f.kind.toNat ≠ kind) : taking kind k s = s := by
  unfold taking
  split
  · rename_i f e
    rw [if_neg (h f e)]
  · rfl

/-- A request that the store serves, with no lookup waiting and no result under way. -/
theorem takingStore_inHand {s : State} {f : Frame} (h : s.inHand f) (k : List Byte → State → State)
    {kind : Nat} (hk : f.kind.toNat = kind) (hl : s.store.lookups = [])
    (hr : s.store.results = []) : takingStore kind k s = k f.body s := by
  simp only [takingStore, hl, hr, List.isEmpty_nil, Bool.and_self, if_true]
  exact taking_inHand h k hk

/-- The head of the tests, passed. -/
theorem tested_ok {α : Type} {x : α} {m : Mode → Bool} {s : State} (k : α → State → State)
    (h : m s.site.mode = true) : tested (.ok x) m k s = k x s := if_pos h

/-- The mode test, failed. -/
theorem tested_mode {α : Type} {x : α} {m : Mode → Bool} {s : State} {f : Frame} (hf : s.inHand f)
    (k : α → State → State) (h : m s.site.mode = false) :
    tested (.ok x) m k s = s.answered f .wrongMode [] := by
  simp only [tested, h, Bool.false_eq_true, if_false]
  exact reply_refused hf (by decide) _

/-- The body test, failed. -/
theorem tested_error {α : Type} {e : Status} {m : Mode → Bool} {s : State} {f : Frame} (hf : s.inHand f)
    (k : α → State → State) (h : e ≠ .ok) :
    tested (.error e : Parsed α) m k s = s.answered f e [] := reply_refused hf h _

/-- A change of the store is refused while a sticky fault is set (R31). -/
theorem unlessFaulted_set {s : State} {f : Frame} (hf : s.inHand f) (k : State → State)
    (h : s.store.faulted = true) : unlessFaulted k s = s.answered f .storeFault [] := by
  simp only [unlessFaulted, h, if_true]
  exact reply_refused hf (by decide) _

/-- With no sticky fault a change of the store goes on. -/
theorem unlessFaulted_clear {s : State} (k : State → State) (h : s.store.faulted = false) :
    unlessFaulted k s = k s := by
  simp only [unlessFaulted, h, Bool.false_eq_true, if_false]

/-- Every mode but STARTING takes the request. -/
theorem outsideStarting_eq {m : Mode} (h : m ≠ .starting) : outsideStarting m = true := by
  cases m <;> first | rfl | exact absurd rfl h

/-- A write begun for the request in hand. -/
theorem beginWrite_inHand {s : State} {f : Frame} (h : s.inHand f) (w : WriteOp) :
    beginWrite w s = s.writing f w := by
  simp only [State.inHand] at h
  simp only [beginWrite, working, h, State.writing, State.kept]

/-- A frame in hand stays so under changes elsewhere. -/
theorem inHand_of_serving {s t : State} {f : Frame} (h : s.inHand f) (e : t.host.serving = s.host.serving) :
    t.inHand f := e.trans h

end Sys2Proof.Machine
end

