-- ==== Sys2Proof/Laws/Unshared.lean ====
section
/-! SUPPORT. Tenants that are not shared (R13, R44): what each operation of the store makes of them, what a lookup
reads of them, and the admission that keeps them at one visit. -/

namespace Sys2Proof.Machine

/-! ## The store -/

/-- A store that writes the same and keeps no other present tenant record makes no tenant more not shared. -/
theorem unshared_of_find {a b : Store} (hw : b.write = a.write)
    (hf : ∀ id r c, b.tenants.find id = some (.present r c) → a.tenants.find id = some (.present r c)) (id : Nat)
    (h : b.unshared id) : a.unshared id := by
  rcases h with ⟨r, c, h, hs⟩ | h
  · exact .inl ⟨r, c, hf _ _ _ h, hs⟩
  · exact .inr (hw ▸ h)

/-- A part of the store left alone. -/
theorem unshared_of_slots {s t : State} (h : Cell.same .slots s t) (id : Nat) (hu : t.store.unshared id) :
    s.store.unshared id := by
  have ht : t.store.tenants = s.store.tenants := (congrArg Store.tenants h : _)
  exact unshared_of_find (congrArg Store.write h : _) (fun _ _ _ he => ht ▸ he) id hu

/-- The write that completes made the tenant not shared before it did (R13, R29). -/
theorem unshared_commitWrite {w : WriteOp} {ok : Bool} {st : Store} (hw : st.write = some w) (id : Nat)
    (h : ({ commitWrite w ok st with state := .ready, write := none } : Store).unshared id) : st.unshared id := by
  rcases h with ⟨r, c, hf, hs⟩ | ⟨r, hr, _⟩
  · cases w with
    | tenant j n =>
      change Table.find (setSlot st.tenants j (n.map fun r => Slot.present r (tenantCheck j r)) .damaged ok) id = _
        at hf
      unfold setSlot at hf
      cases ok
      · rw [if_neg (by decide), find_put] at hf
        split at hf
        · cases hf
        · exact .inl ⟨r, c, hf, hs⟩
      · cases n with
        | none =>
          simp only [Option.map_none, if_true] at hf
          rw [find_remove] at hf
          split at hf
          · cases hf
          · exact .inl ⟨r, c, hf, hs⟩
        | some n =>
          simp only [Option.map_some, if_true] at hf
          rw [find_put] at hf
          split at hf
          · cases hf
            rename_i e
            subst e
            exact .inr ⟨r, hw, hs⟩
          · exact .inl ⟨r, c, hf, hs⟩
    | unit _ _ => exact .inl ⟨r, c, hf, hs⟩
    | credential _ _ _ => exact .inl ⟨r, c, hf, hs⟩
    | site _ _ => exact .inl ⟨r, c, hf, hs⟩
  · cases hr

/-- The erase of a block leaves no tenant record that was not there (R34, R36). -/
theorem find_eraseStore {t : TableName} {b : Nat} {ok : Bool} {st : Store} (id : Nat) (r : Tenant) (c : Word16)
    (h : (eraseStore t b ok st).tenants.find id = some (.present r c)) :
    st.tenants.find id = some (.present r c) := by
  cases t with
  | tenant =>
    change Table.find (eraseBlock .tenant b (fun _ => .damaged) ok st.tenants) id = _ at h
    unfold eraseBlock at h
    cases ok
    · rw [if_neg (by decide), find_map_if st.tenants (inBlock .tenant b) (fun _ => .damaged) id] at h
      split at h
      · cases hx : Table.find st.tenants id <;> rw [hx] at h <;> cases h
      · exact h
    · rw [if_pos rfl, find_filter st.tenants (fun k => !inBlock .tenant b k)] at h
      split at h
      · exact h
      · cases h
  | unit => exact h
  | credential => exact h
  | site => exact h

/-- The scan leaves no tenant record that was not there (R41). -/
theorem find_scanned {st : Store} {decayed : List SlotRef} (id : Nat) (r : Tenant) (c : Word16)
    (h : (st.scanned decayed).tenants.find id = some (.present r c)) :
    st.tenants.find id = some (.present r c) := by
  change Table.find (scanTable tenantCheck (fun k => decayed.contains (.tenant k)) st.tenants) id = _ at h
  unfold scanTable at h
  generalize st.tenants = tbl at h ⊢
  induction tbl with
  | nil => cases h
  | cons a tbl ih =>
    simp only [List.map_cons, Table.find] at h ⊢
    split at h
    · rename_i e
      rw [if_pos e]
      cases hx : a.2 with
      | damaged =>
        rw [hx] at h
        cases h
      | present x y =>
        rw [hx] at h
        simp only [scanSlot] at h
        split at h
        · cases h
        · exact h
    · rename_i e
      rw [if_neg e]
      exact ih h

/-! ## What a lookup reads (R9, R13) -/

/-- The tenant step of a lookup reads no tenant as shared that is not. -/
theorem lookupTenant_shared {st : Store} {id j : Nat} {t : Tenant} {missing : LookupResult}
    (hm : ∀ a b, missing ≠ .found a b) (h : st.lookupTenant id missing = .found j t) (hs : t.shared = true) :
    ¬ st.unshared j := by
  unfold Store.lookupTenant at h
  split at h
  · exact absurd h (hm _ _)
  · cases h
  · rename_i r c hf
    cases h
    have hf' : st.tenants.find id = some (.present r c) := by
      unfold Store.tenantSlot at hf
      split at hf
      · cases hf
      · exact hf
    have hr : r.shared = true := by
      unfold Store.readNotShared at hs
      split at hs
      · split at hs
        · cases hs
        · exact hs
      · exact hs
    rintro (⟨r', c', h', hs'⟩ | ⟨r', h', hs'⟩)
    · rw [hf'] at h'
      cases h'
      rw [hr] at hs'
      cases hs'
    · unfold Store.readNotShared at hs
      rw [h'] at hs
      simp [hs'] at hs

/-- A credential lookup reads no tenant as shared that is not. -/
theorem lookupCredential_shared {st : Store} {v : Word32} {j : Nat} {t : Tenant}
    (h : st.lookupCredential v = .found j t) (hs : t.shared = true) : ¬ st.unshared j := by
  unfold Store.lookupCredential at h
  split at h
  · exact lookupTenant_shared (by intro _ _ e; cases e) h hs
  · cases h
  · split at h
    · exact lookupTenant_shared (by intro _ _ e; cases e) h hs
    · cases h

/-! ## One visit of each (R44) -/

/-- No tenant more is not shared, no tenant gains a visit, and no result is new. -/
theorem holdOne_of {s t : State} (h : s.unsharedHoldOne) (hu : ∀ id, t.store.unshared id → s.store.unshared id)
    (hv : ∀ n, (t.visitsOf n).length ≤ (s.visitsOf n).length)
    (hr : ∀ r ∈ t.store.results, r ∈ s.store.results) : t.unsharedHoldOne :=
  ⟨fun id hi => Nat.le_trans (hv id) (h.visits id (hu id hi)),
    fun id x hx hs hi => h.results id x (hr _ hx) hs (hu id hi)⟩

/-- The parts outside the tenant records, the results and the visit number counter. -/
def Cell.noNewVisit (c : Cell) : Prop := c ≠ .slots ∧ c ≠ .results ∧ c ≠ .counter

/-- An operation that leaves the tenant records, the results and the counter alone. -/
theorem holdOne_moves {s t : State} (h : s.unsharedHoldOne) (hm : Moves Cell.noNewVisit s t) :
    t.unsharedHoldOne := by
  have e : t.store.results = s.store.results := hm.keep (c := .results) (by simp [Cell.noNewVisit])
  exact holdOne_of h (unshared_of_slots (hm.keep (by simp [Cell.noNewVisit])))
    (hm.fewer (by simp [Cell.noNewVisit])) (fun _ hr => e ▸ hr)

/-- A start leaves no visit and no result. -/
theorem holdOne_blank {s : State} (h1 : s.visits.table = []) (h2 : s.store.results = []) : s.unsharedHoldOne :=
  ⟨fun id _ => by
    unfold State.visitsOf
    rw [h1]
    exact Nat.zero_le _, fun id t h => by
    rw [h2] at h
    cases h⟩

/-- A lookup is served with a result that reads no tenant as shared that is not. -/
theorem holdOne_serveLookup {s : State} {rest : List Lookup} {r : LookupResult} (h : s.unsharedHoldOne)
    (hr : ∀ j t, r = .found j t → t.shared = true → ¬ s.store.unshared j) :
    (serveLookup rest r s).unsharedHoldOne := by
  refine ⟨h.visits, fun id t hx hs => ?_⟩
  change _ ∈ s.store.results ++ [r] at hx
  rcases List.mem_append.mp hx with hx | hx
  · exact h.results id t hx hs
  · exact hr _ _ (List.mem_singleton.mp hx).symm hs

theorem holdOne_refuseAdmission {p : Presentation} {why : Reason} {o : Option Nat} {s : State}
    (h : s.unsharedHoldOne) : (refuseAdmission p why o s).unsharedHoldOne := by
  refine holdOne_moves h ?_
  apply refuseAdmission_moves (Moves.refl _ _) <;> first
    | (intro g; simp [Cell.noNewVisit])
    | simp [Cell.noNewVisit]

/-- A grant to a tenant that is not shared finds no visit of it (R53, R54). -/
theorem holdOne_grantAdmission {p : Presentation} {id : Nat} {c : AccessClass} {s : State}
    (h : s.unsharedHoldOne) (hi : s.store.unshared id → s.visitsOf id = []) :
    (grantAdmission p id c s).unsharedHoldOne := by
  let n := freeNumber s.visits.table 97 s.visits.counter
  let v := newVisit n id p.asked.place s.site.seconds p.value c.dwellLimit (s.portalState p.asked.place == .free)
  let u : State := { s with visits :=
    { s.visits with table := s.visits.table ++ [v], counter := nextVisitNumber n } }
  have hm : Moves Cell.noNewVisit u (grantAdmission p id c s) := by
    have hd : Moves Cell.noNewVisit u (toUnits (.disarm id) u) :=
      toUnits_moves (Moves.refl _ _) (by simp [Cell.noNewVisit])
    show Moves Cell.noNewVisit u (endAdmission _ _ _ _ _)
    refine endAdmission_moves (showReader_moves ?_ ?_ ?_) ?_ ?_ ?_ ?_ ?_ ?_
    · show Moves Cell.noNewVisit u (if _ then _ else _)
      split
      · exact hd
      · exact toPortals_moves hd (by simp [Cell.noNewVisit])
    all_goals first
      | (intro g; simp [Cell.noNewVisit])
      | simp [Cell.noNewVisit]
  refine holdOne_moves (s := u) ⟨fun j hj => ?_, h.results⟩ hm
  show ((s.visits.table ++ [v]).filter fun w => w.tenant == j).length ≤ 1
  rw [List.filter_append, List.length_append]
  by_cases e : id = j
  · subst e
    have hn : (s.visits.table.filter fun w => w.tenant == id) = [] := hi hj
    rw [hn]
    exact Nat.le_trans (Nat.add_le_add_left (List.length_filter_le ..) _) (Nat.le_of_eq rfl)
  · have hv : (v.tenant == j) = false := by
      show (id == j) = false
      simpa using e
    simp only [List.filter_cons, hv, List.filter_nil]
    exact h.visits j hj

/-- Checks 7 and 8 and the grant keep a tenant that is not shared at one visit (R44, R53). -/
theorem holdOne_admitTenant {p : Presentation} {id : Nat} {t : Tenant} {s : State} (h : s.unsharedHoldOne)
    (ht : t.shared = true → ¬ s.store.unshared id) : (admitTenant p id t s).unsharedHoldOne := by
  unfold admitTenant
  dsimp only
  split
  · exact holdOne_refuseAdmission h
  · have hm : Moves Cell.noNewVisit s (supersede (s.conflicts p.value id t.shared) s) := by
      apply supersede_moves (Moves.refl _ _) <;> first
        | (intro g; simp [Cell.noNewVisit])
        | simp [Cell.noNewVisit]
    have hk := holdOne_moves h hm
    split
    · exact holdOne_refuseAdmission hk
    · split
      · exact holdOne_refuseAdmission hk
      · refine holdOne_grantAdmission hk fun hu => ?_
        have hn : t.shared = false := by
          cases e : t.shared
          · rfl
          · exact absurd (unshared_of_slots (hm.keep (by simp [Cell.noNewVisit])) id hu) (ht e)
        unfold State.visitsOf
        rw [List.filter_eq_nil_iff]
        intro w hw he
        obtain ⟨h1, h2⟩ := supersede_mem hw
        exact h2 w (List.mem_filter.mpr ⟨h1, by simp [hn, beq_iff_eq.mp he]⟩) rfl

end Sys2Proof.Machine
end

