-- ==== Sys2Proof/Tests/Slice0.lean ====
section
/-! SUPPORT. Tests: an ill-formed command for each check of well-formedness, a state and operands that meet
the hypotheses of each statement (each clause, at the ends of its ranges), and small steps of each family. -/

set_option Elab.async false

namespace Sys2Proof.Tests

open Sys2Proof Sys2Proof.Machine

/-! ## Small states -/

/-- The part in a mode with its store READY. -/
def up (m : Mode) : State :=
  let s := State.reset
  { s with site := { s.site with mode := m }, store := { s.store with state := .ready } }

/-- A frame of tag 7. -/
def fr (kind : Byte) (body : List Byte) : Frame := ⟨7, kind, body⟩

/-- A state whose Host Link has handed a request to its owner. -/
def ask (kind : Byte) (body : List Byte) (s : State) : State :=
  { s with host := { s.host with serving := some ⟨fr kind body, .handed⟩ } }

/-- A state whose owner keeps a request. -/
def kept (kind : Byte) (body : List Byte) (s : State) : State :=
  { s with host := { s.host with serving := some ⟨fr kind body, .working⟩ } }

/-- A state with a receiver inside a frame. -/
def inFrame (bytes : List Byte) : State :=
  let s := State.reset
  { s with host := { s.host with rx := .inFrame bytes } }

/-- A state with another store. -/
def stored (f : Store → Store) (s : State) : State := { s with store := f s.store }

/-- A tenant record of class 0. -/
def tenant (st : TenantStatus) (shared : Bool) : Tenant := ⟨st, 0, shared, []⟩

/-- A unit record on node 14 of segment B for tenant 17. -/
def unitRec (channel : Nat) : UnitRec := ⟨12, .b, 14, channel, 17, false⟩

/-- A visit of tenant 17. -/
def visit (number : Nat) (st : Stage) : Visit where
  number := number
  tenant := 17
  value := 0xA1
  stage := st
  entryPortal := 7
  admittedAt := 0
  dwellDeadline := none
  overstayed := false
  returnStage := none
  exitPortal := none
  call := none
  unitsOpened := []
  openedCount := 0
  lastSeen := ⟨.portal, 7, 0⟩

/-- A state with these visits. -/
def visiting (l : List Visit) (s : State) : State := { s with visits := { s.visits with table := l } }

/-- A present portal in a state, with a drive. -/
def gate (st : PortalState) (d : Drive) : Portal :=
  { Portal.blank with record := ⟨{ PortalRec.blank with present := true, drive := d }, false⟩, state := st }

/-- A state whose portal 7 is another. -/
def withGate (q : Portal) (s : State) : State :=
  { s with portals := { s.portals with list := s.portals.list.set 7 q } }

/-- A unit entry of channel 15. -/
def entry (st : UnitState) : UnitEntry := ⟨unitRec 15, st, .closed, .engaged, false, none, 0⟩

/-- A state whose unit 4095 has an entry. -/
def withEntry (e : UnitEntry) (s : State) : State := { s with units := { s.units with entries := [(4095, e)] } }

/-- A present car on node 9 of segment C that serves floors 0 to 15. -/
def lift (st : CarState) : Car :=
  { Car.blank with
    record := ⟨⟨true, .c, 9, 0, 15, 4, 10⟩, false⟩, state := st
    cause := if st = .out then some .node else none }

/-- A state whose car 3 is another. -/
def withLift (x : Car) (s : State) : State :=
  { s with lifts := { s.lifts with cars := s.lifts.cars.set 3 x } }

/-- A call from floor 2 to floor 15. -/
def call (id : Nat) : Call := ⟨id, 2, 15, 0, 0, 0⟩

/-- A node of a kind, LIVE. -/
def node (k : NodeKind) (b : Binding) : Node := ⟨⟨k, b⟩, .live, 0, 0, false, 0, [], false, false⟩

/-- A state whose segment C is another. -/
def withC (f : Segment → Segment) (s : State) : State := { s with segC := f s.segC }

/-- A running segment with one node. -/
def live (n : Node) (x : Segment) : Segment := { x with state := .active, nodes := [(9, n)] }

/-- A transmit queue entry for node 9. -/
def poll : TxEntry := ⟨9, .poll, .poll, .poll, none, 0⟩

/-- A command entry for node 9. -/
def stand (p : Priority) : TxEntry := ⟨9, .command .stand, p, .lift 3 .stand, some 0, 0⟩

/-- A state whose line 11 is another. -/
def withLine (l : Line) (s : State) : State :=
  { s with lines := { s.lines with list := s.lines.list.set 11 l } }

/-- A line of a function. -/
def line (f : LineFunction) (deb : Option Level) : Line :=
  { Line.blank .low with record := ⟨⟨f, .low, false⟩, false⟩, debounced := deb }

/-- The value a body gives, if it fits. -/
def got {α : Type} : Parsed α → Option α
  | .ok x => some x
  | .error _ => none

theorem ok_of_got {α : Type} {p : Parsed α} {x : α} (h : got p = some x) : p = .ok x := by
  cases p <;> simp_all [got]

/-! ## Well-formedness -/

theorem test_wf_scanEnd : (Instr.scanEnd [.tenant 0]).wf = false ∧ (Instr.scanEnd [.tenant 2049]).wf = false ∧
    (Instr.scanEnd [.unit 4096]).wf = false ∧ (Instr.scanEnd [.credential 4096]).wf = false ∧
    (Instr.scanEnd [.site 10 0]).wf = false ∧ (Instr.scanEnd [.site 9 62]).wf = false ∧
    (Instr.scanEnd [.tenant 2048, .unit 0, .credential 4095, .site 9 61]).wf = true := by decide
theorem test_wf_visits : (Instr.dwellDeadline 0).wf = false ∧ (Instr.dwellDeadline 65536).wf = false ∧
    (Instr.callExpiry 0).wf = false ∧ (Instr.callExpiry 65536).wf = false ∧
    (Instr.callExpiry 65535).wf = true := by decide
theorem test_wf_timers : (Instr.passTimerExpiry 8).wf = false ∧ (Instr.holdTimerExpiry 8).wf = false ∧
    (Instr.releaseTimerExpiry 4096).wf = false ∧ (Instr.boardingTimerExpiry 4).wf = false ∧
    (Instr.boardingTimerExpiry 3).wf = true := by decide
theorem test_wf_lines : (Instr.linePinChange 12 .high).wf = false ∧
    (Instr.debounceTimerExpiry 12).wf = false ∧
    (Instr.lineSettleTimeout 12).wf = false ∧ (Instr.lineSettleTimeout 11).wf = true := by decide
theorem test_no_word_spells_a_command : decodeTableWord 8 0x5A = none := by decide

/-! ## Hypotheses of the statements about the machine -/

theorem test_meets_idle : State.reset.pending = [] := rfl
theorem test_meets_footprint : ∃ t, exec .siteSecondTick State.reset = .next t ∧
    Cell.table ∉ footprint .siteSecondTick := ⟨_, rfl, by decide⟩
theorem test_meets_invariants : ∃ s t : State, step s = .next t ∧ s.inForm ∧ s.visits.inForm ∧
    s.digestsKept :=
  ⟨State.starting [.siteSecondTick] 0 Store.blank.scanning none [] 0, _, rfl,
    starting_inForm
      ⟨by decide, by decide, by unfold Table.sorted; decide, by unfold Table.sorted; decide,
        by unfold Table.sorted; decide, by unfold Table.sorted; decide, by simp [Store.blank],
        by simp [Store.blank]⟩ _ _ _ _ _, visits_blank, fun _ => ⟨rfl, rfl, rfl⟩,
    fun h => (h rfl).elim⟩

/-- Tenant 17, not shared, holds one visit, and a result reads tenant 18 as shared. -/
def holding17 : State :=
  { stored (fun st => { st with
      tenants := [(17, .present (tenant .current false) 0), (18, .present (tenant .current true) 0)]
      results := [.found 18 (tenant .current true)] }) (visiting [visit 1 .onSite] (up .run)) with
    pending := [.siteSecondTick] }
theorem test_meets_holdOne : ∃ t : State, step holding17 = .next t ∧ holding17.unsharedHoldOne ∧
    holding17.store.unshared 17 ∧ (holding17.visitsOf 17).length = 1 :=
  ⟨_, rfl, ⟨fun _ _ => List.length_filter_le _ _, fun id t h _ hu => by
      cases List.mem_singleton.mp h
      rcases hu with ⟨r, c, hf, hs⟩ | ⟨r, hw, _⟩
      · cases (show some (Slot.present (tenant .current true) 0) = _ from hf)
        cases hs
      · cases hw⟩, .inl ⟨_, _, rfl, rfl⟩, rfl⟩

/-! ## The host line -/

theorem test_meets_receiver : State.reset.host.rx = .hunting ∧ (inFrame []).host.rx = .inFrame [] ∧
    (1 : Byte).toNat < 2 ∧ 200 < (201 : Byte).toNat ∧ 2 ≤ (2 : Byte).toNat ∧ (200 : Byte).toNat ≤ 200 ∧
    (inFrame [2, 7, 4]).host.rx = .inFrame [2, 7, 4] ∧ [(7 : Byte), 4].length + 1 < 2 + 2 ∧
    (inFrame [2, 7, 4, 0]).host.rx = .inFrame ([2, 7, 4] ++ [0]) ∧
    (crc16 [2, 7, 4]).toNat ≠ 256 * (0 : Byte).toNat + (0 : Byte).toNat := by decide +kernel
/-- A HOLD frame with its check. -/
def goodFrame : List Byte := [2, 7, 4, 0x7B]
theorem test_meets_goodFrame : (inFrame goodFrame).host.rx = .inFrame (2 :: 7 :: 4 :: [] ++ [0x7B]) ∧
    (crc16 [2, 7, 4]).toNat = 256 * (0x7B : Byte).toNat + (0xEF : Byte).toNat ∧
    (inFrame goodFrame).host.requests.length < 4 ∧ (inFrame goodFrame).host.serving = none ∧
    (kept 4 [] (inFrame goodFrame)).host.serving.isSome := by decide +kernel
/-- A Host Link with its queue full, and `n` refusals. -/
def fullHost (n : Nat) : State :=
  let s := inFrame goodFrame
  { s with host :=
    { s.host with
      requests := List.replicate 4 (fr 4 []), replies := List.replicate n ⟨.refusal, 7, 0x84, [1]⟩ } }
theorem test_meets_fullQueues : 4 ≤ (fullHost 7).host.requests.length ∧
    (fullHost 7).host.refusals.length < 8 ∧ 8 ≤ (fullHost 8).host.refusals.length := by decide
/-- A state with one reply of a role. -/
def replying (r : ReplyRole) (q : List Frame) : State :=
  let s := State.reset
  { s with host :=
    { s.host with
      serving := some ⟨fr 2 [], .replied⟩, requests := q, replies := [⟨r, 7, 0x82, [0]⟩] } }
theorem test_meets_replies : (ask 0xFF [] (up .run)).inHand (fr 0xFF []) ∧ 0xFF ∉ catalogue ∧
    0x04 ∈ catalogue ∧
    (replying .refusal []).host.replies = [⟨.refusal, 7, 0x82, [0]⟩] ∧
    (replying .served [fr 4 []]).host.replies = [⟨.served, 7, 0x82, [0]⟩] ∧
    (replying .served [fr 4 []]).host.requests = [fr 4 []] ∧ (replying .served []).host.requests = [] ∧
    (replying .restart []).host.replies = [⟨.restart, 7, 0x82, [0]⟩] := by decide
theorem test_warm_restart_needs_its_reply : exec .warmRestart (up .run) = .next (up .run) ∧
    ∃ t, exec .warmRestart (replying .restart []) = .next t ∧ t.host.replies = [] :=
  ⟨rfl, _, rfl, rfl⟩
/-- A state with `n` notices. -/
def noticed (n : Nat) : State :=
  let s := State.reset
  { s with host := { s.host with notices := List.replicate n ⟨0, .egress 0⟩ } }
theorem test_meets_notices : (noticed 63).host.notices.length < 64 ∧ 64 ≤ (noticed 64).host.notices.length ∧
    (noticed 1).attn = true ∧ (noticed 1).host.notices ≠ [] := by decide
theorem test_meets_identify : (ask 1 [0] State.reset).inHand (fr 1 [0]) ∧
    (ask 1 [1] State.reset).inHand (fr 1 [1]) ∧ (ask 0x0A [] State.reset).inHand (fr 0x0A []) := by decide
theorem test_identify_answers : ∃ t, exec .identify (ask 1 [1] State.reset) = .next t ∧
    t.host.replies.map Reply.kind = [0x81] := ⟨_, rfl, by decide +kernel⟩
theorem test_meets_starts : State.reset.store.write = none ∧ State.reset.store.clear = none ∧
    (ask 2 [] (up .setup)).inHand (fr 2 []) ∧ (up .setup).site.mode ≠ .starting := by decide
theorem test_cold_start_takes_the_straps : ∃ t, exec (.coldStart true false) (noticed 1) = .next t ∧
    t.host.rate = 1 ∧ t.host.notices = [] := ⟨_, rfl, rfl, rfl⟩

/-! ## Requests as such -/

theorem test_meets_requestTests : ∃ row, Request.ofCommand .putSite = some row ∧
    (ask 9 [] (up .run)).inHand (fr 9 []) ∧ (9 : Byte).toNat = row.kind ∧ row.mine [] = true ∧
    (up .run).store.lookups = [] ∧ row.verdict [] = some .badFormat ∧
    row.verdict [5, 0, 120, 0, 20, 1] = none ∧ row.takenIn [5, 0, 120, 0, 20, 1] .run = false ∧
    row.takenIn [5, 0, 120, 0, 20, 1] .setup = true ∧ row.changes = true ∧
    (stored (fun st => { st with writeFault := true }) (up .setup)).store.faulted = true :=
  ⟨_, rfl, by decide +kernel⟩
theorem test_meets_requestWaits : ∃ row, Request.ofCommand .putSite = some row ∧
    (∀ f, (up .setup).inHand f → f.kind.toNat = row.kind → row.mine f.body = false) ∧
    row.atStore = true ∧
    (stored (fun st => { st with lookups := [.tenant 1] }) (up .setup)).store.lookups ≠ [] :=
  ⟨_, rfl, fun _ h => (nomatch h), by decide +kernel⟩
theorem test_meets_bodies : [(0 : Byte)].length ≠ 2 ∧ [(0 : Byte)].length ≠ 4 := by decide
theorem test_bodies_at_their_ends : got (parseOne 2 0 4095 [0x0F, 0xFF]) = some 4095 ∧
    verdict (parseOne 2 0 4095 [0x10, 0]) = some .badValue ∧
    verdict (parseOne 2 1 65535 [0, 0]) = some .badValue ∧
    got (parseSetClock [6, 5, 0x9F, 59]) = some ⟨6, 1439, 59⟩ ∧
    verdict (parseSetClock [6, 5, 0xA0, 59]) = some .badValue := by decide +kernel
theorem test_meets_reads : (ask 3 [] State.reset).inHand (fr 3 []) ∧ 95 ≤ 95 ∧
    (withGate (gate .secure .lines) (up .run)).portal 7 = some (gate .secure .lines) ∧
    (withLift (lift .idle) (up .run)).car 3 = some (lift .idle) ∧ (up .run).store.lookups = [] ∧
    (up .run).store.tenantSlot 2048 = none ∧ (up .run).store.unitSlot 4095 = none ∧
    (withEntry (entry .armed) (up .run)).unit 4095 = some (entry .armed) := by decide +kernel
theorem test_meets_numbers : parseTenantId [8, 0] = .ok 2048 ∧ parseUnitNumber [0x0F, 0xFF] = .ok 4095 ∧
    parseSegNode [2, 62] = .ok (.c, 62) ∧ parseSegFlag [2, 0] = .ok (.c, false) ∧
    parseSegFlag [2, 1] = .ok (.c, true) := by
  refine ⟨?_, ?_, ?_, ?_, ?_⟩ <;> exact ok_of_got (by decide +kernel)
/-- A store with one record of each kind. -/
def filled (st : Store) : Store :=
  { st with
    tenants := [(17, .present (tenant .current false) 0), (2048, .damaged)]
    units := [(1, .damaged), (4095, .present (unitRec 15) 0)]
    creds := [(0, .present 0xA1 17 0), (1, .damaged 0xA2)] }
theorem test_meets_records : (stored filled (up .run)).store.tenantSlot 2048 = some .damaged ∧
    (stored filled (up .run)).store.tenantSlot 17 = some (.present (tenant .current false) 0) ∧
    (stored filled (up .run)).store.unitSlot 1 = some .damaged ∧
    (stored filled (up .run)).store.unitSlot 4095 = some (.present (unitRec 15) 0) ∧
    (stored filled (up .run)).store.credSlot 0xA1 = some (0, .present 0xA1 17 0) ∧
    (stored filled (up .run)).store.credSlot 0xA2 = some (1, .damaged 0xA2) ∧
    (stored filled (up .run)).store.credSlot 0xA3 = none := by decide +kernel
theorem test_meets_getVisit : (ask 0x31 [0xFF, 0xFF] (up .run)).inHand (fr 0x31 [0xFF, 0xFF]) ∧
    256 * (0xFF : Byte).toNat + (0xFF : Byte).toNat = 65535 ∧ 256 * (0 : Byte).toNat + (0 : Byte).toNat = 0 ∧
    (∀ v ∈ (visiting [visit 1 .onSite] (up .run)).visits.table, v.number ≠ 65535) ∧
    (visiting [visit 65535 .onSite] (up .run)).visit 65535 = some (visit 65535 .onSite) := by decide +kernel
theorem test_meets_clearingReads : (ask 0x21 [1] (up .run)).inHand (fr 0x21 [1]) ∧
    (up .run).node .c 62 = none ∧
    (withC (live (node .carPanel (.car 3))) (up .run)).node .c 9 =
    some (node .carPanel (.car 3)) := by decide +kernel

/-! ## Modes and clocks -/

theorem test_meets_setClock : (ask 8 [6, 5, 0x9F, 59] (up .run)).inHand (fr 8 [6, 5, 0x9F, 59]) ∧
    256 * (5 : Byte).toNat + (0x9F : Byte).toNat ≤ 1439 ∧
    1439 < 256 * (5 : Byte).toNat + (0xA0 : Byte).toNat ∧
    6 < (7 : Byte).toNat ∧ 59 < (60 : Byte).toNat ∧ State.reset.site.mode = .starting := by decide
/-- A part at some site seconds with a wall clock. -/
def at_ (n : Nat) (c : Option Clock) : State :=
  let s := up .run
  { s with site := { s.site with seconds := n, clock := c } }
theorem test_meets_seconds : (at_ 4294967294 none).site.seconds < 4294967295 ∧
    4294967295 ≤ (at_ 4294967295 none).site.seconds ∧
    (at_ 0 (some ⟨6, 1439, 59⟩)).site.clock = some ⟨6, 1439, 59⟩ := by decide
theorem test_the_week_turns : exec .siteSecondTick (at_ 0 (some ⟨6, 1439, 59⟩)) =
    .next (at_ 1 (some ⟨0, 0, 0⟩)) := rfl
theorem test_meets_hold : (ask 4 [] (up .run)).inHand (fr 4 []) ∧ (up .run).site.mode = .run ∧
    (up .setup).site.mode = .setup ∧ (up .evacuate).site.mode = .evacuate := by decide
theorem test_meets_resume : (ask 5 [] (up .setup)).inHand (fr 5 []) ∧ (up .setup).store.lookups = [] ∧
    (stored (fun st => { st with clearFault := true }) (up .setup)).store.clearFault = true ∧
    (stored (fun st => { st with site := [(SiteItem.marker.key, .present (.marker true) 0)] })
      (up .setup)).store.item .marker = ⟨.marker true, false⟩ ∧
    (up .setup).store.item .marker ≠ ⟨.marker true, false⟩ := by decide +kernel
/-- A part with one fire report on its way. -/
def fireSays (r : FireReport) (m : Mode) : State :=
  let s := up m
  { s with site := { s.site with fireReports := [r] } }
theorem test_meets_evacuation : (ask 6 [] (up .draining)).inHand (fr 6 []) ∧
    (fireSays (.change true) .run).site.fireReports = [.change true] ∧
    (fireSays (.settled false) .run).site.fireReports = [.settled false] := by decide
theorem test_fire_begins_an_evacuation : ∃ t, exec .fireInputChange (fireSays (.change true) .run) = .next t ∧
    t.site.mode = .evacuate ∧ t.site.returnMode = some .run ∧ t.site.evacCause = some .fire :=
  ⟨_, rfl, by decide +kernel⟩
/-- An evacuation about to end, with the fire input at a level. -/
def ending (fire : Bool) : State :=
  let s := ask 7 [] (up .evacuate)
  { s with
    site := { s.site with returnMode := some .run, closuresAnswer := true }
    visits := { s.visits with orders := [.end_] }
    lines := { s.lines with fireInput := fire } }
theorem test_meets_evacuationEnd : (ending true).inHand (fr 7 []) ∧ (ending true).site.mode = .evacuate ∧
    (ending true).lines.fireInput = true ∧ (ending false).lines.fireInput = false ∧
    (ending false).visits.orders = [.end_] ∧ (ending false).site.closuresAnswer = true ∧
    (ending false).site.returnMode = some .run ∧
    (kept 7 [] (ending false)).host.serving = some ⟨fr 7 [], .working⟩ := by decide
/-- A drain with one report on its way. -/
def draining (r : SiteReport) (owed : Nat) : State :=
  let s := up .draining
  { s with site := { s.site with reports := [r], drainOwed := owed } }
theorem test_meets_drain : (draining .drainAnswer 1).site.reports = [.drainAnswer] ∧
    (draining (.segment .c false) 0).site.reports = [.segment .c false] := by decide
theorem test_the_drain_ends : (∃ t, exec .drainAnswer (draining .drainAnswer 1) = .next t ∧
    t.site.mode = .setup) ∧ ∃ t, exec .busyReport (draining (.cars true) 0) = .next t ∧
      t.site.mode = .draining := ⟨⟨_, rfl, by decide +kernel⟩, _, rfl, by decide +kernel⟩

/-! ## The store -/

/-- A part with one lookup waiting at a filled store. -/
def looking (l : Lookup) : State := stored (fun st => { filled st with lookups := [l] }) (up .run)
/-- A pattern that every value matches. -/
def anyValue (st : Store) : Store :=
  { st with site := [((SiteItem.pattern 7).key, .present (.pattern ⟨0, 0, 17, true⟩) 0)] }
theorem test_meets_lookups : (looking (.tenant 17)).store.lookups = [.tenant 17] ∧
    (looking (.credential 0xA1)).store.credSlot 0xA1 = some (0, .present 0xA1 17 0) ∧
    (looking (.credential 0xA2)).store.credSlot 0xA2 = some (1, .damaged 0xA2) ∧
    (looking (.credential 0xA3)).store.credSlot 0xA3 = none ∧
    (∀ j ∈ List.range 8, ((looking (.credential 0xA3)).store.pattern j).enabled = false) ∧
    ((stored anyValue (up .run)).store.pattern 7).enabled = true ∧
    (∀ j ∈ List.range 7, ((stored anyValue (up .run)).store.pattern j).enabled = false) := by decide +kernel
theorem test_lookup_finds : ∃ t, exec .credentialLookup (looking (.credential 0xA1)) = .next t ∧
    t.store.results = [.found 17 (tenant .current false)] := ⟨_, rfl, by decide +kernel⟩
/-- A part whose window 1 is another. -/
def windowed (w : Marked Window) (c : Option Clock) : State :=
  let s := at_ 0 c
  { s with site := { s.site with windows := s.site.windows.set 14 w } }
theorem test_meets_windows :
    (windowed ⟨⟨1, 0, 1440⟩, true⟩ none).site.windows[14]? = some ⟨⟨1, 0, 1440⟩, true⟩ ∧
    (windowed ⟨⟨1, 0, 1440⟩, false⟩ none).site.clock = none ∧
    (windowed ⟨⟨1, 0, 1440⟩, false⟩ (some ⟨0, 1439, 59⟩)).site.clock = some ⟨0, 1439, 59⟩ := by
  decide +kernel
theorem test_window_over_midnight : (windowed ⟨⟨0x40, 1380, 60⟩, false⟩ (some ⟨0, 59, 0⟩)).window 15 =
    .inside ∧
    (windowed ⟨⟨0x40, 1380, 60⟩, false⟩ (some ⟨0, 60, 0⟩)).window 15 = .outside := by decide +kernel
theorem test_meets_siteItems : parsePutSite [3, 2, 0x58, 15, 250, 1] = .ok ⟨3, 600, 15, 250, true⟩ ∧
    parsePutPattern [7, 0, 0, 0, 1, 0, 0, 0, 2, 8, 0, 1] = .ok (7, ⟨1, 2, 2048, true⟩) ∧
    parsePutClass [7, 15, 1, 5, 0xA0, 3, 1, 1] = .ok (7, ⟨15, 1, 1440, 3, true, .lenient⟩) ∧
    parsePutWindow [15, 0, 0x7F, 5, 0x9F, 0, 0] = .ok (15, ⟨0x7F, 1439, 0⟩) ∧
    parsePutCar [3, 1, 2, 62, 0, 15, 4, 60] = .ok (3, ⟨true, .c, 62, 0, 15, 4, 60⟩) ∧
    parsePutSegment [2, 1, 2, 0x58, 0, 1, 255, 7, 0, 20] = .ok (.c, ⟨true, 153600, 1, 255, 7, 20⟩) := by
  refine ⟨?_, ?_, ?_, ?_, ?_, ?_⟩ <;> exact ok_of_got (by decide +kernel)
/-- A part whose store holds a SITE item. -/
def holding (i : SiteItem) (v : SiteValue) (s : State) : State :=
  stored (fun st => { st with site := [(i.key, .present v (siteCheck i.key v))] }) s
theorem test_meets_equalItem : (up .setup).store.faulted = false ∧
    (holding (.window 15) (.window ⟨0x7F, 1439, 0⟩) (up .setup)).store.item (.window 15) =
      ⟨.window ⟨0x7F, 1439, 0⟩, false⟩ ∧
    (up .setup).store.item (.window 15) ≠ ⟨.window ⟨0x7F, 1439, 0⟩, false⟩ := by decide +kernel
/-- A portal record as PUT_PORTAL gives it. -/
def portalRec : PortalRec := ⟨true, .door, 15, .module .c 62, 60, 300⟩
/-- A line record as PUT_LINE gives it. -/
def strike7 : LineRec := ⟨.strike 7, .low, true⟩
theorem test_meets_placements :
    parsePutPortal [7, 1, 1, 15, 1, 2, 62, 60, 1, 0x2C] = .ok (7, portalRec) ∧
    parsePutLine [11, 2, 7, 0, 1, 1] = .ok (11, strike7) ∧
    parseEnrol [2, 62, 3, 4, 3, 0] = .ok (.c, 62, ⟨.carPanel, .car 3⟩) := by
  refine ⟨?_, ?_, ?_⟩ <;> exact ok_of_got (by decide +kernel)
theorem test_meets_inUse :
    (withGate (gate .opening .lines) (up .setup)).portal 7 = some (gate .opening .lines) ∧
    (holding (.portal 7) (.portal portalRec) (up .setup)).store.item (.portal 7) =
    ⟨.portal portalRec, false⟩ ∧
    (up .setup).line 11 = some (Line.blank .low) ∧ (Line.blank .low).record.val ≠ strike7 ∧
    (holding (.node .c 62) (.node (some ⟨.carPanel, .car 3⟩)) (up .setup)).store.nodeEntry .c 62 =
      ⟨some ⟨.carPanel, .car 3⟩, false⟩ ∧
    (up .setup).store.nodeEntry .c 62 = ⟨none, false⟩ := by decide +kernel
theorem test_meets_lineTaken : (withLine (line (.strike 7) none) (up .setup)).line 11 =
    some (line (.strike 7) none) ∧ (line (.strike 7) none).record.val.func = strike7.func := by decide +kernel
theorem test_meets_tenants : parsePutTenant [0, 17, 0, 7, 0, 0] = .ok (17, ⟨.current, 7, false, []⟩) ∧
    parsePutCredential [0, 0, 0, 0xA1, 0, 17] = .ok (0xA1, 17) ∧ parseValue [0, 0, 0, 0xA2] = .ok 0xA2 := by
  refine ⟨?_, ?_, ?_⟩ <;> exact ok_of_got (by decide +kernel)
theorem test_meets_tenantVisits :
    2 ≤ ((visiting [visit 1 .onSite, visit 2 .onSite] (up .run)).visitsOf 17).length ∧
    ((visiting [visit 1 .onSite] (up .run)).visitsOf 17).length < 2 ∧
    (stored filled (up .run)).visitsOf 2048 = [] ∧ (stored filled (up .run)).store.unitsOf 2048 = [] ∧
    (stored filled (up .run)).store.credsOf 2048 = [] ∧
    ((stored filled (up .run)).store.credsOf 17).length < 4 ∧
    (stored filled (up .run)).store.credsOf 17 ≠ [] := by decide +kernel
theorem test_put_credential_takes_the_lowest_free_slot :
    ∃ t, exec .putCredential (ask 0x13 [0, 0, 0, 0xA3, 0, 17] (stored filled (up .run))) = .next t ∧
      t.store.write = some (.credential 2 0xA3 (some 17)) := ⟨_, rfl, by decide +kernel⟩
/-- The unit 4095 as PUT_UNIT gives it. -/
def unit4095 : List Byte := [0x0F, 0xFF, 12, 1, 14, 15, 0, 17, 0]
theorem test_meets_units : parsePutUnit unit4095 = .ok (4095, unitRec 15) ∧
    parseSetOverlock [0x0F, 0xFF, 1] = .ok (4095, true) := by
  refine ⟨?_, ?_⟩ <;> exact ok_of_got (by decide +kernel)
/-- Sixteen units of tenant 17. -/
def sixteen (st : Store) : Store :=
  { st with units := (List.range 16).map fun n => (n, .present (unitRec n) 0) }
theorem test_meets_unitTests : (stored filled (up .run)).store.tenantSlot (unitRec 15).tenant ≠ none ∧
    (∃ e ∈ (stored filled (up .run)).store.presentUnits, e.1 ≠ 7 ∧ e.2.seg = .b ∧ e.2.node = 14 ∧
      e.2.channel = 15) ∧
    4095 ∉ (stored sixteen (up .run)).store.unitsOf 17 ∧
    16 ≤ ((stored sixteen (up .run)).store.unitsOf 17).length ∧
    ({ unitRec 15 with overlocked := true } : UnitRec) ≠ unitRec 15 ∧
    { unitRec 14 with overlocked := (unitRec 15).overlocked } ≠ unitRec 15 ∧
    (withEntry (entry .released) (up .run)).unit 4095 = some (entry .released) ∧
    (entry .released).state ≠ .armed ∧ (entry .released).state ≠ .unknown := by decide +kernel
theorem test_meets_clearStoreFault : (ask 0x22 [] (up .run)).inHand (fr 0x22 []) ∧
    (up .run).store.lookups = [] ∧ State.reset.site.mode = .starting := by decide
theorem test_meets_writes : Table.sorted (filled Store.blank).tenants ∧
    Table.sorted (filled Store.blank).units ∧
    Table.sorted (filled Store.blank).creds ∧ Table.sorted (filled Store.blank).site := by
  unfold Table.sorted; decide
/-- A part with a write in progress. -/
def writing (w : WriteOp) : State :=
  kept 0x10 [] (stored (fun st => { st with state := .writing, write := some w }) (up .setup))
theorem test_meets_writeCompletion : (up .run).store.write = none ∧
    (writing (.tenant 2048 none)).store.write = some (.tenant 2048 none) ∧
    (writing (.tenant 2048 none)).host.serving = some ⟨fr 0x10 [], .working⟩ := by decide
theorem test_a_failed_write_is_answered :
    ∃ t, exec (.writeCompletion false) (writing (.unit 4095 none)) = .next t ∧ t.store.writeFault = true ∧
      t.store.writeFaultRec = some (.unit 4095) ∧ t.host.replies.map Reply.body = [[0x0B]] :=
  ⟨_, rfl, by decide +kernel⟩
/-- A segment whose settings enable it. -/
def enabled (x : Segment) : Segment := { x with settings := ⟨⟨true, 19200, 10, 20, 3, 50⟩, false⟩ }
theorem test_meets_owners : (up .setup).store.params.val.beaconOnAlarms = true ∧
    (up .setup).site.params.val.beaconOnAlarms = true ∧
    (holding .params (.params ⟨5, 120, 0, 20, false⟩) (up .setup)).store.params.val.beaconOnAlarms = false ∧
    ((up .setup).seg .c).settings.val.enabled = false ∧ ((up .setup).store.segment .c).val.enabled = false ∧
    ((withC enabled (up .setup)).seg .c).settings.val.enabled = true ∧
    (holding (.segment .c) (.segment ⟨true, 38400, 10, 20, 3, 50⟩) (up .setup)).store.segment .c =
      ⟨⟨true, 38400, 10, 20, 3, 50⟩, false⟩ ∧
    ((up .setup).seg .c).sending = none ∧ ((up .setup).seg .c).rx = .idle := by decide +kernel
/-- A part clearing a table. -/
def clearing (t : TableName) (b : Nat) : State :=
  kept 0x20 [] (stored (fun st => { filled st with state := .clearing, clear := some ⟨t, b, false⟩ }) (up .run))
theorem test_meets_clears : (ask 0x20 [0] (up .run)).inHand (fr 0x20 [0]) ∧ (up .run).store.faulted = false ∧
    (visiting [visit 1 .onSite] (up .run)).visits.table ≠ [] ∧ (up .run).visits.table = [] ∧
    (clearing .unit 15).store.state = .clearing ∧ (clearing .unit 15).store.clear = some ⟨.unit, 15, false⟩ ∧
    (clearing .unit 15).host.serving = some ⟨fr 0x20 [], .working⟩ := by decide +kernel
theorem test_meets_clearTable : parseTable [0] = .ok .tenant ∧ parseTable [3] = .ok .site :=
  ⟨rfl, rfl⟩
theorem test_the_last_block_ends_a_clear : ∃ t, exec (.blockEraseCompletion true) (clearing .unit 15) =
    .next t ∧
    t.store.units = [(1, .damaged)] ∧ t.store.state = .ready := ⟨_, rfl, by decide +kernel⟩
theorem test_meets_scan : State.reset.store.state = .scanning ∧ (up .run).store.state ≠ .scanning := by decide
theorem test_scan_of_a_new_part_enters_setup : ∃ t, exec (.scanEnd []) State.reset = .next t ∧
    t.site.mode = .setup ∧ t.segA.state = .off := ⟨_, rfl, by decide +kernel⟩

/-! ## Hypotheses of the clauses about the store's owners, the starts and the mirrors -/

theorem test_meets_results : (up .run).store.results = [] ∧ (up .setup).store.results = [] ∧
    (up .run).store.faulted = false ∧
    (stored (fun st => { st with results := [.absent] }) (up .setup)).store.results ≠ [] := by decide +kernel
theorem test_meets_scanningLookups :
    (stored (fun st => { st with state := .scanning }) (looking (.tenant 17))).store.state = .scanning ∧
    (stored (fun st => { st with state := .scanning }) (looking (.tenant 17))).store.lookups = [.tenant 17] ∧
    (looking (.credential 0xA1)).store.state ≠ .scanning := by decide +kernel
theorem test_a_scan_refuses_lookups :
    ∃ t, exec .tenantLookup (stored (fun st => { st with state := .scanning }) (looking (.tenant 17))) =
    .next t ∧
      t.store.lookups = [] ∧ t.store.results = [.wrongMode] := ⟨_, rfl, by decide +kernel⟩
/-- Credential slots that hold one value twice, a wrong check value, and keys that stay. -/
def twice : Table CredSlot :=
  [(0, .present 0xA1 17 0), (1, .damaged 0xA1), (2, .present 0xA3 17 (credCheck 0xA3 17)),
    (3, .present 0xA1 17 0), (4, .damaged 0xA4), (4095, .keyless)]
theorem test_meets_scanStart : (∀ l ∈ State.reset.lines.list, l.debounced = none) ∧
    State.reset.host.notices.length + 5 ≤ Config.maxNotices ∧ Table.sorted twice ∧
    twice.find 5 = none ∧ twice.find 4095 = some .keyless ∧ twice.find 1 = some (.damaged 0xA1) ∧
    (∃ d, twice.find 0 = some d ∧ d.holds 0xA1 = true) ∧ twice.find 4 = some (.damaged 0xA4) ∧
    (∀ e ∈ twice, e.1 < 4 → e.2.holds 0xA4 = false) ∧ twice.find 3 = some (.present 0xA1 17 0) ∧
    credCheck 0xA1 17 ≠ 0 ∧ (∀ e ∈ twice, e.1 < 2 → e.2.holds 0xA3 = false) ∧
    State.reset.line 11 = some (Line.blank .low) := by
  unfold Table.sorted; decide +kernel
/-- A store under its scan, whose twelve lines are outputs. -/
def outputs : State :=
  let v : SiteValue := .line ⟨.generalOut, .high, false⟩
  stored (fun st => { st with site := (List.range 12).map fun n =>
    ((SiteItem.line n).key, .present v (siteCheck (SiteItem.line n).key v)) }) State.reset
theorem test_meets_linesAtScan :
    (∃ t, exec (.scanEnd []) State.reset = .next t ∧
      (∃ l ∈ t.lines.list, l.record.val.func.isInput = true ∧ l.debounced = none) ∧ t.lines.settledOwed = true) ∧
    ∃ t, exec (.scanEnd []) outputs = .next t ∧
      (∀ l ∈ t.lines.list, l.record.val.func.isInput = false) ∧ t.site.fireReports = [.settled false] :=
  ⟨⟨_, rfl, by decide +kernel⟩, _, rfl, by decide +kernel⟩
theorem test_a_scan_settles_credentials :
    scanCreds (fun _ => false) [] twice = [(0, .damaged 0xA1), (1, .keyless),
      (2, .present 0xA3 17 (credCheck 0xA3 17)), (3, .keyless), (4, .damaged 0xA4), (4095, .keyless)] := by
  decide +kernel

/-- Portal 7 on lines, its STRIKE on line 11 and its CONTACT on line 10 at a level. -/
def wired (st : PortalState) (d : Option Level) (m : Mode) : State :=
  let s := withLine (line (.strike 7) none) (withGate (gate st .lines) (up m))
  { s with lines := { s.lines with list := s.lines.list.set 10 (line (.contact 7) d) } }
/-- The record of portal 7 on lines, or on node 9 of segment C. -/
def wiredRec (d : Drive) : PortalRec := { PortalRec.blank with present := true, drive := d }
/-- Portal 7 takes its stored record and the inputs of its lines. -/
def takenUp (s : State) : State :=
  withPortal 7 (fun x =>
    { x with record := s.store.portal 7, contact := s.lineContact 7, button := s.lineButton 7, heard := false })
    (endOpening 7 s)
/-- A part that holds the record of portal 7. -/
def placing (st : PortalState) (d : Option Level) (m : Mode) : State :=
  holding (.portal 7) (.portal (wiredRec .lines)) (wired st d m)
theorem test_meets_portalItems :
    (placing .free (some .high) .evacuate).portal 7 = some (gate .free .lines) ∧
    ((placing .free (some .high) .evacuate).store.portal 7).val = wiredRec .lines ∧
    (takenUp (placing .secure (some .high) .evacuate)).driveAvailable 7 = true ∧
    (takenUp (placing .free (some .high) .setup)).driveAvailable 7 = true ∧
    (takenUp (placing .secure (some .low) .setup)).driveAvailable 7 = true ∧
    (takenUp (placing .secure none .setup)).driveAvailable 7 = false ∧
    ((wired .secure none .setup).store.portal 7).val.present = false ∧
    ((holding (.portal 7) (.portal (wiredRec (.module .c 9))) (wired .secure none .setup)).store.portal 7).val =
      wiredRec (.module .c 9) := by decide +kernel
theorem test_a_portal_record_places_its_portal : ((applyItem (placing .fault (some .low) .setup) (.portal 7)).portal
    7).map Portal.state = some .forced := by decide +kernel
/-- The record of car 3 on a node of segment C. -/
def liftRec (n : Nat) : CarRec := ⟨true, .c, n, 0, 15, 4, 10⟩
theorem test_meets_carItems : (withLift (lift .idle) (up .setup)).car 3 = some (lift .idle) ∧
    ((withLift (lift .idle) (up .setup)).store.car 3).val.present = false ∧
    ((holding (.car 3) (.car (liftRec 10)) (up .setup)).store.car 3).val = liftRec 10 ∧
    (lift .idle).record.val = liftRec 9 ∧ (liftRec 9).node ≠ (liftRec 10).node ∧
    Car.blank.record.val.present = false := by decide +kernel
theorem test_a_moved_panel_takes_its_car_out :
    ((applyItem (holding (.car 3) (.car (liftRec 10)) (withLift (lift .idle) (up .setup))) (.car 3)).car
      3).map (fun x => (x.state, x.cause)) = some (.out, some .node) := by decide +kernel
theorem test_meets_lineItems : (withLine (line .fireIn (some .low)) (up .setup)).line 11 =
      some (line .fireIn (some .low)) ∧
    (wired .secure none .setup).line 10 = some (line (.contact 7) none) ∧
    ((holding (.line 11) (.line strike7) (up .setup)).store.line 11).val = strike7 := by decide +kernel
theorem test_a_lost_strike_line_loses_its_drive :
    ((applyItem (wired .secure (some .high) .setup) (.line 11)).portal 7).map Portal.state = some .fault ∧
    ((applyItem (holding (.line 11) (.line strike7) (wired .secure (some .high) .setup)) (.line 11)).portal
      7).map Portal.state = some .secure := by decide +kernel
/-- The binding of a car panel to car 3. -/
def panelEntry : NodeEntry := ⟨.carPanel, .car 3⟩
theorem test_meets_nodeItems : (up .setup).node .c 9 = none ∧
    (withC (live (node .carPanel (.car 3))) (up .setup)).node .c 9 = some (node .carPanel (.car 3)) ∧
    (holding (.node .c 9) (.node (some panelEntry)) (up .setup)).store.nodeEntry .c 9 =
      ⟨some panelEntry, false⟩ ∧ (node .carPanel (.car 3)).entry = panelEntry ∧
    ((up .setup).store.nodeEntry .c 9).val ≠ some panelEntry := by decide +kernel

/-! ## Visits and decisions -/

theorem test_meets_closures : (noticed 63).host.notices.length < Config.maxNotices ∧
    CloseReason.evacuated ≠ .restarted ∧ CloseReason.exited ≠ .restarted ∧
    (ask 0x32 [0, 1] (up .run)).inHand (fr 0x32 [0, 1]) ∧
    256 * (0 : Byte).toNat + (0 : Byte).toNat = 0 ∧ (up .run).visit 1 = none ∧
    (visiting [visit 65535 .exiting] (up .run)).visit 65535 = some (visit 65535 .exiting) := by decide +kernel
/-- A part with one report of a portal on its way. -/
def reported (r : PortalReport) (v : Visit) : State :=
  let s := visiting [v] (up .run)
  { s with visits := { s.visits with portalReports := [r] } }
/-- A visit leaving by portal 7. -/
def leaving : Visit := { visit 1 .exiting with exitPortal := some 7, returnStage := some .overstay }
theorem test_meets_portalReports :
    (reported (.passage 7 1) (visit 1 .admitted)).visits.portalReports = [.passage 7 1] ∧
    (reported (.noPassage 7 1) leaving).visits.portalReports = [.noPassage 7 1] ∧
    (reported (.passage 7 1) (visit 1 .admitted)).visit 1 = some (visit 1 .admitted) ∧
    (visit 1 .admitted).stage = .admitted ∧ (visit 1 .admitted).entryPortal = 7 ∧
    (reported (.noPassage 7 1) leaving).visit 1 = some leaving ∧ leaving.stage = .exiting ∧
    leaving.exitPortal = some 7 ∧ leaving.returnStage = some .overstay := by decide +kernel
theorem test_a_passage_brings_a_visit_on_site :
    ∃ t, exec .passageReport (reported (.passage 7 1) (visit 1 .admitted)) = .next t ∧
      t.visits.table.map Visit.stage = [.onSite] := ⟨_, rfl, by decide +kernel⟩
theorem test_no_passage_returns_a_visit :
    ∃ t, exec .noPassageReport (reported (.noPassage 7 1) leaving) = .next t ∧
      t.visits.table.map Visit.stage = [.overstay] := ⟨_, rfl, by decide +kernel⟩
/-- A visit that has called car 3. -/
def calling (boarded : Bool) : Visit := { visit 1 .onSite with call := some ⟨3, boarded⟩ }
/-- A visit with a deadline. -/
def due (d : Nat) : Visit := { visit 1 .onSite with dwellDeadline := some d }
/-- A part with one message to the Visit Engine on its way. -/
def visitMail (c : List CallReport) (o : List (Nat × Nat)) (e : List EvacOrder) (v : Visit) : State :=
  let s := visiting [v] (up .run)
  { s with visits := { s.visits with callReports := c, openedReports := o, orders := e } }
theorem test_meets_visitMarks : (visiting [due 0] (up .run)).visit 1 = some (due 0) ∧
    (due 0).dwellDeadline = some 0 ∧ 0 ≤ (up .run).site.seconds ∧ (due 0).overstayed = false ∧
    (up .run).site.seconds < 1 ∧
    (visitMail [.completed 1 15] [] [] (calling true)).visits.callReports = [.completed 1 15] ∧
    (visitMail [.completed 1 15] [] [] (calling true)).visit 1 = some (calling true) ∧
    (calling true).call ≠ none ∧ (visit 1 .onSite).call = none ∧
    (visitMail [] [(4095, 17)] [] (visit 1 .onSite)).visits.openedReports = [(4095, 17)] ∧
    (visitMail [] [(4095, 17)] [] (visit 1 .onSite)).visitsOf 17 = [] ++ [visit 1 .onSite] ∧
    (up .run).visitsOf 17 = [] ∧
    (visitMail [] [] [.begin_] (visit 1 .onSite)).visits.orders = [.begin_] := by decide +kernel
theorem test_a_deadline_marks_an_overstay : ∃ t, exec (.dwellDeadline 1) (visiting [due 0] (up .run)) =
    .next t ∧
    t.visits.table.map Visit.stage = [.overstay] := ⟨_, rfl, by decide +kernel⟩

/-- What a reader of segment C asks. -/
def shown (a : Asked) : Presentation := ⟨a, .reader .c 9, 0xA1⟩
/-- A part whose Visit Engine is about to take a presentation. -/
def waiting (p : Presentation) (s : State) : State := { s with visits := { s.visits with waiting := [p] } }
/-- A part whose Visit Engine has a lookup result. -/
def answeredWith (d : Decision) (r : LookupResult) (s : State) : State :=
  let s := stored (fun st => { st with results := [r] }) s
  { s with visits := { s.visits with decision := some d } }
theorem test_meets_admissions : (waiting (shown (.admission 7)) (up .run)).visits.decision = none ∧
    (waiting (shown (.admission 7)) (up .run)).visits.waiting = [shown (.admission 7)] ∧
    (withGate (gate .secure .lines) (up .run)).portalState 7 = .secure ∧
    (withGate (gate .forced .lines) (up .run)).portalState 7 = .forced ∧ (up .run).portalState 7 = .fault ∧
    (answeredWith ⟨shown (.admission 7), .credential⟩ .recordDamaged (up .run)).store.results =
      [.recordDamaged] ∧
    (up .run).window 0 = .inside ∧ ((up .run).cls 0).damaged = false ∧
    ((up .run).cls 7).val.passback = .strict ∧
    (windowed ⟨⟨0, 0, 0⟩, false⟩ none).window 15 = .clockUnset ∧
    (windowed ⟨⟨0, 0, 0⟩, false⟩ (some ⟨0, 0, 0⟩)).window 15 = .outside ∧
    (windowed ⟨⟨0, 0, 0⟩, true⟩ none).window 15 = .recordDamaged ∧
    ((visiting [visit 1 .onSite] (up .run)).visits.table.filter fun v => v.value = 0xA1) ≠ [] ∧
    (up .run).visits.table.length < 96 ∧
    8 ≤ ((visiting (List.replicate 8 (visit 1 .onSite)) (up .run)).visitsOf 17).length ∧
    96 ≤ (visiting (List.replicate 96 (visit 1 .onSite)) (up .run)).visits.table.length := by decide +kernel
theorem test_an_admission_is_granted : ∃ t, exec .admissionLookupResult
    (answeredWith ⟨shown (.admission 7), .credential⟩ (.found 17 (tenant .current false))
      (withGate (gate .secure .lines) (up .run))) = .next t ∧
    t.visits.table.map Visit.number = [1] ∧ t.portals.orders = [.open_ 7 (some 1)] ∧
    t.units.orders = [.disarm 17] := ⟨_, rfl, by decide +kernel⟩
theorem test_meets_admit : (ask 0x33 [7, 0, 0, 0, 1] (up .run)).inHand (fr 0x33 [7, 0, 0, 0, 1]) ∧
    7 < (8 : Byte).toNat ∧ (up .run).portal 7 = some Portal.blank ∧
    Portal.blank.record.val.present = false ∧ (gate .secure .lines).record.val.present = true ∧
    (kept 0x33 [] (up .run)).host.serving = some ⟨fr 0x33 [], .working⟩ := by decide +kernel
theorem test_meets_exits : (shown (.exit 7)).asked = .exit 7 ∧
    (visiting [visit 1 .onSite] (up .run)).visits.table.find? (fun v => v.value == 0xA1) =
      some (visit 1 .onSite) ∧
    (∀ v ∈ (visiting [visit 1 .onSite] (up .run)).visits.table, v.value ≠ 0xA2) ∧
    ((visiting [visit 1 .onSite] (up .run)).visitsOf 17).head? = some (visit 1 .onSite) ∧
    (withGate (gate .free .lines) (up .run)).portalState 7 = .free ∧
    (visit 1 .evacuated).stage ≠ .onSite ∧ (visit 1 .evacuated).stage ≠ .overstay := by decide +kernel
theorem test_an_exit_opens_the_portal : ∃ t, exec .exitDecision (waiting (shown (.exit 7))
    (withGate (gate .secure .lines) (visiting [visit 1 .onSite] (up .run)))) = .next t ∧
    t.portals.orders = [.open_ 7 (some 1)] ∧ t.visits.table.map Visit.stage = [.exiting] :=
  ⟨_, rfl, by decide +kernel⟩
theorem test_meets_liftCalls : (shown (.landing 15 (some 0))).asked = .landing 15 (some 0) ∧
    (answeredWith ⟨shown (.landing 15 (some 0)), .tenant 1⟩ (.found 17 (tenant .current false))
      (up .run)).visits.decision = some ⟨shown (.landing 15 (some 0)), .tenant 1⟩ ∧
    (up .draining).site.mode ≠ .evacuate ∧ (up .draining).site.mode ≠ .run ∧
    (∃ q ∈ (withGate (gate .secure .lines) (up .run)).portals.list,
      q.record.val.present = true ∧ q.record.val.floor = 0) ∧
    (∃ e ∈ (stored filled (up .run)).store.presentUnits, e.2.tenant = 17 ∧ e.2.floor = 12) ∧
    (calling true).call = some ⟨3, true⟩ ∧ (calling false).call ≠ some ⟨3, true⟩ := by decide +kernel

/-! ## Portals -/

/-- A gate of lines, of a state, with a pending visit and timers. -/
def busyGate (st : PortalState) : Portal :=
  { gate st (.module .c 9) with pending := some 1, passTimer := some 0, holdTimer := some 0, contact := .closed }
/-- A part with one order to portal 7 on its way. -/
def ordered (o : PortalOrder) (q : Portal) : State :=
  let s := withGate q (up .run)
  { s with portals := { s.portals with orders := [o] } }
theorem test_meets_openOrders : (ordered (.open_ 7 (some 1)) (gate .secure .lines)).portals.orders =
      [.open_ 7 (some 1)] ∧
    (gate .secure .lines).record.val.drive = .lines ∧
    (gate .fault (.module .c 62)).record.val.drive = .module .c 62 ∧ (gate .fault .lines).state ≠ .secure ∧
    (ordered (.drop 7 1) (busyGate .opening)).portals.orders = [.drop 7 1] ∧
    (busyGate .opening).passTimer = some 0 ∧ (busyGate .passage).holdTimer = some 0 ∧
    0 ≤ (up .run).site.seconds ∧ (up .run).site.seconds < 1 ∧ (gate .secure .lines).state ≠ .opening := by
  decide +kernel
theorem test_an_open_order_opens : ∃ t, exec .openOrder (ordered (.open_ 7 (some 1)) (gate .secure .lines)) =
    .next t ∧ t.portalState 7 = .opening ∧ (t.portal 7).map Portal.opening = some 1 :=
  ⟨_, rfl, by decide +kernel⟩
/-- A part with a field report for the portals on its way from segment C. -/
def portalMail (r : FieldReport) (q : Portal) : State :=
  withC (fun x => { x with toPortals := [r] }) (withGate q (up .run))
theorem test_meets_contacts : (gate .secure .lines).contact = .unknown ∧
    (busyGate .opening).contact = .closed ∧
    (busyGate .opening).state = .opening ∧ (busyGate .secure).state = .secure ∧
    ({ busyGate .passage with contact := .open_ } : Portal).contact = .open_ ∧
    (busyGate .free).state ≠ .opening ∧ (busyGate .free).state ≠ .secure ∧ (busyGate .fault).state ≠ .passage ∧
    (busyGate .fault).state ≠ .heldOpen ∧ (busyGate .fault).state ≠ .forced ∧
    ({ busyGate .secure with button := .released } : Portal).button = .released ∧
    ((portalMail (.outcome (.strike 7 true 0) .noAck) (busyGate .opening)).seg .c).toPortals =
      [.outcome (.strike 7 true 0) .noAck] ∧
    (portalMail (.lost 9 (.portal 7)) (busyGate .opening)).portal 7 = some (busyGate .opening) ∧
    ((portalMail (.lost 9 (.portal 7)) (busyGate .opening)).seg .c).toPortals = [.lost 9 (.portal 7)] ∧
    (busyGate .opening).record.val.present = true ∧ (busyGate .opening).record.val.drive = .module .c 9 ∧
    (busyGate .opening).record.val.drive ≠ .module .c 10 ∧
    (busyGate .opening).opening = 0 := by decide +kernel
theorem test_a_lost_module_faults_its_portal :
    ∃ t, exec (.portalDriveLoss .c) (portalMail (.lost 9 (.portal 7)) (busyGate .opening)) = .next t ∧
      t.portalState 7 = .fault ∧ t.visits.portalReports = [.noPassage 7 1] := ⟨_, rfl, by decide +kernel⟩
/-- A part with an evacuation order for the portals on its way. -/
def portalEvac (o : EvacOrder) : State :=
  let s := withGate (gate .secure .lines) (up .run)
  { s with portals := { s.portals with evac := [o] } }
theorem test_meets_freePortals : (portalEvac .begin_).portals.evac = [.begin_] ∧
    (portalEvac .end_).portals.evac = [.end_] ∧
    (ask 0x41 [7, 2] (up .run)).inHand (fr 0x41 [7, 2]) ∧ (7 : Byte).toNat ≤ 7 ∧
    (up .evacuate).site.mode = .evacuate ∧ (2 : Byte) ≠ 1 := by decide +kernel
theorem test_an_evacuation_frees_the_portals : ∃ t, exec .evacuationBeginPortals (portalEvac .begin_) =
    .next t ∧
    t.portalState 7 = .free ∧ t.portalState 6 = .fault := ⟨_, rfl, by decide +kernel⟩

/-! ## Unit doors -/

/-- A part with an order for the unit doors on its way. -/
def unitOrder (o : UnitOrder) (e : UnitEntry) : State :=
  let s := withEntry e (up .run)
  { s with units := { s.units with orders := [o] } }
/-- A part with a field report for the unit doors on its way from segment B. -/
def unitMail (r : FieldReport) (e : UnitEntry) : State :=
  let s := withEntry e (up .run)
  { s with segB := { s.segB with toUnits := [r] } }
theorem test_meets_unitOrders : (entry .disarmed).latch ≠ .released ∧
    ({ entry .disarmed with latch := .released } : UnitEntry).latch = .released ∧
    (unitOrder (.disarm 17) (entry .armed)).units.orders = [.disarm 17] ∧
    (unitOrder (.closure 17 true) (entry .armed)).units.orders = [.closure 17 true] ∧
    (unitOrder (.closure 17 false) (entry .armed)).units.orders = [.closure 17 false] ∧
    (withEntry { entry .released with timer := some 0 } (up .run)).unit 4095 =
      some { entry .released with timer := some 0 } ∧
    ((unitMail (.lost 14 .unbound) (entry .armed)).seg .b).toUnits = [.lost 14 .unbound] := by decide +kernel
theorem test_a_visit_disarms_its_units : ∃ t, exec .disarmOrder (unitOrder (.disarm 17) (entry .armed)) =
    .next t ∧ (t.unit 4095).map UnitEntry.state = some .disarmed ∧ t.units.presence = [17] :=
  ⟨_, rfl, by decide +kernel⟩
theorem test_meets_unitReports :
    ({ entry .armed with relockOwed := true } : UnitEntry).relockOwed = true ∧
    (entry .armed).relockOwed = false ∧
    ((unitMail (.outcome (.release 4095 0) .ok) (entry .releasing)).seg .b).toUnits =
      [.outcome (.release 4095 0) .ok] ∧
    (entry .releasing).state = .releasing ∧ (entry .releasing).number = 0 ∧
    ((unitMail (.outcome (.serviceRelease 4095 0) .noAck) (entry .service)).seg .b).toUnits =
      [.outcome (.serviceRelease 4095 0) .noAck] ∧
    (unitMail (.outcome (.serviceRelease 4095 0) .noAck) (entry .service)).unit 4095 =
      some (entry .service) ∧
    ((unitMail (.outcome (.relock 4095 (some 0)) .ok) (entry .armed)).seg .b).toUnits =
      [.outcome (.relock 4095 (some 0)) .ok] ∧
    ((unitMail (.outcome .denyBlink .ok) (entry .armed)).seg .b).toUnits = [.outcome .denyBlink .ok] := by
  decide +kernel
theorem test_a_release_starts_its_timer :
    ∃ t, exec (.releaseOutcome .b) (unitMail (.outcome (.release 4095 0) .ok) (entry .releasing)) = .next t ∧
      (t.unit 4095).map UnitEntry.state = some .released ∧
      (t.unit 4095).map UnitEntry.timer = some (some 8) := ⟨_, rfl, by decide +kernel⟩
theorem test_meets_unitService : (ask 0x49 [0x0F, 0xFF, 0] (up .run)).inHand (fr 0x49 [0x0F, 0xFF, 0]) ∧
    (ask 0x4A [0x0F, 0xFF] (up .run)).inHand (fr 0x4A [0x0F, 0xFF]) ∧
    256 * (0x0F : Byte).toNat + (0xFF : Byte).toNat ≤ 4095 ∧ (entry .forced).contact = .closed ∧
    ({ entry .forced with contact := .open_ } : UnitEntry).contact = .open_ ∧
    17 ∉ (up .run).units.presence ∧
    (stored filled (withEntry (entry .forced) (up .run))).store.unitSlot 4095 =
      some (.present (unitRec 15) 0) ∧
    (stored filled (withEntry (entry .forced) (up .run))).unit 4095 =
    some (entry .forced) := by decide +kernel
theorem test_service_begins : ∃ t, exec .unitServiceBegin
    (ask 0x49 [0x0F, 0xFF, 0] (stored filled (withEntry (entry .armed) (up .run)))) = .next t ∧
    (t.unit 4095).map UnitEntry.state = some .service := ⟨_, rfl, by decide +kernel⟩

/-! ## Lifts -/

/-- Car 3 with calls. -/
def queued (st : CarState) (l : List Call) : Car := { lift st with queue := l, target := some 2 }
/-- Car 3 boarding. -/
def boarding (l : List Call) : Car := { lift .boarding with trip := some ⟨l, 2, 4⟩, timer := some 0 }
theorem test_meets_calls : (withLift (lift .idle) (up .run)).chooseCar 2 15 = some 3 ∧
    (up .run).chooseCar 2 15 = none ∧ (boarding []).trip = some ⟨[], 2, 4⟩ ∧
    ([] : List Call).length < 4 ∧ (boarding []).timer = some 0 ∧
    (queued .idle [call 1]).queue = [call 1] ∧
    (withLift (queued .toPickup [call 1]) (up .run)).queuedOn 1 = some 3 ∧
    (queued .toPickup [call 1]).queue.head?.map Call.id = some 1 ∧
    (queued .toPickup [call 1]).queue.filter (fun k => k.id != 1) = [] ∧
    (queued .toPickup [call 1, call 2]).queue.filter (fun k => k.id != 1) = [call 2] ∧
    (queued .toPickup [call 1]).target = some (call 1).origin ∧ (call 1).deadline ≤ (up .run).site.seconds ∧
    (up .run).site.seconds < ({ call 1 with deadline := 1 } : Call).deadline ∧
    (queued .toPickup [call 1]).queue.find? (fun k => k.id == 1) = some (call 1) ∧
    (withLift (boarding [call 1]) (up .run)).queuedOn 1 = none ∧
    (withLift (boarding [call 1]) (up .run)).boardedOn 1 = some 3 ∧ (up .run).boardedOn 1 = none ∧
    insertCall { call 3 with priority := 1 } [call 1] = [{ call 3 with priority := 1 }, call 1] := by
  decide +kernel
/-- A part with a withdrawal on its way. -/
def withdrawing (x : Car) : State :=
  let s := withLift x (up .run)
  { s with lifts := { s.lifts with withdrawals := [1] } }
theorem test_a_withdrawal_stands_the_car :
    ∃ t, exec .callWithdrawal (withdrawing (queued .toPickup [call 1])) = .next t ∧
      (t.car 3).map Car.queue = some [] ∧ (t.car 3).map Car.state = some .idle := ⟨_, rfl, by decide +kernel⟩
/-- A part with a field report for the lifts on its way from segment C. -/
def liftMail (r : FieldReport) (x : Car) : State := withC (fun y => { y with toLifts := [r] }) (withLift x (up .run))
theorem test_meets_carsOut : (withLift (lift .out) (up .run)).car 3 = some (lift .out) ∧
    (lift .out).state = .out ∧ (lift .idle).state ≠ .out ∧
    ((liftMail (.outcome (.lift 3 .stand) .noAck) (lift .idle)).seg .c).toLifts =
      [.outcome (.lift 3 .stand) .noAck] ∧
    ((liftMail (.lost 9 (.car 3)) (lift .idle)).seg .c).toLifts = [.lost 9 (.car 3)] ∧
    (lift .idle).record.val.seg = .c ∧ (lift .idle).record.val.node = 9 ∧
    (ask 0x51 [3, 1] (up .run)).inHand (fr 0x51 [3, 1]) ∧ (3 : Byte).toNat ≤ 3 ∧
    (lift .idle).record.val.present = true ∧ Car.blank.record.val.present = false ∧
    (lift .out).cause ≠ some .host ∧ ({ lift .out with cause := some .host } : Car).cause = some .host ∧
    ((withC (live (node .carPanel (.car 3))) (up .run)).node .c 9).map Node.liveness = some .live := by
  decide +kernel
theorem test_a_lost_panel_takes_its_car_out : ∃ t, exec (.panelLoss .c) (liftMail (.lost 9 (.car 3)) (lift .idle)) =
    .next t ∧ (t.car 3).map Car.state = some .out := ⟨_, rfl, by decide +kernel⟩
/-- A part with an order of Site Control to the lifts on its way. -/
def liftOrder (o : LiftOrder) (x : Car) : State :=
  let s := withLift x (up .run)
  { s with lifts := { s.lifts with orders := [o] } }
theorem test_meets_liftOrders : (liftOrder .drain (lift .idle)).lifts.orders = [.drain] ∧
    (liftOrder .evacBegin (lift .idle)).lifts.orders = [.evacBegin] ∧
    (liftOrder .evacEnd (lift .recall)).lifts.orders = [.evacEnd] ∧
    (liftOrder .drain (lift .idle)).car 3 = some (lift .idle) := by decide +kernel
theorem test_an_evacuation_recalls_the_cars :
    ∃ t, exec .evacuationBeginLifts (liftOrder .evacBegin (queued .toPickup [call 1])) = .next t ∧
      (t.car 3).map Car.state = some .recall ∧ t.visits.callReports = [.cancelled 1 .evacuation] :=
  ⟨_, rfl, by decide +kernel⟩

/-! ## Field segments -/

/-- Segment C running with a car panel, changed by `f`. -/
def running (f : Segment → Segment) : State :=
  withC (fun x => f { live (node .carPanel (.car 3)) x with pollTimer := true, settings := ⟨⟨true, 19200, 10, 20, 3, 50⟩, false⟩ })
    (up .run)
/-- A full transmit queue with one entry of a priority at its head. -/
def fullQueue (e : TxEntry) : List TxEntry := e :: List.replicate 15 (stand .urgent)
/-- The command in flight, in a phase. -/
def flight (e : TxEntry) (p : FlightPhase) : InFlight := ⟨e, p, false, none⟩
theorem test_meets_submissions : (up .run).node .c 9 = none ∧
    (running id).node .c 9 = some (node .carPanel (.car 3)) ∧ NodeKind.carPanel.takes (.show .wait) = false ∧
    NodeKind.carPanel.takes (.command .stand) = true ∧ ((running id).seg .c).queue.length < 16 ∧
    16 ≤ (fullQueue poll).length ∧ (∃ y ∈ fullQueue poll, y.priority = .poll) ∧
    (∃ y ∈ fullQueue (stand .normal), y.priority = .normal) ∧
    (∀ y ∈ fullQueue (stand .normal), y.priority ≠ .poll) ∧
    (∀ y ∈ fullQueue (stand .urgent), y.priority ≠ .normal) := by decide +kernel
theorem test_meets_turns : ((running id).seg .c).pollTimer = true ∧
    ((running id).seg .c).nodes.find? (fun e => 0 < e.1) = some (9, node .carPanel (.car 3)) ∧
    (∀ e ∈ ((running id).seg .c).nodes, e.1 ≤ 9) ∧
    ((running id).seg .c).state.running = true ∧ ((running id).seg .c).sending = none ∧
    ((up .run).seg .c).state.running = false ∧
    ((running fun x => { x with pendingAck := some (9, 7) }).seg .c).pendingAck = some (9, 7) ∧
    ((running fun x => { x with inFlight := some (flight poll .repeatDue) }).seg .c).inFlight =
      some (flight poll .repeatDue) ∧
    ((running fun x => { x with inFlight := some (flight poll .resendDue) }).seg .c).inFlight =
      some (flight poll .resendDue) ∧
    ((running fun x => { x with queue := [poll] }).seg .c).queue = [poll] := by decide +kernel
/-- Segment C sending a copy, at a transmit fault count. -/
def sending (c : Sending) (n : Nat) : State :=
  running fun x =>
    { x with
      sending := some c, txFaults := n, pendingAck := some (9, 0)
      inFlight := some (flight (stand .normal) .sending) }
theorem test_meets_copies : ((sending .command 246).seg .c).sending = some .command ∧
    ((sending .command 246).seg .c).closing = false ∧
    min 255 (((sending .command 246).seg .c).txFaults + 8) < 255 ∧
    min 255 (((sending .command 247).seg .c).txFaults + 8) = 255 ∧
    ((sending (.ack 9 0) 0).seg .c).pendingAck = some (9, 0) ∧
    ((sending .command 0).seg .c).inFlight = some (flight (stand .normal) .sending) := by decide +kernel
theorem test_mismatches_isolate : ∃ t, exec (.readbackMismatch .c) (sending .command 247) = .next t ∧
    t.segC.state = .isolated ∧ t.segC.queue = [] := ⟨_, rfl, by decide +kernel⟩
theorem test_meets_waits :
    ((running fun x => { x with inFlight := some (flight poll .waiting) }).seg .c).inFlight =
      some (flight poll .waiting) ∧
    (running fun x => { x with rx := .frame ⟨1, none, [], .normal, 3⟩ }).segC.rx =
      .frame ⟨1, none, [], .normal, 3⟩ ∧
    poll.frame = .poll ∧ (stand .normal).frame ≠ .poll ∧
    (stand .normal).repeats < ((running id).seg .c).settings.val.retryLimit ∧
    ((running id).seg .c).settings.val.retryLimit ≤ ({ stand .normal with repeats := 3 } : TxEntry).repeats ∧
    (∀ r, (running id).segC.rx ≠ .frame r) :=
  ⟨rfl, rfl, rfl, by decide, by decide, by decide, fun _ h => (nomatch h)⟩
theorem test_meets_restore : (ask 0x65 [2] (up .run)).inHand (fr 0x65 [2]) ∧
    (2 : Byte).toNat = segIndex .c ∧ ((running id).seg .c).state ≠ .isolated ∧
    ((running fun x => { x with state := .isolated }).seg .c).state = .isolated := by decide
theorem test_restore_brings_a_segment_back :
    ∃ t, exec .restoreSegment (ask 0x65 [2] (running fun x => { x with state := .isolated, txFaults := 255 })) =
      .next t ∧ t.segC.state = .active ∧ t.segC.txFaults = 0 := ⟨_, rfl, by decide +kernel⟩

/-- Segment C with 509 or more bytes of its ring taken. -/
def crowded (n : Nat) (x : Segment) : Segment :=
  { x with ring := List.replicate n ⟨9, 2, 0, List.replicate 24 0⟩ }
theorem test_meets_reception : ((running id).seg .c).rx = .idle ∧
    3 ≤ 512 - ((running id).seg .c).committed ∧ 512 - ((running (crowded 19)).seg .c).committed < 3 ∧
    ((running fun x => { x with rx := .ended true }).seg .c).rx = .ended true := by decide +kernel
/-- A STATUS of the car panel 9 with its check. -/
def statusFrame : List Byte := [0, 9, 0x20, 2, 4, 1]
theorem test_meets_frames :
    (crc16 statusFrame).toNat = 256 * (BitVec.extractLsb' 8 8 (crc16 statusFrame)).toNat +
      (BitVec.extractLsb' 0 8 (crc16 statusFrame)).toNat ∧
    ((running id).seg .c).nodes.find 9 = some (node .carPanel (.car 3)) ∧
    ((running id).seg .c).nodes.find 8 = none ∧ NodeKind.carPanel.sends 2 = true ∧
    bodyLength .carPanel 2 = 2 ∧ bodyFits 2 [4, 1] = true ∧ NodeKind.carPanel.sends 3 = false ∧
    NodeKind.reader.sends 3 = true ∧ bodyFits 3 [0, 0, 0, 0xA1, 15] = true ∧
    bodyFits 3 [0, 0, 0, 0xA1, 16] = false := by decide +kernel
theorem test_a_status_is_accepted : ((running id).seg .c).classify (statusFrame ++
    [BitVec.extractLsb' 8 8 (crc16 statusFrame), BitVec.extractLsb' 0 8 (crc16 statusFrame)]) =
      .accepted ⟨9, 2, 0, [4, 1]⟩ := by decide +kernel
/-- Segment C holding one record of node 9, the router elsewhere. -/
def received (n : Node) (r : RingRecord) : State := withC (fun x => { live n x with ring := [r] }) (up .run)
theorem test_meets_router : (received (node .carPanel (.car 3)) ⟨9, 2, 0, [4, 1]⟩).router.hand = none ∧
    ((received (node .carPanel (.car 3)) ⟨9, 2, 0, [4, 1]⟩).seg .c).ring = [⟨9, 2, 0, [4, 1]⟩] ∧
    ((up .run).seg .a).ring = [] ∧ ((up .run).seg .b).ring = [] ∧ nextSeg .a ≠ .c ∧
    askedBy (.portalSide 7 .entry) 255 = some (.admission 7) ∧
    askedBy (.landing 15) 0 = some (.landing 15 (some 0)) := by decide +kernel
theorem test_the_router_hands_a_credential_on : ∃ t, exec .frameRouterTurn
    (received (node .reader (.portalSide 7 .entry)) ⟨9, 3, 0, [0, 0, 0, 0xA1, 255]⟩) = .next t ∧
    t.visits.waiting = [shown (.admission 7)] ∧ t.router.hand = some ⟨.c, false, true⟩ :=
  ⟨_, rfl, by decide +kernel⟩

/-! ## Local lines -/

/-- A line whose timers run. -/
def timed (l : Line) : Line := { l with timer := some 20, settleTimer := true }
/-- A Line Block with one report on its way to the beacon. -/
def beaconMail (r : BeaconReport) (f : LineBlock → LineBlock) : State :=
  let s := up .run
  { s with lines := f { s.lines with reports := [r] } }
theorem test_meets_lines : (withLine (line .fireIn none) (up .run)).line 11 = some (line .fireIn none) ∧
    (line .fireIn none).pin ≠ .high ∧ (line .fireIn none).record.val.func.isInput = true ∧
    (line .generalOut none).record.val.func.isInput = false ∧
    (line .fireIn (some .low)).debounced = some .low ∧ (timed (line .fireIn none)).settleTimer = true ∧
    (timed (line .fireIn none)).timer ≠ none ∧ (line .fireIn none).timer = none ∧
    (∃ l ∈ (withLine (line .fireIn (some .low)) (up .run)).lines.list, l.record.val.func = .fireIn ∧
      l.debounced = some l.record.val.active) ∧ (up .run).lines.fireInput = false := by decide +kernel
theorem test_a_fire_input_settles : ∃ t, exec (.debounceTimerExpiry 11)
    (withLine (timed (line .fireIn none)) (up .run)) = .next t ∧ t.lines.fireInput = true ∧
    t.site.fireReports = [.change true] := ⟨_, rfl, by decide +kernel⟩
theorem test_meets_beacon : (beaconMail (.evacuate true) id).lines.reports = [.evacuate true] ∧
    (beaconMail (.evacuate true) fun l => { l with beacon := .flashing false }).lines.beacon =
    .flashing false ∧
    (up .run).lines.beaconOnAlarms = true ∧ (up .run).lines.phaseTimer = false ∧
    (ask 0x71 [11, 1] (up .run)).inHand (fr 0x71 [11, 1]) ∧ 11 < (12 : Byte).toNat ∧
    1 < (2 : Byte).toNat := by
  decide +kernel
theorem test_the_beacon_flashes : ∃ t, exec .beaconInputReport (beaconMail (.evacuate true) id) = .next t ∧
    t.lines.beacon = .flashing true ∧ t.lines.phaseTimer = true := ⟨_, rfl, by decide +kernel⟩

/-! ## Hypotheses of the clauses about segments and units that take their items -/

/-- The settings of segment C in the store, running. -/
def kept38400 (s : State) : State := holding (.segment .c) (.segment ⟨true, 38400, 10, 20, 3, 50⟩) s
theorem test_meets_segmentItems : (up .run).segC.settings.val.enabled = false ∧
    ((up .run).store.segment .c).val.enabled = false ∧ (running id).segC.settings.val.enabled = true ∧
    ((kept38400 (running id)).store.segment .c).val.enabled = true ∧ (running id).segC.sending = none ∧
    (running id).segC.rx = .idle ∧ (sending .command 0).segC.sending ≠ none ∧
    (sending .command 0).segC.settings.val.enabled = true ∧
    ((sending .command 0).store.segment .c).val.enabled = false ∧
    ((kept38400 (up .run)).store.segment .c).val.enabled = true ∧ (up .run).segC.closing = false := by
  decide +kernel
theorem test_a_disabled_segment_finishes_its_copy :
    let t := applyItem (sending .command 0) (.segment .c)
    t.segC.state = .off ∧ t.segC.closing = true ∧ t.segC.inFlight.isSome = true ∧
      t.segC.lossesOwed.length = 1 ∧ t.segC.pendingAck = none := by decide +kernel
theorem test_an_enabled_segment_starts_afresh :
    ((applyItem (kept38400 (up .run)) (.segment .c)).segC.state,
      (applyItem (kept38400 (up .run)) (.segment .c)).segC.rateInUse) = (.active, 38400) := by decide +kernel
/-- A router that holds or is handing on a record of segment C. -/
def handing (h : Hand) (s : State) : State := { s with router := ⟨.c, some h⟩ }
theorem test_meets_routerHands : (up .run).router.hand = none ∧
    (handing ⟨.c, true, true⟩ (up .run)).router.hand = some ⟨.c, true, true⟩ ∧
    (handing ⟨.c, false, true⟩ (up .run)).router.hand = some ⟨.c, false, true⟩ ∧
    (Hand.mk .a false true).seg ≠ .c ∧ (Hand.mk .c true false).inRing = false := by decide
/-- A unit record as `unitRec`, changed. -/
def otherRec (f : UnitRec → UnitRec) : UnitRec := f (unitRec 15)
theorem test_meets_unitItems : (up .run).unit 4095 = none ∧
    (withEntry (entry .releasing) (up .run)).unit 4095 = some (entry .releasing) ∧
    (entry .armed).record.channel ≠ (unitRec 14).channel ∧ (entry .armed).record = unitRec 15 ∧
    (entry .armed).record.tenant ≠ (otherRec fun r => { r with tenant := 18 }).tenant ∧
    (otherRec fun r => { r with tenant := 18 }).channel = 15 ∧
    (entry .armed).record.overlocked ≠ (otherRec fun r => { r with overlocked := true }).overlocked ∧
    ({ entry .armed with record := otherRec fun r => { r with overlocked := true } } :
      UnitEntry).record.overlocked ≠ (unitRec 15).overlocked ∧
    (unitRec 15).tenant ∈ ({ (up .run).units with presence := [17] } : UnitDoors).presence := by decide +kernel
theorem test_a_dropped_unit_leaves : (tellMirror (.unit 4095 none) true
    (withEntry (entry .releasing) (up .run))).unit 4095 = none ∧
    ((tellMirror (.unit 4095 (some (unitRec 14))) true (withEntry (entry .disarmed) (up .run))).unit 4095).map
      UnitEntry.state = some .unknown := by decide +kernel

/-! ## Hypotheses of the clauses about decisions and hand-overs -/

/-- A lenient class 0. -/
def lenient (s : State) : State :=
  { s with site := { s.site with classes := s.site.classes.set 0 ⟨⟨0, 0, 0, 0, true, .lenient⟩, false⟩ } }
/-- A class 0 whose record is damaged. -/
def hurtClass (s : State) : State :=
  { s with site := { s.site with classes := s.site.classes.set 0 ⟨⟨0, 0, 0, 0, true, .lenient⟩, true⟩ } }
theorem test_meets_decisions : ((lenient (up .run)).cls 0).val.passback = .lenient ∧
    ((lenient (up .run)).cls 0).damaged = false ∧ ((hurtClass (up .run)).cls 0).damaged = true ∧
    (answeredWith ⟨shown (.admission 7), .credential⟩ .wrongMode (up .run)).store.results = [.wrongMode] ∧
    (shown (.admission 7)).source = .reader .c 9 ∧
    (visiting (List.replicate 8 (visit 1 .onSite)) (up .run)).visits.table.length < 96 ∧
    (up .run).visits.table = [] := by decide +kernel
theorem test_a_lenient_passback_closes_the_conflict : ∃ t, exec .admissionLookupResult
    (answeredWith ⟨shown (.admission 7), .credential⟩ (.found 17 (tenant .current false))
      (withGate (gate .secure .lines) (lenient (visiting [visit 1 .onSite] (up .run))))) = .next t ∧
    t.visits.table.map Visit.number = [1] ∧ t.visits.counter = 2 ∧
    t.visits.table.map Visit.stage = [.admitted] := ⟨_, rfl, by decide +kernel⟩
theorem test_a_host_admission_waits :
    ∃ t, exec .hostAdmit (ask 0x33 [7, 0, 0, 0, 1] (withGate (gate .secure .lines) (up .run))) = .next t ∧
      t.visits.waiting = [⟨.admission 7, .host, 1⟩] := ⟨_, rfl, by decide +kernel⟩
theorem test_a_hand_over_withdraws_the_queued_call :
    let s := withLift (queued .toPickup [call 1]) (visiting [calling false] (up .run))
    let t := handOverCall (shown (.landing 5 (some 9))) (calling false) 5 9 0 s
    (t.visits.table.map Visit.call, (t.car 3).map (fun x => x.queue.map Call.origin), t.lifts.withdrawals) =
      ([some ⟨3, false⟩], some [5], []) := by decide +kernel

/-! ## Hypotheses of the clauses about portals and their drives -/

/-- A line of a function that is settled, of portal 7. -/
def buttons (l : List (Option Level)) : State :=
  let s := up .run
  { s with lines := { s.lines with list := l.map fun d => line (.exitButton 7) d } }
/-- A portal module of portal 7 in a liveness. -/
def moduleNode (v : Liveness) : Node := { node .portalModule (.portal 7) with liveness := v }
/-- Portal 7 of the module 9 of segment C, in a liveness. -/
def moduled (q : Portal) (v : Liveness) (m : Mode) : State := withC (live (moduleNode v)) (withGate q (up m))
theorem test_meets_drives : (wired .secure (some .high) .run).strikeAssigned 7 = true ∧
    (up .run).strikeAssigned 7 = false ∧
    ((up .run).lines.list.filter fun l => decide (l.record.val.func = .contact 7)) = [] ∧
    ((wired .secure none .run).lines.list.filter fun l => decide (l.record.val.func = .contact 7)) =
      line (.contact 7) none :: [] ∧
    (wired .secure (some .high) .run).lineContact 7 = .closed ∧
    (line (.contact 7) none).record.val.active = .low ∧
    (buttons [some .low, none]).lineButton 7 = .pressed ∧
    (buttons [some .high, none]).lineButton 7 = .released ∧
    (buttons [none]).lineButton 7 = .unknown ∧ (gate .secure .lines).record.val.drive = .lines ∧
    (busyGate .fault).record.val.drive = .module .c 9 ∧
    (moduled (busyGate .fault) .quiet .run).node .c 9 = some (moduleNode .quiet) := by decide +kernel
theorem test_meets_lineDrives :
    (wired .fault (some .high) .run).portal 7 = some (gate .fault .lines) ∧
    (gate .fault .lines).record.val.present = true ∧ Portal.blank.record.val.present = false ∧
    (withPortal 7 (fun x => { x with contact := .closed, button := .unknown })
      (wired .fault (some .high) .run)).driveAvailable 7 = true ∧
    (wired .secure (some .high) .run).driveAvailable 7 = true ∧
    (wired .secure none .run).driveAvailable 7 = false ∧
    (up .evacuate).site.mode = .evacuate := by decide +kernel
theorem test_a_line_assigned_regains_the_drive :
    ((lineAssigned 7 (wired .fault (some .high) .run)).portal 7).map Portal.state = some .secure ∧
    ((lineAssigned 7 (wired .fault (some .high) .evacuate)).portal 7).map Portal.state = some .free ∧
    ((lineUnassigned 7 (wired .secure none .run)).portal 7).map Portal.state =
    some .fault := by decide +kernel
theorem test_meets_moduleStatus : (moduled (busyGate .fault) .live .run).portal 7 = some (busyGate .fault) ∧
    (moduled (busyGate .fault) .lost .run).node .c 9 = some (moduleNode .lost) ∧
    (moduled (busyGate .secure) .live .run).portal 7 = some (busyGate .secure) ∧
    (busyGate .fault).record.val.present = true ∧ Portal.blank.record.val.drive ≠ .module .c 9 := by
  decide +kernel
theorem test_a_status_regains_the_drive :
    ((portalStatus .c 9 7 .open_ .released (moduled (busyGate .fault) .live .run)).portal 7).map Portal.state =
      some .forced ∧
    ((portalStatus .c 9 7 .open_ .released (moduled (busyGate .secure) .live .run)).portal 7).map Portal.state =
      some .forced := by decide +kernel
theorem test_meets_strikeOutcomes :
    ((portalMail (.outcome (.strike 7 true 0) .cancelled) (busyGate .opening)).seg .c).toPortals =
      [.outcome (.strike 7 true 0) .cancelled] ∧
    ((portalMail (.outcome (.strike 7 true 0) .ok) Portal.blank).seg .c).toPortals =
      [.outcome (.strike 7 true 0) .ok] ∧
    (portalMail (.outcome (.strike 7 true 0) .ok) Portal.blank).portal 7 = some Portal.blank ∧
    (busyGate .fault).state = .fault ∧ (busyGate .opening).state ≠ .fault ∧
    (up .run).portal 0 = some Portal.blank := by decide +kernel
theorem test_meets_evacuationOfPortals : (gate .free .lines).state = .free ∧
    (gate .secure .lines).contact ≠ .open_ ∧ ({ gate .free .lines with contact := .open_ } : Portal).contact = .open_ ∧
    (ask 0x41 [7, 1] (up .run)).inHand (fr 0x41 [7, 1]) ∧
    (ask 0x41 [7, 0] (up .run)).inHand (fr 0x41 [7, 0]) ∧
    (up .starting).site.mode = .starting := by decide +kernel

/-! ## Hypotheses of the clauses about what a latch and a car panel report -/

/-- A latch on node 14 of segment B in a liveness, with a report held. -/
def latchNode (v : Liveness) : Node :=
  { node .latch .unbound with liveness := v, mirror := [0x80, 0, 0, 0], reportHeld := true }
/-- A part with that latch. -/
def latched (s : State) : State :=
  { s with segB := { s.segB with state := .active, nodes := [(14, latchNode .live)] } }
theorem test_meets_latches : (latched (up .run)).node .b 14 = some (latchNode .live) ∧
    (latchNode .live).entry.kind = .latch ∧ (up .run).node .b 14 = none ∧
    (withEntry (entry .armed) (up .run)).unitAt .b 14 15 = some 4095 ∧
    (withEntry (entry .armed) (up .run)).unitAt .b 14 0 = none ∧ (entry .unknown).state = .unknown ∧
    (entry .armed).contact = .closed ∧ ({ entry .armed with contact := .open_ } : UnitEntry).contact =
    .open_ ∧
    (4095, entry .armed) ∈ (withEntry (entry .armed) (up .run)).units.entries := by decide +kernel
theorem test_a_latch_status_places_its_units :
    ((latchStatus .b 14 [0x80, 0, 0, 0] (withEntry (entry .unknown) (up .run))).unit 4095).map UnitEntry.state =
      some .leftOpen ∧
    ((latchStatus .b 14 [0x80, 0, 0, 0] (withEntry (entry .disarmed) (up .run))).unit 4095).map
      UnitEntry.state = some .forced ∧
    ((evaluateHeld 4095 (unitRec 15) (latched (withEntry (entry .unknown) (up .run)))).unit 4095).map
      UnitEntry.state = some .leftOpen := by decide +kernel
theorem test_meets_releaseAsks : (withEntry (entry .disarmed) (up .evacuate)).site.mode = .evacuate ∧
    (withEntry (entry .disarmed) (up .draining)).unitAt .b 14 15 = some 4095 ∧
    (entry .armed).record.overlocked = false ∧
    ({ entry .armed with record := otherRec fun r => { r with overlocked := true } } :
      UnitEntry).record.overlocked = true ∧ (entry .open_).state ≠ .disarmed ∧
    (entry .open_).state ≠ .armed := by decide +kernel
theorem test_an_ask_releases_a_disarmed_unit :
    ((releaseAsk .b 14 15 (latched (withEntry (entry .disarmed) (up .run)))).unit 4095).map UnitEntry.state =
      some .releasing ∧
    (releaseAsk .b 14 15 (latched (withEntry (entry .armed) (up .run)))).host.notices.map NoticeRecord.notice =
      [.releaseRefused .b 14 15 (some 4095) (some 17) .noVisit] := by decide +kernel
/-- Car 3 carrying, or boarding, a call to floor 15. -/
def riding (st : CarState) (l : List Call) : Car := { lift st with trip := some ⟨l, 2, 4⟩ }
theorem test_meets_carStatus : (withLift (lift .idle) (up .run)).car 3 = some (lift .idle) ∧
    (lift .idle).record.val.present = true ∧ (lift .out).cause ≠ some .host ∧
    (queued .toPickup [call 1]).target = some 2 ∧ ({ lift .recall with target := some 0 } : Car).target =
    some 0 ∧
    (takeCalls 2 4 [call 1, { call 2 with origin := 3 }]).1 = [call 1] ∧
    (takeCalls 2 4 [{ call 2 with origin := 3 }]).1 = [] ∧
    (riding .boarding []).trip = some ⟨[], 2, 4⟩ ∧ (riding .carrying [call 1]).trip.isSome ∧
    ([call 1].filter fun k => k.dest == 15) ≠ [] ∧ ([call 1].filter fun k => k.dest == 3) = [] ∧
    (∃ k ∈ [call 1, { call 2 with dest := 9 }], k.dest ≠ 15) ∧ (lift .idle).trip = none := by decide +kernel
theorem test_a_car_boards_carries_and_completes :
    ((panelStatus .c 9 3 2 true (withLift (queued .toPickup [call 1]) (up .run))).car 3).map
      (fun x => (x.state, x.timer)) = some (.boarding, some 10) ∧
    ((panelStatus .c 9 3 2 false (withLift (riding .boarding [call 1]) (up .run))).car 3).map Car.state =
      some .carrying ∧
    ((panelStatus .c 9 3 15 true (withLift (riding .carrying [call 1]) (up .run))).car 3).map
      (fun x => (x.state, x.history.length)) = some (.idle, 1) := by decide +kernel
theorem test_a_recalled_car_parks : ((panelStatus .c 9 3 0 true
    (withLift { lift .recall with target := some 0 } (up .evacuate))).car 3).map Car.state = some .parked ∧
    ((panelStatus .c 9 3 0 true (withLift (lift .out) (up .run))).car 3).map Car.state = some .idle := by
  decide +kernel

/-! ## Hypotheses of the clauses about commands that end and frames that are handled -/

/-- Segment C with one node of a liveness. -/
def alive (v : Liveness) (missed : Nat) : State :=
  withC (live { node .carPanel (.car 3) with liveness := v, missed := missed }) (up .run)
/-- Segment C with a flight whose copy is being sent and which is to end with an outcome. -/
def endingCopy (n : Nat) : State :=
  running fun x =>
    { x with
      sending := some .command, txFaults := n
      inFlight := some { flight (stand .normal) .sending with endAs := some .cancelled } }
theorem test_meets_endings : ((endingCopy 0).seg .c).inFlight.map InFlight.endAs = some (some .cancelled) ∧
    min 255 (((endingCopy 246).seg .c).txFaults + 8) < 255 ∧
    ((withC (fun x => { x with closing := true }) (sending .command 3)).seg .c).closing = true ∧
    ((up .run).seg .c).sending = none ∧ ((up .run).seg .c).inFlight = none ∧
    (flight poll .repeatDue).phase ≠ .waiting ∧ (up .run).node .c 9 = none ∧
    ((alive .unreachable 0).node .c 9).map Node.liveness = some .unreachable ∧
    ((alive .quiet 1).node .c 9).map Node.missed = some 1 ∧
    ((alive .quiet 2).node .c 9).map Node.missed = some 2 ∧
    ((alive .lost 3).node .c 9).map Node.liveness = some .lost ∧ (Frame.mk 7 0x65 [2]).body = [2] := by
  decide +kernel
theorem test_a_copy_ends_its_cancelled_command : ∃ t, exec (.copySent .c) (endingCopy 0) = .next t ∧
    t.segC.inFlight = none ∧ t.segC.toLifts = [.outcome (.lift 3 .stand) .cancelled] := ⟨_, rfl, by decide +kernel⟩
theorem test_a_closing_copy_ends_the_segment :
    ∃ t, exec (.readbackMismatch .c) (withC (fun x => { x with closing := true }) (sending .command 3)) =
    .next t ∧
      t.segC.txFaults = 3 ∧ t.segC.inFlight = none ∧ t.segC.toLifts = [.outcome (.lift 3 .stand) .nodeLost] :=
  ⟨_, rfl, by decide +kernel⟩
theorem test_the_third_miss_loses_a_node : (pollUnanswered .c 9 (alive .quiet 2)).node .c 9 =
    some { node .carPanel (.car 3) with liveness := .lost, missed := 3 } ∧
    (pollUnanswered .c 9 (alive .quiet 2)).segC.toLifts = [.lost 9 (.car 3)] := by decide +kernel
/-- A receiver inside a frame of a class. -/
def inside (count : Nat) (length : Option Nat) (chars : List Byte) (c : RxClass) : RxFrame :=
  ⟨count, length, chars, c, 3⟩
theorem test_meets_characters : (inside 4 (some 24) [0, 9, 0x20, 24] .normal).char 1 1 =
      ⟨5, some 24, [0, 9, 0x20, 24, 1], .normal, 4⟩ ∧
    ((inside 3 none [0, 9, 0x20] .normal).char 25 9).cls = .oversize ∧
    ((inside 3 none [0, 9, 0x20] .normal).char 24 0).cls = .normal ∧
    ((inside 4 (some 24) [0, 9, 0x20, 24] .normal).char 1 0).cls = .overrun ∧
    ((inside 28 (some 24) [] .normal).char 1 0).cls = .normal ∧
    ((inside 2 none [] .overrun).char 1 9).cls = .overrun ∧
    ((inside 5 (some 0) [0, 9, 0, 0, 1] .normal).char 1 9).count = 6 + 0 := by decide +kernel
theorem test_meets_handlings : (∃ w, (running fun x => { x with inFlight := some (flight poll .waitOver) }).segC.inFlight =
      some w ∧ w.phase = .waitOver) ∧ ({ Drops.zero with corrupt := 127 } : Drops).get .corrupt = 127 ∧
    96 ≤ 95 + 1 ∧ (running fun x => { x with rxFaults := 95 }).segC.state = .active ∧
    (running fun x => { x with rxFaults := 96, state := .caution }).segC.state = .caution ∧
    (alive .lost 3).node .c 9 ≠ none ∧ poll.node = 9 ∧ poll.frame = .poll ∧
    ({ stand .normal with seq := some 5 } : TxEntry).seq = some 5 := ⟨⟨_, rfl, rfl⟩, by decide +kernel⟩
theorem test_a_corrupt_frame_takes_a_segment_to_caution :
    let t := handleFrame .c .corrupt (running fun x =>
      { x with rxFaults := 95, drops := { Drops.zero with corrupt := 127 } })
    t.segC.state = .caution ∧ t.segC.drops.corrupt = 128 ∧ t.host.notices.length = 2 := by decide +kernel
theorem test_an_accepted_status_is_acknowledged :
    let t := handleFrame .c (.accepted ⟨9, 2, 5, [4, 1]⟩) (alive .lost 3)
    (t.node .c 9).map (fun x => (x.liveness, x.lastSeq, x.mirror)) = some (.live, 5, [4, 1]) ∧
      t.segC.pendingAck = some (9, 5) ∧ t.segC.ring = [⟨9, 2, 5, [4, 1]⟩] := by decide +kernel
theorem test_an_ack_answers_its_command : (handleFrame .c (.ack 9 5) (running fun x =>
    { x with inFlight := some (flight { stand .normal with seq := some 5 } .waiting) })).segC.toLifts =
      [.outcome (.lift 3 .stand) .ok] := by decide +kernel
theorem test_meets_routedKinds : askedBy .unbound 0 = none ∧ NodeKind.reader.sends 3 = true ∧
    NodeKind.latch.sends 4 = true ∧ NodeKind.carPanel.sends 4 = false ∧
    (received (node .reader .unbound) ⟨8, 2, 0, []⟩).node .c 8 = none := by decide +kernel

/-! ## Hypotheses of the clauses about removals, cancels, isolation, summaries, hands and settled levels -/

theorem test_meets_cancels : (∃ e ∈ (running fun x => { x with queue := [stand .urgent] }).segC.queue,
      e.token = .lift 3 .stand) ∧ (stand .urgent).token ≠ .show ∧
    (running fun x => { x with inFlight := some (flight (stand .normal) .waiting) }).segC.inFlight =
      some (flight (stand .normal) .waiting) ∧
    (sending .command 0).segC.inFlight = some (flight (stand .normal) .sending) ∧
    (flight (stand .normal) .sending).endAs = none ∧
    ((endingCopy 0).segC.inFlight.bind InFlight.endAs) ≠ none := by decide +kernel
theorem test_a_cancel_ends_an_entry_by_its_phase :
    (cancel .c (.lift 3 .stand) (running fun x => { x with queue := [stand .urgent] })).segC.toLifts =
      [.outcome (.lift 3 .stand) .cancelled] ∧
    (cancel .c (.lift 3 .stand) (sending .command 0)).segC.toLifts = [] ∧
    ((cancel .c (.lift 3 .stand) (sending .command 0)).segC.inFlight.bind InFlight.endAs) =
      some .cancelled := by decide +kernel
theorem test_an_entry_joins_by_priority : joinQueue (stand .normal) [stand .urgent, stand .normal, poll] =
    [stand .urgent, stand .normal, stand .normal, poll] ∧
    joinQueue (stand .urgent) [poll] = [stand .urgent, poll] ∧ joinQueue poll [poll] = [poll, poll] := by
  decide
/-- The removal of node 9, whose panel a copy is being sent to. -/
def removing : State := applyItem (sending .command 247) (.node .c 9)
theorem test_meets_removals : (sending .command 247).node .c 9 = some (node .carPanel (.car 3)) ∧
    ((sending .command 247).store.nodeEntry .c 9).val = none ∧
    (sending .command 247).segC.inFlight = some (flight (stand .normal) .sending) := by decide +kernel
theorem test_a_removal_waits_for_the_copy : removing.node .c 9 = none ∧ removing.segC.toLifts = [] ∧
    removing.segC.lossesOwed = [(9, panelEntry)] ∧ (∃ t, exec (.copySent .c) removing = .next t ∧
      t.segC.toLifts = [.outcome (.lift 3 .stand) .nodeLost, .lost 9 (.car 3)]) :=
  ⟨by decide +kernel, by decide +kernel, by decide +kernel, _, rfl, by decide +kernel⟩
theorem test_an_isolation_tells_in_order : (∃ t, exec (.readbackMismatch .c) removing = .next t ∧
      t.segC.toLifts = [.outcome (.lift 3 .stand) .segmentIsolated, .lost 9 (.car 3)]) ∧
    ∃ t, exec (.readbackMismatch .c) (sending .command 247) = .next t ∧ t.segC.pendingAck = none ∧
      t.segC.toLifts = [.outcome (.lift 3 .stand) .segmentIsolated, .lost 9 (.car 3)] ∧
      t.host.notices.length = 1 := ⟨⟨_, rfl, by decide +kernel⟩, _, rfl, by decide +kernel⟩
theorem test_transmit_faults_set_the_caution : (setTxFaults .c 96 (running id)).segC.state = .caution ∧
    (setTxFaults .c 95 (running id)).segC.state = .active ∧
    (setTxFaults .c 95 (running fun x => { x with state := .caution })).segC.state = .active ∧
    (setTxFaults .c 95 (running fun x => { x with state := .caution })).host.notices.length = 1 := by
  decide +kernel
/-- Segment C closing over a copy, with settings that enable it in the store. -/
def reopening : State := kept38400 (applyItem (sending .command 0) (.segment .c))
theorem test_meets_reopening : reopening.segC.settings.val.enabled = false ∧ reopening.segC.closing = true ∧
    (reopening.store.segment .c).val.enabled = true := by decide +kernel
theorem test_an_enabling_ends_a_closing : (applyItem reopening (.segment .c)).segC.state = .active ∧
    (applyItem reopening (.segment .c)).segC.closing = false ∧
    (applyItem reopening (.segment .c)).segC.toLifts = [.outcome (.lift 3 .stand) .nodeLost, .lost 9 (.car 3)] := by
  decide +kernel
/-- A portal 7 by a module of segment C that is no longer reached. -/
def unreached : State :=
  holding (.portal 7) (.portal (wiredRec (.module .c 9)))
    (moduled { busyGate .secure with contact := .closed, button := .released } .lost .setup)
theorem test_a_lost_module_leaves_its_inputs_unknown :
    ((applyItem unreached (.portal 7)).portal 7).map (fun q => (q.state, q.contact, q.button, q.heard)) =
      some (.fault, .unknown, .unknown, false) := by decide +kernel
theorem test_a_start_takes_the_segment_settings :
    ((kept38400 (up .setup)).store.startSegment .c).state = .active ∧
    ((up .setup).store.startSegment .c).state = .off ∧
    (((holding (.node .c 9) (.node (some panelEntry)) (up .setup)).store.startSegment .c).nodes.find 9).map
      Node.liveness = some .unreachable ∧
    ((kept38400 (up .setup)).store.startSegment .c).nodes.find 9 = none := by decide +kernel
theorem test_summaries_are_told_when_they_change :
    (withPortal 7 (fun q => { q with state := .heldOpen }) (withGate (gate .secure .lines) (up .run))).site.reports =
      [.portals true] ∧
    (withPortal 7 (fun q => { q with state := .heldOpen }) (withGate (gate .forced .lines) (up .run))).lines.reports =
      [] ∧
    (withUnit 4095 (fun e => { e with state := .forced }) (withEntry (entry .armed) (up .run))).lines.reports =
      [.unitForced true] ∧
    (withCar 3 (fun x => { x with state := .carrying }) (withLift (lift .boarding) (up .run))).site.reports = [] ∧
    (withSeg .c (fun x => { x with queue := [stand .urgent] }) (running id)).site.reports =
      [.segment .c true] := by decide +kernel
/-- A router that hands on a credential from reader 9 of segment C. -/
def handed (p : Presentation) : State := handing ⟨.c, false, true⟩ (waiting p (up .run))
theorem test_meets_hands : (shown (.exit 7)).source = .reader .c 9 ∧
    (⟨.exit 7, .host, 1⟩ : Presentation).source = .host := ⟨rfl, rfl⟩
theorem test_a_presentation_is_taken_and_answered :
    (takeWaiting (shown (.exit 7)) [] (handed (shown (.exit 7)))).router.hand = some ⟨.c, true, true⟩ ∧
    (takeWaiting (shown (.exit 7)) [] (handed (shown (.exit 7)))).visits.waiting = [] ∧
    (endExit (shown (.exit 7)) .wait (handed (shown (.exit 7)))).router = ⟨.a, none⟩ ∧
    (denyCall (shown (.exit 7)) .held (handed (shown (.exit 7)))).visits.decision = none := by decide +kernel
theorem test_meets_commits : (alive .live 0).router.hand = none ∧ (alive .live 0).segA.ring = [] ∧
    (alive .live 0).segB.ring = [] ∧ (alive .live 0).segC.ring = [] ∧
    (received (node .carPanel (.car 3)) ⟨9, 2, 0, [4, 1]⟩).segC.ring ≠ [] := by decide +kernel
theorem test_the_commit_that_ends_the_wait_sets_the_router :
    let s := commitRecord .c ⟨9, 2, 0, [4, 1]⟩ (up .run)
    (s.router.position, (commitRecord .a ⟨9, 2, 0, [4, 1]⟩ s).router.position) = (.c, .c) := by decide +kernel
/-- A line block that owes its settled report, its lines but line 11 settled. -/
def owing (l : Line) : State :=
  let s := up .run
  { s with lines := { s.lines with settledOwed := true, list := List.replicate 11 (line .generalIn (some .high)) ++ [l] } }
theorem test_meets_settling : (owing (line .fireIn (some .low))).lines.settledOwed = true ∧
    (∀ l ∈ (owing (line .fireIn (some .low))).lines.list,
      ¬(l.record.val.func.isInput = true ∧ l.debounced = none)) ∧
    (∃ l ∈ (owing (line .fireIn none)).lines.list, l.record.val.func.isInput = true ∧ l.debounced = none) ∧
    (up .run).lines.settledOwed = false := by decide +kernel
theorem test_a_settled_level_is_handed_on :
    (reportSettled (owing (line .fireIn (some .low)))).site.fireReports = [.settled false] ∧
    ((handStart (.contact 7) (wired .fault (some .high) .run)).portal 7).map Portal.state = some .secure ∧
    handChange .generalIn (up .run) = up .run ∧
    (handChange .fireIn (withLine (line .fireIn (some .low)) (up .run))).lines.fireInput = true := by
  decide +kernel
theorem test_latch_flags_read_the_high_byte_first :
    flagBit (beNat [0x80, 0x01]) 15 = true ∧ flagBit (beNat [0x80, 0x01]) 0 = true ∧
    flagBit (beNat [0x80, 0x01]) 8 = false := by decide

/-! ## Hypotheses of the clauses about failed erases, free slots and numbers, and messages taken early -/

theorem test_meets_failedErases : (clearing .unit 14).store.state = .clearing ∧
    (clearing .unit 14).store.clear = some ⟨.unit, 14, false⟩ ∧ 14 < 15 ∧
    (clearing .unit 15).store.clear = some ⟨.unit, 15, false⟩ ∧
    (clearing .unit 14).store.clearFault = false ∧ (up .run).store.state ≠ .clearing := by decide
theorem test_a_clear_begins : ∃ t, exec .clearTable (ask 0x20 [0] (up .run)) = .next t ∧
    t.store.state = .clearing ∧ t.store.clear = some ⟨.tenant, 0, false⟩ := ⟨_, rfl, by decide +kernel⟩
theorem test_a_failed_erase_goes_on : ∃ t, exec (.blockEraseCompletion false) (clearing .tenant 14) = .next t ∧
    t.store.clear = some ⟨.tenant, 15, true⟩ ∧ t.store.clearFault = true ∧
    t.store.clearFaultRec = some (.tenant, 14) ∧ t.store.failedErases = 1 := ⟨_, rfl, by decide +kernel⟩
theorem test_a_failed_erase_damages_its_block :
    ∃ t, exec (.blockEraseCompletion false) (clearing .tenant 15) = .next t ∧
    t.store.tenants.find 2048 = some .damaged ∧ t.store.state = .ready ∧
    t.host.replies.map Reply.body = [[Status.storeFault.code]] := ⟨_, rfl, by decide +kernel⟩
theorem test_a_later_failed_erase_keeps_the_first_record :
    ∃ t, exec (.blockEraseCompletion false) (stored (fun st =>
      { st with clearFault := true, clearFaultRec := some (.site, 3), failedErases := 255 })
      (clearing .tenant 14)) = .next t ∧
    t.store.clearFaultRec = some (.site, 3) ∧ t.store.failedErases = 255 := ⟨_, rfl, by decide +kernel⟩
theorem test_meets_freeSlots : Table.sorted (filled Store.blank).creds ∧
    (∀ e ∈ (filled Store.blank).creds, e.1 < 4096) ∧ (filled Store.blank).creds.length < 4096 ∧
    lowestFree 0 [(0, .keyless), (1, .keyless), (3, .keyless)] = 2 := by decide
theorem test_meets_freeNumbers : [visit 65535 .onSite].length ≤ 96 ∧
    freeNumber [visit 65535 .onSite, visit 1 .onSite] 97 65535 = 2 := by decide
theorem test_a_car_at_its_bounds :
    (lift .idle).eligible 0 15 = true ∧ (lift .idle).serves 0 16 = false ∧ (lift .parked).serves 0 15 = false ∧
    ({ lift .idle with queue := List.replicate 24 (call 1) } : Car).serves 0 15 = true ∧
    ({ lift .idle with queue := List.replicate 24 (call 1) } : Car).eligible 0 15 = false ∧
    ({ lift .idle with queue := List.replicate 23 (call 1) } : Car).eligible 0 15 = true := by decide
theorem test_messages_taken_early_leave_none :
    (deliverUnitOrders (unitOrder (.disarm 17) (entry .armed))).units.orders = [] ∧
    ((deliverUnitOrders (unitOrder (.disarm 17) (entry .armed))).unit 4095).map UnitEntry.state = some .disarmed ∧
    (deliverPortalReports (reported (.passage 7 1) (visit 1 .admitted))).visits.portalReports = [] := by
  decide +kernel
theorem test_a_short_latch_status_reads_its_missing_bytes_as_zero :
    ((latchStatus .b 14 [0x80] (withEntry (entry .unknown) (up .run))).unit 4095).map UnitEntry.contact =
      some .open_ ∧
    ((latchStatus .b 14 [] (withEntry (entry .unknown) (up .run))).unit 4095).map UnitEntry.contact =
      some .closed := by decide +kernel

end Sys2Proof.Tests
end

section
/-! PROOF. What one command does to the whole state: only its footprint changes and the bounds stand (O6), and a
tenant that is not shared keeps to one visit (O7). -/

namespace Sys2Proof.Machine

/-! ## The bounds (O6) -/

theorem Moves.mono {m m' : Cell → Prop} {s t : State} (h : Moves m s t) (hm : ∀ c, m c → m' c) : Moves m' s t :=
  ⟨h.pending, fun c hc => h.same c fun k => hc (hm c k), h.inForm, h.visits,
    fun hc => h.fewer fun k => hc (hm _ k)⟩

@[simp] theorem segment_mem_segments (g : Seg) : Cell.segment g ∈ segments := by cases g <;> decide

@[simp] theorem serving_mem_answers : Cell.serving ∈ answers := by decide

@[simp] theorem replies_mem_answers : Cell.replies ∈ answers := by decide

/-- Every command answers a next state, and only the parts of its footprint move. -/
theorem exec_moves (c : Instr) (s : State) : ∃ t, exec c s = .next t ∧ Moves (· ∈ footprint c) s t := by
  cases c with
  | coldStart => apply execColdStart_moves <;> simp [footprint]
  | warmRestart => apply execWarmRestart_moves <;> simp [footprint]
  | scanEnd => apply execScanEnd_moves <;> simp [footprint]
  | siteSecondTick => apply execSiteSecondTick_moves <;> simp [footprint]
  | hostByte => apply execHostByte_moves <;> simp [footprint]
  | frameGapTimeout => apply execFrameGapTimeout_moves <;> simp [footprint]
  | replySent => apply execReplySent_moves <;> simp [footprint]
  | badKind => apply execBadKind_moves <;> simp [footprint]
  | identify => apply execIdentify_moves <;> simp [footprint]
  | restart => apply execRestart_moves <;> simp [footprint]
  | getState => apply execGetState_moves <;> simp [footprint]
  | hold => apply execHold_moves <;> simp [footprint]
  | resume => apply execResume_moves <;> simp [footprint]
  | evacuate => apply execEvacuate_moves <;> simp [footprint]
  | evacuateEnd => apply execEvacuateEnd_moves <;> simp [footprint]
  | evacuationClosuresDone => apply execEvacuationClosuresDone_moves <;> simp [footprint]
  | setClock => apply execSetClock_moves <;> simp [footprint]
  | putSite => apply execPutSite_moves <;> simp [footprint]
  | takeNotices => apply execTakeNotices_moves <;> simp [footprint]
  | putTenant => apply execPutTenant_moves <;> simp [footprint]
  | dropTenant => apply execDropTenant_moves <;> simp [footprint]
  | getTenant => apply execGetTenant_moves <;> simp [footprint]
  | putCredential => apply execPutCredential_moves <;> simp [footprint]
  | dropCredential => apply execDropCredential_moves <;> simp [footprint]
  | putUnit => apply execPutUnit_moves <;> simp [footprint]
  | dropUnit => apply execDropUnit_moves <;> simp [footprint]
  | setOverlock => apply execSetOverlock_moves <;> simp [footprint]
  | putPattern => apply execPutPattern_moves <;> simp [footprint]
  | putClass => apply execPutClass_moves <;> simp [footprint]
  | putWindow => apply execPutWindow_moves <;> simp [footprint]
  | clearTable => apply execClearTable_moves <;> simp [footprint]
  | getStore => apply execGetStore_moves <;> simp [footprint]
  | clearStoreFault => apply execClearStoreFault_moves <;> simp [footprint]
  | getDigest => apply execGetDigest_moves <;> simp [footprint]
  | writeCompletion => apply execWriteCompletion_moves <;> simp [footprint]
  | blockEraseCompletion => apply execBlockEraseCompletion_moves <;> simp [footprint]
  | credentialLookup => apply execCredentialLookup_moves <;> simp [footprint]
  | tenantLookup => apply execTenantLookup_moves <;> simp [footprint]
  | frameRouterTurn => apply execFrameRouterTurn_moves <;> simp [footprint]
  | admissionDecision => apply execAdmissionDecision_moves <;> simp [footprint]
  | admissionLookupResult => apply execAdmissionLookupResult_moves <;> simp [footprint]
  | exitDecision => apply execExitDecision_moves <;> simp [footprint]
  | exitLookupResult => apply execExitLookupResult_moves <;> simp [footprint]
  | liftCallIntake => apply execLiftCallIntake_moves <;> simp [footprint]
  | liftCallLookupResult => apply execLiftCallLookupResult_moves <;> simp [footprint]
  | liftCallTenantResult => apply execLiftCallTenantResult_moves <;> simp [footprint]
  | passageReport => apply execPassageReport_moves <;> simp [footprint]
  | noPassageReport => apply execNoPassageReport_moves <;> simp [footprint]
  | dwellDeadline => apply execDwellDeadline_moves <;> simp [footprint]
  | callReport => apply execCallReport_moves <;> simp [footprint]
  | unitOpenedReport => apply execUnitOpenedReport_moves <;> simp [footprint]
  | evacuationBeginVisits => apply execEvacuationBeginVisits_moves <;> simp [footprint]
  | evacuationEndVisits => apply execEvacuationEndVisits_moves <;> simp [footprint]
  | listVisits => apply execListVisits_moves <;> simp [footprint]
  | getVisit => apply execGetVisit_moves <;> simp [footprint]
  | closeVisit => apply execCloseVisit_moves <;> simp [footprint]
  | hostAdmit => apply execHostAdmit_moves <;> simp [footprint]
  | openOrder => apply execOpenOrder_moves <;> simp [footprint]
  | dropPendingVisit => apply execDropPendingVisit_moves <;> simp [footprint]
  | passTimerExpiry => apply execPassTimerExpiry_moves <;> simp [footprint]
  | holdTimerExpiry => apply execHoldTimerExpiry_moves <;> simp [footprint]
  | strikeOutcome => apply execStrikeOutcome_moves <;> simp [footprint]
  | portalDriveLoss => apply execPortalDriveLoss_moves <;> simp [footprint]
  | evacuationBeginPortals => apply execEvacuationBeginPortals_moves <;> simp [footprint]
  | evacuationEndPortals => apply execEvacuationEndPortals_moves <;> simp [footprint]
  | putPortal => apply execPutPortal_moves <;> simp [footprint]
  | setPortalSecure => apply execSetPortalSecure_moves <;> simp [footprint]
  | setPortalFree => apply execSetPortalFree_moves <;> simp [footprint]
  | setPortalMomentary => apply execSetPortalMomentary_moves <;> simp [footprint]
  | getPortal => apply execGetPortal_moves <;> simp [footprint]
  | disarmOrder => apply execDisarmOrder_moves <;> simp [footprint]
  | closureOrder => apply execClosureOrder_moves <;> simp [footprint]
  | releaseOutcome => apply execReleaseOutcome_moves <;> simp [footprint]
  | relockOutcome => apply execRelockOutcome_moves <;> simp [footprint]
  | denyBlinkOutcome => apply execDenyBlinkOutcome_moves <;> simp [footprint]
  | serviceReleaseOutcome => apply execServiceReleaseOutcome_moves <;> simp [footprint]
  | releaseTimerExpiry => apply execReleaseTimerExpiry_moves <;> simp [footprint]
  | latchNodeLoss => apply execLatchNodeLoss_moves <;> simp [footprint]
  | unitServiceBegin => apply execUnitServiceBegin_moves <;> simp [footprint]
  | unitServiceEnd => apply execUnitServiceEnd_moves <;> simp [footprint]
  | unitAlarmReset => apply execUnitAlarmReset_moves <;> simp [footprint]
  | getUnit => apply execGetUnit_moves <;> simp [footprint]
  | boardingTimerExpiry => apply execBoardingTimerExpiry_moves <;> simp [footprint]
  | callExpiry => apply execCallExpiry_moves <;> simp [footprint]
  | callWithdrawal => apply execCallWithdrawal_moves <;> simp [footprint]
  | liftCommandOutcome => apply execLiftCommandOutcome_moves <;> simp [footprint]
  | panelLoss => apply execPanelLoss_moves <;> simp [footprint]
  | drainBegin => apply execDrainBegin_moves <;> simp [footprint]
  | evacuationBeginLifts => apply execEvacuationBeginLifts_moves <;> simp [footprint]
  | evacuationEndLifts => apply execEvacuationEndLifts_moves <;> simp [footprint]
  | putCar => apply execPutCar_moves <;> simp [footprint]
  | carServiceOut => apply execCarServiceOut_moves <;> simp [footprint]
  | carServiceIn => apply execCarServiceIn_moves <;> simp [footprint]
  | getCar => apply execGetCar_moves <;> simp [footprint]
  | drainAnswer => apply execDrainAnswer_moves <;> simp [footprint]
  | busyReport => apply execBusyReport_moves <;> simp [footprint]
  | fireInputChange => apply execFireInputChange_moves <;> simp [footprint]
  | settledReport => apply execSettledReport_moves <;> simp [footprint]
  | pollTimerExpiry => apply execPollTimerExpiry_moves <;> simp [footprint]
  | turnaroundGapExpiry => apply execTurnaroundGapExpiry_moves <;> simp [footprint]
  | copySent => apply execCopySent_moves <;> simp [footprint]
  | answerWindowExpiry => apply execAnswerWindowExpiry_moves <;> simp [footprint]
  | ackWaitExpiry => apply execAckWaitExpiry_moves <;> simp [footprint]
  | readbackMismatch => apply execReadbackMismatch_moves <;> simp [footprint]
  | fieldCharacter => apply execFieldCharacter_moves <;> simp [footprint]
  | fieldLineIdle => apply execFieldLineIdle_moves <;> simp [footprint]
  | putSegment => apply execPutSegment_moves <;> simp [footprint]
  | enrolNode => apply execEnrolNode_moves <;> simp [footprint]
  | removeNode => apply execRemoveNode_moves <;> simp [footprint]
  | getNode => apply execGetNode_moves <;> simp [footprint]
  | getSegment => apply execGetSegment_moves <;> simp [footprint]
  | restoreSegment => apply execRestoreSegment_moves <;> simp [footprint]
  | linePinChange => apply execLinePinChange_moves <;> simp [footprint]
  | debounceTimerExpiry => apply execDebounceTimerExpiry_moves <;> simp [footprint]
  | lineSettleTimeout => apply execLineSettleTimeout_moves <;> simp [footprint]
  | beaconInputReport => apply execBeaconInputReport_moves <;> simp [footprint]
  | phaseTimerExpiry => apply execPhaseTimerExpiry_moves <;> simp [footprint]
  | putLine => apply execPutLine_moves <;> simp [footprint]
  | lineWrite => apply execLineWrite_moves <;> simp [footprint]
  | lineRead => apply execLineRead_moves <;> simp [footprint]

/-- What a command answers, it answers by moving its footprint. -/
theorem exec_next_moves {c : Instr} {s t : State} (h : exec c s = .next t) : Moves (· ∈ footprint c) s t := by
  obtain ⟨u, hu, hm⟩ := exec_moves c s
  cases hu.symm.trans h
  exact hm

/-- A step runs the front command on the state without it, or idles. -/
theorem step_cases {s t : State} (h : step s = .next t) :
    t = s ∨ ∃ c rest, s.pending = c :: rest ∧ exec c { s with pending := rest } = .next t := by
  unfold step at h
  split at h
  · cases h
    exact .inl rfl
  · rename_i c rest hp
    exact .inr ⟨c, rest, hp, h⟩

/-- The bounds do not speak of the commands that wait. -/
theorem State.inForm.pending {s : State} (h : s.inForm) (rest : List Instr) :
    State.inForm { s with pending := rest } :=
  ⟨h.host, h.store, h.seconds, h.segments, h.entries, h.cars⟩

/-- Settles O6: every command moves within its footprint, and what moves keeps the bounds. -/
theorem everyStepKeepsTheBounds : Obligations.EveryStepKeepsTheBounds := by
  intro s t h hs
  obtain rfl | ⟨c, rest, _, he⟩ := step_cases h
  · exact hs
  · exact (exec_next_moves he).inForm (hs.pending rest)

end Sys2Proof.Machine
end

section
/-! PROOF. A tenant that is not shared keeps to one visit under every command (R13, R44): what a request of the store
makes of it, what a lookup result makes of it, and the frame for the rest (O7). -/

namespace Sys2Proof.Machine

/-! ## Requests of the store -/

/-- What stands before a request and after what it does in hand stands after it. -/
theorem taking_keeps {P : State → Prop} {s : State} (h : P s) (kind : Nat) (f : List Byte → State → State)
    (hf : ∀ b, P (f b s)) : P (taking kind f s) := by
  unfold taking
  split
  · split
    · exact hf _
    · exact h
  · exact h

/-- What stands before a store request and after whatever it does in hand stands after it. -/
theorem takingStore_keeps {P : State → Prop} {s : State} (h : P s) (kind : Nat) (f : List Byte → State → State)
    (hf : ∀ b, s.store.results = [] → P (f b s)) : P (takingStore kind f s) := by
  unfold takingStore
  split
  · rename_i he
    have hr : s.store.results = [] := by simpa using (Bool.and_eq_true_iff.mp he).2
    exact taking_keeps h _ _ fun b => hf b hr
  · exact h

/-- What stands after every reply and after what a good body does stands after the tests of a body and mode. -/
theorem tested_keeps {P : State → Prop} {s : State} {α : Type} (p : Parsed α) (m : Mode → Bool)
    (k : α → State → State) (hr : ∀ st, P (reply st [] s)) (hk : ∀ x, P (k x s)) : P (tested p m k s) := by
  unfold tested
  split
  · exact hr _
  · split
    · exact hk _
    · exact hr _

theorem unlessFaulted_keeps {P : State → Prop} {s : State} (k : State → State) (hr : ∀ st, P (reply st [] s))
    (hk : P (k s)) : P (unlessFaulted k s) := by
  unfold unlessFaulted
  split
  · exact hr _
  · exact hk

theorem withTenant_keeps {P : State → Prop} {s : State} (id : Nat) (k : Tenant → State → State)
    (hr : ∀ st, P (reply st [] s)) (hk : ∀ r, P (k r s)) : P (withTenant id k s) := by
  unfold withTenant
  split
  · exact hr _
  · exact hr _
  · exact hk _

/-- A state with the same visits, tenant records, write and results. -/
theorem holdOne_of_eq {s t : State} (h : s.unsharedHoldOne) (hv : t.visits = s.visits)
    (ht : t.store.tenants = s.store.tenants) (hw : t.store.write = s.store.write)
    (hr : t.store.results = s.store.results) : t.unsharedHoldOne :=
  holdOne_of h (unshared_of_find hw fun _ _ _ he => ht ▸ he)
    (fun n => Nat.le_of_eq (by unfold State.visitsOf; rw [hv])) fun _ he => hr ▸ he

theorem holdOne_reply {s : State} (h : s.unsharedHoldOne) (st : Status) (b : List Byte) :
    (reply st b s).unsharedHoldOne :=
  holdOne_moves h (reply_moves (Moves.refl _ _) (by simp [Cell.noNewVisit]) (by simp [Cell.noNewVisit]))

theorem holdOne_working {s : State} (h : s.unsharedHoldOne) : (working s).unsharedHoldOne :=
  holdOne_moves h (working_moves (Moves.refl _ _) (by simp [Cell.noNewVisit]))

/-- A write begun with no result on its way makes not shared only a tenant with room for it (R13, R27). -/
theorem holdOne_beginWrite {s : State} (h : s.unsharedHoldOne) (hr : s.store.results = []) (w : WriteOp)
    (hw : ∀ id r, w = .tenant id (some r) → r.shared = false → (s.visitsOf id).length ≤ 1) :
    (beginWrite w s).unsharedHoldOne := by
  let u : State := { s with store := { s.store with state := .writing, write := some w } }
  have hu : u.unsharedHoldOne := by
    refine ⟨fun id hi => ?_, fun _ _ hx => ?_⟩
    · obtain hk | ⟨r, he, hs⟩ := hi
      · exact h.visits id (.inl hk)
      · exact hw id r (Option.some.inj he) hs
    · exact absurd (show _ ∈ s.store.results from hx) (by simp [hr])
  exact holdOne_working hu

/-- The common shape of the requests that write a record: the tests, and then `k`. -/
theorem holdOne_storeRequest {s : State} (h : s.unsharedHoldOne) {α : Type} (kind : Nat)
    (p : List Byte → Parsed α) (m : Mode → Bool) (k : α → State → State)
    (hk : s.store.results = [] → ∀ x, (k x s).unsharedHoldOne) :
    (takingStore kind (fun b => tested (p b) m fun x => unlessFaulted (k x)) s).unsharedHoldOne :=
  takingStore_keeps h _ _ fun _ hr => tested_keeps _ _ _ (fun _ => holdOne_reply h _ _) fun x =>
    unlessFaulted_keeps _ (fun _ => holdOne_reply h _ _) (hk hr x)

theorem holdOne_writeItem {s : State} (h : s.unsharedHoldOne) (hr : s.store.results = []) (i : SiteItem)
    (v : SiteValue) : (writeItem i v s).unsharedHoldOne := by
  unfold writeItem
  split
  · exact holdOne_reply h _ _
  · exact holdOne_beginWrite h hr _ (by simp)

theorem putTenant_holdOne (s : State) :
    ∃ t, execPutTenant s = .next t ∧ (s.unsharedHoldOne → t.unsharedHoldOne) := by
  refine ⟨_, rfl, fun h => holdOne_storeRequest h _ _ _ _ fun hr x => ?_⟩
  split
  · exact holdOne_reply h _ _
  · rename_i hn
    split
    · exact holdOne_reply h _ _
    · refine holdOne_beginWrite h hr _ fun id r he hs => ?_
      obtain ⟨rfl, rfl⟩ : x.1 = id ∧ x.2 = r := by simpa using he
      exact Nat.not_lt.mp fun hl => hn (by simp [hs, hl])

theorem dropTenant_holdOne (s : State) :
    ∃ t, execDropTenant s = .next t ∧ (s.unsharedHoldOne → t.unsharedHoldOne) := by
  refine ⟨_, rfl, fun h => holdOne_storeRequest h _ _ _ _ fun hr id => ?_⟩
  repeat' split
  all_goals first
    | exact holdOne_reply h _ _
    | exact holdOne_beginWrite h hr _ (by simp)

theorem putCredential_holdOne (s : State) :
    ∃ t, execPutCredential s = .next t ∧ (s.unsharedHoldOne → t.unsharedHoldOne) := by
  refine ⟨_, rfl, fun h => holdOne_storeRequest h _ _ _ _ fun hr x =>
    withTenant_keeps _ _ (fun _ => holdOne_reply h _ _) fun _ => ?_⟩
  unfold putCredential
  dsimp only
  split
  · split <;> exact holdOne_reply h _ _
  all_goals
    split
    · exact holdOne_reply h _ _
    · exact holdOne_beginWrite h hr _ (by simp)

theorem dropCredential_holdOne (s : State) :
    ∃ t, execDropCredential s = .next t ∧ (s.unsharedHoldOne → t.unsharedHoldOne) := by
  refine ⟨_, rfl, fun h => holdOne_storeRequest h _ _ _ _ fun hr v => ?_⟩
  split
  · exact holdOne_reply h _ _
  · exact holdOne_beginWrite h hr _ (by simp)

theorem holdOne_putUnit {s : State} (h : s.unsharedHoldOne) (hr : s.store.results = []) (u : Nat) (r : UnitRec) :
    (putUnit u r s).unsharedHoldOne := by
  unfold putUnit
  repeat' split
  all_goals first
    | exact holdOne_reply h _ _
    | exact holdOne_beginWrite h hr _ (by simp)

theorem putUnit_holdOne (s : State) :
    ∃ t, execPutUnit s = .next t ∧ (s.unsharedHoldOne → t.unsharedHoldOne) := by
  refine ⟨_, rfl, fun h => holdOne_storeRequest h _ _ _ _ fun hr x => ?_⟩
  split
  · exact holdOne_putUnit h hr _ _
  · exact withTenant_keeps _ _ (fun _ => holdOne_reply h _ _) fun _ => holdOne_putUnit h hr _ _

theorem dropUnit_holdOne (s : State) :
    ∃ t, execDropUnit s = .next t ∧ (s.unsharedHoldOne → t.unsharedHoldOne) := by
  refine ⟨_, rfl, fun h => holdOne_storeRequest h _ _ _ _ fun hr u => ?_⟩
  repeat' split
  all_goals first
    | exact holdOne_reply h _ _
    | exact holdOne_beginWrite h hr _ (by simp)

theorem setOverlock_holdOne (s : State) :
    ∃ t, execSetOverlock s = .next t ∧ (s.unsharedHoldOne → t.unsharedHoldOne) := by
  refine ⟨_, rfl, fun h => holdOne_storeRequest h _ _ _ _ fun hr x => ?_⟩
  repeat' split
  all_goals first
    | exact holdOne_reply h _ _
    | exact holdOne_beginWrite h hr _ (by simp)

theorem putPortal_holdOne (s : State) :
    ∃ t, execPutPortal s = .next t ∧ (s.unsharedHoldOne → t.unsharedHoldOne) := by
  refine ⟨_, rfl, fun h => holdOne_storeRequest h _ _ _ _ fun hr x => ?_⟩
  split
  · exact holdOne_reply h _ _
  · exact holdOne_writeItem h hr _ _

theorem putLine_holdOne (s : State) :
    ∃ t, execPutLine s = .next t ∧ (s.unsharedHoldOne → t.unsharedHoldOne) := by
  refine ⟨_, rfl, fun h => holdOne_storeRequest h _ _ _ _ fun hr x => ?_⟩
  dsimp only
  split
  · exact holdOne_reply h _ _
  · split
    · exact holdOne_reply h _ _
    · exact holdOne_writeItem h hr _ _

theorem enrolNode_holdOne (s : State) :
    ∃ t, execEnrolNode s = .next t ∧ (s.unsharedHoldOne → t.unsharedHoldOne) := by
  refine ⟨_, rfl, fun h => holdOne_storeRequest h _ _ _ _ fun hr x => ?_⟩
  repeat' split
  all_goals first
    | exact holdOne_reply h _ _
    | exact holdOne_beginWrite h hr _ (by simp)

theorem removeNode_holdOne (s : State) :
    ∃ t, execRemoveNode s = .next t ∧ (s.unsharedHoldOne → t.unsharedHoldOne) := by
  refine ⟨_, rfl, fun h => holdOne_storeRequest h _ _ _ _ fun hr x => ?_⟩
  split
  · exact holdOne_reply h _ _
  · exact holdOne_beginWrite h hr _ (by simp)

/-- A request that writes one SITE item after the common tests (R12 step 6). -/
theorem holdOne_siteRequest {s : State} (h : s.unsharedHoldOne) {α : Type} (kind : Nat)
    (p : List Byte → Parsed α) (m : Mode → Bool) (i : α → SiteItem) (v : α → SiteValue) :
    (takingStore kind (fun b => tested (p b) m fun x => unlessFaulted (writeItem (i x) (v x))) s).unsharedHoldOne :=
  holdOne_storeRequest h _ _ _ _ fun hr _ => holdOne_writeItem h hr _ _

theorem holdOne_resume {s : State} (h : s.unsharedHoldOne) : (enterMode .run none .resume s).unsharedHoldOne := by
  refine holdOne_moves h (enterMode_moves (Moves.refl _ _) ?_ ?_ ?_) <;> simp [Cell.noNewVisit]

theorem resume_holdOne (s : State) :
    ∃ t, execResume s = .next t ∧ (s.unsharedHoldOne → t.unsharedHoldOne) := by
  refine ⟨_, rfl, fun h => ?_⟩
  dsimp only
  split
  · rename_i hm
    refine takingStore_keeps h _ _ fun _ hr => tested_keeps _ _ _ (fun _ => holdOne_reply h _ _) fun _ => ?_
    unfold resumeByMode
    rw [hm]
    refine unlessFaulted_keeps _ (fun _ => holdOne_reply h _ _) ?_
    split
    · exact holdOne_reply (holdOne_resume h) _ _
    · exact holdOne_beginWrite h hr _ (by simp)
  · rename_i hm
    refine taking_keeps h _ _ fun _ => tested_keeps _ _ _ (fun _ => holdOne_reply h _ _) fun _ => ?_
    unfold resumeByMode
    split
    · exact absurd ‹_› hm
    · exact holdOne_reply (holdOne_resume h) _ _
    all_goals exact holdOne_reply h _ _

theorem clearTable_holdOne (s : State) :
    ∃ t, execClearTable s = .next t ∧ (s.unsharedHoldOne → t.unsharedHoldOne) := by
  refine ⟨_, rfl, fun h => takingStore_keeps h _ _ fun _ _ =>
    tested_keeps _ _ _ (fun _ => holdOne_reply h _ _) fun _ => ?_⟩
  split
  · exact holdOne_reply h _ _
  · refine unlessFaulted_keeps _ (fun _ => holdOne_reply h _ _) ?_
    split
    · exact holdOne_reply h _ _
    · exact holdOne_working (holdOne_of_eq h rfl rfl rfl rfl)

theorem getStore_holdOne (s : State) :
    ∃ t, execGetStore s = .next t ∧ (s.unsharedHoldOne → t.unsharedHoldOne) := by
  refine ⟨_, rfl, fun h => takingStore_keeps h _ _ fun _ _ =>
    tested_keeps _ _ _ (fun _ => holdOne_reply h _ _) fun clear => ?_⟩
  have hr := holdOne_reply h .ok (getStoreBody s.store)
  dsimp only
  split
  · exact holdOne_of_eq hr rfl rfl rfl rfl
  · exact hr

theorem clearStoreFault_holdOne (s : State) :
    ∃ t, execClearStoreFault s = .next t ∧ (s.unsharedHoldOne → t.unsharedHoldOne) := by
  refine ⟨_, rfl, fun h => takingStore_keeps h _ _ fun _ _ =>
    tested_keeps _ _ _ (fun _ => holdOne_reply h _ _) fun _ => ?_⟩
  refine holdOne_reply ?_ _ _
  exact holdOne_of_eq h rfl rfl rfl rfl

/-! ## The store at work -/

theorem writeCompletion_holdOne (ok : Bool) (s : State) :
    ∃ t, execWriteCompletion ok s = .next t ∧ (s.unsharedHoldOne → t.unsharedHoldOne) := by
  refine ⟨_, rfl, fun h => ?_⟩
  split
  · exact h
  · rename_i w hw
    have hc : State.unsharedHoldOne { s with store :=
        { (if ok then commitWrite w ok s.store else failWrite w (commitWrite w ok s.store)) with
          state := .ready, write := none } } := by
      refine holdOne_of h (fun id hi => unshared_commitWrite (ok := ok) hw id ?_) (fun _ => Nat.le_refl _) ?_
      · cases ok <;> exact hi
      · cases ok <;> cases w <;> exact fun _ hr => hr
    refine holdOne_reply (holdOne_moves hc (toSite_moves (tellMirror_moves (Moves.refl _ _) ?_ ?_ ?_ ?_ ?_ ?_ ?_
      ?_ ?_ ?_ ?_ ?_ ?_ ?_ ?_ ?_ ?_) ?_)) _ _ <;> simp [Cell.noNewVisit]

theorem holdOne_dropUnitEntries (units : List Nat) :
    ∀ {s : State}, s.unsharedHoldOne → (units.foldl (fun s u => dropUnitEntry u s) s).unsharedHoldOne := by
  induction units with
  | nil => exact fun h => h
  | cons u units ih =>
    refine fun h => ih (holdOne_moves h (dropUnitEntry_moves (Moves.refl _ _) ?_ ?_ ?_ ?_)) <;>
      simp [Cell.noNewVisit]

theorem holdOne_applyItems (items : List SiteItem) :
    ∀ {s : State}, s.unsharedHoldOne → (items.foldl applyItem s).unsharedHoldOne := by
  induction items with
  | nil => exact fun h => h
  | cons i items ih =>
    refine fun h => ih (holdOne_moves h (applyItem_moves (Moves.refl _ _) ?_ ?_ ?_ ?_ ?_ ?_ ?_ ?_ ?_ ?_ ?_ ?_ ?_ ?_
      ?_)) <;> simp [Cell.noNewVisit]

theorem holdOne_endClear (c : ClearOp) {s : State} (h : s.unsharedHoldOne) : (endClear c s).unsharedHoldOne := by
  have hr : (toSite .storeReady
      { s with store := { s.store with state := .ready, clear := none } }).unsharedHoldOne :=
    holdOne_of_eq h rfl rfl rfl rfl
  refine holdOne_reply ?_ _ _
  split
  · exact holdOne_applyItems _ hr
  · exact hr

theorem holdOne_completeBlock (c : ClearOp) (ok : Bool) {s : State} (h : s.unsharedHoldOne) :
    (completeBlock c ok s).unsharedHoldOne := by
  have he : State.unsharedHoldOne { s with store :=
      (if ok then eraseStore c.table c.block ok s.store
       else failErase c.table c.block (eraseStore c.table c.block ok s.store)) } := by
    refine holdOne_of h (fun id => unshared_of_find ?_ (fun id r k hf => ?_) id) (fun _ => Nat.le_refl _) ?_
    · cases ok <;> cases c.table <;> rfl
    · refine find_eraseStore (t := c.table) (b := c.block) (ok := ok) id r k ?_
      cases ok <;> exact hf
    · cases ok <;> cases c.table <;> exact fun _ hr => hr
  have hu := holdOne_dropUnitEntries (if c.table = .unit then s.store.unitsIn c.block else []) he
  unfold completeBlock
  dsimp only
  split
  · exact holdOne_of_eq hu rfl rfl rfl rfl
  · exact holdOne_endClear _ hu

theorem blockEraseCompletion_holdOne (ok : Bool) (s : State) :
    ∃ t, execBlockEraseCompletion ok s = .next t ∧ (s.unsharedHoldOne → t.unsharedHoldOne) := by
  refine ⟨_, rfl, fun h => ?_⟩
  split
  · exact holdOne_completeBlock _ _ h
  · exact h

theorem scanEnd_holdOne (decayed : List SlotRef) (s : State) :
    ∃ t, execScanEnd decayed s = .next t ∧ (s.unsharedHoldOne → t.unsharedHoldOne) := by
  refine ⟨_, rfl, fun h => ?_⟩
  split
  · have hs : State.unsharedHoldOne { s with store := s.store.scanned decayed } :=
      holdOne_of h (unshared_of_find rfl fun id r k => find_scanned id r k) (fun _ => Nat.le_refl _)
        fun _ hr => hr
    have hn : Moves Cell.noNewVisit { s with store := s.store.scanned decayed } (scanStore decayed s) := by
      refine noteDamage_moves (noteDamage_moves (noteDamage_moves (noteDamage_moves (Moves.refl _ _) ?_) ?_) ?_) ?_
        <;> simp [Cell.noNewVisit]
    refine holdOne_moves hs (reportSettled_moves (chooseMode_moves (toBeacon_moves (startLines_moves
      (fillCopies_moves (toSite_moves hn ?_) ?_ ?_ ?_ ?_ ?_) ?_ ?_ ?_ ?_ ?_ ?_ ?_ ?_ ?_ ?_ ?_) ?_) ?_ ?_ ?_) ?_ ?_)
      <;> simp [Cell.noNewVisit]
  · exact h

theorem coldStart_holdOne (a b : Bool) (s : State) :
    ∃ t, execColdStart a b s = .next t ∧ (s.unsharedHoldOne → t.unsharedHoldOne) :=
  ⟨_, rfl, fun _ => holdOne_blank rfl rfl⟩

theorem warmRestart_holdOne (s : State) :
    ∃ t, execWarmRestart s = .next t ∧ (s.unsharedHoldOne → t.unsharedHoldOne) := by
  refine ⟨_, rfl, fun h => ?_⟩
  split
  · exact holdOne_blank rfl rfl
  · exact h

/-! ## Lookups and their results -/

theorem unlessScanning_found {st : Store} {r : LookupResult} {id : Nat} {t : Tenant}
    (h : st.unlessScanning r = .found id t) : r = .found id t := by
  unfold Store.unlessScanning at h
  split at h
  · cases h
  · exact h

theorem credentialLookup_holdOne (s : State) :
    ∃ t, execCredentialLookup s = .next t ∧ (s.unsharedHoldOne → t.unsharedHoldOne) := by
  refine ⟨_, rfl, fun h => ?_⟩
  split
  · exact holdOne_serveLookup h fun j t e => lookupCredential_shared (unlessScanning_found e)
  · exact h

theorem tenantLookup_holdOne (s : State) :
    ∃ t, execTenantLookup s = .next t ∧ (s.unsharedHoldOne → t.unsharedHoldOne) := by
  refine ⟨_, rfl, fun h => ?_⟩
  split
  · exact holdOne_serveLookup h fun j t e =>
      lookupTenant_shared (by intro _ _ k; cases k) (unlessScanning_found e)
  · exact h

/-- A decision takes the head result, which reads no tenant as shared that is not. -/
theorem holdOne_lookupResult {s : State} (h : s.unsharedHoldOne) (sort : Asked → Awaits → Bool)
    (k : Decision → LookupResult → State → State)
    (hk : ∀ d r u, u.unsharedHoldOne → (∀ id t, r = .found id t → t.shared = true → ¬u.store.unshared id) →
      (k d r u).unsharedHoldOne) : (lookupResult sort k s).unsharedHoldOne := by
  unfold lookupResult
  split
  · rename_i d r rest _ hr
    split
    · refine hk d r _ (holdOne_of h (fun _ hi => hi) (fun _ => Nat.le_refl _) fun x hx => ?_) fun id t he => ?_
      · exact hr ▸ List.mem_cons_of_mem r hx
      · exact h.results id t (hr ▸ he ▸ List.mem_cons_self)
    · exact h
  · exact h

theorem admissionLookupResult_holdOne (s : State) :
    ∃ t, execAdmissionLookupResult s = .next t ∧ (s.unsharedHoldOne → t.unsharedHoldOne) := by
  refine ⟨_, rfl, fun h => holdOne_lookupResult h _ _ fun d r u hu hf => ?_⟩
  dsimp only
  repeat' split
  all_goals first
    | exact holdOne_refuseAdmission hu
    | exact holdOne_admitTenant hu (hf _ _ rfl)

theorem exitLookupResult_holdOne (s : State) :
    ∃ t, execExitLookupResult s = .next t ∧ (s.unsharedHoldOne → t.unsharedHoldOne) := by
  refine ⟨_, rfl, fun h => holdOne_lookupResult h _ _ fun d r u hu _ => ?_⟩
  dsimp only
  split
  · refine holdOne_moves hu (endExit_moves (Moves.refl _ _) ?_ ?_ ?_ ?_) <;> simp [Cell.noNewVisit]
  · refine holdOne_moves hu (endExit_moves (exitMatched_moves (Moves.refl _ _) ?_ ?_ ?_ ?_ ?_) ?_ ?_ ?_ ?_) <;>
      simp [Cell.noNewVisit]

theorem holdOne_denyCall {s : State} (h : s.unsharedHoldOne) (p : Presentation) (why : Reason) :
    (denyCall p why s).unsharedHoldOne := by
  refine holdOne_moves h (denyCall_moves (Moves.refl _ _) ?_ ?_ ?_ ?_) <;> simp [Cell.noNewVisit]

theorem liftCallLookupResult_holdOne (s : State) :
    ∃ t, execLiftCallLookupResult s = .next t ∧ (s.unsharedHoldOne → t.unsharedHoldOne) := by
  refine ⟨_, rfl, fun h => holdOne_lookupResult h _ _ fun d r u hu _ => ?_⟩
  dsimp only
  split
  · exact holdOne_denyCall hu _ _
  · split
    · refine holdOne_moves hu (intakeVisit_moves (Moves.refl _ _) ?_ ?_ ?_ ?_ ?_ ?_) <;> simp [Cell.noNewVisit]
    · exact holdOne_denyCall hu _ _

theorem liftCallTenantResult_holdOne (s : State) :
    ∃ t, execLiftCallTenantResult s = .next t ∧ (s.unsharedHoldOne → t.unsharedHoldOne) := by
  refine ⟨_, rfl, fun h => holdOne_lookupResult h _ _ fun d r u hu _ => ?_⟩
  split
  · exact holdOne_denyCall hu _ _
  · refine holdOne_moves hu (intakeCall_moves (Moves.refl _ _) ?_ ?_ ?_ ?_ ?_ ?_ ?_ ?_) <;> simp [Cell.noNewVisit]
  · exact hu

/-! ## Every command (O7) -/

/-- A command whose footprint holds no slots, results or counter. -/
theorem exec_holdOne_of_footprint {c : Instr} (hc : ∀ k ∈ footprint c, k.noNewVisit) (s : State) :
    ∃ t, exec c s = .next t ∧ (s.unsharedHoldOne → t.unsharedHoldOne) := by
  obtain ⟨t, ht, hm⟩ := exec_moves c s
  exact ⟨t, ht, fun h => holdOne_moves h (hm.mono hc)⟩

theorem exec_holdOne (c : Instr) (s : State) :
    ∃ t, exec c s = .next t ∧ (s.unsharedHoldOne → t.unsharedHoldOne) := by
  cases c with
  | coldStart a b => exact coldStart_holdOne a b s
  | warmRestart => exact warmRestart_holdOne s
  | scanEnd decayed => exact scanEnd_holdOne decayed s
  | resume => exact resume_holdOne s
  | putSite => exact ⟨_, rfl, fun h => holdOne_siteRequest h _ _ _ _ _⟩
  | putTenant => exact putTenant_holdOne s
  | dropTenant => exact dropTenant_holdOne s
  | putCredential => exact putCredential_holdOne s
  | dropCredential => exact dropCredential_holdOne s
  | putUnit => exact putUnit_holdOne s
  | dropUnit => exact dropUnit_holdOne s
  | setOverlock => exact setOverlock_holdOne s
  | putPattern => exact ⟨_, rfl, fun h => holdOne_siteRequest h _ _ _ _ _⟩
  | putClass => exact ⟨_, rfl, fun h => holdOne_siteRequest h _ _ _ _ _⟩
  | putWindow => exact ⟨_, rfl, fun h => holdOne_siteRequest h _ _ _ _ _⟩
  | clearTable => exact clearTable_holdOne s
  | getStore => exact getStore_holdOne s
  | clearStoreFault => exact clearStoreFault_holdOne s
  | putPortal => exact putPortal_holdOne s
  | putCar => exact ⟨_, rfl, fun h => holdOne_siteRequest h _ _ _ _ _⟩
  | putSegment => exact ⟨_, rfl, fun h => holdOne_siteRequest h _ _ _ _ _⟩
  | enrolNode => exact enrolNode_holdOne s
  | removeNode => exact removeNode_holdOne s
  | putLine => exact putLine_holdOne s
  | writeCompletion ok => exact writeCompletion_holdOne ok s
  | blockEraseCompletion ok => exact blockEraseCompletion_holdOne ok s
  | credentialLookup => exact credentialLookup_holdOne s
  | tenantLookup => exact tenantLookup_holdOne s
  | admissionLookupResult => exact admissionLookupResult_holdOne s
  | exitLookupResult => exact exitLookupResult_holdOne s
  | liftCallLookupResult => exact liftCallLookupResult_holdOne s
  | liftCallTenantResult => exact liftCallTenantResult_holdOne s
  | _ => exact exec_holdOne_of_footprint (by simp [footprint, answers, segments, Cell.noNewVisit]) s

/-- Settles O7: the footprint's moves keep the table's limits, and no command gives a tenant that is not shared a
second visit. -/
theorem everyStepKeepsTheVisitTable : Obligations.EveryStepKeepsTheVisitTable := by
  intro s t h
  obtain rfl | ⟨c, rest, _, he⟩ := step_cases h
  · exact ⟨id, id⟩
  · refine ⟨(exec_next_moves he).visits, fun hs => ?_⟩
    obtain ⟨u, hu, hk⟩ := exec_holdOne c { s with pending := rest }
    cases hu.symm.trans he
    exact hk ⟨hs.visits, hs.results⟩

end Sys2Proof.Machine
end

section
/-! PROOF. The invariants at reset (O5), the window evaluation (O31), and the lookups (O30). -/

namespace Sys2Proof.Machine

/-! ## Reset (O5) -/

theorem store_blank_inForm : Store.blank.inForm := by
  simp [Store.inForm, Store.blank, Table.sorted, Store.slotsInForm]

/-- Settles O5: reset is a start of a blank store, and a start keeps every form. -/
theorem invariantsHoldAtReset : Obligations.InvariantsHoldAtReset :=
  ⟨starting_inForm (st := Store.blank) store_blank_inForm [] 0 none (List.replicate 12 .low) 0, visits_blank,
    holdOne_blank rfl rfl, ⟨fun _ => ⟨rfl, rfl, rfl⟩, fun h => absurd rfl h⟩, rfl⟩

/-! ## Windows (O31) -/

theorem window_zero (s : State) : s.window 0 = .inside := rfl

/-- A window number above 0 is judged by its entry in the working copy (R10). -/
theorem window_of_entry {s : State} {n : Nat} {w : Marked Window} (hn : 1 ≤ n)
    (hw : s.site.windows[n - 1]? = some w) :
    s.window n = if w.damaged then .recordDamaged else
      (s.site.clock.map fun c => if w.val.holds c then WindowResult.inside else .outside).getD .clockUnset := by
  unfold State.window
  rw [if_neg (by omega), hw]
  cases s.site.clock <;> rfl

/-- The clock is in a window: in the day's span, or in a span that began the day before (R10). -/
theorem window_holds_iff (w : Window) {d : Nat} (m x : Nat) (hd : d ≤ 6) :
    w.holds ⟨d, m, x⟩ = true ↔
      if w.start < w.stop then w.days.getLsbD d = true ∧ w.start ≤ m ∧ m < w.stop
      else (w.days.getLsbD d = true ∧ w.start ≤ m) ∨
        (w.days.getLsbD (if d = 0 then 6 else d - 1) = true ∧ m < w.stop) := by
  have before : (d + 6) % 7 = if d = 0 then 6 else d - 1 := by split <;> omega
  unfold Window.holds
  split <;> simp [before, and_assoc]

/-- An undamaged class leaves the status and its window to judge (R10, R53). -/
theorem tenantBar_of_class {s : State} {t : Tenant} {c : Marked AccessClass}
    (hc : s.site.classes[t.cls]? = some c) (hd : c.damaged = false) :
    (t.status = .barred → s.tenantBar t = some .barred) ∧
    (t.status = .current → s.tenantBar t = (s.window c.val.window).bar) ∧
    (t.status = .restricted → s.tenantBar t = (s.window c.val.restrictedWindow).bar) := by
  have hs : s.cls t.cls = c := by simp [State.cls, List.getD, hc]
  refine ⟨?_, ?_, ?_⟩ <;> intro h <;> simp [State.tenantBar, hs, hd, h]

/-- Settles O31. -/
theorem windowsAreEvaluatedAgainstTheClock : Obligations.WindowsAreEvaluatedAgainstTheClock := by
  intro s
  refine ⟨window_zero s, fun t c hc hd => ?_, fun n w hn hw => ?_⟩
  · exact tenantBar_of_class hc hd
  · have he := window_of_entry hn hw
    refine ⟨fun h => by simp [he, h], fun h hc => by simp [he, h, hc], fun d m x h hc hd => ?_⟩
    have hi := window_holds_iff w.val m x hd
    refine ⟨fun k => ?_, fun k => ?_⟩
    · simp [he, h, hc, hi.mpr k]
    · simp [he, h, hc, Bool.eq_false_iff.mpr (mt hi.mp k)]

/-! ## Lookups (O30) -/

/-- After a lookup a clear waits for the lookups that are left, and no other operation is disturbed (R35). -/
theorem suspend_resume (x : StoreState) (rest : List Lookup) :
    x.suspend.resume (!rest.isEmpty) =
      if x = .clearing ∨ x = .clearSuspended then if rest = [] then .clearing else .clearSuspended else x := by
  cases x <;> cases rest <;> rfl

theorem unlessScanning_scanning {st : Store} (h : st.state = .scanning) (r : LookupResult) :
    st.unlessScanning r = .wrongMode := if_pos h

theorem unlessScanning_other {st : Store} (h : st.state ≠ .scanning) (r : LookupResult) :
    st.unlessScanning r = r := if_neg h

theorem execTenantLookup_head {s : State} {id : Nat} {rest : List Lookup} (h : s.store.lookups = .tenant id :: rest) :
    execTenantLookup s = .next (serveLookup rest (s.store.unlessScanning (s.store.lookupTenant id .absent)) s) := by
  unfold execTenantLookup
  rw [h]

theorem execCredentialLookup_head {s : State} {v : Word32} {rest : List Lookup}
    (h : s.store.lookups = .credential v :: rest) :
    execCredentialLookup s = .next (serveLookup rest (s.store.unlessScanning (s.store.lookupCredential v)) s) := by
  unfold execCredentialLookup
  rw [h]

theorem pattern_matches_iff (p : Pattern) (v : Word32) :
    p.matches v = true ↔ p.enabled = true ∧ v &&& p.mask = p.value &&& p.mask := by
  simp [Pattern.matches]

theorem pattern_fails_iff (p : Pattern) (v : Word32) :
    p.matches v = false ↔ p.enabled = false ∨ v &&& p.mask ≠ p.value &&& p.mask := by
  rw [← Bool.not_eq_true, pattern_matches_iff]
  cases p.enabled <;> simp

/-- The first matching pattern below 8 gives its tenant (R9 step 2). -/
theorem matchPattern_first {st : Store} {v : Word32} {i : Nat} (hi : i < 8) (hm : (st.pattern i).matches v = true)
    (hb : ∀ j, j < i → (st.pattern j).matches v = false) : st.matchPattern v = some (st.pattern i).tenant := by
  have hf : ((List.range 8).find? fun i => (st.pattern i).matches v) = some i :=
    List.find?_range_eq_some.mpr ⟨hm, List.mem_range.mpr hi, fun j hj => by simp [hb j hj]⟩
  unfold Store.matchPattern
  rw [hf]
  rfl

theorem matchPattern_none {st : Store} {v : Word32} (hb : ∀ j, j < 8 → (st.pattern j).matches v = false) :
    st.matchPattern v = none := by
  have hf : ((List.range 8).find? fun i => (st.pattern i).matches v) = none :=
    List.find?_range_eq_none.mpr fun j hj => by simp [hb j hj]
  unfold Store.matchPattern
  rw [hf]
  rfl

theorem lookupCredential_present {st : Store} {v w : Word32} {slot id : Nat} {k : Word16}
    (h : st.credSlot v = some (slot, .present w id k)) :
    st.lookupCredential v = st.lookupTenant id .unknownCredential := by
  unfold Store.lookupCredential
  rw [h]

theorem lookupCredential_damaged {st : Store} {v w : Word32} {slot : Nat}
    (h : st.credSlot v = some (slot, .damaged w)) : st.lookupCredential v = .recordDamaged := by
  unfold Store.lookupCredential
  rw [h]

theorem lookupCredential_absent {st : Store} {v : Word32} (h : st.credSlot v = none) :
    st.lookupCredential v =
      ((st.matchPattern v).map fun t => st.lookupTenant t .unknownCredential).getD .unknownCredential := by
  unfold Store.lookupCredential
  rw [h]
  cases st.matchPattern v <;> rfl

/-- Settles O30: the served state is that of `serveLookup`, and each step of a lookup has its lemma. -/
theorem lookupsFollowTheThreeSteps : Obligations.LookupsFollowTheThreeSteps := by
  intro s
  have tenant {id : Nat} {rest : List Lookup} (h : s.store.lookups = .tenant id :: rest) :=
    execTenantLookup_head h
  have credential {v : Word32} {rest : List Lookup} (h : s.store.lookups = .credential v :: rest) :=
    execCredentialLookup_head h
  simp only [serveLookup, suspend_resume] at tenant credential
  refine ⟨fun hs => ⟨fun id rest h => ?_, fun v rest h => ?_⟩, fun id rest hs h => ?_, fun v rest hs h =>
    ⟨fun slot id k hc => ?_, fun slot hc => ?_, fun hc => ⟨fun i hi he hm hb => ?_, fun hb => ?_⟩⟩⟩
  · exact (tenant h).trans (by rw [unlessScanning_scanning hs])
  · exact (credential h).trans (by rw [unlessScanning_scanning hs])
  · exact (tenant h).trans (by rw [unlessScanning_other hs]; rfl)
  · exact (credential h).trans (by rw [unlessScanning_other hs, lookupCredential_present hc]; rfl)
  · exact (credential h).trans (by rw [unlessScanning_other hs, lookupCredential_damaged hc])
  · have hp := matchPattern_first hi ((pattern_matches_iff _ v).mpr ⟨he, hm⟩)
      fun j hj => (pattern_fails_iff _ v).mpr (hb j hj)
    exact (credential h).trans (by rw [unlessScanning_other hs, lookupCredential_absent hc, hp]; rfl)
  · have hp := matchPattern_none fun j hj => (pattern_fails_iff _ v).mpr (hb j hj)
    exact (credential h).trans (by rw [unlessScanning_other hs, lookupCredential_absent hc, hp]; rfl)

end Sys2Proof.Machine
end

section
/-! PROOF. The requests that change the store, each in hand with no lookup waiting and no sticky fault (R12 to R23,
R28, R88, R146, R147, R188): O32, O33, O34 and O35. -/

namespace Sys2Proof.Machine

/-! ## The turn of a store request -/

/-- A request in hand with no lookup or result waiting and no sticky fault (R27, R31; log 39). -/
structure State.storeTurn (s : State) (f : Frame) : Prop where
  inHand : s.inHand f
  lookups : s.store.lookups = []
  results : s.store.results = []
  sound : s.store.faulted = false

/-- A request that changes the store, past its tests. -/
theorem State.storeTurn.change {s : State} {f : Frame} (h : s.storeTurn f) {α : Type} {kind : Nat}
    {p : List Byte → Parsed α} {m : Mode → Bool} {k : α → State → State} {x : α} (hk : f.kind.toNat = kind)
    (hp : p f.body = .ok x) (hm : m s.site.mode = true) :
    takingStore kind (fun b => tested (p b) m fun x => unlessFaulted (k x)) s = k x s := by
  rw [takingStore_inHand h.inHand _ hk h.lookups h.results, hp, tested_ok _ hm, unlessFaulted_clear _ h.sound]

theorem setupOnly_eq {m : Mode} (h : m = .setup) : setupOnly m = true := h ▸ rfl

theorem withTenant_absent {s : State} {f : Frame} (hf : s.inHand f) {id : Nat} (k : Tenant → State → State)
    (h : s.store.tenantSlot id = none) : withTenant id k s = s.answered f .notFound [] := by
  simp only [withTenant, h]
  exact reply_refused hf (by decide) _

theorem withTenant_damaged {s : State} {f : Frame} (hf : s.inHand f) {id : Nat} (k : Tenant → State → State)
    (h : s.store.tenantSlot id = some .damaged) : withTenant id k s = s.answered f .recordDamaged [] := by
  simp only [withTenant, h]
  exact reply_refused hf (by decide) _

theorem withTenant_present {s : State} {id : Nat} (k : Tenant → State → State) {r : Tenant} {c : Word16}
    (h : s.store.tenantSlot id = some (.present r c)) : withTenant id k s = k r s := by
  simp only [withTenant, h]

theorem samePresent_iff {α : Type} [DecidableEq α] (o : Option (Slot α)) (x : α) :
    samePresent o x = true ↔ ∃ k, o = some (.present x k) := by
  unfold samePresent
  split
  · simp
  · rename_i hn
    simp only [Bool.false_eq_true, false_iff, not_exists]
    exact fun k hk => hn x k hk

/-! ## SITE items (O32) -/

/-- An equal undamaged item is answered OK, any other begins the write (R12 step 6). -/
theorem writeItem_inHand {s : State} {f : Frame} (hf : s.inHand f) (i : SiteItem) (v : SiteValue) :
    (s.store.item i = ⟨v, false⟩ → writeItem i v s = s.answered f .ok []) ∧
    (s.store.item i ≠ ⟨v, false⟩ → writeItem i v s = s.writing f (.site i v)) :=
  ⟨fun h => (if_pos h).trans (reply_ok hf _), fun h => (if_neg h).trans (beginWrite_inHand hf _)⟩

/-- The shape of the six requests that write one SITE item in SETUP. -/
theorem siteRequest_inHand {s : State} {f : Frame} (h : s.storeTurn f) (hm : s.site.mode = .setup) {α : Type}
    {kind : Nat} {p : List Byte → Parsed α} {i : α → SiteItem} {v : α → SiteValue} {x : α} {c : Instr}
    (hc : exec c s = .next
      (takingStore kind (fun b => tested (p b) setupOnly fun x => unlessFaulted (writeItem (i x) (v x))) s))
    (hk : f.kind.toNat = kind) (hp : p f.body = .ok x) :
    (s.store.item (i x) = ⟨v x, false⟩ → exec c s = .next (s.answered f .ok [])) ∧
    (s.store.item (i x) ≠ ⟨v x, false⟩ → exec c s = .next (s.writing f (.site (i x) (v x)))) := by
  rw [hc, h.change hk hp (setupOnly_eq hm)]
  exact ⟨fun e => congrArg _ ((writeItem_inHand h.inHand _ _).1 e),
    fun e => congrArg _ ((writeItem_inHand h.inHand _ _).2 e)⟩

/-- Settles O32. -/
theorem siteItemsAreWrittenUnlessEqual : Obligations.SiteItemsAreWrittenUnlessEqual := by
  intro s f hf hm hl hr hs
  have h : s.storeTurn f := ⟨hf, hl, hr, hs⟩
  have site {x} := siteRequest_inHand (x := x) h hm (c := .putSite) (kind := 0x09) (p := parsePutSite)
    (i := fun _ => .params) (v := .params) rfl
  have pattern {x} := siteRequest_inHand (x := x) h hm (c := .putPattern) (kind := 0x18) (p := parsePutPattern)
    (i := fun x => .pattern x.1) (v := fun x => .pattern x.2) rfl
  have cls {x} := siteRequest_inHand (x := x) h hm (c := .putClass) (kind := 0x19) (p := parsePutClass)
    (i := fun x => .cls x.1) (v := fun x => .cls x.2) rfl
  have window {x} := siteRequest_inHand (x := x) h hm (c := .putWindow) (kind := 0x1A) (p := parsePutWindow)
    (i := fun x => .window x.1) (v := fun x => .window x.2) rfl
  have car {x} := siteRequest_inHand (x := x) h hm (c := .putCar) (kind := 0x50) (p := parsePutCar)
    (i := fun x => .car x.1) (v := fun x => .car x.2) rfl
  have segment {x} := siteRequest_inHand (x := x) h hm (c := .putSegment) (kind := 0x60) (p := parsePutSegment)
    (i := fun x => .segment x.1) (v := fun x => .segment x.2) rfl
  exact ⟨fun _ hk hp => site (congrArg _ hk) hp, fun _ _ hk hp => pattern (congrArg _ hk) hp,
    fun _ _ hk hp => cls (congrArg _ hk) hp, fun _ _ hk hp => window (congrArg _ hk) hp,
    fun _ _ hk hp => car (congrArg _ hk) hp, fun _ _ hk hp => segment (congrArg _ hk) hp⟩

/-! ## Portals, lines and nodes (O33) -/

theorem portalState_busy_iff (x : PortalState) : x.busy = true ↔ x = .opening ∨ x = .passage ∨ x = .heldOpen := by
  cases x <;> simp [PortalState.busy]

theorem portalBusy_iff (s : State) (p : Nat) :
    s.portalBusy p = true ↔ ∃ q, s.portal p = some q ∧ q.state.busy = true := by
  unfold State.portalBusy
  cases s.portal p <;> simp

/-- A line function in use holds the strike or contact of a portal in use (R188 test 6). -/
theorem lineInUse_iff (s : State) (fn : LineFunction) :
    s.lineInUse fn = true ↔ ∃ (p : Nat) (q : Portal), (fn = .strike p ∨ fn = .contact p) ∧ s.portal p = some q ∧
      (q.state = .opening ∨ q.state = .passage ∨ q.state = .heldOpen) := by
  cases fn <;> simp [State.lineInUse, portalBusy_iff, portalState_busy_iff]

theorem lineFunction_single_iff (fn : LineFunction) :
    fn.single = true ↔ ∃ p, fn = .strike p ∨ fn = .contact p := by
  cases fn <;> simp [LineFunction.single]

theorem heldByOther_iff (s : State) (n : Nat) (fn : LineFunction) :
    s.heldByOther n fn = true ↔ ∃ (m : Nat) (k : Line), m < 12 ∧ m ≠ n ∧ s.line m = some k ∧ k.record.val.func = fn := by
  simp [State.heldByOther, List.any_eq_true, Option.map_eq_some_iff]

/-- What PUT_PORTAL does with a portal there is (R88). -/
theorem putPortal_inHand {s : State} {f : Frame} (h : s.storeTurn f) (hm : s.site.mode = .setup) {p : Nat}
    {r : PortalRec} {q : Portal} (hk : f.kind = 0x40) (hp : parsePutPortal f.body = .ok (p, r))
    (hq : s.portal p = some q) :
    (q.state.busy = true → exec .putPortal s = .next (s.answered f .inUse [])) ∧
    (q.state.busy = false → exec .putPortal s = .next (writeItem (.portal p) (.portal r) s)) := by
  have he : exec .putPortal s = .next (if q.state.busy = true then reply .inUse [] s
      else writeItem (.portal p) (.portal r) s) := by
    refine congrArg _ ((h.change (congrArg BitVec.toNat hk) hp (setupOnly_eq hm)).trans ?_)
    simp [hq]
  rw [he]
  exact ⟨fun b => by rw [if_pos b, reply_refused h.inHand (by decide)], fun b => by simp [b]⟩

/-- What PUT_LINE does with a line there is (R188). -/
theorem putLine_inHand {s : State} {f : Frame} (h : s.storeTurn f) (hm : s.site.mode = .setup) {n : Nat}
    {r : LineRec} {l : Line} (hk : f.kind = 0x70) (hp : parsePutLine f.body = .ok (n, r)) (hl : s.line n = some l) :
    let refused := (r.func.single = true ∧ s.heldByOther n r.func = true) ∨
      (l.record.val ≠ r ∧ (s.lineInUse r.func = true ∨ s.lineInUse l.record.val.func = true))
    (refused → exec .putLine s = .next (s.answered f .inUse [])) ∧
    (¬refused → exec .putLine s = .next (writeItem (.line n) (.line r) s)) := by
  refine ⟨fun hb => ?_, fun hb => ?_⟩ <;>
    refine congrArg _ ((h.change (congrArg BitVec.toNat hk) hp (setupOnly_eq hm)).trans ?_) <;>
    simp only [hl, Option.map_some, reply_refused h.inHand (show Status.inUse ≠ .ok by decide)]
  · by_cases ht : r.func.single = true ∧ s.heldByOther n r.func = true
    · simp [ht]
    · simp [hb.resolve_left ht]
  · obtain ⟨ht, hb⟩ := not_or.mp hb
    simp [ht, hb]

theorem enrolNode_inHand {s : State} {f : Frame} (h : s.storeTurn f) (hm : s.site.mode = .setup) {g : Seg} {n : Nat}
    {e : NodeEntry} (hk : f.kind = 0x61) (hp : parseEnrol f.body = .ok (g, n, e)) :
    (∀ d, s.store.nodeEntry g n = ⟨some d, false⟩ →
      exec .enrolNode s = .next (if d = e then s.answered f .ok [] else s.answered f .inUse [])) ∧
    ((s.store.nodeEntry g n).val = none ∨ (s.store.nodeEntry g n).damaged = true →
      exec .enrolNode s = .next (s.writing f (.site (.node g n) (.node (some e))))) := by
  refine ⟨fun d hd => ?_, fun hd => ?_⟩ <;>
    refine congrArg _ ((h.change (congrArg BitVec.toNat hk) hp (setupOnly_eq hm)).trans ?_)
  · simp only [hd, reply_ok h.inHand, reply_refused h.inHand (show Status.inUse ≠ .ok by decide)]
  · dsimp only
    split
    · rename_i hx
      simp [hx] at hd
    · exact beginWrite_inHand h.inHand _

theorem removeNode_inHand {s : State} {f : Frame} (h : s.storeTurn f) (hm : s.site.mode = .setup) {g : Seg} {n : Nat}
    (hk : f.kind = 0x62) (hp : parseSegNode f.body = .ok (g, n)) :
    exec .removeNode s = .next (if s.store.nodeEntry g n = ⟨none, false⟩ then s.answered f .notFound []
      else s.writing f (.site (.node g n) (.node none))) := by
  refine congrArg _ ((h.change (congrArg BitVec.toNat hk) hp (setupOnly_eq hm)).trans ?_)
  dsimp only
  split
  · rename_i hx
    rw [if_pos hx, reply_refused h.inHand (by decide)]
  · rename_i hx
    rw [if_neg hx, beginWrite_inHand h.inHand]

/-- Settles O33. -/
theorem portalsLinesAndNodesInUseAreNotRewritten : Obligations.PortalsLinesAndNodesInUseAreNotRewritten := by
  intro s f hf hm hl hr hs
  have h : s.storeTurn f := ⟨hf, hl, hr, hs⟩
  have item (i v) := writeItem_inHand hf i v
  refine ⟨fun p r q hk hp hq => ?_, fun n r l hk hp hl => ?_, fun g n e hk hp => ?_, fun g n hk hp => ?_⟩
  · obtain ⟨busy, free⟩ := putPortal_inHand h hm hk hp hq
    rw [← Bool.not_eq_true, portalState_busy_iff] at free
    rw [portalState_busy_iff] at busy
    exact ⟨busy, fun hb hi => (free hb).trans (congrArg _ ((item _ _).1 hi)),
      fun hb hi => (free hb).trans (congrArg _ ((item _ _).2 hi))⟩
  · have he := putLine_inHand h hm hk hp hl
    rw [lineFunction_single_iff, heldByOther_iff, lineInUse_iff, lineInUse_iff] at he
    exact ⟨he.1, fun ht hb hi => (he.2 (not_or.mpr ⟨ht, hb⟩)).trans (congrArg _ ((item _ _).1 hi)),
      fun ht hb hi => (he.2 (not_or.mpr ⟨ht, hb⟩)).trans (congrArg _ ((item _ _).2 hi))⟩
  · obtain ⟨stands, free⟩ := enrolNode_inHand h hm hk hp
    exact ⟨fun hd => (stands e hd).trans (by rw [if_pos rfl]),
      fun d hne hd => (stands d hd).trans (by rw [if_neg hne]), free⟩
  · have he := removeNode_inHand h hm hk hp
    exact ⟨fun hd => he.trans (by rw [if_pos hd]), fun hd => he.trans (by rw [if_neg hd])⟩

/-! ## Tenants and credentials (O34) -/

theorem putTenant_inHand {s : State} {f : Frame} (h : s.storeTurn f) (hm : s.site.mode ≠ .starting) {id : Nat}
    {t : Tenant} (hk : f.kind = 0x10) (hp : parsePutTenant f.body = .ok (id, t)) :
    exec .putTenant s = .next
      (if t.shared = false ∧ 2 ≤ (s.visitsOf id).length then s.answered f .inUse []
       else if samePresent (s.store.tenantSlot id) t = true then s.answered f .ok []
       else s.writing f (.tenant id (some t))) := by
  refine congrArg _ ((h.change (congrArg BitVec.toNat hk) hp (outsideStarting_eq hm)).trans ?_)
  simp only [reply_ok h.inHand, reply_refused h.inHand (show Status.inUse ≠ .ok by decide), beginWrite_inHand h.inHand]
  simp [Nat.succ_le_iff]

theorem dropTenant_inHand {s : State} {f : Frame} (h : s.storeTurn f) (hm : s.site.mode ≠ .starting) {id : Nat}
    (hk : f.kind = 0x11) (hp : parseTenantId f.body = .ok id) :
    exec .dropTenant s = .next
      (if s.store.tenantSlot id = none then s.answered f .notFound []
       else if s.visitsOf id ≠ [] ∨ s.store.unitsOf id ≠ [] ∨ s.store.credsOf id ≠ [] then s.answered f .inUse []
       else s.writing f (.tenant id none)) := by
  refine congrArg _ ((h.change (congrArg BitVec.toNat hk) hp (outsideStarting_eq hm)).trans ?_)
  simp only [reply_refused h.inHand (show Status.inUse ≠ .ok by decide),
    reply_refused h.inHand (show Status.notFound ≠ .ok by decide), beginWrite_inHand h.inHand]
  by_cases hv : s.visitsOf id = [] <;> by_cases hu : s.store.unitsOf id = [] <;> simp [hv, hu]

/-- PUT_CREDENTIAL past its tenant tests (R16). -/
theorem putCredential_inHand {s : State} {f : Frame} (h : s.storeTurn f) (hm : s.site.mode ≠ .starting) {v : Word32}
    {id : Nat} (hk : f.kind = 0x13) (hp : parsePutCredential f.body = .ok (v, id)) :
    exec .putCredential s = .next (withTenant id (fun _ => putCredential v id) s) :=
  congrArg _ (h.change (congrArg BitVec.toNat hk) hp (outsideStarting_eq hm))

theorem putCredential_held {s : State} {f : Frame} (hf : s.inHand f) {v w : Word32} {id slot u : Nat} {j : Word16}
    (h : s.store.credSlot v = some (slot, .present w u j)) :
    putCredential v id s = if u = id then s.answered f .ok [] else s.answered f .duplicate [] := by
  simp only [putCredential, h, reply_ok hf, reply_refused hf (show Status.duplicate ≠ .ok by decide)]

theorem putCredential_damaged {s : State} {f : Frame} (hf : s.inHand f) {v w : Word32} {id slot : Nat}
    (h : s.store.credSlot v = some (slot, .damaged w)) :
    putCredential v id s = if 4 ≤ (s.store.credsOf id).length then s.answered f .full []
      else s.writing f (.credential slot v (some id)) := by
  simp only [putCredential, h, reply_refused hf (show Status.full ≠ .ok by decide), beginWrite_inHand hf]

theorem putCredential_new {s : State} {f : Frame} (hf : s.inHand f) {v : Word32} {id : Nat}
    (h : s.store.credSlot v = none) :
    putCredential v id s = if 4 ≤ (s.store.credsOf id).length ∨ 4096 ≤ s.store.creds.length then s.answered f .full []
      else s.writing f (.credential (lowestFree 0 s.store.creds) v (some id)) := by
  simp only [putCredential, h, reply_refused hf (show Status.full ≠ .ok by decide), beginWrite_inHand hf,
    Bool.or_eq_true, decide_eq_true_eq]
  rfl

theorem dropCredential_inHand {s : State} {f : Frame} (h : s.storeTurn f) (hm : s.site.mode ≠ .starting) {v : Word32}
    (hk : f.kind = 0x14) (hp : parseValue f.body = .ok v) :
    (s.store.credSlot v = none → exec .dropCredential s = .next (s.answered f .notFound [])) ∧
    (∀ slot c, s.store.credSlot v = some (slot, c) →
      exec .dropCredential s = .next (s.writing f (.credential slot v none))) := by
  refine ⟨fun hc => ?_, fun slot c hc => ?_⟩ <;>
    refine congrArg _ ((h.change (congrArg BitVec.toNat hk) hp (outsideStarting_eq hm)).trans ?_)
  · simp only [hc, reply_refused h.inHand (show Status.notFound ≠ .ok by decide)]
  · simp only [hc, beginWrite_inHand h.inHand]

/-- A key is found exactly where an entry has it. -/
theorem find_ne_none_iff {α : Type} (t : Table α) (k : Nat) : t.find k ≠ none ↔ k ∈ t.map Prod.fst := by
  induction t with
  | nil => simp [Table.find]
  | cons e t ih =>
    obtain ⟨q, x⟩ := e
    by_cases h : q = k
    · simp [Table.find, h]
    · simpa [Table.find, h, Ne.symm h] using ih

theorem keys_nodup {α : Type} {t : Table α} (h : Table.sorted t) : (t.map Prod.fst).Nodup :=
  ((sorted_iff t).mp h).imp fun hlt => Nat.ne_of_lt hlt

/-- A table by rising key with keys below `n` has `n` entries exactly when it has every key below `n`. -/
theorem full_iff_every_key {α : Type} {t : Table α} {n : Nat} (h : Table.sorted t) (hk : ∀ e ∈ t, e.1 < n) :
    n ≤ t.length ↔ ∀ j, j < n → t.find j ≠ none := by
  refine ⟨fun hl j hj hf => ?_, fun ha => ?_⟩
  · have hsub : ∀ m ∈ t.map Prod.fst, m ∈ (List.range n).erase j := by
      intro m hm
      obtain ⟨e, he, rfl⟩ := List.mem_map.mp hm
      have hne : e.1 ≠ j := fun q => (find_ne_none_iff t j).mpr (q ▸ hm) hf
      exact (List.mem_erase_of_ne hne).mpr (List.mem_range.mpr (hk e he))
    have := nodup_length_le (keys_nodup h) hsub
    rw [List.length_map, List.length_erase_of_mem (List.mem_range.mpr hj), List.length_range] at this
    omega
  · have := nodup_length_le List.nodup_range fun m hm => (find_ne_none_iff t m).mp (ha m (List.mem_range.mp hm))
    simpa using this

/-- From `n` on, the slot written is the least key that no entry of a table by rising key holds (R25). -/
theorem lowestFree_least (t : Table CredSlot) : ∀ n, Table.sorted t → (∀ e ∈ t, n ≤ e.1) →
    n ≤ lowestFree n t ∧ Table.find t (lowestFree n t) = none ∧
      ∀ j, n ≤ j → j < lowestFree n t → Table.find t j ≠ none := by
  induction t with
  | nil => exact fun n _ _ => ⟨Nat.le_refl n, rfl, fun j h1 h2 => absurd h1 (Nat.not_le.mpr h2)⟩
  | cons e t ih =>
    obtain ⟨k, c⟩ := e
    intro n hs hn
    obtain ⟨hlt, ht⟩ := List.pairwise_cons.mp hs
    by_cases h : k = n
    · subst h
      have hl : lowestFree k ((k, c) :: t) = lowestFree (k + 1) t := if_pos rfl
      obtain ⟨h1, h2, h3⟩ := ih (k + 1) ht hlt
      rw [hl]
      have hfind {j : Nat} (hj : k < j) : Table.find ((k, c) :: t) j = Table.find t j := if_neg (Nat.ne_of_lt hj)
      refine ⟨by omega, (hfind h1).trans h2, fun j hj hk => ?_⟩
      rcases Nat.eq_or_lt_of_le hj with rfl | hj
      · simp [Table.find]
      · exact hfind hj ▸ h3 j hj hk
    · have hl : lowestFree n ((k, c) :: t) = n := if_neg h
      rw [hl]
      refine ⟨Nat.le_refl n, ?_, fun j h1 h2 => absurd h1 (Nat.not_le.mpr h2)⟩
      have hk : n ≤ k := hn (k, c) List.mem_cons_self
      refine find_below _ _ fun e he => ?_
      rcases List.mem_cons.mp he with rfl | he
      · exact Nat.lt_of_le_of_ne hk (Ne.symm h)
      · exact Nat.lt_of_le_of_lt hk (hlt e he)

/-- Settles O34. -/
theorem tenantAndCredentialRequests : Obligations.TenantAndCredentialRequests := by
  refine ⟨fun s f hf hm hl hr hs => ?_, fun creds hs hk => ?_⟩
  · have h : s.storeTurn f := ⟨hf, hl, hr, hs⟩
    refine ⟨fun id t hk hp => ?_, fun id hk hp => ?_, fun v id hk hp => ?_,
      fun v hk hp => dropCredential_inHand h hm hk hp⟩
    · have he := putTenant_inHand h hm hk hp
      simp only [samePresent_iff] at he
      refine ⟨fun h1 h2 => he.trans (congrArg _ (if_pos ⟨h1, h2⟩)), fun hn => ?_⟩
      have hn : ¬(t.shared = false ∧ 2 ≤ (s.visitsOf id).length) := by
        rintro ⟨h1, h2⟩
        rcases hn with hn | hn
        · simp [h1] at hn
        · omega
      rw [if_neg hn] at he
      exact ⟨fun k hk => he.trans (congrArg _ (if_pos ⟨k, hk⟩)),
        fun hk => he.trans (congrArg _ (if_neg fun ⟨k, e⟩ => hk k e))⟩
    · have he := dropTenant_inHand h hm hk hp
      exact ⟨fun ha => he.trans (congrArg _ (if_pos ha)),
        fun ha hd => he.trans (congrArg _ ((if_neg ha).trans (if_pos hd))),
        fun ha hd => he.trans (congrArg _ ((if_neg ha).trans (if_neg hd)))⟩
    · have he := putCredential_inHand h hm hk hp
      refine ⟨fun ha => he.trans (congrArg _ (withTenant_absent hf _ ha)),
        fun hd => he.trans (congrArg _ (withTenant_damaged hf _ hd)), fun t k ht => ?_⟩
      rw [withTenant_present _ ht] at he
      exact ⟨fun slot u j hc => he.trans (congrArg _ (putCredential_held hf hc)),
        fun slot hc => he.trans (congrArg _ (putCredential_damaged hf hc)),
        fun hc => he.trans (congrArg _ (putCredential_new hf hc))⟩
  · obtain ⟨_, hn, hj⟩ := lowestFree_least creds 0 hs fun _ _ => Nat.zero_le _
    refine ⟨full_iff_every_key hs hk, fun hl => ⟨?_, hn, fun j hj' => hj j (Nat.zero_le _) hj'⟩⟩
    have := lowestFree_le creds 0
    omega

/-! ## Units (O35) -/

theorem unitState_inUse_iff (x : UnitState) : x.inUse = true ↔ x ≠ .armed ∧ x ≠ .unknown := by
  cases x <;> simp [UnitState.inUse]

theorem unitInUse_iff (s : State) (u : Nat) :
    s.unitInUse u = true ↔ ∃ e : UnitEntry, s.unit u = some e ∧ e.state ≠ .armed ∧ e.state ≠ .unknown := by
  unfold State.unitInUse
  cases s.unit u <;> simp [unitState_inUse_iff]

theorem channelTaken_iff (st : Store) (u : Nat) (r : UnitRec) :
    st.channelTaken u r = true ↔ ∃ e ∈ st.presentUnits, e.1 ≠ u ∧ e.2.seg = r.seg ∧ e.2.node = r.node ∧
      e.2.channel = r.channel := by
  simp [Store.channelTaken, List.any_eq_true, and_assoc]

theorem tenantFull_iff (st : Store) (u : Nat) (r : UnitRec) :
    st.tenantFull u r = true ↔ r.tenant ≠ 0 ∧ u ∉ st.unitsOf r.tenant ∧ 16 ≤ (st.unitsOf r.tenant).length := by
  simp [Store.tenantFull, and_assoc]

/-- Two unit records that differ in overlocked alone have not moved (R18 test 5). -/
theorem unitRec_moved_iff (o r : UnitRec) : o.moved r = true ↔ { o with overlocked := r.overlocked } ≠ r := by
  cases o
  cases r
  simp only [UnitRec.moved, ne_eq, UnitRec.mk.injEq, Bool.or_eq_true, bne_iff_ne]
  grind

theorem putUnit_inHand {s : State} {f : Frame} (h : s.storeTurn f) (hm : s.site.mode ≠ .starting) {u : Nat}
    {r : UnitRec} (hk : f.kind = 0x15) (hp : parsePutUnit f.body = .ok (u, r)) :
    exec .putUnit s = .next
      (if r.tenant = 0 then putUnit u r s else withTenant r.tenant (fun _ => putUnit u r) s) :=
  congrArg _ (h.change (congrArg BitVec.toNat hk) hp (outsideStarting_eq hm))

theorem putUnit_taken {s : State} {f : Frame} (hf : s.inHand f) {u : Nat} {r : UnitRec}
    (ht : s.store.channelTaken u r = true) : putUnit u r s = s.answered f .duplicate [] := by
  simp only [putUnit, ht, if_true, reply_refused hf (show Status.duplicate ≠ .ok by decide)]

theorem putUnit_full {s : State} {f : Frame} (hf : s.inHand f) {u : Nat} {r : UnitRec}
    (ht : ¬s.store.channelTaken u r = true) (hn : s.store.tenantFull u r = true) :
    putUnit u r s = s.answered f .full [] := by
  simp only [putUnit, ht, hn, if_true, Bool.false_eq_true, if_false, reply_refused hf (show Status.full ≠ .ok by decide)]

/-- A unit record with a channel and a tenant's room, over a present record (R18 test 5, R12 step 6). -/
theorem putUnit_over {s : State} {f : Frame} (hf : s.inHand f) {u : Nat} {o r : UnitRec} {k : Word16}
    (ht : ¬s.store.channelTaken u r = true) (hn : ¬s.store.tenantFull u r = true)
    (hs : s.store.unitSlot u = some (.present o k)) :
    putUnit u r s = if o.moved r = true ∧ s.unitInUse u = true then s.answered f .inUse []
      else if o = r then s.answered f .ok [] else s.writing f (.unit u (some r)) := by
  simp only [putUnit, ht, hn, Bool.false_eq_true, if_false, hs, Bool.and_eq_true, reply_ok hf, beginWrite_inHand hf,
    reply_refused hf (show Status.inUse ≠ .ok by decide)]

theorem putUnit_new {s : State} {f : Frame} (hf : s.inHand f) {u : Nat} {r : UnitRec}
    (ht : ¬s.store.channelTaken u r = true) (hn : ¬s.store.tenantFull u r = true)
    (hs : s.store.unitSlot u = none ∨ s.store.unitSlot u = some .damaged) :
    putUnit u r s = s.writing f (.unit u (some r)) := by
  rcases hs with hs | hs <;> simp only [putUnit, ht, hn, Bool.false_eq_true, if_false, hs, beginWrite_inHand hf]

theorem dropUnit_inHand {s : State} {f : Frame} (h : s.storeTurn f) (hm : s.site.mode ≠ .starting) {u : Nat}
    (hk : f.kind = 0x16) (hp : parseUnitNumber f.body = .ok u) :
    (s.store.unitSlot u = none → exec .dropUnit s = .next (s.answered f .notFound [])) ∧
    (∀ r k, s.store.unitSlot u = some (.present r k) → exec .dropUnit s = .next
      (if s.unitInUse u = true then s.answered f .inUse [] else s.writing f (.unit u none))) ∧
    (s.store.unitSlot u = some .damaged → exec .dropUnit s = .next (s.writing f (.unit u none))) := by
  refine ⟨fun hs => ?_, fun r k hs => ?_, fun hs => ?_⟩ <;>
    refine congrArg _ ((h.change (congrArg BitVec.toNat hk) hp (outsideStarting_eq hm)).trans ?_)
  · simp only [hs, reply_refused h.inHand (show Status.notFound ≠ .ok by decide)]
  · simp only [hs, reply_refused h.inHand (show Status.inUse ≠ .ok by decide), beginWrite_inHand h.inHand]
  · simp only [hs, beginWrite_inHand h.inHand]

theorem setOverlock_inHand {s : State} {f : Frame} (h : s.storeTurn f) (hm : s.site.mode ≠ .starting) {u : Nat}
    {o : Bool} (hk : f.kind = 0x17) (hp : parseSetOverlock f.body = .ok (u, o)) :
    (s.store.unitSlot u = none → exec .setOverlock s = .next (s.answered f .notFound [])) ∧
    (s.store.unitSlot u = some .damaged → exec .setOverlock s = .next (s.answered f .recordDamaged [])) ∧
    (∀ r k, s.store.unitSlot u = some (.present r k) → exec .setOverlock s = .next
      (if r.overlocked = o then s.answered f .ok []
       else s.writing f (.unit u (some { r with overlocked := o })))) := by
  refine ⟨fun hs => ?_, fun hs => ?_, fun r k hs => ?_⟩ <;>
    refine congrArg _ ((h.change (congrArg BitVec.toNat hk) hp (outsideStarting_eq hm)).trans ?_)
  · simp only [hs, reply_refused h.inHand (show Status.notFound ≠ .ok by decide)]
  · simp only [hs, reply_refused h.inHand (show Status.recordDamaged ≠ .ok by decide)]
  · simp only [hs, reply_ok h.inHand, beginWrite_inHand h.inHand]

/-- PUT_UNIT past its tenant tests goes on to the channel, the room and the entry (R18). -/
theorem putUnit_past_tenant {s : State} {f : Frame} (h : s.storeTurn f) (hm : s.site.mode ≠ .starting) {u : Nat}
    {r : UnitRec} (hk : f.kind = 0x15) (hp : parsePutUnit f.body = .ok (u, r))
    (ht : r.tenant = 0 ∨ ∃ t k, s.store.tenantSlot r.tenant = some (.present t k)) :
    exec .putUnit s = .next (putUnit u r s) := by
  have he := putUnit_inHand h hm hk hp
  by_cases h0 : r.tenant = 0
  · exact he.trans (congrArg _ (if_pos h0))
  · obtain ⟨t, k, ht⟩ := ht.resolve_left h0
    exact he.trans (congrArg _ ((if_neg h0).trans (withTenant_present _ ht)))

/-- Settles O35. -/
theorem unitRequests : Obligations.UnitRequests := by
  intro s f hf hm hl hr hs
  have h : s.storeTurn f := ⟨hf, hl, hr, hs⟩
  refine ⟨fun u r hk hp => ⟨fun h0 ha => ?_, fun h0 hd => ?_, fun ht => ?_⟩, fun u hk hp => ?_,
    fun u o hk hp => setOverlock_inHand h hm hk hp⟩
  · exact (putUnit_inHand h hm hk hp).trans (congrArg _ ((if_neg h0).trans (withTenant_absent hf _ ha)))
  · exact (putUnit_inHand h hm hk hp).trans (congrArg _ ((if_neg h0).trans (withTenant_damaged hf _ hd)))
  · have he := putUnit_past_tenant h hm hk hp ht
    have taken := channelTaken_iff s.store u r
    have full := tenantFull_iff s.store u r
    refine ⟨fun ht => ?_, fun ht hn => ?_, fun ht hn => ⟨fun o k hs => ?_, fun hs => ?_⟩⟩
    · exact he.trans (congrArg _ (putUnit_taken hf (taken.mpr ht)))
    · exact he.trans (congrArg _ (putUnit_full hf (mt taken.mp ht) (full.mpr hn)))
    · have hw := he.trans (congrArg _ (putUnit_over hf (mt taken.mp ht) (mt full.mp hn) hs))
      simp only [unitRec_moved_iff, unitInUse_iff] at hw
      refine ⟨fun hi hv => ?_, fun ho => ?_, fun hi ho => ?_⟩
      · exact hw.trans (congrArg _ (if_pos ⟨hv, hi⟩))
      · subst ho
        exact hw.trans (congrArg _ ((if_neg fun k => k.1 rfl).trans (if_pos rfl)))
      · refine hw.trans (congrArg _ ((if_neg fun k => ?_).trans (if_neg ho)))
        exact hi.elim (fun n => n k.2) k.1
    · exact he.trans (congrArg _ (putUnit_new hf (mt taken.mp ht) (mt full.mp hn) hs))
  · obtain ⟨absent, present, damaged⟩ := dropUnit_inHand h hm hk hp
    refine ⟨absent, fun r k hs => ?_, damaged⟩
    have he := present r k hs
    simp only [unitInUse_iff] at he
    exact ⟨fun hi => he.trans (congrArg _ (if_pos hi)), fun hi => he.trans (congrArg _ (if_neg hi))⟩

end Sys2Proof.Machine
end

section
/-! PROOF. The requests that read (O20). -/

namespace Sys2Proof.Machine

/-! ## Bodies of single bytes (R213) -/

/-- A number below 256 in one byte is itself. -/
theorem beNat_ofNat {i : Nat} (h : i < 256) : beNat [BitVec.ofNat 8 i] = i := by
  simp [beNat, Nat.mod_eq_of_lt h]

theorem parseOne_byte {i high : Nat} (h : i ≤ high) (hh : high < 256) :
    parseOne 1 0 high [BitVec.ofNat 8 i] = .ok i := by
  have hi := beNat_ofNat (i := i) (by omega)
  simp [parseOne, fields, hi, inRange, h]

theorem parseGetCar_bytes {c i : Nat} (hc : c ≤ 3) (hi : i ≤ 23) :
    parseGetCar [BitVec.ofNat 8 c, BitVec.ofNat 8 i] = .ok (c, i) := by
  have h1 := beNat_ofNat (i := c) (by omega)
  have h2 := beNat_ofNat (i := i) (by omega)
  simp [parseGetCar, fields, h1, h2, inRange, hc, hi]

/-! ## A reading request in hand -/

/-- A request in hand that fits its body and mode goes on to its meaning. -/
theorem taking_fits {s : State} {f : Frame} (hf : s.inHand f) {α : Type} {kind : Nat} {p : List Byte → Parsed α}
    {m : Mode → Bool} {k : α → State → State} {x : α} (hk : f.kind.toNat = kind) (hp : p f.body = .ok x)
    (hm : m s.site.mode = true) : taking kind (fun b => tested (p b) m k) s = k x s := by
  rw [taking_inHand hf _ hk, hp, tested_ok _ hm]

/-- So does one that the store serves, once no lookup waits (log 39). -/
theorem takingStore_fits {s : State} {f : Frame} (hf : s.inHand f) {α : Type} {kind : Nat} {p : List Byte → Parsed α}
    {m : Mode → Bool} {k : α → State → State} {x : α} (hk : f.kind.toNat = kind) (hl : s.store.lookups = [])
    (hr : s.store.results = []) (hp : p f.body = .ok x) (hm : m s.site.mode = true) :
    takingStore kind (fun b => tested (p b) m k) s = k x s := by
  rw [takingStore_inHand hf _ hk hl hr, hp, tested_ok _ hm]

theorem withUnitRecord_absent {s : State} {f : Frame} (hf : s.inHand f) {u : Nat} (k : UnitRec → UnitEntry → State → State)
    (h : s.store.unitSlot u = none) : withUnitRecord u k s = s.answered f .notFound [] := by
  simp only [withUnitRecord, h]
  exact reply_refused hf (by decide) _

theorem withUnitRecord_damaged {s : State} {f : Frame} (hf : s.inHand f) {u : Nat}
    (k : UnitRec → UnitEntry → State → State) (h : s.store.unitSlot u = some .damaged) :
    withUnitRecord u k s = s.answered f .recordDamaged [] := by
  simp only [withUnitRecord, h]
  exact reply_refused hf (by decide) _

theorem withUnitRecord_present {s : State} {u : Nat} (k : UnitRec → UnitEntry → State → State) {r : UnitRec}
    {c : Word16} {e : UnitEntry} (h : s.store.unitSlot u = some (.present r c)) (he : s.unit u = some e) :
    withUnitRecord u k s = k r e s := by
  simp only [withUnitRecord, h, he]

/-- Settles O20. -/
theorem readingRequestsAnswerAndChangeNothing : Obligations.ReadingRequestsAnswerAndChangeNothing := by
  intro s f hf
  have none_ok (h : f.body = []) : parseNone f.body = .ok () := by rw [h]; rfl
  refine ⟨fun hk hb => ?_, fun hm => ⟨fun i hi hk hb => ?_, fun p q hq hp hk hb => ?_, fun c i x hx hc hi hk hb => ?_,
    fun hk hb => ?_, fun hl hr => ⟨fun hk hb => ?_, fun id hk hp => ?_, fun u hk hp => ?_⟩⟩⟩ <;>
    have hn := congrArg BitVec.toNat hk
  · exact congrArg _ ((taking_fits hf hn (none_ok hb) rfl).trans (reply_ok hf _))
  · exact congrArg _ ((taking_fits (p := parseOne 1 0 95) hf hn (hb ▸ parseOne_byte hi (by decide))
      (outsideStarting_eq hm)).trans (reply_ok hf _))
  · refine congrArg _ ((taking_fits (p := parseOne 1 0 7) hf hn (hb ▸ parseOne_byte hp (by decide))
      (outsideStarting_eq hm)).trans ?_)
    simp only [hq, reply_ok hf]
  · refine congrArg _ ((taking_fits (p := parseGetCar) hf hn (hb ▸ parseGetCar_bytes hc hi) (outsideStarting_eq hm)).trans ?_)
    simp only [hx, reply_ok hf]
  · exact congrArg _ ((taking_fits hf hn (none_ok hb) (outsideStarting_eq hm)).trans (reply_ok hf _))
  · exact congrArg _ ((takingStore_fits hf hn hl hr (none_ok hb) (outsideStarting_eq hm)).trans (reply_ok hf _))
  · refine congrArg _ ((takingStore_fits hf hn hl hr hp (outsideStarting_eq hm)).trans ?_)
    rcases h : s.store.tenantSlot id with _ | ⟨r, c⟩ | _
    · exact withTenant_absent hf _ h
    · exact (withTenant_present _ h).trans (reply_ok hf _)
    · exact withTenant_damaged hf _ h
  · have he : exec .getUnit s = .next (withUnitRecord u (fun r e s => reply .ok (getUnitBody u r e s) s) s) :=
      congrArg _ (takingStore_fits hf hn hl hr hp (outsideStarting_eq hm))
    exact ⟨fun h => he.trans (congrArg _ (withUnitRecord_absent hf _ h)),
      fun h => he.trans (congrArg _ (withUnitRecord_damaged hf _ h)),
      fun r k e h hu => he.trans (congrArg _ ((withUnitRecord_present _ h hu).trans (reply_ok hf _)))⟩

end Sys2Proof.Machine
end

section
/-! PROOF. Lift-call intake (O48). -/

namespace Sys2Proof.Machine

/-! ## Taking a presentation or a result (R51) -/

@[simp] theorem takeWaiting_site (p : Presentation) (rest : List Presentation) (s : State) :
    (takeWaiting p rest s).site = s.site := by
  unfold takeWaiting
  split <;> rfl

@[simp] theorem takeWaiting_table (p : Presentation) (rest : List Presentation) (s : State) :
    (takeWaiting p rest s).visits.table = s.visits.table := by
  unfold takeWaiting
  split <;> rfl

theorem nextPresentation_head {s : State} {sort : Asked → Bool} {k : Presentation → State → State}
    {p : Presentation} {rest : List Presentation} (hd : s.visits.decision = none)
    (hw : s.visits.waiting = p :: rest) (hp : sort p.asked = true) :
    nextPresentation sort k s = k p (takeWaiting p rest s) := by
  simp only [nextPresentation, hd, hw, hp, if_true]

/-- The state from which a decision has taken the head result. -/
def State.popResult (s : State) (rest : List LookupResult) : State :=
  { s with store := { s.store with results := rest } }

theorem lookupResult_head {s : State} {sort : Asked → Awaits → Bool} {k : Decision → LookupResult → State → State}
    {d : Decision} {r : LookupResult} {rest : List LookupResult} (hd : s.visits.decision = some d)
    (hr : s.store.results = r :: rest) (hs : sort d.pres.asked d.awaits = true) :
    lookupResult sort k s = k d r (s.popResult rest) := by
  simp only [lookupResult, hd, hr, hs, if_true]
  rfl

/-! ## The checks of an intake (R59) -/

theorem liftBar_run {m : Mode} (h : m = .run) : m.liftBar = none := by rw [h]; rfl

theorem liftBar_evacuate {m : Mode} (h : m = .evacuate) : m.liftBar = some .evacuation := by rw [h]; rfl

theorem liftBar_held {m : Mode} (he : m ≠ .evacuate) (hr : m ≠ .run) : m.liftBar = some .liftsHeld := by
  cases m <;> first
    | rfl
    | exact absurd rfl he
    | exact absurd rfl hr

theorem intakeVisit_notOnSite {p : Presentation} {v : Visit} {s : State}
    (h : ¬(v.stage = .onSite ∨ v.stage = .overstay)) :
    intakeVisit p v s = denyCall p .notOnSite (s.modVisit v.number fun x =>
      { x with lastSeen := ⟨.landing, p.asked.place, s.site.seconds⟩ }) := by
  simp [intakeVisit, h]

/-- A visit on the site goes on to its destination: refused, or the tenant lookup is asked (R59 check 4). -/
theorem intakeVisit_onSite {p : Presentation} {v : Visit} {s : State} (h : v.stage = .onSite ∨ v.stage = .overstay)
    {f : Nat} {dest : Option Nat} (hp : p.asked = .landing f dest) :
    let w := s.modVisit v.number fun x => { x with lastSeen := ⟨.landing, f, s.site.seconds⟩ }
    (dest = none → intakeVisit p v s = denyCall p .noDestination w) ∧
    (dest = some f → intakeVisit p v s = denyCall p .sameFloor w) ∧
    (∀ d, dest = some d → d ≠ f → intakeVisit p v s = awaitLookup p (.tenant v.number) (.tenant v.tenant) w) := by
  refine ⟨fun hd => ?_, fun hd => ?_, fun d hd hn => ?_⟩ <;>
    simp [intakeVisit, h, hp, hd, destinationBar, Asked.place]
  simp [hn]

/-- The checks of a visit that was found, said of the state that the intake began in (R59). -/
theorem intake_finds {s u t : State} {p : Presentation} {v : Visit} {f : Nat} {dest : Option Nat} {c : Instr}
    (hp : p.asked = .landing f dest) (hu : u.site.seconds = s.site.seconds)
    (he : exec c t = .next (intakeVisit p v u)) :
    let w := u.modVisit v.number fun x => { x with lastSeen := ⟨.landing, f, s.site.seconds⟩ }
    let onSite := v.stage = .onSite ∨ v.stage = .overstay
    (¬onSite → exec c t = .next (denyCall p .notOnSite w)) ∧
    (onSite → dest = none → exec c t = .next (denyCall p .noDestination w)) ∧
    (onSite → dest = some f → exec c t = .next (denyCall p .sameFloor w)) ∧
    (onSite → ∀ d, dest = some d → d ≠ f →
      exec c t = .next (awaitLookup p (.tenant v.number) (.tenant v.tenant) w)) := by
  have hf : p.asked.place = f := by rw [hp]; rfl
  rw [← hu, he]
  refine ⟨fun h => ?_, fun h hd => ?_, fun h hd => ?_, fun h d hd hn => ?_⟩ <;> congr 1
  · rw [intakeVisit_notOnSite h, hf]
  · exact (intakeVisit_onSite h hp).1 hd
  · exact (intakeVisit_onSite h hp).2.1 hd
  · exact (intakeVisit_onSite h hp).2.2 d hd hn

/-! ## LIFT_CALL_INTAKE and its results -/

theorem liftCallIntake_head {s : State} {p : Presentation} {rest : List Presentation} {f : Nat} {dest : Option Nat}
    (hp : p.asked = .landing f dest) (hd : s.visits.decision = none) (hw : s.visits.waiting = p :: rest) :
    let u := takeWaiting p rest s
    (∀ why, s.site.mode.liftBar = some why → exec .liftCallIntake s = .next (denyCall p why u)) ∧
    (s.site.mode.liftBar = none →
      (∀ v, s.visitByValue p.value = some v → exec .liftCallIntake s = .next (intakeVisit p v u)) ∧
      (s.visitByValue p.value = none →
        exec .liftCallIntake s = .next (awaitLookup p .credential (.credential p.value) u))) := by
  have sort : p.asked.isLanding = true := by rw [hp]; rfl
  have found : (takeWaiting p rest s).visitByValue p.value = s.visitByValue p.value := by
    simp [State.visitByValue]
  refine ⟨fun why hb => ?_, fun hb => ⟨fun v hv => ?_, fun hv => ?_⟩⟩ <;>
    refine congrArg _ ((nextPresentation_head hd hw sort).trans ?_)
  · simp only [takeWaiting_site, hb]
  · simp only [takeWaiting_site, hb, found, hv]
  · simp only [takeWaiting_site, hb, found, hv]

theorem liftCallLookupResult_head {s : State} {p : Presentation} {r : LookupResult} {rest : List LookupResult}
    {f : Nat} {dest : Option Nat} (hp : p.asked = .landing f dest)
    (hd : s.visits.decision = some ⟨p, .credential⟩) (hr : s.store.results = r :: rest) :
    let u := s.popResult rest
    (∀ why, s.site.mode.liftBar = some why → exec .liftCallLookupResult s = .next (denyCall p why u)) ∧
    (s.site.mode.liftBar = none →
      (∀ v, s.visitOfResult r = some v → exec .liftCallLookupResult s = .next (intakeVisit p v u)) ∧
      (s.visitOfResult r = none → exec .liftCallLookupResult s = .next (denyCall p .noVisit u))) := by
  have sort : (p.asked.isLanding && Awaits.credential.isCredential) = true := by rw [hp]; rfl
  have found : (s.popResult rest).visitOfResult r = s.visitOfResult r := rfl
  have mode : (s.popResult rest).site.mode = s.site.mode := rfl
  refine ⟨fun why hb => ?_, fun hb => ⟨fun v hv => ?_, fun hv => ?_⟩⟩ <;>
    refine congrArg _ ((lookupResult_head hd hr sort).trans ?_)
  · simp only [mode, hb]
  · simp only [mode, hb, found, hv]
  · simp only [mode, hb, found, hv]

theorem liftCallTenantResult_head {s : State} {p : Presentation} {n : Nat} {r : LookupResult}
    {rest : List LookupResult} {f : Nat} {dest : Option Nat} (hp : p.asked = .landing f dest)
    (hd : s.visits.decision = some ⟨p, .tenant n⟩) (hr : s.store.results = r :: rest) :
    let u := s.popResult rest
    (∀ why, s.site.mode.liftBar = some why → exec .liftCallTenantResult s = .next (denyCall p why u)) ∧
    (s.site.mode.liftBar = none → exec .liftCallTenantResult s = .next (intakeCall p n r u)) := by
  have sort : (p.asked.isLanding && !(Awaits.tenant n).isCredential) = true := by rw [hp]; rfl
  have mode : (s.popResult rest).site.mode = s.site.mode := rfl
  refine ⟨fun why hb => ?_, fun hb => ?_⟩ <;> refine congrArg _ ((lookupResult_head hd hr sort).trans ?_)
  · simp only [mode, hb]
  · simp only [mode, hb]

theorem visitOfResult_found {s : State} {id : Nat} {t : Tenant} (h : t.shared = false) :
    s.visitOfResult (.found id t) = (s.visitsOf id).head? := by
  simp [State.visitOfResult, h]

/-- A result gives no visit unless it found a tenant that is not shared and has one (R59 check 2). -/
theorem visitOfResult_none {s : State} {r : LookupResult}
    (h : ∀ id t, r = .found id t → t.shared = true ∨ s.visitsOf id = []) : s.visitOfResult r = none := by
  cases r with
  | found id t => rcases h id t rfl with h | h <;> simp [State.visitOfResult, h]
  | _ => rfl

/-! ## The floor and the hand-over (R11, R60) -/

/-- A floor is permitted by the class, by a portal on it, or by a unit of the tenant on it (R11). -/
theorem permits_iff (s : State) (tenant : Nat) (r : LookupResult) (d : Nat) :
    s.permits tenant r d = true ↔
      (∃ c, s.callClass r = some c ∧ c.allFloors = true) ∨
      (∃ q ∈ s.portals.list, q.record.val.present = true ∧ q.record.val.floor = d) ∨
      ((∃ id t, r = .found id t) ∧ ∃ e ∈ s.store.presentUnits, e.2.tenant = tenant ∧ e.2.floor = d) := by
  cases r with
  | found id t =>
    cases hc : s.callClass (.found id t) <;>
      simp [State.permits, hc, State.portalFloors, State.unitFloors, and_assoc, or_assoc]
  | _ => simp [State.permits, State.callClass, State.portalFloors, and_assoc]

theorem callPriority_eq (s : State) (r : LookupResult) :
    s.callPriority r = ((s.callClass r).map fun c => c.liftPriority).getD 0 := by
  unfold State.callPriority
  cases s.callClass r <;> rfl

theorem visit_boarded {v : Visit} {c : Nat} (h : v.call = some ⟨c, true⟩) : v.boarded = true := by
  simp [Visit.boarded, h]

theorem visit_not_boarded {v : Visit} (h : ∀ c, v.call ≠ some ⟨c, true⟩) : v.boarded = false := by
  unfold Visit.boarded
  split
  · rename_i c hc
    cases hb : c.boarded
    · rfl
    · exact absurd (hc.trans (by rw [← hb])) (h c.car)
  · rfl

/-- The checks after the tenant lookup of a visit there is (R59 check 4, R60). -/
theorem intakeCall_visit {s : State} {p : Presentation} {n f d : Nat} {r : LookupResult} {v : Visit}
    (hv : s.visit n = some v) (hp : p.asked = .landing f (some d)) :
    (¬s.permits v.tenant r d = true → intakeCall p n r s = denyCall p .floorDenied s) ∧
    (s.permits v.tenant r d = true → v.boarded = true → intakeCall p n r s = denyCall p .callActive s) ∧
    (s.permits v.tenant r d = true → v.boarded = false →
      intakeCall p n r s = handOverCall p v f d (s.callPriority r) s) := by
  refine ⟨fun h => ?_, fun h hb => ?_, fun h hb => ?_⟩ <;> simp [intakeCall, hv, hp, h]
  · simp [hb]
  · simp [hb]

/-- The parts that the withdrawals of calls move. -/
def Cell.withdrawals (c : Cell) : Prop := c = .siteIn ∨ c = .cars ∨ c = .liftsIn ∨ ∃ g, c = .segment g

theorem deliverWithdrawals_clock (s : State) :
    (deliverWithdrawals s).site.seconds = s.site.seconds ∧ (deliverWithdrawals s).site.params = s.site.params := by
  have hm : Moves Cell.withdrawals s (deliverWithdrawals s) := by
    refine deliverWithdrawals_moves (Moves.refl _ _) ?_ ?_ ?_ ?_ <;> simp [Cell.withdrawals]
  have hc : Cell.copies.same s (deliverWithdrawals s) := hm.keep (by simp [Cell.withdrawals])
  exact ⟨hm.keep (c := .seconds) (by simp [Cell.withdrawals]), hc.1⟩

/-- The hand-over: the old call withdrawn, the withdrawals taken, the call placed, the reports taken, the answer
(R60, R122). -/
theorem handOverCall_steps (p : Presentation) (v : Visit) (floor dest priority : Nat) (s : State) :
    let told := if v.call = none then s else toLifts v.number (setCall v.number none s)
    let placed := placeCall ⟨v.number, floor, dest, priority, s.site.seconds,
      s.site.seconds + s.site.params.val.callWaitLimit⟩ (withdrawCall (deliverWithdrawals told) v.number)
    handOverCall p v floor dest priority s = takeAnswer p v.number placed.1 (deliverCallReports placed.2) := by
  cases hc : v.call <;> simp [handOverCall, hc, handOver, deliverWithdrawals_clock, setCall]

/-- Settles O48. -/
theorem liftCallsAreTakenIn : Obligations.LiftCallsAreTakenIn := by
  refine ⟨fun s p f dest hp => ⟨fun rest hd hw => ?_, fun r rest hd hr => ?_, fun r rest n hd hr => ?_⟩,
    fun s p n => ⟨fun c => rfl, fun c => rfl, rfl, rfl⟩, fun s p v floor dest priority => ?_, fun s p why => ?_⟩
  · obtain ⟨barred, open_⟩ := liftCallIntake_head hp hd hw
    refine ⟨⟨fun he => barred _ (liftBar_evacuate he), fun he hr => barred _ (liftBar_held he hr)⟩, fun hr => ?_⟩
    obtain ⟨found, absent⟩ := open_ (liftBar_run hr)
    refine ⟨fun v hv => intake_finds hp (by simp) (found v hv), fun hv => absent ?_⟩
    exact List.find?_eq_none.mpr fun v hm => by simpa using hv v hm
  · obtain ⟨barred, open_⟩ := liftCallLookupResult_head hp hd hr
    refine ⟨⟨fun he => barred _ (liftBar_evacuate he), fun he hr => barred _ (liftBar_held he hr)⟩, fun hr => ?_⟩
    obtain ⟨found, absent⟩ := open_ (liftBar_run hr)
    refine ⟨fun id t v he hs hv => ?_, fun h => absent (visitOfResult_none h)⟩
    subst he
    exact intake_finds hp rfl (found v ((visitOfResult_found hs).trans hv))
  · obtain ⟨barred, open_⟩ := liftCallTenantResult_head hp hd hr
    refine ⟨⟨fun he => barred _ (liftBar_evacuate he), fun he hr => barred _ (liftBar_held he hr)⟩,
      fun hr v d hv hdest => ?_⟩
    have he := open_ (liftBar_run hr)
    obtain ⟨denied, active, handed⟩ := intakeCall_visit (s := s.popResult rest) (r := r) hv (hdest ▸ hp)
    rw [callPriority_eq] at handed
    have floor := permits_iff (s.popResult rest) v.tenant r d
    exact ⟨fun h => he.trans (congrArg _ (denied (mt floor.mp h))),
      fun h c hc => he.trans (congrArg _ (active (floor.mpr h) (visit_boarded hc))),
      fun h hc => he.trans (congrArg _ (handed (floor.mpr h) (visit_not_boarded hc)))⟩
  · exact handOverCall_steps p v floor dest priority s
  · refine ⟨fun g n hs => ?_, fun hs => ?_⟩ <;> simp only [denyCall, endExit, endDecision, showReader, hs]

end Sys2Proof.Machine
end

section
/-! PROOF. What the owner of a committed SITE item or unit record does with it (O39). -/

namespace Sys2Proof.Machine

/-! ## Updates that agree where they act -/

/-- Two changes of a portal that agree on it are one. -/
theorem withPortal_congr {p : Nat} {s : State} {f k : Portal → Portal} (h : ∀ q, s.portal p = some q → f q = k q) :
    withPortal p f s = withPortal p k s := by
  have hl : s.portals.list.modify p f = s.portals.list.modify p k := by
    refine List.ext_getElem? fun i => ?_
    rw [List.getElem?_modify, List.getElem?_modify]
    by_cases hi : p = i
    · subst hi
      cases hq : s.portals.list[p]? with
      | none => rfl
      | some q => simpa using h q hq
    · simp [hi]
  unfold withPortal
  rw [hl]

/-- Two changes of a segment that agree on it are one. -/
theorem modSeg_congr {g : Seg} {s : State} {f k : Segment → Segment} (h : f (s.seg g) = k (s.seg g)) :
    s.modSeg g f = s.modSeg g k := congrArg (s.setSeg g) h

/-! ## Parameters and the marker (R40, R196) -/

theorem takeParams_same {p : Marked SiteParams} {s : State} (h : p.val.beaconOnAlarms = s.site.params.val.beaconOnAlarms) :
    takeParams p s = { s with site := { s.site with params := p } } := if_pos h

theorem takeParams_changed {p : Marked SiteParams} {s : State}
    (h : p.val.beaconOnAlarms ≠ s.site.params.val.beaconOnAlarms) :
    takeParams p s = toBeacon (.onAlarms p.val.beaconOnAlarms) { s with site := { s.site with params := p } } :=
  if_neg h

theorem resumeCommitted_setup {s : State} (h : s.site.mode = .setup) :
    resumeCommitted s = enterMode .run none .resume s := by simp only [resumeCommitted, h]

theorem resumeCommitted_evacuate {s : State} (h : s.site.mode = .evacuate) :
    resumeCommitted s = { s with site := { s.site with returnMode := some .run } } := by
  simp only [resumeCommitted, h]

/-- Every SITE item but the marker is applied, whatever its read-back. -/
theorem tellMirror_item (i : SiteItem) (v : SiteValue) (ok : Bool) (s : State) (h : i ≠ .marker) :
    tellMirror (.site i v) ok s = applyItem s i := by
  cases i <;> first
    | exact absurd rfl h
    | rfl

/-! ## A portal (R88) -/

/-- The portal's strike lines are released to their other level. -/
theorem strikeLine_engage (p : Nat) (s : State) : strikeLine p false s =
    { s with lines :=
      { s.lines with list :=
        s.lines.list.map fun l => if l.record.val.func = .strike p then { l with drive := .other } else l } } := by
  simp [strikeLine]

/-- The state in which a portal on lines has left them for a record that is not. -/
def leaveLines (p : Nat) (old new : PortalRec) (s : State) : State :=
  if (old.present = true ∧ old.drive = .lines) ∧ ¬(new.present = true ∧ new.drive = .lines) then
    withPortal p (fun q => { q with strikeReleased := false })
      { s with lines :=
        { s.lines with list :=
          s.lines.list.map fun l => if l.record.val.func = .strike p then { l with drive := .other } else l } }
  else s

/-- A portal takes its record with its inputs: none, those of its lines in `s`, or those of `q` where the drive
stays (R88; log 41). -/
def Portal.taking (p : Nat) (new : Marked PortalRec) (q : Portal) (s : State) (x : Portal) : Portal :=
  if new.val.present = false then { x with record := new, contact := .unknown, button := .unknown, heard := false }
  else if new.val.drive = .lines then
    { x with record := new, contact := s.lineContact p, button := s.lineButton p, heard := false }
  else if q.record.val.present = true ∧ q.record.val.drive = new.val.drive then
    { x with record := new, contact := q.contact, button := q.button, heard := q.heard }
  else { x with record := new, contact := .unknown, button := .unknown, heard := false }

@[simp] theorem taking_record (p : Nat) (new : Marked PortalRec) (q : Portal) (s : State) (x : Portal) :
    (Portal.taking p new q s x).record = new := by
  unfold Portal.taking
  repeat' split
  all_goals rfl

theorem endOpening_mode (p : Nat) (s : State) : (endOpening p s).site.mode = s.site.mode := by
  unfold endOpening
  split
  · rfl
  · dsimp only
    rw [(withPortal_others ..).2.1]
    split <;> rfl

theorem leaveLines_mode (p : Nat) (old new : PortalRec) (s : State) :
    (leaveLines p old new s).site.mode = s.site.mode := by
  unfold leaveLines
  split
  · exact (withPortal_others ..).2.1
  · rfl

/-- The placing of a portal, in order: its opening ends, its lines are left, the record is taken, and it is placed
FREE, by its contact, or in FAULT (R88). -/
theorem placePortal_steps {p : Nat} {new : Marked PortalRec} {s : State} {q : Portal} (hq : s.portal p = some q) :
    let left := leaveLines p q.record.val new.val (endOpening p s)
    let taken := withPortal p (Portal.taking p new q left) left
    placePortal p new s =
      if new.val.present = true ∧ taken.driveAvailable p = true then
        if s.site.mode = .evacuate then enterFree p true taken
        else if q.state = .free then orderStrike p true false taken
        else leaveFree p false taken
      else withPortal p Portal.undriven taken := by
  intro left taken
  have hm : taken.site.mode = s.site.mode := by
    rw [(withPortal_others ..).2.1, leaveLines_mode, endOpening_mode]
  unfold placePortal
  simp -zeta only [hq]
  extract_lets old r s₁ s₂ changed inputs s₃
  have hleft : s₂ = left := by
    simp only [s₂, s₁, old, r, left, leaveLines, strikeLine_engage, Bool.and_eq_true, Bool.not_eq_true', beq_iff_eq,
      ← Bool.not_eq_true]
  have hinputs : ∀ x : Portal, { x with
      record := new, contact := inputs.1, button := inputs.2.1, heard := inputs.2.2 } = Portal.taking p new q left x := by
    intro x
    cases hp : new.val.present with
    | false => simp [inputs, Portal.taking, r, hp]
    | true =>
      cases hd : new.val.drive with
      | lines => simp [inputs, Portal.taking, r, hp, hd, hleft]
      | module g n =>
        have hc : changed = true ↔ ¬(q.record.val.present = true ∧ q.record.val.drive = .module g n) := by
          simp only [changed, old, r, hd, Bool.or_eq_true, Bool.not_eq_true', bne_iff_ne, Classical.not_and_iff_not_or_not,
            Bool.not_eq_true]
        by_cases hk : changed = true
        · simp [inputs, Portal.taking, r, hp, hd, hk, if_neg (hc.mp hk)]
        · simp [inputs, Portal.taking, r, hp, hd, hk, if_pos (Classical.not_not.mp (mt hc.mpr hk))]
  have htaken : s₃ = taken := by
    simp only [s₃, taken, hleft, hinputs]
  rw [htaken, hm]
  simp only [r, Bool.and_eq_true]
  rfl

theorem leaveFree_eq (p : Nat) (urgent : Bool) (s : State) :
    leaveFree p urgent s = placeByContact p (orderStrike p false urgent s) := rfl

/-- In FAULT a module's inputs are UNKNOWN and a LOCAL portal's stay (log 41). -/
theorem undriven_eq {new : Marked PortalRec} {x : Portal} (h : x.record = new) :
    x.undriven = if new.val.drive = .lines then { x with state := .fault, heard := false }
      else { x with state := .fault, contact := .unknown, button := .unknown, heard := false } := by
  subst h
  unfold Portal.undriven
  cases x.record.val.drive <;> simp

theorem withPortal_undriven {p : Nat} {new : Marked PortalRec} {s : State} {f : Portal → Portal}
    (hf : ∀ x, (f x).record = new) :
    withPortal p Portal.undriven (withPortal p f s) = withPortal p (fun x =>
      if new.val.drive = .lines then { x with state := .fault, heard := false }
      else { x with state := .fault, contact := .unknown, button := .unknown, heard := false }) (withPortal p f s) := by
  refine withPortal_congr fun x hx => undriven_eq ?_
  rw [portal_withPortal, if_pos rfl] at hx
  obtain ⟨y, -, rfl⟩ := Option.map_eq_some_iff.mp hx
  exact hf y

/-! ## A car (R139) -/

theorem placeOut_eq (c : Nat) (keeps : Bool) (s : State) :
    placeOut c keeps s = withCar c (fun x =>
      { x with
        lastFloor := none, lastDoorsOpen := none
        cause := if keeps = true ∧ x.cause = some .host then some .host else some .node })
      (takeOut c .node .record none s) := by
  simp [placeOut]

/-- A car whose record is not present, or whose panel changed, goes OUT (R139). -/
theorem placeCar_steps {c : Nat} {new : Marked CarRec} {s : State} {x : Car} (hx : s.car c = some x) :
    let t := withCar c (fun x => { x with record := new }) s
    let moved := x.record.val.present = false ∨ x.record.val.seg ≠ new.val.seg ∨ x.record.val.node ≠ new.val.node
    (new.val.present = false → placeCar c new s = placeOut c false t) ∧
    (new.val.present = true → moved → placeCar c new s = placeOut c true t) ∧
    (new.val.present = true → ¬moved → placeCar c new s = t) := by
  refine ⟨fun hp => ?_, fun hp hm => ?_, fun hp hm => ?_⟩ <;> simp only [placeCar, hx, hp]
  · simp
  · have : (!x.record.val.present || x.record.val.seg != new.val.seg || x.record.val.node != new.val.node) = true := by
      simpa [or_assoc] using hm
    simp [this]
  · have : (!x.record.val.present || x.record.val.seg != new.val.seg || x.record.val.node != new.val.node) = false := by
      simpa [and_assoc, or_assoc] using hm
    simp [this]

/-! ## A line (R188) -/

theorem endLine_steps {n : Nat} {s : State} {l : Line} (hl : s.line n = some l) :
    endLine n s = (l.record.val.func.portal.elim id lineUnassigned) (s.modLine n Line.ended) := by
  simp only [endLine, hl]
  cases l.record.val.func.portal <;> rfl

/-- What a line drives under its new function (R183, R186, R187). -/
theorem beacon_drive_eq (b : Beacon) :
    b.drive = if b = .steady ∨ b = .flashing true then .active else .other := by
  rcases b with _ | _ | _ | _ <;> rfl

/-! ## A node (R146, R147) -/

theorem unenrolAtCommit_absent {g : Seg} {n : Nat} {s : State} (h : s.node g n = none) : unenrolAtCommit g n s = s := by
  simp only [unenrolAtCommit, h]

/-- A node entry that changes ends the old enrolment and begins the new one. -/
theorem applyNode_changed {g : Seg} {n : Nat} {e : Option NodeEntry} {s : State}
    (h : ∀ x, s.node g n = some x → e ≠ some x.entry) :
    applyNode g n e s = (e.elim id (enrolAtCommit g n)) (unenrolAtCommit g n s) := by
  cases e with
  | none => rfl
  | some e =>
    refine if_neg fun hc => ?_
    obtain ⟨x, hx, he⟩ := Option.map_eq_some_iff.mp hc
    exact h x hx (he ▸ rfl)

theorem applyNode_same {g : Seg} {n : Nat} {e : Option NodeEntry} {s : State} {x : Node} (hx : s.node g n = some x)
    (he : e = some x.entry) : applyNode g n e s = s := by
  subst he
  exact if_pos (by rw [hx]; rfl)

/-! ## A segment (R144) -/

theorem applySettings_steps (g : Seg) (new : Marked SegSettings) (s : State) :
    let t := s.modSeg g fun x => { x with settings := new }
    let on := (s.seg g).settings.val.enabled
    (on = false → new.val.enabled = false → applySettings g new s = t) ∧
    (on = true → new.val.enabled = true → applySettings g new s = applyRate g t) ∧
    (on = true → new.val.enabled = false → applySettings g new s = disableSeg g t) ∧
    (on = false → new.val.enabled = true → applySettings g new s = enableSeg g t) := by
  refine ⟨fun h k => ?_, fun h k => ?_, fun h k => ?_, fun h k => ?_⟩ <;> simp only [applySettings, h, k]

/-- The rate set is taken into use at once on a line with nothing under way, and otherwise later (R144). -/
theorem applyRate_settings (g : Seg) (new : Marked SegSettings) (s : State) :
    let x := s.seg g
    let t := s.modSeg g fun x => { x with settings := new }
    (x.sending = none → x.rx = .idle → applyRate g t =
      s.modSeg g fun x => { x with settings := new, rateInUse := new.val.lineRate }) ∧
    (x.sending ≠ none ∨ x.rx ≠ .idle → applyRate g t = t) := by
  refine ⟨fun h k => ?_, fun h => ?_⟩ <;> refine (modSeg_modSeg ..).trans (modSeg_congr ?_) <;> dsimp only
  · rw [h, k]
  · split
    · rename_i h1 h2
      exact (h.elim (· h1) (· h2)).elim
    · rfl

/-- A segment that is disabled closes: at once, or once the copy it is sending ends (R144). -/
theorem disableSeg_settings (g : Seg) (new : Marked SegSettings) (s : State) :
    let x := s.seg g
    let t := s.modSeg g fun x => { x with settings := new }
    let off := emptyRing g (putNotice (.segmentState g x.state .off x.txFaults x.rxFaults)
      (t.modSeg g fun x =>
        { x.unreach with
          state := .off, pollTimer := false, pendingAck := none, closing := true
          lossesOwed := x.lossesOwed ++ x.reached }))
    (x.sending ≠ none → disableSeg g t = off) ∧ (x.sending = none → disableSeg g t = finishClosing g off) := by
  intro x t off
  have hx : t.seg g = { x with settings := new } := seg_modSeg ..
  have h : disableSeg g t = if x.sending.isSome = true then off else finishClosing g off := by
    simp only [disableSeg, hx]
    rfl
  exact ⟨fun hs => h.trans (if_pos (Option.isSome_iff_ne_none.mpr hs)), fun hs => h.trans (if_neg (by simp [hs]))⟩

/-- The state of a segment that starts polling (R144). -/
def startSeg (g : Seg) (t : State) : State :=
  quietNodes g (fun n => { n with nextSeq := 0 })
    (putNotice (.segmentState g (t.seg g).state .active 0 0)
      (t.modSeg g fun x =>
        { x with
          state := .active, txFaults := 0, rxFaults := 0, pollPos := 0, pollTimer := true
          rx := .idle, overrunHeld := 0, rateInUse := x.settings.val.lineRate }))

/-- A segment that is enabled first finishes its closing (R144). -/
theorem enableSeg_settings (g : Seg) (new : Marked SegSettings) (s : State) :
    let t := s.modSeg g fun x => { x with settings := new }
    ((s.seg g).closing = false → enableSeg g t = startSeg g t) ∧
    ((s.seg g).closing = true → enableSeg g t = startSeg g (finishClosing g t)) := by
  intro t
  have hc : (t.seg g).closing = (s.seg g).closing := by rw [seg_modSeg]
  refine ⟨fun h => ?_, fun h => ?_⟩ <;> rw [← hc] at h <;> simp only [enableSeg, startSeg, h] <;> rfl

/-- What a flight cut off by the closing of its segment ends as (R144). -/
def Segment.cutOffAs (x : Segment) : TxOutcome :=
  match x.inFlight with
  | some f => f.endAs.getD .nodeLost
  | none => .nodeLost

/-- The closing ends with the losses that waited for it, in order (R147). -/
theorem finishClosing_owed (g : Seg) (s : State) :
    let t := completeQueued g (fun _ => true) .nodeLost (completeFlight g (s.seg g).cutOffAs s)
    finishClosing g s = tellLosses g (t.seg g).lossesOwed
      (t.modSeg g fun x => { x with closing := false, sending := none, lossesOwed := [] }) := by
  intro t
  have h : finishClosing g s = tellOwed g (t.modSeg g fun x => { x with closing := false, sending := none }) := rfl
  rw [h, tellOwed, seg_modSeg, modSeg_modSeg]

/-! ## A unit (R105, R108, R109) -/

/-- A rearming leaves the presence set. -/
theorem rearm_presence (u : Nat) (s : State) : (rearm u s).units.presence = s.units.presence :=
  (rearm_moves (M := fun c => c ≠ .presence) (Moves.refl _ s) (by simp) (by simp) (by simp) (by simp)
    (by simp)).keep (c := .presence) (by simp)

theorem withUnit_presence (u : Nat) (f : UnitEntry → UnitEntry) (s : State) :
    (withUnit u f s).units.presence = s.units.presence := (withUnits_fields _ s).2.1

theorem present_iff (s : State) (t : Nat) : s.present t = true ↔ t ≠ 0 ∧ t ∈ s.units.presence := by
  simp [State.present]

theorem applyUnit_absent {u : Nat} {r : UnitRec} {s : State} (h : s.unit u = none) :
    applyUnit u r s = evaluateHeld u r (withUnits (fun t => t.put u (UnitEntry.fresh r 0)) s) := by
  simp only [applyUnit, h]

theorem dropUnitEntry_absent {u : Nat} {s : State} (h : s.unit u = none) : dropUnitEntry u s = s := by
  simp only [dropUnitEntry, h]

theorem dropUnitEntry_present {u : Nat} {s : State} {e : UnitEntry} (h : s.unit u = some e) :
    dropUnitEntry u s = withUnits (fun t => t.remove u) (abandonRelease u e s) := by
  simp only [dropUnitEntry, h]

/-- A unit record that is removed, or whose write failed, takes its entry with it (R109). -/
theorem tellMirror_drops (u : Nat) (s : State) {x : Option UnitRec} {ok : Bool} (h : x = none ∨ ok = false) :
    tellMirror (.unit u x) ok s = dropUnitEntry u s := by
  cases x with
  | none => rfl
  | some r =>
    obtain rfl : ok = false := h.resolve_left (by simp)
    rfl

/-- A record on another channel gives a fresh entry with the old one's command number (R108 steps 1, 2). -/
theorem applyUnit_moved {u : Nat} {r : UnitRec} {s : State} {e : UnitEntry} (h : s.unit u = some e)
    (hm : ¬(e.record.seg = r.seg ∧ e.record.node = r.node ∧ e.record.channel = r.channel)) :
    applyUnit u r s = evaluateHeld u r
      (withUnits (fun t => t.put u (UnitEntry.fresh r e.number)) (abandonRelease u e s)) := by
  have : (decide (e.record.seg ≠ r.seg) || decide (e.record.node ≠ r.node) ||
      decide (e.record.channel ≠ r.channel)) = true := by
    simp only [Bool.or_eq_true, decide_eq_true_eq]
    grind
  simp only [applyUnit, h, this, if_true]

/-- On its own channel the entry takes the record, and follows its tenant or its overlocked field (R108, R105). -/
theorem applyUnit_stays {u : Nat} {r : UnitRec} {s : State} {e : UnitEntry} (h : s.unit u = some e)
    (hm : e.record.seg = r.seg ∧ e.record.node = r.node ∧ e.record.channel = r.channel) :
    let t := withUnit u (fun e => { e with record := r }) s
    applyUnit u r s =
      if e.record.tenant ≠ r.tenant then
        if (rearm u t).present r.tenant = true then withUnit u disarmEntry (rearm u t) else rearm u t
      else if e.record.overlocked ≠ r.overlocked then overlockChanged u r.overlocked t else t := by
  obtain ⟨h1, h2, h3⟩ := hm
  simp [applyUnit, h, h1, h2, h3]

/-- The overlocked field of an entry changes: set, it rearms a DISARMED one; cleared, it disarms an ARMED one of a
tenant that is present (R105). -/
theorem overlockChanged_steps {u : Nat} {s : State} {e : UnitEntry} (h : s.unit u = some e) :
    (e.state = .disarmed → overlockChanged u true s = rearm u s) ∧
    (e.state ≠ .disarmed → overlockChanged u true s = s) ∧
    (e.state = .armed ∧ s.present e.record.tenant = true →
      overlockChanged u false s = withUnit u (fun e => { e with state := .disarmed }) s) ∧
    (¬(e.state = .armed ∧ s.present e.record.tenant = true) → overlockChanged u false s = s) := by
  refine ⟨fun hs => ?_, fun hs => ?_, fun hs => ?_, fun hs => ?_⟩
  · simp [overlockChanged, rearm, h, hs]
  · simp [overlockChanged, h, hs]
  · simp [overlockChanged, h, hs]
  · simp only [overlockChanged, h, Bool.and_eq_true, decide_eq_true_eq, if_neg hs]
    rfl

theorem disarmEntry_eq (e : UnitEntry) :
    disarmEntry e = if e.state = .armed ∧ e.record.overlocked = false then { e with state := .disarmed } else e := by
  simp [disarmEntry]

/-! ## Queues and rings (R159, R161, R173) -/

theorem completeFlight_none {g : Seg} {o : TxOutcome} {s : State} (h : (s.seg g).inFlight = none) :
    completeFlight g o s = s := by
  simp only [completeFlight, h]

theorem completeFlight_some {g : Seg} {o : TxOutcome} {s : State} {f : InFlight} (h : (s.seg g).inFlight = some f) :
    completeFlight g o s =
      handOutcome g o f.entry.token (withSeg g (fun x => { x with inFlight := none }) s) := by
  simp only [completeFlight, h]

/-- An emptied ring and what becomes of a record in hand (R173). -/
theorem emptyRing_hand (g : Seg) (s : State) :
    let u := s.modSeg g fun x => { x with ring := [], rx := .idle, overrunHeld := 0 }
    ((∀ h, s.router.hand = some h → h.seg ≠ g) → emptyRing g s = u) ∧
    (∀ b, s.router.hand = some ⟨g, true, b⟩ → emptyRing g s =
      { u with router := { s.router with hand := some ⟨g, true, false⟩ } }) ∧
    (∀ b, s.router.hand = some ⟨g, false, b⟩ → emptyRing g s =
      { u with
        router := { s.router with hand := none }
        visits := { s.visits with waiting := s.visits.waiting.filter fun p => p.source = .host } }) := by
  have hr : (s.modSeg g fun x => { x with ring := [], rx := .idle, overrunHeld := 0 }).router = s.router := by simp
  have hv : (s.modSeg g fun x => { x with ring := [], rx := .idle, overrunHeld := 0 }).visits = s.visits := by simp
  refine ⟨fun h => ?_, fun b h => ?_, fun b h => ?_⟩ <;> simp only [emptyRing, hr, hv]
  · split
    · rfl
    · rename_i k hk
      rw [if_neg (h k hk)]
  · simp [h]
  · simp only [h, if_true, Bool.false_eq_true, if_false] <;> rfl

/-! ## Every owner (O39) -/

/-- Settles O39, owner by owner from the rules above. -/
theorem committedItemsReachTheirOwners : Obligations.CommittedItemsReachTheirOwners := by
  refine ⟨fun s => ⟨fun _ => rfl, fun _ => rfl, takeParams_same, takeParams_changed, resumeCommitted_setup,
      resumeCommitted_evacuate, rfl, fun i v ok => tellMirror_item i v ok s⟩, fun s p q hq => ?_, fun s c x hx => ?_,
    fun s n l hl => ?_, fun s g n => ?_, fun s g => ?_, fun s u r => ?_, fun s g o fits => ?_⟩
  · intro old new onLines ended left kept taken available
    have he : applyItem s (.portal p) = _ := placePortal_steps (new := new) hq
    change applyItem s (.portal p) = if available then
        if s.site.mode = .evacuate then enterFree p true taken
        else if q.state = .free then orderStrike p true false taken else leaveFree p false taken
      else withPortal p Portal.undriven taken at he
    exact ⟨fun ha hm => by rw [he, if_pos ha, if_pos hm], fun ha hm hs => by rw [he, if_pos ha, if_neg hm, if_pos hs],
      fun ha hm hs => by rw [he, if_pos ha, if_neg hm, if_neg hs],
      fun ha => by
        rw [he, if_neg ha]
        exact withPortal_undriven (taking_record p new q left)⟩
  · obtain ⟨absent, moved, stays⟩ := placeCar_steps (new := s.store.car c) hx
    exact ⟨fun hp => (absent hp).trans (placeOut_eq ..), fun hp hm => (moved hp hm).trans (placeOut_eq ..), stays⟩
  · intro new ended told input up
    have htold : endLine n s = told := by
      rw [endLine_steps hl]
      simp only [told]
      cases l.record.val.func <;> rfl
    have hup : (told.modLine n fun l => l.takeUp new told.lines.beacon told.site.params.val.debounce) = up := by
      refine congrArg (told.modLine n) (funext fun x => ?_)
      unfold Line.takeUp takeUpDrive
      rw [beacon_drive_eq] <;> rfl
    change reportSettled (updateFire (takeUpLine n new (endLine n s))) = _
    rw [htold, takeUpLine, hup] <;> rfl
  · intro e enrolled
    refine ⟨fun hn => ?_, fun x hx he => applyNode_same hx he, fun x hx he => ?_⟩
    · change applyNode g n e s = _
      rw [applyNode_changed (by simp [hn]), unenrolAtCommit_absent hn]
      cases e <;> rfl
    · intro a b c sent told left
      have hb : loseFlight g n a = b := by
        unfold loseFlight
        simp only [b]
        cases (a.seg g).inFlight <;> rfl
      have hsent : (c.seg g).sendsTo n = sent := rfl
      have htold : tellRemoval g n x.entry c = told := by
        rw [tellRemoval, hsent]
      have hleft : unenrolAtCommit g n s = left := by
        simp only [unenrolAtCommit, hx]
        rw [hb, htold]
      change applyNode g n e s = _
      rw [applyNode_changed (fun y hy => by rwa [← Option.some.inj (hx.symm.trans hy)]), hleft]
      cases e <;> rfl
  · intro x new copied on ends t starts
    obtain ⟨stays, kept, off, starting⟩ := applySettings_steps g new s
    obtain ⟨idle, busy⟩ := applyRate_settings g new s
    obtain ⟨sent, quiet⟩ := disableSeg_settings g new s
    obtain ⟨open_, closing⟩ := enableSeg_settings g new s
    exact ⟨stays, fun h k hs hr => (kept h k).trans (idle hs hr), fun h k hb => (kept h k).trans (busy hb),
      fun h k => ⟨fun hs => (off h k).trans (sent hs), fun hs => (off h k).trans (quiet hs)⟩,
      fun h k => ⟨fun hc => (starting h k).trans (open_ hc), fun hc => (starting h k).trans (closing hc)⟩,
      finishClosing_owed g s⟩
  · intro fresh relocks abandoned
    have hab : ∀ e, abandonRelease u e s = abandoned e := by
      intro e
      simp only [abandonRelease, abandoned]
      cases e.state <;> rfl
    refine ⟨applyUnit_absent, fun ok => dropUnitEntry_absent, fun e he => ?_⟩
    intro same t here
    have ht : t.unit u = some { e with record := r } := by
      rw [unit_withUnit, if_pos rfl, he]
      rfl
    have hpt : t.present r.tenant = true ↔ here := by
      rw [present_iff, withUnit_presence]
    have changes (hs : same) (htn : e.record.tenant = r.tenant) (ho : e.record.overlocked ≠ r.overlocked) :
        tellMirror (.unit u (some r)) true s = overlockChanged u r.overlocked t := by
      refine (applyUnit_stays he hs).trans ?_
      rw [if_neg (fun hn => hn htn), if_pos ho]
    obtain ⟨setDisarmed, setOther, cleared, clearedOther⟩ := overlockChanged_steps ht
    refine ⟨fun hs => ?_, fun hs htn => ?_, fun hs htn ho => ?_, fun hs htn ho => ⟨fun hr hd => ?_, fun hr ha hp => ?_,
      fun h1 h2 => ?_⟩, fun x ok hx => ?_⟩
    · exact (applyUnit_moved he hs).trans (by rw [hab]; rfl)
    · refine (applyUnit_stays he hs).trans ?_
      have : (rearm u t).present r.tenant = true ↔ here := by
        rw [present_iff, rearm_presence, withUnit_presence]
      rw [if_pos htn, ← funext disarmEntry_eq]
      by_cases hh : here
      · exact (if_pos (this.mpr hh)).trans (if_pos hh).symm
      · exact (if_neg (mt this.mp hh)).trans (if_neg hh).symm
    · refine (applyUnit_stays he hs).trans ?_
      rw [if_neg (fun hn => hn htn), if_neg (fun hn => hn ho)]
    · rw [changes hs htn ho, hr]
      exact setDisarmed hd
    · rw [changes hs htn ho, hr]
      exact cleared ⟨ha, hpt.mpr hp⟩
    · rw [changes hs htn ho]
      cases hr : r.overlocked with
      | true => exact setOther fun hd => h1 ⟨hr, hd⟩
      | false => exact clearedOther fun hc => h2 ⟨hr, hc.1, hpt.mp hc.2⟩
    · rw [tellMirror_drops u s hx, dropUnitEntry_present he, hab]
  · obtain ⟨other, taken, waits⟩ := emptyRing_hand g s
    exact ⟨rfl, completeFlight_none, fun f => completeFlight_some, other, taken, waits⟩

end Sys2Proof.Machine
end

section
/-! PROOF. The digests agree with the tables under every command (R26, R34, R38, R41): O8. -/

namespace Sys2Proof.Machine

/-! ## Replies, writes begun and modes -/

@[simp] theorem reply_site (st : Status) (b : List Byte) (s : State) : (reply st b s).site = s.site := by
  unfold reply replyAs
  split <;> rfl

@[simp] theorem reply_store (st : Status) (b : List Byte) (s : State) : (reply st b s).store = s.store := by
  unfold reply replyAs
  split <;> rfl

@[simp] theorem working_site (s : State) : (working s).site = s.site := by
  unfold working
  split <;> rfl

@[simp] theorem working_store (s : State) : (working s).store = s.store := by
  unfold working
  split <;> rfl

/-- As `tested_keeps`, with the mode test that the good body has passed. -/
theorem tested_keeps_in {P : State → Prop} {s : State} {α : Type} (p : Parsed α) (m : Mode → Bool)
    (k : α → State → State) (hr : ∀ st, P (reply st [] s)) (hk : m s.site.mode = true → ∀ x, P (k x s)) :
    P (tested p m k s) := by
  unfold tested
  split
  · exact hr _
  · split
    · exact hk ‹_› _
    · exact hr _

theorem outsideStarting_ne {m : Mode} (h : outsideStarting m = true) : m ≠ .starting := by
  rintro rfl
  cases h

theorem setupOnly_ne {m : Mode} (h : setupOnly m = true) : m ≠ .starting := by
  rintro rfl
  cases h

/-! ## The requests that change a record end in a reply or a write begun -/

theorem writeItem_keeps {P : State → Prop} {s : State} (hr : ∀ st b, P (reply st b s))
    (hw : ∀ w, P (beginWrite w s)) (i : SiteItem) (v : SiteValue) : P (writeItem i v s) := by
  unfold writeItem
  split
  · exact hr _ _
  · exact hw _

theorem putCredential_keeps {P : State → Prop} {s : State} (hr : ∀ st b, P (reply st b s))
    (hw : ∀ w, P (beginWrite w s)) (v : Word32) (id : Nat) : P (putCredential v id s) := by
  unfold putCredential
  dsimp only
  split
  · split <;> exact hr _ _
  all_goals
    split
    · exact hr _ _
    · exact hw _

theorem putUnit_keeps {P : State → Prop} {s : State} (hr : ∀ st b, P (reply st b s))
    (hw : ∀ w, P (beginWrite w s)) (u : Nat) (r : UnitRec) : P (putUnit u r s) := by
  unfold putUnit
  split
  · exact hr _ _
  · split
    · exact hr _ _
    · split
      · split
        · exact hr _ _
        · split
          · exact hr _ _
          · exact hw _
      · exact hw _

/-- The common shape of the requests that change a record, with the mode and the faults they have passed. -/
theorem storeRequest_keeps {P : State → Prop} {s : State} (h : P s) (hr : ∀ st b, P (reply st b s)) {α : Type}
    (kind : Nat) (p : List Byte → Parsed α) {m : Mode → Bool} (k : α → State → State)
    (hm : ∀ {x}, m x = true → x ≠ .starting) (hk : s.site.mode ≠ .starting → ∀ x, P (k x s)) :
    P (takingStore kind (fun b => tested (p b) m fun x => unlessFaulted (k x)) s) :=
  takingStore_keeps h _ _ fun _ _ => tested_keeps_in _ _ _ (fun _ => hr _ _) fun ht x =>
    unlessFaulted_keeps _ (fun _ => hr _ _) (hk (hm ht) x)

/-- The requests that change one record of the store (R12). -/
def Request.changesRecord : Instr → Bool
  | .putSite | .putTenant | .dropTenant | .putCredential | .dropCredential | .putUnit | .dropUnit | .setOverlock
  | .putPattern | .putClass | .putWindow | .putPortal | .putCar | .putSegment | .enrolNode | .removeNode
  | .putLine => true
  | _ => false

/-- What stands before a record's request, after every reply and, outside STARTING, after every write begun stands
after the request. -/
theorem recordRequest_keeps {P : State → Prop} {c : Instr} (hc : Request.changesRecord c = true) {s : State} (h : P s)
    (hr : ∀ st b, P (reply st b s)) (hw : s.site.mode ≠ .starting → ∀ w, P (beginWrite w s)) :
    ∃ t, exec c s = .next t ∧ P t := by
  have item {α : Type} (kind : Nat) (p : List Byte → Parsed α) (i : α → SiteItem) (v : α → SiteValue) :
      P (takingStore kind (fun b => tested (p b) setupOnly fun x => unlessFaulted (writeItem (i x) (v x))) s) :=
    storeRequest_keeps h hr _ _ _ setupOnly_ne fun hm _ => writeItem_keeps hr (hw hm) _ _
  cases c with
  | putSite => exact ⟨_, rfl, item _ _ _ _⟩
  | putPattern => exact ⟨_, rfl, item _ _ _ _⟩
  | putClass => exact ⟨_, rfl, item _ _ _ _⟩
  | putWindow => exact ⟨_, rfl, item _ _ _ _⟩
  | putCar => exact ⟨_, rfl, item _ _ _ _⟩
  | putSegment => exact ⟨_, rfl, item _ _ _ _⟩
  | putTenant =>
    refine ⟨_, rfl, storeRequest_keeps h hr _ _ _ outsideStarting_ne fun hm x => ?_⟩
    split
    · exact hr _ _
    · split
      · exact hr _ _
      · exact hw hm _
  | dropTenant =>
    refine ⟨_, rfl, storeRequest_keeps h hr _ _ _ outsideStarting_ne fun hm x => ?_⟩
    split
    · exact hr _ _
    · split
      · exact hr _ _
      · split
        · exact hr _ _
        · exact hw hm _
  | putCredential =>
    exact ⟨_, rfl, storeRequest_keeps h hr _ _ _ outsideStarting_ne fun hm x =>
      withTenant_keeps _ _ (fun _ => hr _ _) fun _ => putCredential_keeps hr (hw hm) _ _⟩
  | dropCredential =>
    refine ⟨_, rfl, storeRequest_keeps h hr _ _ _ outsideStarting_ne fun hm x => ?_⟩
    split
    · exact hr _ _
    · exact hw hm _
  | putUnit =>
    refine ⟨_, rfl, storeRequest_keeps h hr _ _ _ outsideStarting_ne fun hm x => ?_⟩
    split
    · exact putUnit_keeps hr (hw hm) _ _
    · exact withTenant_keeps _ _ (fun _ => hr _ _) fun _ => putUnit_keeps hr (hw hm) _ _
  | dropUnit =>
    refine ⟨_, rfl, storeRequest_keeps h hr _ _ _ outsideStarting_ne fun hm x => ?_⟩
    split
    · exact hr _ _
    · split
      · exact hr _ _
      · exact hw hm _
    · exact hw hm _
  | setOverlock =>
    refine ⟨_, rfl, storeRequest_keeps h hr _ _ _ outsideStarting_ne fun hm x => ?_⟩
    split
    · exact hr _ _
    · exact hr _ _
    · split
      · exact hr _ _
      · exact hw hm _
  | putPortal =>
    refine ⟨_, rfl, storeRequest_keeps h hr _ _ _ setupOnly_ne fun hm x => ?_⟩
    split
    · exact hr _ _
    · exact writeItem_keeps hr (hw hm) _ _
  | putLine =>
    refine ⟨_, rfl, storeRequest_keeps h hr _ _ _ setupOnly_ne fun hm x => ?_⟩
    dsimp only
    split
    · exact hr _ _
    · split
      · exact hr _ _
      · exact writeItem_keeps hr (hw hm) _ _
  | enrolNode =>
    refine ⟨_, rfl, storeRequest_keeps h hr _ _ _ setupOnly_ne fun hm x => ?_⟩
    split
    · split <;> exact hr _ _
    · exact hw hm _
  | removeNode =>
    refine ⟨_, rfl, storeRequest_keeps h hr _ _ _ setupOnly_ne fun hm x => ?_⟩
    split
    · exact hr _ _
    · exact hw hm _
  | _ => cases hc

/-! ## What keeps the digests -/

theorem State.digestsKept.agrees {s : State} (h : s.digestsKept) (hm : s.site.mode ≠ .starting) :
    s.store.state ≠ .scanning ∧ s.store.digestsAgree := by
  have hs : s.store.state ≠ .scanning := fun hs => hm (h.scanning hs).1
  exact ⟨hs, h.scanned hs⟩

theorem digestsKept_of_agrees {s : State} (hs : s.store.state ≠ .scanning) (ha : s.store.digestsAgree) :
    s.digestsKept :=
  ⟨fun h => absurd h hs, fun _ => ha⟩

/-- A start scans with nothing in progress (R41). -/
theorem digestsKept_starting (pending : List Instr) (rate : Nat) (st : Store) (clock : Option Clock)
    (pins : List Level) (n : Nat) : (State.starting pending rate st.scanning clock pins n).digestsKept :=
  ⟨fun _ => ⟨rfl, rfl, rfl⟩, fun h => absurd rfl h⟩

/-- A store with the same tables, digests and operations, in a site that has not left STARTING. -/
theorem digestsKept_of_store {s t : State} (h : s.digestsKept)
    (hs : (t.store.state = .scanning ↔ s.store.state = .scanning) ∧ t.store.write = s.store.write ∧
      t.store.clear = s.store.clear)
    (ha : s.store.digestsAgree → t.store.digestsAgree)
    (hm : s.site.mode = .starting → t.site.mode = .starting) : t.digestsKept := by
  obtain ⟨hst, hw, hc⟩ := hs
  refine ⟨fun hx => ?_, fun hx => ha (h.scanned (mt hst.mpr hx))⟩
  obtain ⟨a, b, c⟩ := h.scanning (hst.mp hx)
  exact ⟨hm a, hw.trans b, hc.trans c⟩

theorem digestsKept_of_slots {s t : State} (h : s.digestsKept) (hs : Cell.same .slots s t)
    (hm : s.site.mode = .starting → t.site.mode = .starting) : t.digestsKept := by
  have get {α : Type} (f : Store → α) (hf : ∀ u : Store, f { u with lookups := [], results := [] } = f u) :
      f t.store = f s.store := by
    rw [← hf t.store, ← hf s.store]
    exact congrArg f hs
  have ht := get Store.tenants fun _ => rfl
  have hu := get Store.units fun _ => rfl
  have hc := get Store.creds fun _ => rfl
  have dt := get Store.digestT fun _ => rfl
  have du := get Store.digestU fun _ => rfl
  have dc := get Store.digestC fun _ => rfl
  refine digestsKept_of_store h ⟨?_, get Store.write fun _ => rfl, get Store.clear fun _ => rfl⟩ ?_ hm
  · rw [get Store.state fun _ => rfl]
  · unfold Store.digestsAgree
    rw [ht, hu, hc, dt, du, dc]
    exact id

theorem digestsKept_reply {s : State} (h : s.digestsKept) (st : Status) (b : List Byte) :
    (reply st b s).digestsKept := by
  refine digestsKept_of_store h ?_ ?_ ?_ <;> simp

/-- A write that is begun outside STARTING leaves the digests as they are (R28). -/
theorem digestsKept_beginWrite {s : State} (h : s.digestsKept) (hm : s.site.mode ≠ .starting) (w : WriteOp) :
    (beginWrite w s).digestsKept := by
  refine digestsKept_of_agrees ?_ ?_ <;> simp only [beginWrite, working_store]
  · exact fun e => nomatch e
  · exact (h.agrees hm).2

/-! ## The store at work -/

/-- A write leaves every digest agreeing with its table (R29, R38). -/
theorem digestsAgree_commitWrite {st : Store} (h : st.digestsAgree) (hf : st.inForm) (w : WriteOp) (ok : Bool) :
    (commitWrite w ok st).digestsAgree := by
  obtain ⟨ht, hu, hc⟩ := h
  obtain ⟨_, _, st', su, sc, _⟩ := hf
  cases w with
  | tenant id r =>
    refine ⟨?_, hu, hc⟩
    show redigest Slot.digest st.digestT _ _ _ = _
    rw [ht]
    exact (digestOf_setSlot _ _ st' _ _ _ _).symm
  | unit u r =>
    refine ⟨ht, ?_, hc⟩
    show redigest Slot.digest st.digestU _ _ _ = _
    rw [hu]
    exact (digestOf_setSlot _ _ su _ _ _ _).symm
  | credential slot v r =>
    refine ⟨ht, hu, ?_⟩
    show redigest CredSlot.digest st.digestC _ _ _ = _
    rw [hc]
    exact (digestOf_setSlot _ _ sc _ _ _ _).symm
  | site i v => exact ⟨ht, hu, hc⟩

theorem credSlot_damage_digest (c : CredSlot) : c.damage.digest = 0 := by cases c <;> rfl

/-- The erase of a block leaves the digest of what the table keeps (R34, R36). -/
theorem digestOf_eraseBlock {α : Type} (f : α → Word16) (damage : α → α) (hd : ∀ x, f (damage x) = 0) (t : TableName)
    (b : Nat) (ok : Bool) (tbl : Table α) :
    digestOf f (eraseBlock t b damage ok tbl) = digestOf f (tbl.filter fun e => !inBlock t b e.1) := by
  cases ok with
  | true => rfl
  | false => exact digestOf_map_if f (fun e => inBlock t b e.1) damage hd tbl

theorem digestsAgree_eraseStore {st : Store} (h : st.digestsAgree) (t : TableName) (b : Nat) (ok : Bool) :
    (eraseStore t b ok st).digestsAgree := by
  obtain ⟨ht, hu, hc⟩ := h
  have block {α : Type} (f : α → Word16) (damage : α → α) (hd : ∀ x, f (damage x) = 0) (n : TableName)
      (tbl : Table α) :
      digestOf f tbl ^^^ blockDigest n b f tbl = digestOf f (eraseBlock n b damage ok tbl) := by
    rw [digestOf_eraseBlock f damage hd]
    exact digestOf_filter f _ tbl
  cases t with
  | tenant =>
    refine ⟨?_, hu, hc⟩
    show st.digestT ^^^ _ = _
    rw [ht]
    exact block Slot.digest (fun _ => .damaged) (fun _ => rfl) .tenant st.tenants
  | unit =>
    refine ⟨ht, ?_, hc⟩
    show st.digestU ^^^ _ = _
    rw [hu]
    exact block Slot.digest (fun _ => .damaged) (fun _ => rfl) .unit st.units
  | credential =>
    refine ⟨ht, hu, ?_⟩
    show st.digestC ^^^ _ = _
    rw [hc]
    exact block CredSlot.digest CredSlot.damage credSlot_damage_digest .credential st.creds
  | site => exact ⟨ht, hu, hc⟩

/-- The parts that the owners told of a committed record may change: neither the store nor the request in hand. -/
def Cell.toldOwner (c : Cell) : Prop := c ≠ .slots ∧ c ≠ .lookups ∧ c ≠ .results ∧ c ≠ .serving

theorem Moves.store_eq {s t : State} (h : Moves Cell.toldOwner s t) : t.store = s.store := by
  have hs : Cell.same .slots s t := h.keep (by simp [Cell.toldOwner])
  have hl : t.store.lookups = s.store.lookups := h.keep (c := .lookups) (by simp [Cell.toldOwner])
  have hr : t.store.results = s.store.results := h.keep (c := .results) (by simp [Cell.toldOwner])
  revert hs hl hr
  simp only [Cell.same]
  generalize t.store = a
  generalize s.store = b
  cases a
  cases b
  simp only [Store.mk.injEq]
  grind

theorem Moves.serving_eq {s t : State} (h : Moves Cell.toldOwner s t) : t.host.serving = s.host.serving :=
  h.keep (c := .serving) (by simp [Cell.toldOwner])

theorem tellMirror_toldOwner (w : WriteOp) (ok : Bool) (s : State) : Moves Cell.toldOwner s (tellMirror w ok s) := by
  apply tellMirror_moves (Moves.refl _ s) <;> simp [Cell.toldOwner]

theorem applyItems_toldOwner (l : List SiteItem) (s : State) : Moves Cell.toldOwner s (l.foldl applyItem s) := by
  refine Moves.foldl (fun t i h => ?_) l s (Moves.refl _ s)
  apply applyItem_moves h <;> simp [Cell.toldOwner]

theorem dropUnitEntries_toldOwner (l : List Nat) (s : State) :
    Moves Cell.toldOwner s (l.foldl (fun s u => dropUnitEntry u s) s) := by
  refine Moves.foldl (fun t u h => ?_) l s (Moves.refl _ s)
  apply dropUnitEntry_moves h <;> simp [Cell.toldOwner]

theorem execWriteCompletion_none {s : State} (h : s.store.write = none) (ok : Bool) :
    execWriteCompletion ok s = .next s := by
  simp only [execWriteCompletion, h]

/-- The store once the write in progress has settled its slot (R29, R31). -/
def Store.completed (st : Store) (w : WriteOp) (ok : Bool) : Store :=
  { (if ok then commitWrite w ok st else failWrite w (commitWrite w ok st)) with state := .ready, write := none }

theorem execWriteCompletion_some {s : State} {w : WriteOp} (h : s.store.write = some w) (ok : Bool) :
    execWriteCompletion ok s = .next (reply (if ok then .ok else .storeFault) []
      (toSite .storeReady (tellMirror w ok { s with store := s.store.completed w ok }))) := by
  simp only [execWriteCompletion, h]
  rfl

theorem digestsAgree_completed {st : Store} (h : st.digestsAgree) (hf : st.inForm) (w : WriteOp) (ok : Bool) :
    (st.completed w ok).digestsAgree := by
  have hc := digestsAgree_commitWrite h hf w ok
  cases ok <;> exact hc

theorem writeCompletion_digestsKept (ok : Bool) (s : State) :
    ∃ t, execWriteCompletion ok s = .next t ∧ (s.inForm → s.digestsKept → t.digestsKept) := by
  cases hw : s.store.write with
  | none => exact ⟨s, execWriteCompletion_none hw ok, fun _ => id⟩
  | some w =>
    refine ⟨_, execWriteCompletion_some hw ok, fun hf h => digestsKept_reply ?_ _ _⟩
    have hn : s.store.state ≠ .scanning := fun hs => by simp [(h.scanning hs).2.1] at hw
    have he := (tellMirror_toldOwner w ok { s with store := s.store.completed w ok }).store_eq
    refine digestsKept_of_agrees ?_ ?_ <;> rw [toSite_store, he]
    · exact fun e => nomatch e
    · exact digestsAgree_completed (h.scanned hn) hf.store w ok

theorem endClear_digestsKept (c : ClearOp) {s : State} (h : s.store.digestsAgree) : (endClear c s).digestsKept := by
  have hr : ∀ t : State, Moves Cell.toldOwner
      (toSite .storeReady { s with store := { s.store with state := .ready, clear := none } }) t → t.digestsKept := by
    intro t ht
    refine digestsKept_of_agrees ?_ ?_ <;> rw [ht.store_eq]
    · exact fun e => nomatch e
    · exact h
  refine digestsKept_reply (hr _ ?_) _ _
  split
  · exact applyItems_toldOwner _ _
  · exact Moves.refl _ _

/-- The store once the erase of a block has completed (R34, R36). -/
def Store.erased (st : Store) (c : ClearOp) (ok : Bool) : Store :=
  if ok then eraseStore c.table c.block ok st else failErase c.table c.block (eraseStore c.table c.block ok st)

theorem digestsAgree_erased {st : Store} (h : st.digestsAgree) (c : ClearOp) (ok : Bool) :
    (st.erased c ok).digestsAgree := by
  have he := digestsAgree_eraseStore h c.table c.block ok
  cases ok <;> exact he

theorem eraseStore_state (t : TableName) (b : Nat) (ok : Bool) (st : Store) :
    (eraseStore t b ok st).state = st.state := by cases t <;> rfl

theorem erased_state (st : Store) (c : ClearOp) (ok : Bool) : (st.erased c ok).state = st.state := by
  cases ok <;> exact eraseStore_state ..

/-- The state once the owners of the units of a block have been told (R34; log 45). -/
def toldErased (c : ClearOp) (ok : Bool) (s : State) : State :=
  (if c.table = .unit then s.store.unitsIn c.block else []).foldl (fun s u => dropUnitEntry u s)
    { s with store := s.store.erased c ok }

theorem toldErased_store (c : ClearOp) (ok : Bool) (s : State) : (toldErased c ok s).store = s.store.erased c ok :=
  (dropUnitEntries_toldOwner ..).store_eq

theorem completeBlock_eq (c : ClearOp) (ok : Bool) (s : State) :
    completeBlock c ok s =
      if c.block < 15 then
        { toldErased c ok s with store :=
          { s.store.erased c ok with clear := some ⟨c.table, c.block + 1, c.failed || !ok⟩ } }
      else endClear ⟨c.table, c.block, c.failed || !ok⟩ (toldErased c ok s) := by
  rw [← toldErased_store c ok s]
  rfl

theorem blockEraseCompletion_digestsKept (ok : Bool) (s : State) :
    ∃ t, execBlockEraseCompletion ok s = .next t ∧ (s.digestsKept → t.digestsKept) := by
  refine ⟨_, rfl, fun h => ?_⟩
  split
  · rename_i c hs _
    have hn : s.store.state ≠ .scanning := by simp [hs]
    have ha := digestsAgree_erased (h.scanned hn) c ok
    rw [completeBlock_eq]
    split
    · exact digestsKept_of_agrees (fun e => hn ((erased_state ..).symm.trans e)) ha
    · exact endClear_digestsKept _ (toldErased_store c ok s ▸ ha)
  · exact h

/-! ## The requests and messages of the store -/

theorem serveLookup_digestsKept {s : State} (h : s.digestsKept) (rest : List Lookup) (r : LookupResult) :
    (serveLookup rest r s).digestsKept := by
  refine digestsKept_of_store h ⟨?_, rfl, rfl⟩ id id
  change (s.store.state.suspend.resume (!rest.isEmpty)) = .scanning ↔ _
  cases s.store.state <;> cases rest <;> simp [StoreState.suspend, StoreState.resume]

theorem credentialLookup_digestsKept (s : State) :
    ∃ t, execCredentialLookup s = .next t ∧ (s.digestsKept → t.digestsKept) := by
  refine ⟨_, rfl, fun h => ?_⟩
  split
  · exact serveLookup_digestsKept h _ _
  · exact h

theorem tenantLookup_digestsKept (s : State) :
    ∃ t, execTenantLookup s = .next t ∧ (s.digestsKept → t.digestsKept) := by
  refine ⟨_, rfl, fun h => ?_⟩
  split
  · exact serveLookup_digestsKept h _ _
  · exact h

theorem clearTable_digestsKept (s : State) :
    ∃ t, execClearTable s = .next t ∧ (s.digestsKept → t.digestsKept) := by
  refine ⟨_, rfl, fun h => takingStore_keeps h _ _ fun _ _ =>
    tested_keeps_in _ _ _ (fun _ => digestsKept_reply h _ _) fun hm _ => ?_⟩
  split
  · exact digestsKept_reply h _ _
  · refine unlessFaulted_keeps _ (fun _ => digestsKept_reply h _ _) ?_
    split
    · exact digestsKept_reply h _ _
    · refine digestsKept_of_agrees ?_ ?_ <;> simp only [working_store]
      · exact fun e => nomatch e
      · exact (h.agrees (outsideStarting_ne hm)).2

theorem getStore_digestsKept (s : State) :
    ∃ t, execGetStore s = .next t ∧ (s.digestsKept → t.digestsKept) := by
  refine ⟨_, rfl, fun h => takingStore_keeps h _ _ fun _ _ =>
    tested_keeps _ _ _ (fun _ => digestsKept_reply h _ _) fun clear => ?_⟩
  have hr := digestsKept_reply h .ok (getStoreBody s.store)
  dsimp only
  split
  · exact digestsKept_of_store hr ⟨Iff.rfl, rfl, rfl⟩ id id
  · exact hr

theorem clearStoreFault_digestsKept (s : State) :
    ∃ t, execClearStoreFault s = .next t ∧ (s.digestsKept → t.digestsKept) :=
  ⟨_, rfl, fun h => takingStore_keeps h _ _ fun _ _ =>
    tested_keeps _ _ _ (fun _ => digestsKept_reply h _ _) fun _ => by
      refine digestsKept_reply ?_ _ _
      exact digestsKept_of_store h ⟨Iff.rfl, rfl, rfl⟩ id id⟩

theorem enterMode_store (new : Mode) (ret : Option Mode) (cause : ModeCause) (s : State) :
    (enterMode new ret cause s).store = s.store := by
  unfold enterMode putNotice
  dsimp only
  split <;> rfl

/-- A mode entered from another than STARTING. -/
theorem digestsKept_enterMode {s : State} (h : s.digestsKept) (hm : s.site.mode ≠ .starting) (new : Mode)
    (ret : Option Mode) (cause : ModeCause) : (enterMode new ret cause s).digestsKept := by
  obtain ⟨hs, ha⟩ := h.agrees hm
  refine digestsKept_of_agrees ?_ ?_ <;> rw [enterMode_store]
  · exact hs
  · exact ha

theorem resumeByMode_digestsKept {s : State} (h : s.digestsKept) : (resumeByMode s).digestsKept := by
  unfold resumeByMode
  split
  case h_1 hm =>
    have hn : s.site.mode ≠ .starting := by simp [hm]
    refine unlessFaulted_keeps _ (fun _ => digestsKept_reply h _ _) ?_
    split
    · exact digestsKept_reply (digestsKept_enterMode h hn _ _ _) _ _
    · exact digestsKept_beginWrite h hn _
  case h_2 hm => exact digestsKept_reply (digestsKept_enterMode h (by simp [hm]) _ _ _) _ _
  all_goals exact digestsKept_reply h _ _

theorem resume_digestsKept (s : State) :
    ∃ t, execResume s = .next t ∧ (s.digestsKept → t.digestsKept) := by
  refine ⟨_, rfl, fun h => ?_⟩
  have hk (b : List Byte) : (tested (parseNone b) anyMode (fun _ => resumeByMode) s).digestsKept :=
    tested_keeps _ _ _ (fun _ => digestsKept_reply h _ _) fun _ => resumeByMode_digestsKept h
  dsimp only
  split
  · exact takingStore_keeps h _ _ fun b _ => hk b
  · exact taking_keeps h _ _ hk

/-! ## The starts and the scan -/

theorem digestsAgree_scanned (st : Store) (decayed : List SlotRef) : (st.scanned decayed).digestsAgree :=
  ⟨rfl, rfl, rfl⟩

/-- The end of the scan, after the store is scanned: the notices, and every block takes its items (R41). -/
def afterScan (decayed : List SlotRef) (s : State) : State :=
  let s := startLines (fillCopies (toSite .storeReady (scanStore decayed s)))
  reportSettled (chooseMode (toBeacon (.onAlarms s.site.params.val.beaconOnAlarms) s))

theorem execScanEnd_scanning {s : State} (h : s.store.state = .scanning) (decayed : List SlotRef) :
    execScanEnd decayed s = .next (afterScan decayed s) := by
  unfold execScanEnd afterScan
  rw [if_pos h]

theorem execScanEnd_other {s : State} (h : s.store.state ≠ .scanning) (decayed : List SlotRef) :
    execScanEnd decayed s = .next s := by
  unfold execScanEnd
  rw [if_neg h]

theorem scanStore_toldOwner (decayed : List SlotRef) (s : State) :
    Moves Cell.toldOwner { s with store := s.store.scanned decayed } (scanStore decayed s) := by
  refine noteDamage_moves (noteDamage_moves (noteDamage_moves (noteDamage_moves (Moves.refl _ _) ?_) ?_) ?_) ?_ <;>
    simp [Cell.toldOwner]

theorem afterScan_store (decayed : List SlotRef) (s : State) :
    (afterScan decayed s).store = s.store.scanned decayed := by
  refine Moves.store_eq (s := { s with store := s.store.scanned decayed }) ?_
  refine reportSettled_moves (chooseMode_moves (toBeacon_moves (startLines_moves (fillCopies_moves
    (toSite_moves (scanStore_toldOwner decayed s) ?_) ?_ ?_ ?_ ?_ ?_) ?_ ?_ ?_ ?_ ?_ ?_ ?_ ?_ ?_ ?_ ?_) ?_) ?_ ?_ ?_)
    ?_ ?_ <;> simp [Cell.toldOwner]

theorem scanEnd_digestsKept (decayed : List SlotRef) (s : State) :
    ∃ t, execScanEnd decayed s = .next t ∧ (s.digestsKept → t.digestsKept) := by
  by_cases hs : s.store.state = .scanning
  · refine ⟨_, execScanEnd_scanning hs decayed, fun _ => ?_⟩
    refine digestsKept_of_agrees ?_ ?_ <;> rw [afterScan_store]
    · exact fun e => nomatch e
    · exact digestsAgree_scanned _ _
  · exact ⟨s, execScanEnd_other hs decayed, id⟩

theorem coldStart_digestsKept (a b : Bool) (s : State) :
    ∃ t, execColdStart a b s = .next t ∧ (s.digestsKept → t.digestsKept) :=
  ⟨_, rfl, fun _ => digestsKept_starting _ _ _ _ _ _⟩

theorem warmRestart_digestsKept (s : State) :
    ∃ t, execWarmRestart s = .next t ∧ (s.digestsKept → t.digestsKept) := by
  refine ⟨_, rfl, fun h => ?_⟩
  split
  · exact digestsKept_starting _ _ _ _ _ _
  · exact h

/-! ## Modes are not entered in STARTING (R197 to R203) -/

theorem drainCheck_starting {s : State} (h : s.site.mode = .starting) : drainCheck s = s := by
  simp [drainCheck, h]

theorem fireReported_starting {s : State} (h : s.site.mode = .starting) (active : Bool) :
    (fireReported active s).site.mode = .starting := by
  simp [fireReported, h, Mode.evacuable]

theorem takeSiteReport_starting {s : State} (h : s.site.mode = .starting) (r : SiteReport) (rest : List SiteReport) :
    (takeSiteReport r rest s).site.mode = .starting := by
  have hr : (recordReport { s.site with reports := rest } r).mode = .starting := by
    cases r with
    | segment g b => cases g <;> exact h
    | _ => exact h
  unfold takeSiteReport
  rw [drainCheck_starting hr]
  exact hr

/-- A request that enters no mode from STARTING past its tests. -/
theorem request_starting {s : State} (h : s.site.mode = .starting) {α : Type} (kind : Nat)
    (p : List Byte → Parsed α) (m : Mode → Bool) (k : α → State → State)
    (hk : ∀ x, (k x s).site.mode = .starting) :
    (taking kind (fun b => tested (p b) m k) s).site.mode = .starting := by
  refine taking_keeps (P := fun t => t.site.mode = .starting) h _ _ fun _ => ?_
  refine tested_keeps (P := fun t => t.site.mode = .starting) _ _ _ (fun _ => ?_) hk
  rw [reply_site]
  exact h

theorem hold_starting {s : State} (h : s.site.mode = .starting) :
    ∃ t, exec .hold s = .next t ∧ t.site.mode = .starting :=
  ⟨_, rfl, request_starting h _ _ _ _ fun _ => by simp only [h, reply_site]⟩

theorem evacuate_starting {s : State} (h : s.site.mode = .starting) :
    ∃ t, exec .evacuate s = .next t ∧ t.site.mode = .starting :=
  ⟨_, rfl, request_starting h _ _ _ _ fun _ => by simp only [h, reply_site]⟩

theorem evacuationClosuresDone_starting {s : State} (h : s.site.mode = .starting) :
    exec .evacuationClosuresDone s = .next s := by
  refine congrArg _ (if_neg ?_)
  simp [h]

theorem drainAnswer_starting {s : State} (h : s.site.mode = .starting) :
    ∃ t, exec .drainAnswer s = .next t ∧ t.site.mode = .starting := by
  refine ⟨_, rfl, ?_⟩
  split
  · exact takeSiteReport_starting h _ _
  · exact h

theorem busyReport_starting {s : State} (h : s.site.mode = .starting) :
    ∃ t, exec .busyReport s = .next t ∧ t.site.mode = .starting := by
  refine ⟨_, rfl, ?_⟩
  split
  · exact h
  · exact takeSiteReport_starting h _ _
  · exact h

theorem fireInputChange_starting {s : State} (h : s.site.mode = .starting) :
    ∃ t, exec .fireInputChange s = .next t ∧ t.site.mode = .starting := by
  refine ⟨_, rfl, ?_⟩
  split
  · refine fireReported_starting ?_ _
    exact h
  · exact h

theorem settledReport_starting {s : State} (h : s.site.mode = .starting) :
    ∃ t, exec .settledReport s = .next t ∧ t.site.mode = .starting := by
  refine ⟨_, rfl, ?_⟩
  split
  · refine fireReported_starting ?_ _
    exact h
  · exact h

/-! ## Every command (O8) -/

/-- A command whose footprint holds no slots, and which enters no mode from STARTING. -/
theorem exec_digestsKept_of_footprint {c : Instr} {s : State} (hc : Cell.slots ∉ footprint c)
    (hm : s.site.mode = .starting → ∃ t, exec c s = .next t ∧ t.site.mode = .starting) :
    ∃ t, exec c s = .next t ∧ (s.inForm → s.digestsKept → t.digestsKept) := by
  obtain ⟨t, ht, hmoves⟩ := exec_moves c s
  refine ⟨t, ht, fun _ h => digestsKept_of_slots h (hmoves.keep hc) fun hst => ?_⟩
  obtain ⟨u, hu, hmu⟩ := hm hst
  cases hu.symm.trans ht
  exact hmu

/-- A command whose footprint holds neither slots nor the mode. -/
theorem exec_digestsKept_of_frame {c : Instr} (s : State) (hc : Cell.slots ∉ footprint c)
    (hm : Cell.mode ∉ footprint c) : ∃ t, exec c s = .next t ∧ (s.inForm → s.digestsKept → t.digestsKept) :=
  exec_digestsKept_of_footprint hc fun h => by
    obtain ⟨t, ht, hmoves⟩ := exec_moves c s
    exact ⟨t, ht, (hmoves.keep (c := .mode) hm).1.trans h⟩

/-- The bounds are needed for a write alone. -/
theorem digestsKept_without_form {c : Instr} {s : State} (h : ∃ t, exec c s = .next t ∧ (s.digestsKept → t.digestsKept)) :
    ∃ t, exec c s = .next t ∧ (s.inForm → s.digestsKept → t.digestsKept) := by
  obtain ⟨t, ht, hk⟩ := h
  exact ⟨t, ht, fun _ => hk⟩

theorem recordRequest_digestsKept {c : Instr} (hc : Request.changesRecord c = true) (s : State) :
    ∃ t, exec c s = .next t ∧ (s.digestsKept → t.digestsKept) :=
  recordRequest_keeps (P := fun t => s.digestsKept → t.digestsKept) hc id (fun st b h => digestsKept_reply h st b)
    fun hm w h => digestsKept_beginWrite h hm w

theorem exec_digestsKept (c : Instr) (s : State) :
    ∃ t, exec c s = .next t ∧ (s.inForm → s.digestsKept → t.digestsKept) := by
  by_cases hc : Request.changesRecord c = true
  · exact digestsKept_without_form (recordRequest_digestsKept hc s)
  cases c with
  | coldStart a b => exact digestsKept_without_form (coldStart_digestsKept a b s)
  | warmRestart => exact digestsKept_without_form (warmRestart_digestsKept s)
  | scanEnd decayed => exact digestsKept_without_form (scanEnd_digestsKept decayed s)
  | resume => exact digestsKept_without_form (resume_digestsKept s)
  | clearTable => exact digestsKept_without_form (clearTable_digestsKept s)
  | getStore => exact digestsKept_without_form (getStore_digestsKept s)
  | clearStoreFault => exact digestsKept_without_form (clearStoreFault_digestsKept s)
  | writeCompletion ok => exact writeCompletion_digestsKept ok s
  | blockEraseCompletion ok => exact digestsKept_without_form (blockEraseCompletion_digestsKept ok s)
  | credentialLookup => exact digestsKept_without_form (credentialLookup_digestsKept s)
  | tenantLookup => exact digestsKept_without_form (tenantLookup_digestsKept s)
  | hold => exact exec_digestsKept_of_footprint (by decide) hold_starting
  | evacuate => exact exec_digestsKept_of_footprint (by decide) evacuate_starting
  | evacuationClosuresDone =>
    exact exec_digestsKept_of_footprint (by decide) fun h => ⟨s, evacuationClosuresDone_starting h, h⟩
  | drainAnswer => exact exec_digestsKept_of_footprint (by decide) drainAnswer_starting
  | busyReport => exact exec_digestsKept_of_footprint (by decide) busyReport_starting
  | fireInputChange => exact exec_digestsKept_of_footprint (by decide) fireInputChange_starting
  | settledReport => exact exec_digestsKept_of_footprint (by decide) settledReport_starting
  | _ =>
    first
      | exact absurd rfl hc
      | exact exec_digestsKept_of_frame s (by simp [footprint, answers, segments])
          (by simp [footprint, answers, segments])

/-- Settles O8: every command keeps the digests in agreement, and a step runs one command. -/
theorem everyStepKeepsTheDigests : Obligations.EveryStepKeepsTheDigests := by
  intro s t h hf hk
  obtain rfl | ⟨c, rest, _, he⟩ := step_cases h
  · exact hk
  · obtain ⟨u, hu, hd⟩ := exec_digestsKept c { s with pending := rest }
    cases hu.symm.trans he
    exact hd (hf.pending rest) ⟨hk.scanning, hk.scanned⟩

end Sys2Proof.Machine
end

section
/-! PROOF. The request rows: their first tests in order (O17) and their wait for a request (O18). -/

namespace Sys2Proof.Machine

/-! ## The shape of a row -/

/-- A reply of a status alone to the request in hand. -/
theorem reply_status {s : State} {f : Frame} (h : s.inHand f) (st : Status) : reply st [] s = s.answered f st [] := by
  rw [reply_inHand h, ite_self]

/-- What the first tests of a row answer: the body, the mode, and for a change the sticky faults (R209). -/
structure FirstTests (s : State) (f : Frame) (row : RequestRow) (t : State) : Prop where
  body : ∀ e, row.verdict f.body = some e → t = s.answered f e []
  mode : row.verdict f.body = none → row.takenIn f.body s.site.mode = false → t = s.answered f .wrongMode []
  fault : row.changes = true → row.verdict f.body = none → row.takenIn f.body s.site.mode = true →
    s.store.faulted = true → t = s.answered f .storeFault []

/-- A row runs as `F` on the body of its request, at the store in its turn; a body of another row changes nothing, and
on one of its own the first tests come in order. -/
structure RequestRow.Runs (row : RequestRow) (c : Instr) (s : State) (F : List Byte → State → State) : Prop where
  taken : exec c s = .next (if row.atStore = true ∧ (c = .resume → s.site.mode = .setup) then
    takingStore row.kind F s else taking row.kind F s)
  other : ∀ b, row.mine b = false → F b s = s
  tests : ∀ f, s.inHand f → row.mine f.body = true → FirstTests s f row (F f.body s)

/-- The tests of a body and of the mode, where what comes after them refuses the modes that the row does not take, and
tests the faults of a change. -/
theorem tested_firstTests {s : State} {f : Frame} (hf : s.inHand f) {α : Type} {p : Parsed α}
    {m : Mode → Bool} {k : α → State → State} {row : RequestRow} (hv : row.verdict f.body = verdict p)
    (hmode : ∀ x, p = .ok x → row.takenIn f.body s.site.mode = false → m s.site.mode = true →
      k x s = reply .wrongMode [] s)
    (hfault : row.changes = true → ∀ x, p = .ok x → row.takenIn f.body s.site.mode = true →
      s.store.faulted = true → m s.site.mode = true ∧ k x s = reply .storeFault [] s) :
    FirstTests s f row (tested p m k s) := by
  cases p with
  | error e =>
    refine ⟨fun d hd => ?_, fun h => ?_, fun _ h => ?_⟩ <;> rw [hv] at *
    · cases hd
      exact reply_status hf e
    · cases h
    · cases h
  | ok x =>
    refine ⟨fun _ h => ?_, fun _ ht => ?_, fun hc _ ht hs => ?_⟩
    · rw [hv] at h
      cases h
    · by_cases hm : m s.site.mode = true
      · rw [tested_ok _ hm, hmode x rfl ht hm, reply_status hf]
      · exact tested_mode hf _ (Bool.eq_false_iff.mpr hm)
    · obtain ⟨hm, hk⟩ := hfault hc x rfl ht hs
      rw [tested_ok _ hm, hk, reply_status hf]

theorem unlessFaulted_storeFault {s : State} (h : s.store.faulted = true) (k : State → State) :
    unlessFaulted k s = reply .storeFault [] s := if_pos h

/-! ## The rows by their shapes -/

/-- A row that no other shares, whose mode test is that of its catalogue entry or is made after it. -/
theorem runs_plain {c : Instr} {s : State} {α : Type} {kind : Nat} {p : List Byte → Parsed α} {m n : Mode → Bool}
    {k : α → State → State} (h : exec c s = .next (taking kind (fun b => tested (p b) m k) s))
    (hn : ∀ x, n s.site.mode = false → m s.site.mode = true → k x s = reply .wrongMode [] s) :
    (RequestRow.plain kind (fun b => verdict (p b)) n).Runs c s fun b => tested (p b) m k where
  taken := h
  other _ h := nomatch h
  tests _ hf _ := tested_firstTests hf rfl (fun x _ => hn x) fun h => nomatch h

theorem runs_alone {c : Instr} {s : State} {α : Type} {kind : Nat} {p : List Byte → Parsed α} {m : Mode → Bool}
    {k : α → State → State} (h : exec c s = .next (taking kind (fun b => tested (p b) m k) s)) :
    (RequestRow.plain kind (fun b => verdict (p b)) m).Runs c s fun b => tested (p b) m k :=
  runs_plain h fun _ h1 h2 => absurd (h1.symm.trans h2) (by decide)

theorem runs_reads {c : Instr} (hc : c ≠ .resume) {s : State} {α : Type} {kind : Nat} {p : List Byte → Parsed α}
    {k : α → State → State}
    (h : exec c s = .next (takingStore kind (fun b => tested (p b) outsideStarting k) s)) :
    (RequestRow.reads kind fun b => verdict (p b)).Runs c s fun b => tested (p b) outsideStarting k where
  taken := h.trans (congrArg _ (if_pos ⟨rfl, fun e => absurd e hc⟩).symm)
  other _ h := nomatch h
  tests _ hf _ := tested_firstTests hf rfl (fun _ _ h1 h2 => absurd (h1.symm.trans h2) (by decide)) fun h => nomatch h

theorem runs_writes {c : Instr} (hc : c ≠ .resume) {s : State} {α : Type} {kind : Nat} {p : List Byte → Parsed α}
    {m : Mode → Bool} {k : α → State → State}
    (h : exec c s = .next (takingStore kind (fun b => tested (p b) m fun x => unlessFaulted (k x)) s)) :
    (RequestRow.writes kind (fun b => verdict (p b)) m).Runs c s fun b =>
      tested (p b) m fun x => unlessFaulted (k x) where
  taken := h.trans (congrArg _ (if_pos ⟨rfl, fun e => absurd e hc⟩).symm)
  other _ h := nomatch h
  tests _ hf _ := tested_firstTests hf rfl (fun _ _ h1 h2 => absurd (h1.symm.trans h2) (by decide))
    fun _ _ _ hm hs => ⟨hm, unlessFaulted_storeFault hs _⟩

/-- What a row with an action does with the body of its kind (log 32). -/
def actionBody (width high actions action : Nat) (k : Nat → State → State) (body : List Byte) (s : State) : State :=
  match parseAction width high actions body with
  | .ok (n, a) => if a = action then tested (.ok n : Parsed Nat) outsideStarting k s else s
  | .error e => reply e [] s

theorem runs_action {c : Instr} {s : State} {kind width high actions action : Nat} {k : Nat → State → State}
    (h : exec c s = .next (takingAction kind width high actions action k s)) :
    (RequestRow.action kind width high actions action).Runs c s (actionBody width high actions action k) where
  taken := h
  other b hb := by
    simp only [RequestRow.action] at hb
    unfold actionBody
    split at hb
    · rename_i x hx
      rw [hx]
      exact if_neg (of_decide_eq_false hb)
    · cases hb
  tests f hf hb := by
    simp only [RequestRow.action] at hb
    unfold actionBody
    cases hp : parseAction width high actions f.body with
    | error e =>
      refine ⟨fun d hd => ?_, fun hn => ?_, fun hn => nomatch hn⟩
      · simp only [RequestRow.action, hp, verdict, Option.some.injEq] at hd
        exact hd ▸ reply_status hf e
      · simp [RequestRow.action, hp, verdict] at hn
    | ok x =>
      rw [hp] at hb
      have ha : x.2 = action := of_decide_eq_true hb
      dsimp only
      rw [if_pos ha]
      exact tested_firstTests hf (by simp [RequestRow.action, hp, verdict])
        (fun _ _ h1 h2 => absurd (h1.symm.trans h2) (by decide)) fun h => nomatch h

/-! ## The rows that test their mode after the body -/

theorem hold_runs (s : State) : ∃ F, (RequestRow.plain 0x04 (fun b => verdict (parseNone b)) drainable).Runs .hold s F := by
  refine ⟨_, runs_plain (m := anyMode) rfl fun _ h _ => ?_⟩
  cases hm : s.site.mode <;> simp_all [drainable]

theorem evacuate_runs (s : State) :
    ∃ F, (RequestRow.plain 0x06 (fun b => verdict (parseNone b)) outsideStarting).Runs .evacuate s F := by
  refine ⟨_, runs_plain (m := anyMode) rfl fun _ h _ => ?_⟩
  cases hm : s.site.mode <;> simp_all [outsideStarting]

theorem resumeByMode_refused {s : State} (h : drainable s.site.mode = false) :
    resumeByMode s = reply .wrongMode [] s := by
  unfold resumeByMode
  cases hm : s.site.mode <;> simp_all [drainable]

theorem resume_runs (s : State) :
    (⟨0x05, true, false, fun _ => true, fun b => verdict (parseNone b), fun _ => drainable⟩ : RequestRow).Runs .resume s
      fun b => tested (parseNone b) anyMode fun _ => resumeByMode where
  taken := by
    simp only [exec, execResume, true_and, true_imp_iff]
  other _ h := nomatch h
  tests _ hf _ := tested_firstTests hf rfl (fun _ _ h _ => resumeByMode_refused h) fun h => nomatch h

theorem tableOf_site_iff (n : Nat) : tableOf n = some .site ↔ n = 3 := by
  unfold tableOf
  split <;> simp_all

theorem parseTable_byte (x : Byte) :
    parseTable [x] = (tableOf x.toNat).elim (.error .badValue) .ok := by
  have hf : fields [1] [x] = some [x.toNat] := by simp [fields, beNat]
  unfold parseTable
  rw [hf]
  dsimp only
  cases tableOf x.toNat <;> rfl

/-- A body of CLEAR_TABLE names SITE when it is the byte 3 alone. -/
theorem parseTable_site_iff (b : List Byte) : parseTable b = .ok .site ↔ b = [3] := by
  refine ⟨fun h => ?_, fun h => h ▸ rfl⟩
  match b with
  | [] => cases h
  | [x] =>
    rw [parseTable_byte] at h
    cases ht : tableOf x.toNat with
    | none => simp [ht] at h
    | some t =>
      obtain rfl : t = .site := by simpa [ht] using h
      exact congrArg (fun y => [y]) (BitVec.eq_of_toNat_eq ((tableOf_site_iff _).mp ht))
  | _ :: _ :: _ => simp [parseTable, fields] at h

/-- The modes that take a CLEAR_TABLE of a table (R33). -/
theorem clearTable_takenIn {b : List Byte} {t : TableName} (hp : parseTable b = .ok t) {m : Mode}
    (hm : outsideStarting m = true) :
    (m == .setup || (m != .starting && b != [3])) = !(decide (t = .site) && m != .setup) := by
  have hb : (b != [3]) = !decide (t = .site) := by
    by_cases ht : t = .site
    · simp [ht, (parseTable_site_iff b).mp (ht ▸ hp)]
    · have : b ≠ [3] := fun h => ht (by simpa [hp] using (parseTable_site_iff b).mpr h)
      rw [decide_eq_false ht, Bool.not_false]
      exact bne_iff_ne.mpr this
  rw [hb]
  cases m <;> cases t <;> first
    | rfl
    | cases hm

theorem clearTable_runs (s : State) :
    ∃ F, (⟨0x20, true, true, fun _ => true, fun b => verdict (parseTable b), fun b m =>
      m == .setup || (m != .starting && b != [3])⟩ : RequestRow).Runs .clearTable s F := by
  refine ⟨_, rfl, fun _ h => (nomatch h), fun f hf _ => tested_firstTests hf rfl (fun t hp hn hm => ?_)
    fun _ t hp ht hs => ?_⟩
  · dsimp only at hn
    rw [clearTable_takenIn hp hm, Bool.not_eq_false'] at hn
    exact if_pos hn
  · have hm : outsideStarting s.site.mode = true := by
      cases h : s.site.mode <;> simp_all [outsideStarting]
    dsimp only at ht
    rw [clearTable_takenIn hp hm, Bool.not_eq_true'] at ht
    exact ⟨hm, (if_neg (by simp [ht])).trans (unlessFaulted_storeFault hs _)⟩

/-! ## Every row (O17, O18) -/

/-- Every request row runs on the body of its request, after the first tests in order. -/
theorem request_runs {c : Instr} {row : RequestRow} (h : Request.ofCommand c = some row) (s : State) :
    ∃ F, row.Runs c s F := by
  cases c with
  | identify => cases h; exact ⟨_, runs_alone rfl⟩
  | hold => cases h; exact hold_runs s
  | resume => cases h; exact ⟨_, resume_runs s⟩
  | evacuate => cases h; exact evacuate_runs s
  | clearTable => cases h; exact clearTable_runs s
  | putSite | putTenant | dropTenant | putCredential | dropCredential | putUnit | dropUnit | setOverlock | putPattern
  | putClass | putWindow | putPortal | putCar | putSegment | enrolNode | removeNode | putLine =>
    cases h; exact ⟨_, runs_writes (by decide) rfl⟩
  | getTenant | getStore | clearStoreFault | getDigest | getUnit => cases h; exact ⟨_, runs_reads (by decide) rfl⟩
  | setPortalSecure | setPortalFree | setPortalMomentary | unitServiceBegin | unitServiceEnd | carServiceOut
  | carServiceIn => cases h; exact ⟨_, runs_action rfl⟩
  | restart | getState | evacuateEnd | setClock | takeNotices | listVisits | getVisit | closeVisit | hostAdmit | getPortal
  | unitAlarmReset | getCar | getNode | getSegment | restoreSegment | lineWrite | lineRead =>
    cases h; exact ⟨_, runs_alone rfl⟩
  | _ => cases h

theorem takingStore_idle {s : State} (hl : s.store.lookups = []) (hr : s.store.results = []) (kind : Nat)
    (F : List Byte → State → State) : takingStore kind F s = taking kind F s := by
  simp [takingStore, hl, hr]

theorem takingStore_waits {s : State} (h : s.store.lookups ≠ [] ∨ s.store.results ≠ []) (kind : Nat)
    (F : List Byte → State → State) : takingStore kind F s = s := by
  refine if_neg ?_
  simpa only [Bool.and_eq_true, List.isEmpty_iff, Classical.not_and_iff_not_or_not] using h

/-- Settles O17: each row runs as one function of its body, whose first tests come in order. -/
theorem requestsAreTestedInOrder : Obligations.RequestsAreTestedInOrder := by
  intro c row s f hc hf hk hb hs
  obtain ⟨F, hr⟩ := request_runs hc s
  have he : exec c s = .next (F f.body s) := by
    rw [hr.taken]
    split
    · rename_i ha
      obtain ⟨hl, hres⟩ := hs ha.1
      rw [takingStore_idle hl hres, taking_inHand hf _ hk]
    · rw [taking_inHand hf _ hk]
  have ht := hr.tests f hf hb
  exact ⟨fun e hv => he.trans (congrArg _ (ht.body e hv)), fun hv hm => he.trans (congrArg _ (ht.mode hv hm)),
    fun hch hv hm hfault => he.trans (congrArg _ (ht.fault hch hv hm hfault))⟩

/-- Settles O18: each row runs through `taking`, and a row of the store waits in `takingStore`. -/
theorem requestRowsWaitForTheirRequest : Obligations.RequestRowsWaitForTheirRequest := by
  intro c row s hc
  obtain ⟨F, hr⟩ := request_runs hc s
  refine ⟨fun hn => ?_, fun ha hw hm => ?_⟩
  · have ht : taking row.kind F s = s := by
      unfold taking
      split
      · rename_i f hf
        split
        · exact hr.other _ (hn f hf ‹_›)
        · rfl
      · rfl
    rw [hr.taken]
    split
    · unfold takingStore
      rw [ht, ite_self]
    · rw [ht]
  · rw [hr.taken, if_pos ⟨ha, hm⟩, takingStore_waits hw]

end Sys2Proof.Machine
end

section
/-! PROOF. Reset and the starts (O9, O16), the reading requests that clear (O22), CLEAR_STORE_FAULT (O36) and RESUME
(O26). -/

namespace Sys2Proof.Machine

/-! ## Reset and the starts (R206) -/

/-- Settles O9: the blocks of reset are the blank ones, whose portals, cars and lines are copies of one. -/
theorem resetIsAColdStart : Obligations.ResetIsAColdStart := by
  refine ⟨rfl, rfl, rfl, rfl, rfl, rfl, rfl, rfl, rfl, rfl, rfl, rfl, rfl, rfl, rfl, rfl, rfl, rfl, rfl, rfl, rfl, rfl,
    rfl, rfl, rfl, rfl, rfl, rfl, rfl, rfl, fun q hq => ?_, rfl, rfl, rfl, fun x hx => ?_, fun g => ?_, rfl,
    fun l hl => ?_, rfl⟩
  · obtain rfl := List.eq_of_mem_replicate hq
    exact ⟨rfl, rfl⟩
  · obtain rfl := List.eq_of_mem_replicate hx
    exact ⟨rfl, rfl, rfl, rfl⟩
  · cases g <;> exact ⟨rfl, rfl, rfl, rfl, rfl, rfl⟩
  · obtain ⟨_, _, rfl⟩ := List.mem_map.mp hl
    exact ⟨rfl, rfl⟩

theorem strapCode_eq (h0 h1 : Bool) : strapCode h0 h1 = (if h0 then 1 else 0) + if h1 then 2 else 0 := by
  cases h0 <;> cases h1 <;> rfl

/-- A cold start with nothing in progress cuts off nothing (R42). -/
theorem cut_idle {st : Store} (hw : st.write = none) (hc : st.clear = none) (n : Nat) : st.cut n = st := by
  simp only [Store.cut, hw, hc]

/-- Every segment of a start is blank (R148, R206). -/
theorem starting_seg (pending : List Instr) (rate : Nat) (st : Store) (clock : Option Clock) (pins : List Level)
    (n : Nat) (g : Seg) : (State.starting pending rate st clock pins n).seg g = Segment.blank := by cases g <;> rfl

theorem execRestart_inHand {s : State} {f : Frame} (hf : s.inHand f) (hk : f.kind = 0x02) (hb : f.body = [])
    (hm : s.site.mode ≠ .starting) :
    exec .restart s = .next { s with host :=
      { s.host with
        serving := some ⟨f, .replied⟩
        replies := s.host.replies ++ [⟨.restart, f.tag, 0x82, [0x00]⟩] } } := by
  have ht : taking 0x02 (fun b => tested (parseNone b) outsideStarting fun _ => replyAs .restart .ok []) s =
      replyAs .restart .ok [] s := taking_fits hf (congrArg _ hk) (by rw [hb]; rfl) (outsideStarting_eq hm)
  refine congrArg _ (ht.trans ?_)
  simp only [State.inHand] at hf
  simp only [replyAs, hf, hk]
  rfl

/-- Settles O16: a start is `State.starting` of the kept parts, and RESTART sends the reply that leads to one. -/
theorem startsEmptyTheVolatileState : Obligations.StartsEmptyTheVolatileState := by
  refine ⟨fun h0 h1 s => ⟨_, rfl, by rw [← strapCode_eq]; rfl, rfl, rfl, rfl, rfl, rfl, rfl,
      fun g => ⟨starting_seg .., ?_⟩, rfl, rfl, rfl, rfl, rfl, rfl, rfl, rfl, rfl, rfl, rfl, rfl, fun hw hc => ?_⟩,
    fun s f hf hk hb hm => execRestart_inHand hf hk hb hm, fun s r rest hr hrole => ?_, fun s hn => ?_⟩
  · unfold State.driverEnable
    rw [starting_seg]
    rfl
  · rw [cut_idle hw hc]
    exact ⟨rfl, rfl, rfl, rfl⟩
  · show execWarmRestart s = _
    unfold execWarmRestart
    rw [hr]
    simp only [List.head?_cons, Option.map_some, hrole]
    rfl
  · show execWarmRestart s = _
    unfold execWarmRestart
    cases hr : s.host.replies with
    | nil => rfl
    | cons r rest =>
      have := hn r rest hr
      cases h : r.role <;> simp_all

/-! ## Requests that clear -/

/-- Settles O22: each request past its tests, and the reply it makes before it clears. -/
theorem readingRequestsThatClear : Obligations.ReadingRequestsThatClear := by
  intro s f hf hm
  have ho := outsideStarting_eq hm
  refine ⟨fun hk hl hr => ⟨fun hb => ?_, fun hb => ?_⟩, fun g n hk hp => ⟨fun hx => ?_, fun x hx => ?_⟩,
    fun g hk => ⟨fun hp => ?_, fun hp => ?_⟩⟩
  · refine congrArg _ ((takingStore_fits hf (congrArg _ hk) hl hr (by rw [hb]; rfl) ho).trans ?_)
    exact reply_ok hf _
  · refine congrArg _ ((takingStore_fits hf (congrArg _ hk) hl hr (by rw [hb]; rfl) ho).trans ?_)
    simp only [reply_ok hf, if_true]
    rfl
  · refine congrArg _ ((taking_fits hf (congrArg _ hk) hp ho).trans ?_)
    simp only [hx]
    exact reply_status hf _
  · refine congrArg _ ((taking_fits hf (congrArg _ hk) hp ho).trans ?_)
    simp only [hx, reply_ok hf]
    cases g <;> rfl
  · refine congrArg _ ((taking_fits hf (congrArg _ hk) hp ho).trans ?_)
    exact reply_ok hf _
  · refine congrArg _ ((taking_fits hf (congrArg _ hk) hp ho).trans ?_)
    simp only [reply_ok hf, if_true]
    cases g <;> rfl

/-- Settles O36: past the tests that every row has, the flags and records alone change. -/
theorem clearStoreFaultClearsTheFlags : Obligations.ClearStoreFaultClearsTheFlags := by
  intro s f hf hk hl hr
  have tests := requestsAreTestedInOrder .clearStoreFault _ s f rfl hf (congrArg _ hk) rfl fun _ => ⟨hl, hr⟩
  obtain ⟨body, mode, -⟩ := tests
  refine ⟨fun hb => body _ ?_, fun hb hm => mode ?_ ?_, fun hb hm => ?_⟩
  · cases h : f.body with
    | nil => exact absurd h hb
    | cons => rfl
  · rw [hb]
    rfl
  · rw [hm]
    rfl
  · refine congrArg _ ((takingStore_fits hf (congrArg _ hk) hl hr (by rw [hb]; rfl) (outsideStarting_eq hm)).trans ?_)
    refine reply_ok ?_ _
    exact hf

/-! ## RESUME (R40, R201) -/

/-- The marker is VALID when the item reads so undamaged (R40). -/
theorem markerValid_iff (st : Store) : st.markerValid = true ↔ st.item .marker = ⟨.marker true, false⟩ := by
  unfold Store.markerValid
  split <;> simp_all

theorem faulted_iff (st : Store) : st.faulted = true ↔ st.writeFault = true ∨ st.clearFault = true := by
  simp [Store.faulted]

theorem enterMode_serving (new : Mode) (ret : Option Mode) (cause : ModeCause) (s : State) :
    (enterMode new ret cause s).host.serving = s.host.serving := by
  unfold enterMode putNotice
  dsimp only
  split <;> rfl

/-- A mode entered for the request in hand, answered OK. -/
theorem enterMode_answered {s : State} {f : Frame} (hf : s.inHand f) (new : Mode) (ret : Option Mode)
    (cause : ModeCause) : reply .ok [] (enterMode new ret cause s) = (enterMode new ret cause s).answered f .ok [] :=
  reply_status (inHand_of_serving hf (enterMode_serving ..)) _

/-- RESUME with an empty body goes by the mode, in SETUP in its turn at the store. -/
theorem execResume_inHand {s : State} {f : Frame} (hf : s.inHand f) (hk : f.kind = 0x05) (hb : f.body = [])
    (ht : s.site.mode = .setup → s.store.lookups = [] ∧ s.store.results = []) :
    exec .resume s = .next (resumeByMode s) := by
  have hp : parseNone f.body = .ok () := by rw [hb]; rfl
  rw [(resume_runs s).taken]
  split
  · rename_i hs
    obtain ⟨hl, hr⟩ := ht (hs.2 rfl)
    exact congrArg _ (takingStore_fits hf (congrArg _ hk) hl hr hp rfl)
  · exact congrArg _ (taking_fits hf (congrArg _ hk) hp rfl)

/-- Settles O26: RESUME goes by the mode, and in SETUP by the faults and then the marker. -/
theorem resumeReturnsToRun : Obligations.ResumeReturnsToRun := by
  intro s f hf hk hb
  have run (hm : s.site.mode ≠ .setup) := execResume_inHand hf hk hb fun h => absurd h hm
  unfold resumeByMode at run
  refine ⟨fun hm => ?_, fun hm => ?_, fun hm => ?_, fun hm hl hr => ?_⟩
  · simpa only [hm, enterMode_answered hf] using run (by simp [hm])
  · simpa only [hm, reply_status hf] using run (by simp [hm])
  · rcases hm with hm | hm <;> simpa only [hm, reply_status hf] using run (by simp [hm])
  · have he : exec .resume s = .next (resumeSetup s) := by
      rw [execResume_inHand hf hk hb fun _ => ⟨hl, hr⟩]
      simp only [resumeByMode, hm]
    refine ⟨fun h => ?_, fun h1 h2 => ?_⟩
    · exact he.trans (congrArg _ (unlessFaulted_set hf _ ((faulted_iff _).mpr h)))
    · have hs : s.store.faulted = false := by simp [Store.faulted, h1, h2]
      rw [resumeSetup, unlessFaulted_clear _ hs] at he
      refine ⟨fun h => ?_, fun h => ?_⟩
      · rw [he, if_pos ((markerValid_iff _).mpr h), enterMode_answered hf]
      · rw [he, if_neg (mt (markerValid_iff _).mp h), beginWrite_inHand hf]

end Sys2Proof.Machine
end

section
/-! PROOF. What a write settles (O37), how its completion answers (O38), and clears block by block (O40). -/

namespace Sys2Proof.Machine

/-! ## A slot that is written (R29) -/

/-- What a slot holds after a read-back: the new contents, or damage. -/
def settled {α : Type} (new : Option α) (damaged : α) (ok : Bool) : Option α := if ok then new else some damaged

theorem find_setSlot {α : Type} (t : Table α) (k : Nat) (new : Option α) (damaged : α) (ok : Bool) (q : Nat) :
    (setSlot t k new damaged ok).find q = if q = k then settled new damaged ok else t.find q := by
  cases ok with
  | false => exact find_put t k q damaged
  | true =>
    cases new with
    | none => exact find_remove t k q
    | some x => exact find_put t k q x

theorem digestAt_eq {α : Type} (f : α → Word16) (t : Table α) (k : Nat) :
    digestAt f t k = ((t.find k).map f).getD 0 := by
  unfold digestAt
  cases t.find k <;> rfl

/-- The digest of a table after a write: the old check value leaves and the new one enters (R29). -/
theorem redigest_setSlot {α : Type} (f : α → Word16) (d : Word16) (t : Table α) (k : Nat) (new : Option α)
    (damaged : α) (ok : Bool) : redigest f d t (setSlot t k new damaged ok) k =
      d ^^^ ((t.find k).map f).getD 0 ^^^ ((settled new damaged ok).map f).getD 0 := by
  rw [redigest, digestAt_eq, digestAt_eq, find_setSlot, if_pos rfl]

/-- Settles O37: each keyed table by the rules of a written slot; the slots of a SITE item have no digest. -/
theorem writesSettleTheirSlotAndDigest : Obligations.WritesSettleTheirSlotAndDigest := by
  refine fun st => ⟨fun id r ok _ => ⟨rfl, ?_, ?_⟩, fun u r ok _ => ⟨rfl, ?_, ?_⟩, fun slot v id ok _ => ⟨rfl, ?_, ?_⟩,
    fun i v ok _ => ⟨rfl, fun k => ?_⟩⟩
  · exact find_setSlot _ _ _ _ ok
  · exact redigest_setSlot _ _ _ _ _ _ ok
  · exact find_setSlot _ _ _ _ ok
  · exact redigest_setSlot _ _ _ _ _ _ ok
  · exact find_setSlot _ _ _ _ ok
  · exact redigest_setSlot _ _ _ _ _ _ ok
  · refine (find_setSlot st.site i.key (some (.present v (siteCheck i.key v))) .damaged ok k).trans ?_
    cases ok <;> rfl

/-! ## The completion of a write (R29, R31) -/

/-- The owners told leave the request that waits, which is then answered. -/
theorem reply_told {s t : State} {f : Frame} (hs : s.host.serving = some ⟨f, .working⟩) (ht : Moves Cell.toldOwner s t)
    (st : Status) : reply st [] t = t.answered f st [] := by
  rw [reply_working (ht.serving_eq.trans hs), ite_self]

/-- Settles O38: the store completes, the owner is told, and the request is answered. -/
theorem writeCompletionAnswersTheRequest : Obligations.WriteCompletionAnswersTheRequest := by
  refine fun ok s => ⟨fun h => execWriteCompletion_none h ok, fun w f hw hs => ?_⟩
  intro st done told
  have hd : s.store.completed w ok = done := by cases ok <;> rfl
  have ht : Moves Cell.toldOwner { s with store := done } told := tellMirror_toldOwner w ok _
  refine ⟨?_, ht.store_eq, ?_⟩
  · refine (execWriteCompletion_some hw ok).trans (congrArg _ ?_)
    rw [hd]
    exact reply_told (s := { s with store := done }) hs (toSite_moves ht (by simp [Cell.toldOwner])) _
  · rintro (⟨_, _, rfl⟩ | ⟨_, _, _, rfl⟩ | ⟨_, _, rfl⟩) <;> rfl

/-! ## A clear (R33 to R36) -/

/-- A clear is refused over a visit, or over a unit entry that is neither ARMED nor UNKNOWN (R33 test 5). -/
theorem clearInUse_iff (s : State) (t : TableName) :
    s.clearInUse t = true ↔ (t = .tenant ∧ s.visits.table ≠ []) ∨
      (t = .unit ∧ ∃ e ∈ s.units.entries, e.2.state ≠ .armed ∧ e.2.state ≠ .unknown) := by
  cases t <;> simp [State.clearInUse, unitState_inUse_iff, List.any_eq_true]

/-- CLEAR_TABLE past its tests (R33). -/
theorem clearTable_inHand {s : State} {f : Frame} (h : s.storeTurn f) {t : TableName} (hk : f.kind = 0x20)
    (hp : parseTable f.body = .ok t) (hm : s.site.mode ≠ .starting) (hs : t = .site → s.site.mode = .setup) :
    exec .clearTable s = .next (if s.clearInUse t = true then s.answered f .inUse [] else
      { s.kept f with store := { s.store with state := .clearing, clear := some ⟨t, 0, false⟩ } }) := by
  refine congrArg _ ((takingStore_fits h.inHand (congrArg _ hk) h.lookups h.results hp (outsideStarting_eq hm)).trans ?_)
  have hsite : ¬(decide (t = .site) && s.site.mode != .setup) = true := by
    simpa using hs
  dsimp only
  rw [if_neg hsite, unlessFaulted_clear _ h.sound, reply_status h.inHand, working_inHand]
  · rfl
  · exact h.inHand

/-- What a key holds after the erase of a block: nothing, or damage (R34, R36). -/
theorem find_eraseBlock {α : Type} (t : TableName) (b : Nat) (damage : α → α) (ok : Bool) (tbl : Table α) (k : Nat) :
    (eraseBlock t b damage ok tbl).find k =
      if blockOf t k = b then if ok then none else (tbl.find k).map damage else tbl.find k := by
  unfold eraseBlock
  cases ok with
  | true =>
    refine (find_filter tbl (fun q => !inBlock t b q) k).trans ?_
    by_cases h : blockOf t k = b <;> simp [inBlock, h]
  | false =>
    refine (find_map_if tbl (inBlock t b) damage k).trans ?_
    by_cases h : blockOf t k = b <;> simp [inBlock, h]

/-- The check values of a block leave the digest of their table (R34, R36). -/
theorem eraseBlock_digest {α : Type} (f : α → Word16) (t : TableName) (b : Nat) {tbl : Table α} {d : Word16}
    (hd : d = digestOf f tbl) :
    d ^^^ blockDigest t b f tbl = digestOf f (tbl.filter fun e => blockOf t e.1 != b) := by
  rw [hd]
  exact digestOf_filter f (fun e => inBlock t b e.1) tbl

theorem credSlot_damage_eq (c : CredSlot) : c.damage = match c with
    | .present v _ _ => .damaged v
    | .damaged v => .damaged v
    | .keyless => .keyless := by
  cases c <;> rfl

theorem execBlockEraseCompletion_clearing {s : State} {c : ClearOp} (hs : s.store.state = .clearing)
    (hc : s.store.clear = some c) (ok : Bool) : execBlockEraseCompletion ok s = .next (completeBlock c ok s) := by
  simp only [execBlockEraseCompletion, hs, hc]

theorem execBlockEraseCompletion_other {s : State} (hs : s.store.state ≠ .clearing) (ok : Bool) :
    execBlockEraseCompletion ok s = .next s := by
  unfold execBlockEraseCompletion
  split
  · exact absurd ‹_› hs
  · rfl

theorem endClear_eq (c : ClearOp) (s : State) :
    endClear c s = reply (if c.failed = true then .storeFault else .ok) []
      (if c.table = .site then mirroredItems.foldl applyItem
          (toSite .storeReady { s with store := { s.store with state := .ready, clear := none } })
        else toSite .storeReady { s with store := { s.store with state := .ready, clear := none } }) := rfl

/-- The store after a block, with what a failed erase adds to it (R36). -/
theorem erased_eq (st : Store) (c : ClearOp) (ok : Bool) :
    st.erased c ok = if ok = true then eraseStore c.table c.block ok st else
      { eraseStore c.table c.block ok st with
        clearFault := true
        clearFaultRec := if st.clearFault = true then st.clearFaultRec else some (c.table, c.block)
        failedErases := min 255 (st.failedErases + 1) } := by
  obtain ⟨t, b, failed⟩ := c
  cases ok <;> cases t <;> rfl

/-- Settles O40: CLEAR_TABLE by its tests, a block by its store and the owners told, and the erase of each table. -/
theorem clearsGoBlockByBlock : Obligations.ClearsGoBlockByBlock := by
  refine ⟨fun s f t hf hk hp hl hr hs hm hsite => ?_, fun s t b failed ok hs => ?_,
    fun s ok hs => execBlockEraseCompletion_other hs ok, fun b ok st _ => ⟨rfl, ?_, ?_⟩, fun b ok st _ => ⟨rfl, ?_, ?_⟩,
    fun b ok st _ => ⟨rfl, fun n => ?_, ?_⟩, fun b ok st _ => ⟨rfl, ?_⟩⟩
  · have he := clearTable_inHand ⟨hf, hl, hr, hs⟩ hk hp hm hsite
    have hi := clearInUse_iff s t
    exact ⟨fun h => he.trans (congrArg _ (if_pos (hi.mpr h))), fun h => he.trans (congrArg _ (if_neg (mt hi.mp h)))⟩
  · intro items hc erased st units u done told
    have hst : s.store.erased ⟨t, b, failed⟩ ok = st := erased_eq ..
    have hu : toldErased ⟨t, b, failed⟩ ok s = u := by
      unfold toldErased
      rw [hst]
      rfl
    have hus : u.store = st := by rw [← hu, toldErased_store, hst]
    have he : exec (.blockEraseCompletion ok) s = .next (completeBlock ⟨t, b, failed⟩ ok s) :=
      execBlockEraseCompletion_clearing hs hc ok
    rw [completeBlock_eq, hst, hu] at he
    have hserving : done.host.serving = s.host.serving :=
      (dropUnitEntries_toldOwner units { s with store := st }).serving_eq
    have htold : Moves Cell.toldOwner done told := by
      simp only [told]
      split
      · exact applyItems_toldOwner _ _
      · exact Moves.refl _ _
    refine ⟨fun hb => he.trans (congrArg _ (if_pos hb)), fun f hb hserve => ⟨?_, htold.store_eq⟩⟩
    rw [if_neg (Nat.not_lt.mpr hb), endClear_eq, hus] at he
    exact he.trans (congrArg _ (reply_told (hserving.trans hserve) htold _))
  · exact find_eraseBlock .tenant b (fun _ => .damaged) ok st.tenants
  · exact eraseBlock_digest Slot.digest .tenant b
  · exact find_eraseBlock .unit b (fun _ => .damaged) ok st.units
  · exact eraseBlock_digest Slot.digest .unit b
  · refine (find_eraseBlock .credential b CredSlot.damage ok st.creds n).trans ?_
    rw [funext credSlot_damage_eq]
    rfl
  · exact eraseBlock_digest CredSlot.digest .credential b
  · exact find_eraseBlock .site b (fun _ => .damaged) ok st.site

end Sys2Proof.Machine
end

section
/-! PROOF. What the scan finds and how the blocks take their items (R41, R148, R185, R191, R197): O41. -/

namespace Sys2Proof.Machine

/-! ## The tables after the scan (R30, R41) -/

theorem find_map_keyed {α β : Type} (t : Table α) (g : Nat → α → β) (k : Nat) :
    Table.find (t.map fun e => (e.1, g e.1 e.2)) k = (t.find k).map (g k) := by
  induction t with
  | nil => rfl
  | cons e t ih =>
    obtain ⟨q, x⟩ := e
    simp only [List.map_cons, Table.find]
    by_cases hk : q = k
    · subst hk
      simp
    · simpa [hk] using ih

/-- Each slot of a keyed table is scanned by itself. -/
theorem find_scanTable_map {α : Type} (check : Nat → α → Word16) (bad : Nat → Bool) (t : Table (Slot α)) (k : Nat)
    {f : Slot α → Slot α} (hf : ∀ x, scanSlot (check k) (bad k) x = f x) :
    (scanTable check bad t).find k = (t.find k).map f :=
  (find_map_keyed t (fun q => scanSlot (check q) (bad q)) k).trans (congrArg (Option.map · _) (funext hf))

/-- A lower CREDENTIAL slot holds the value (R30). -/
def Store.metBelow (st : Store) (k : Nat) (v : Word32) : Prop :=
  ∃ j d, j < k ∧ st.creds.find j = some d ∧ d.holds v = true

/-- The scan of a slot depends on which values are met, not on how that is decided. -/
theorem scannedCred_congr (bad : Nat → Bool) {met met' : Word32 → Prop} [DecidablePred met] [DecidablePred met']
    (h : ∀ v, met v ↔ met' v) (k : Nat) (x : CredSlot) : scannedCred bad met k x = scannedCred bad met' k x := by
  obtain rfl : met = met' := funext fun v => propext (h v)
  congr

open Classical in
theorem find_scanned_creds {st : Store} (h : Table.sorted st.creds) (decayed : List SlotRef) {k : Nat} {x : CredSlot}
    (hx : st.creds.find k = some x) : (st.scanned decayed).creds.find k =
      some (scannedCred (fun k => decayed.contains (.credential k)) (st.metBelow k) k x) := by
  refine (find_scanCreds _ _ h k []).trans ?_
  rw [hx]
  exact congrArg some (scannedCred_congr _ (fun v => or_iff_right List.not_mem_nil) k x)

theorem find_scanned_creds_none {st : Store} (h : Table.sorted st.creds) (decayed : List SlotRef) {k : Nat}
    (hx : st.creds.find k = none) : (st.scanned decayed).creds.find k = none := by
  classical
  refine (find_scanCreds _ _ h k []).trans ?_
  rw [hx]
  rfl

/-- What the scan makes of each kind of CREDENTIAL slot (R30, R41; log 9, log 52). -/
theorem scanned_cred_cases {st : Store} (h : Table.sorted st.creds) (decayed : List SlotRef) (k : Nat) :
    let old := st.creds.find k
    let new := (st.scanned decayed).creds.find k
    (old = none → new = none) ∧ (old = some .keyless → new = some .keyless) ∧
    (∀ v, old = some (.damaged v) →
      (st.metBelow k v → new = some .keyless) ∧ (¬st.metBelow k v → new = some (.damaged v))) ∧
    (∀ v id c, old = some (.present v id c) →
      let fails := SlotRef.credential k ∈ decayed ∨ c ≠ credCheck v id
      (st.metBelow k v → new = some .keyless) ∧ (¬st.metBelow k v → fails → new = some (.damaged v)) ∧
      (¬st.metBelow k v → ¬fails → new = old)) := by
  have scan {x : CredSlot} (hx : st.creds.find k = some x) := find_scanned_creds h decayed hx
  have hfails (v : Word32) (id : Nat) (c : Word16) :
      (decayed.contains (.credential k) || c != credCheck v id) = true ↔
        SlotRef.credential k ∈ decayed ∨ c ≠ credCheck v id := by simp
  refine ⟨find_scanned_creds_none h decayed, fun ho => scan ho,
    fun v ho => ⟨fun hm => (scan ho).trans (congrArg some (if_pos hm)),
      fun hm => (scan ho).trans (congrArg some (if_neg hm))⟩,
    fun v id c ho => ⟨fun hm => (scan ho).trans (congrArg some (if_pos hm)), fun hm hf => ?_, fun hm hf => ?_⟩⟩
  · exact (scan ho).trans (congrArg some ((if_neg hm).trans (if_pos ((hfails v id c).mpr hf))))
  · exact ((scan ho).trans (congrArg some ((if_neg hm).trans (if_neg (mt (hfails v id c).mp hf))))).trans ho.symm

/-! ## The notices of the scan (R41 step 3) -/

/-- The notice of a table with newly damaged slots. -/
def damageNotes (at_ : Nat) (t : TableName) (before after : Nat) : List NoticeRecord :=
  if before < after then [⟨at_, .storeDamage t (after - before) after⟩] else []

theorem damageNotes_length (at_ : Nat) (t : TableName) (before after : Nat) :
    (damageNotes at_ t before after).length ≤ 1 := by
  unfold damageNotes
  split <;> simp

theorem putNotice_eq (n : Notice) (s : State) : putNotice n s = { s with host := (putNotice n s).host } := by
  unfold putNotice
  split <;> rfl

theorem putNotice_notices {s : State} (h : s.host.notices.length < Config.maxNotices) (n : Notice) :
    (putNotice n s).host.notices = s.host.notices ++ [⟨s.site.seconds, n⟩] := by
  rw [putNotice, if_pos h]

theorem noteDamage_eq (t : TableName) (before after : Nat) (s : State) :
    noteDamage t before after s = { s with host := (noteDamage t before after s).host } := by
  unfold noteDamage
  split
  · exact putNotice_eq _ _
  · rfl

theorem noteDamage_seconds (t : TableName) (before after : Nat) (s : State) :
    (noteDamage t before after s).site.seconds = s.site.seconds := by rw [noteDamage_eq]

theorem noteDamage_notices {s : State} (h : s.host.notices.length < Config.maxNotices) (t : TableName)
    (before after : Nat) : (noteDamage t before after s).host.notices =
      s.host.notices ++ damageNotes s.site.seconds t before after := by
  unfold noteDamage damageNotes
  split
  · exact putNotice_notices h _
  · exact (List.append_nil _).symm

/-- The scan changes the store and puts notices. -/
theorem scanStore_eq (decayed : List SlotRef) (s : State) :
    scanStore decayed s = { s with store := s.store.scanned decayed, host := (scanStore decayed s).host } := by
  unfold scanStore
  rw [noteDamage_eq, noteDamage_eq, noteDamage_eq, noteDamage_eq]

/-- The notices of the scan, of the four tables in order. -/
def scanNotes (at_ : Nat) (old new : Store) : List NoticeRecord :=
  damageNotes at_ .tenant (countDamaged old.tenants) (countDamaged new.tenants) ++
    damageNotes at_ .unit (countDamaged old.units) (countDamaged new.units) ++
    damageNotes at_ .credential (countCreds CredSlot.isDamaged old.creds) (countCreds CredSlot.isDamaged new.creds) ++
    damageNotes at_ .site (countDamaged old.site) (countDamaged new.site)

theorem scanNotes_length (at_ : Nat) (old new : Store) : (scanNotes at_ old new).length ≤ 4 := by
  have ht := damageNotes_length at_ .tenant (countDamaged old.tenants) (countDamaged new.tenants)
  have hu := damageNotes_length at_ .unit (countDamaged old.units) (countDamaged new.units)
  have hc := damageNotes_length at_ .credential (countCreds CredSlot.isDamaged old.creds)
    (countCreds CredSlot.isDamaged new.creds)
  have hs := damageNotes_length at_ .site (countDamaged old.site) (countDamaged new.site)
  simp only [scanNotes, List.length_append]
  omega

theorem scanStore_notices {s : State} (h : s.host.notices.length + 4 ≤ Config.maxNotices) (decayed : List SlotRef) :
    (scanStore decayed s).host.notices =
      s.host.notices ++ scanNotes s.site.seconds s.store (s.store.scanned decayed) := by
  have room {u : State} {n : Nat} {t : TableName} {b a : Nat} (hu : u.host.notices.length + (n + 1) ≤ Config.maxNotices) :
      (noteDamage t b a u).host.notices.length + n ≤ Config.maxNotices := by
    have := damageNotes_length u.site.seconds t b a
    rw [noteDamage_notices (by omega), List.length_append]
    omega
  have put {u : State} {n : Nat} {t : TableName} {b a : Nat} (hu : u.host.notices.length + (n + 1) ≤ Config.maxNotices) :=
    noteDamage_notices (s := u) (by omega) t b a
  have h0 : ({ s with store := s.store.scanned decayed } : State).host.notices.length + 4 ≤ Config.maxNotices := h
  unfold scanStore
  simp only [put (room (room (room h0))), put (room (room h0)), put (room h0), put h0, noteDamage_seconds, scanNotes,
    List.append_assoc]

/-! ## The nodes a segment comes up with (R148) -/

theorem find_filterMap_key {α : Type} (f : Nat → Option α) (l : List Nat) (k : Nat) :
    Table.find (l.filterMap fun n => (f n).map fun x => (n, x)) k = if k ∈ l then f k else none := by
  induction l with
  | nil => rfl
  | cons n l ih =>
    rw [List.filterMap_cons]
    cases hn : f n with
    | none =>
      by_cases hk : k = n
      · subst hk
        simp [ih, hn]
      · simp [ih, hk]
    | some x =>
      by_cases hk : k = n
      · subst hk
        simp [Table.find, hn]
      · simp [Table.find, ih, hk, Ne.symm hk]

theorem find_startNodes (st : Store) (g : Seg) (l : Liveness) (n : Nat) :
    (st.startNodes g l).find n =
      if 1 ≤ n ∧ n ≤ 62 then (st.nodeEntry g n).val.map fun e => Node.start e l else none := by
  have hf := find_filterMap_key (fun n => (st.nodeEntry g n).val.map fun e => Node.start e l)
    ((List.range 62).map (· + 1)) n
  have hm : n ∈ (List.range 62).map (· + 1) ↔ 1 ≤ n ∧ n ≤ 62 := by
    simp only [List.mem_map, List.mem_range]
    exact ⟨fun ⟨a, ha, he⟩ => by omega, fun h => ⟨n - 1, by omega, by omega⟩⟩
  simp only [Option.map_map, hm] at hf
  exact hf

/-! ## What the lines may change as they take up their functions (R185, R188) -/

/-- The parts that a line and the portal on its strike may change. -/
def Cell.takenUp (c : Cell) : Prop :=
  c ∈ [Cell.notices, .siteIn, .table, .visitsIn, .portals, .portalsIn, .unitsIn, .liftsIn, .lines, .linesIn]

/-- The strike of a portal on lines is driven by its lines, and by no command of a segment (R186). -/
theorem orderStrike_lines {p : Nat} {s : State} {q : Portal} (hq : s.portal p = some q)
    (hd : q.record.val.drive = .lines) (release urgent : Bool) :
    orderStrike p release urgent s =
      strikeLine p release (withPortal p (fun q => { q with strikeReleased := release }) s) := by
  have hp : (withPortal p (fun q => { q with strikeReleased := release }) s).portal p =
      some { q with strikeReleased := release } := by
    rw [portal_withPortal, if_pos rfl, hq]
    rfl
  unfold orderStrike
  simp only [hp, hd]

theorem orderStrike_takenUp {p : Nat} {s : State} {q : Portal} (hq : s.portal p = some q)
    (hd : q.record.val.drive = .lines) (release urgent : Bool) :
    Moves Cell.takenUp s (orderStrike p release urgent s) := by
  rw [orderStrike_lines hq hd]
  exact strikeLine_moves (withPortal_moves (Moves.refl _ s) (by simp [Cell.takenUp]) (by simp [Cell.takenUp])
    (by simp [Cell.takenUp])) (by simp [Cell.takenUp])

theorem regainDrive_takenUp {p : Nat} {s : State} {q : Portal} (hq : s.portal p = some q)
    (hd : q.record.val.drive = .lines) : Moves Cell.takenUp s (regainDrive p s) := by
  unfold regainDrive
  split
  · apply withPortal_moves (orderStrike_takenUp hq hd _ _) <;> simp [Cell.takenUp]
  · apply placeByContact_moves (orderStrike_takenUp hq hd _ _) <;> simp [Cell.takenUp]

theorem onLines_iff (q : Portal) : q.onLines = true ↔ q.record.val.present = true ∧ q.record.val.drive = .lines := by
  simp [Portal.onLines]

theorem lineAssigned_takenUp (p : Nat) (s : State) : Moves Cell.takenUp s (lineAssigned p s) := by
  unfold lineAssigned
  split
  · exact Moves.refl _ s
  · rename_i q hq
    split
    · rename_i hl
      have hp : Moves Cell.takenUp s
          (withPortal p (fun q => { q with contact := s.lineContact p, button := s.lineButton p }) s) := by
        apply withPortal_moves (Moves.refl _ s) <;> simp [Cell.takenUp]
      dsimp only
      split
      · refine hp.trans (regainDrive_takenUp (q := { q with contact := s.lineContact p, button := s.lineButton p }) ?_
          ((onLines_iff q).mp hl).2)
        rw [portal_withPortal, if_pos rfl, hq]
        rfl
      · exact hp
    · exact Moves.refl _ s

theorem takeUpLine_takenUp (n : Nat) (new : Marked LineRec) (s : State) :
    Moves Cell.takenUp s (takeUpLine n new s) := by
  have hm : Moves Cell.takenUp s
      (s.modLine n fun l => l.takeUp new s.lines.beacon s.site.params.val.debounce) :=
    modLine_moves (Moves.refl _ s) (by simp [Cell.takenUp])
  unfold takeUpLine
  dsimp only
  split
  · exact hm.trans (lineAssigned_takenUp _ _)
  · exact hm

theorem startLines_takenUp (s : State) : Moves Cell.takenUp s (startLines s) := by
  have hf : Moves Cell.takenUp s ((List.range 12).foldl (fun s n => takeUpLine n (s.store.line n) s) s) :=
    Moves.foldl (fun t n h => h.trans (takeUpLine_takenUp n _ t)) _ s (Moves.refl _ s)
  unfold startLines
  dsimp only
  generalize (List.range 12).foldl _ s = t at hf
  exact moves_lines hf (.inl (by simp [Cell.takenUp])) (.inr ⟨rfl, rfl, rfl, rfl, rfl, rfl⟩) (.inr rfl)

/-! ## The mode and the settled report (R185, R197) -/

theorem enterMode_eq (new : Mode) (ret : Option Mode) (cause : ModeCause) (s : State) :
    enterMode new ret cause s =
      { s with
        site := { s.site with mode := new }
        lines := { s.lines with reports := s.lines.reports ++ [.evacuate (new == .evacuate)] }
        host := (enterMode new ret cause s).host } := by
  unfold enterMode putNotice
  dsimp only
  split <;> rfl

theorem enterMode_notices {s : State} (h : s.host.notices.length < Config.maxNotices) (new : Mode) (ret : Option Mode)
    (cause : ModeCause) : (enterMode new ret cause s).host.notices =
      s.host.notices ++ [⟨s.site.seconds, .mode s.site.mode new ret cause⟩] :=
  putNotice_notices (s := toBeacon _ { s with site := { s.site with mode := new } }) h _

/-- The mode a start ends in (R40, R197). -/
def Store.startMode (st : Store) : Mode := if st.markerValid then .run else .setup

theorem startMode_evacuate (st : Store) : (st.startMode == .evacuate) = false := by
  unfold Store.startMode
  split <;> rfl

theorem chooseMode_eq (s : State) :
    chooseMode s =
      { s with
        site := { s.site with mode := s.store.startMode }
        lines := { s.lines with reports := s.lines.reports ++ [.evacuate false] }
        host := (chooseMode s).host } := by
  have h := enterMode_eq s.store.startMode none .start s
  rw [startMode_evacuate] at h
  exact h

/-- Some input line is unsettled (R184). -/
def State.waits (s : State) : Prop := ∃ l ∈ s.lines.list, l.record.val.func.isInput = true ∧ l.debounced = none

theorem waits_iff (s : State) : s.lines.list.any Line.unsettled = true ↔ s.waits := by
  simp [State.waits, Line.unsettled, List.any_eq_true]

theorem reportSettled_waits {s : State} (h : s.waits) : reportSettled s = s := by
  unfold reportSettled
  rw [(waits_iff s).mpr h]
  simp

theorem reportSettled_settled {s : State} (ho : s.lines.settledOwed = true) (h : ¬s.waits) :
    reportSettled s = toSiteFire (.settled s.lines.fireInput) { s with lines := { s.lines with settledOwed := false } } := by
  unfold reportSettled
  rw [ho, Bool.eq_false_iff.mpr (mt (waits_iff s).mp h)]
  rfl

/-- The settled report touches no other part. -/
theorem reportSettled_eq (s : State) :
    reportSettled s =
      { s with
        lines := { s.lines with settledOwed := (reportSettled s).lines.settledOwed }
        site := { s.site with fireReports := (reportSettled s).site.fireReports } } := by
  unfold reportSettled
  split <;> rfl

/-! ## The lines of a start, with no line settled (R184, R185, R191) -/

/-- No line is settled, and every portal waits in FAULT with its inputs UNKNOWN. -/
structure State.unheard (s : State) : Prop where
  lines : ∀ l ∈ s.lines.list, l.debounced = none
  portals : ∀ q ∈ s.portals.list, q.state = .fault ∧ q.contact = .unknown ∧ q.button = .unknown

theorem State.unheard.value {s : State} (h : s.unheard) {l : Line} (hl : l ∈ s.lines.list) : l.value = none := by
  rw [Line.value, h.lines l hl]
  rfl

theorem State.unheard.contact {s : State} (h : s.unheard) (p : Nat) : s.lineContact p = .unknown := by
  unfold State.lineContact
  split
  · rename_i l hl
    rw [h.value (List.mem_of_find?_eq_some hl)]
  · rfl

theorem State.unheard.button {s : State} (h : s.unheard) (p : Nat) : s.lineButton p = .unknown := by
  have hv : (s.lines.list.filterMap fun l => if l.record.val.func == .exitButton p then l.value else none) = [] := by
    refine List.filterMap_eq_nil_iff.mpr fun l hl => ?_
    rw [h.value hl, ite_self]
  unfold State.lineButton
  rw [hv]
  rfl

theorem withPortal_same {p : Nat} {s : State} {f : Portal → Portal} (h : ∀ q, s.portal p = some q → f q = q) :
    withPortal p f s = s := by
  have hl : s.portals.list.modify p id = s.portals.list := List.modify_id ..
  rw [withPortal_congr (k := id) h]
  unfold withPortal
  simp only [hl]
  simp

/-- An unsettled line tells its portal nothing. -/
theorem lineAssigned_unheard {s : State} (h : s.unheard) (p : Nat) : lineAssigned p s = s := by
  have hw : withPortal p (fun q => { q with contact := s.lineContact p, button := s.lineButton p }) s = s := by
    refine withPortal_same fun q hq => ?_
    obtain ⟨-, hc, hb⟩ := h.portals q (List.mem_of_getElem? hq)
    rw [h.contact, h.button, ← hc, ← hb]
  unfold lineAssigned
  split
  · rfl
  · rename_i q hq
    split
    · rename_i hl
      have hd : s.driveAvailable p = false := by
        simp [State.driveAvailable, hq, ((onLines_iff q).mp hl).2, h.contact]
      simp [hw, hd]
    · rfl

theorem unheard_modLine {s : State} (h : s.unheard) (n : Nat) {f : Line → Line} (hf : ∀ l, (f l).debounced = none) :
    (s.modLine n f).unheard := by
  refine ⟨fun l hl => ?_, h.portals⟩
  obtain ⟨i, hi⟩ := List.getElem?_of_mem hl
  simp only [State.modLine, List.getElem?_modify] at hi
  obtain ⟨x, hx, rfl⟩ := Option.map_eq_some_iff.mp hi
  split
  · exact hf x
  · exact h.lines x (List.mem_of_getElem? hx)

/-- A line that takes up its function with no line settled is all that changes. -/
theorem takeUpLine_unheard {s : State} (h : s.unheard) (n : Nat) (new : Marked LineRec) :
    takeUpLine n new s = s.modLine n fun l => l.takeUp new s.lines.beacon s.site.params.val.debounce := by
  unfold takeUpLine
  dsimp only
  split
  · exact lineAssigned_unheard (unheard_modLine h n fun _ => rfl) _
  · rfl

/-- The lines `ns` take up their settings. -/
def State.takenUp (s : State) (ns : List Nat) : List Line :=
  ns.foldl (fun ls n => ls.modify n fun l => l.takeUp (s.store.line n) s.lines.beacon s.site.params.val.debounce)
    s.lines.list

theorem foldl_takeUpLine {s : State} (h : s.unheard) (ns : List Nat) :
    ns.foldl (fun s n => takeUpLine n (s.store.line n) s) s =
      { s with lines := { s.lines with list := s.takenUp ns } } := by
  induction ns generalizing s with
  | nil => rfl
  | cons n ns ih =>
    rw [List.foldl_cons, takeUpLine_unheard h, ih (unheard_modLine h n fun _ => rfl)]
    rfl

theorem startLines_unheard {s : State} (h : s.unheard) :
    startLines s = { s with lines := { s.lines with list := s.takenUp (List.range 12), settledOwed := true } } := by
  unfold startLines
  rw [foldl_takeUpLine h]

theorem getElem?_foldl_modify {α : Type} (f : Nat → α → α) {ns : List Nat} (hn : ns.Nodup) (l : List α) (k : Nat) :
    (ns.foldl (fun l n => l.modify n (f n)) l)[k]? = if k ∈ ns then l[k]?.map (f k) else l[k]? := by
  induction ns generalizing l with
  | nil => rfl
  | cons n ns ih =>
    obtain ⟨hm, hn⟩ := List.nodup_cons.mp hn
    rw [List.foldl_cons, ih hn, List.getElem?_modify]
    by_cases hk : n = k
    · subst hk
      simp [hm]
    · simp [hk, Ne.symm hk]

/-- Each of the twelve lines takes up its own settings. -/
theorem takenUp_get {s : State} {n : Nat} (hn : n < 12) :
    (s.takenUp (List.range 12))[n]? =
      (s.line n).map fun l => l.takeUp (s.store.line n) s.lines.beacon s.site.params.val.debounce := by
  refine (getElem?_foldl_modify _ List.nodup_range _ n).trans ?_
  rw [if_pos (List.mem_range.mpr hn)]
  rfl

end Sys2Proof.Machine
end

section
/-! PROOF. The site as the scan leaves it (R8, R41, R91, R142, R148, R181, R185, R191, R197): O41. -/

namespace Sys2Proof.Machine

/-! ## The copies taken, and what the rest of the start leaves of them -/

/-- The state once the store is scanned and every block but the lines has taken its items. -/
def scanFilled (decayed : List SlotRef) (s : State) : State :=
  fillCopies (toSite .storeReady
    { s with store := s.store.scanned decayed, host := (scanStore decayed s).host })

theorem afterScan_eq (decayed : List SlotRef) (s : State) :
    afterScan decayed s = reportSettled (chooseMode
      (toBeacon (.onAlarms (startLines (scanFilled decayed s)).site.params.val.beaconOnAlarms)
        (startLines (scanFilled decayed s)))) := by
  unfold afterScan scanFilled
  rw [← scanStore_eq]

/-- The parts that the start changes after the copies are taken. -/
def Cell.afterCopies (c : Cell) : Prop := c = .mode ∨ c.takenUp

theorem afterScan_afterCopies (decayed : List SlotRef) (s : State) :
    Moves Cell.afterCopies (scanFilled decayed s) (afterScan decayed s) := by
  have hl : Moves Cell.afterCopies (scanFilled decayed s) (startLines (scanFilled decayed s)) :=
    (startLines_takenUp _).mono fun _ => .inr
  rw [afterScan_eq]
  refine reportSettled_moves (chooseMode_moves (toBeacon_moves hl ?_) ?_ ?_ ?_) ?_ ?_ <;>
    simp [Cell.afterCopies, Cell.takenUp]

theorem startLines_store (s : State) : (startLines s).store = s.store :=
  ((startLines_takenUp s).mono fun c hc => by
    refine ⟨?_, ?_, ?_, ?_⟩ <;> rintro rfl <;> simp [Cell.takenUp] at hc).store_eq

theorem chooseMode_site (s : State) : (chooseMode s).site = { s.site with mode := s.store.startMode } := by
  rw [chooseMode_eq]

theorem chooseMode_mode (s : State) : (chooseMode s).site.mode = s.store.startMode := by rw [chooseMode_site]

theorem chooseMode_portals (s : State) : (chooseMode s).portals = s.portals := by rw [chooseMode_eq]

theorem chooseMode_lines (s : State) :
    (chooseMode s).lines = { s.lines with reports := s.lines.reports ++ [.evacuate false] } := by rw [chooseMode_eq]

theorem reportSettled_host (s : State) : (reportSettled s).host = s.host := by rw [reportSettled_eq]

theorem reportSettled_portals (s : State) : (reportSettled s).portals = s.portals := by rw [reportSettled_eq]

theorem reportSettled_siteReports (s : State) : (reportSettled s).site.reports = s.site.reports := by
  rw [reportSettled_eq]

theorem reportSettled_lines (s : State) :
    (reportSettled s).lines = { s.lines with settledOwed := (reportSettled s).lines.settledOwed } :=
  congrArg State.lines (reportSettled_eq s)

theorem waits_reportSettled (s : State) : (reportSettled s).waits ↔ s.waits := by
  unfold State.waits
  rw [reportSettled_lines]

theorem scanFilled_store (decayed : List SlotRef) (s : State) :
    (scanFilled decayed s).store = s.store.scanned decayed := rfl

theorem scanFilled_seconds (decayed : List SlotRef) (s : State) :
    (scanFilled decayed s).site.seconds = s.site.seconds := rfl

theorem scanFilled_siteReports (decayed : List SlotRef) (s : State) :
    (scanFilled decayed s).site.reports = s.site.reports ++ [.storeReady] := rfl

theorem scanFilled_fireReports (decayed : List SlotRef) (s : State) :
    (scanFilled decayed s).site.fireReports = s.site.fireReports := rfl

theorem scanFilled_portals (decayed : List SlotRef) (s : State) :
    (scanFilled decayed s).portals.list =
      (List.range 8).map fun p => { Portal.blank with record := (s.store.scanned decayed).portal p } := rfl

theorem scanFilled_lines (decayed : List SlotRef) (s : State) : (scanFilled decayed s).lines = s.lines := rfl

theorem scanFilled_params (decayed : List SlotRef) (s : State) :
    (scanFilled decayed s).site.params = (s.store.scanned decayed).params := rfl

theorem reportSettled_mode (s : State) : (reportSettled s).site.mode = s.site.mode := by rw [reportSettled_eq]

theorem afterScan_mode (decayed : List SlotRef) (s : State) :
    (afterScan decayed s).site.mode = (s.store.scanned decayed).startMode := by
  rw [afterScan_eq, reportSettled_mode, chooseMode_mode, toBeacon_store, startLines_store, scanFilled_store]

theorem afterScan_segment (decayed : List SlotRef) (s : State) (g : Seg) :
    (afterScan decayed s).seg g = (s.store.scanned decayed).startSegment g := by
  have h : (afterScan decayed s).seg g = (scanFilled decayed s).seg g :=
    (afterScan_afterCopies decayed s).keep (c := .segment g) (by simp [Cell.afterCopies, Cell.takenUp])
  rw [h]
  cases g <;> rfl

theorem afterScan_cars (decayed : List SlotRef) (s : State) :
    (afterScan decayed s).lifts.cars =
      (List.range 4).map fun c => { Car.blank with record := (s.store.scanned decayed).car c } :=
  (afterScan_afterCopies decayed s).keep (c := .cars) (by simp [Cell.afterCopies, Cell.takenUp])

theorem afterScan_entries (decayed : List SlotRef) (s : State) :
    (afterScan decayed s).units.entries =
      (s.store.scanned decayed).presentUnits.map fun e => (e.1, UnitEntry.fresh e.2 0) :=
  (afterScan_afterCopies decayed s).keep (c := .entries) (by simp [Cell.afterCopies, Cell.takenUp])

/-! ## A start with no line settled -/

theorem scanFilled_unheard {s : State} (h : ∀ l ∈ s.lines.list, l.debounced = none) (decayed : List SlotRef) :
    (scanFilled decayed s).unheard := by
  refine ⟨h, fun q hq => ?_⟩
  obtain ⟨p, -, rfl⟩ := List.mem_map.mp hq
  exact ⟨rfl, rfl, rfl⟩

/-- The lines of a start in which none is settled. -/
def linesOfStart (decayed : List SlotRef) (s : State) : List Line := (scanFilled decayed s).takenUp (List.range 12)

/-- The state before the mode is chosen, with no line settled. -/
def beforeMode (decayed : List SlotRef) (s : State) : State :=
  toBeacon (.onAlarms (scanFilled decayed s).site.params.val.beaconOnAlarms)
    { scanFilled decayed s with lines :=
      { (scanFilled decayed s).lines with list := linesOfStart decayed s, settledOwed := true } }

theorem beforeMode_lines (decayed : List SlotRef) (s : State) :
    (beforeMode decayed s).lines =
      { s.lines with
        list := linesOfStart decayed s
        settledOwed := true
        reports := s.lines.reports ++ [.onAlarms (s.store.scanned decayed).params.val.beaconOnAlarms] } := by
  unfold beforeMode toBeacon
  simp only [scanFilled_params, scanFilled_lines]

theorem beforeMode_site (decayed : List SlotRef) (s : State) :
    (beforeMode decayed s).site = (scanFilled decayed s).site := rfl

theorem beforeMode_portals (decayed : List SlotRef) (s : State) :
    (beforeMode decayed s).portals = (scanFilled decayed s).portals := rfl

theorem beforeMode_host (decayed : List SlotRef) (s : State) :
    (beforeMode decayed s).host = (scanStore decayed s).host := rfl

theorem beforeMode_store (decayed : List SlotRef) (s : State) :
    (beforeMode decayed s).store = s.store.scanned decayed := rfl

theorem afterScan_unheard {s : State} (h : ∀ l ∈ s.lines.list, l.debounced = none) (decayed : List SlotRef) :
    afterScan decayed s = reportSettled (chooseMode (beforeMode decayed s)) := by
  rw [afterScan_eq, startLines_unheard (scanFilled_unheard h decayed)]
  rfl

theorem afterScan_portals {s : State} (h : ∀ l ∈ s.lines.list, l.debounced = none) (decayed : List SlotRef) :
    (afterScan decayed s).portals.list =
      (List.range 8).map fun p => { Portal.blank with record := (s.store.scanned decayed).portal p } := by
  rw [afterScan_unheard h, reportSettled_portals, chooseMode_portals, beforeMode_portals, scanFilled_portals]

theorem afterScan_lines {s : State} (h : ∀ l ∈ s.lines.list, l.debounced = none) (decayed : List SlotRef) :
    (afterScan decayed s).lines =
      { s.lines with
        list := linesOfStart decayed s
        settledOwed := (afterScan decayed s).lines.settledOwed
        reports := s.lines.reports ++
          [.onAlarms (s.store.scanned decayed).params.val.beaconOnAlarms, .evacuate false] } := by
  rw [afterScan_unheard h]
  refine (reportSettled_lines _).trans ?_
  rw [chooseMode_lines, beforeMode_lines]
  simp only [List.append_assoc, List.cons_append, List.nil_append]

theorem afterScan_list {s : State} (h : ∀ l ∈ s.lines.list, l.debounced = none) (decayed : List SlotRef) :
    (afterScan decayed s).lines.list = linesOfStart decayed s := by rw [afterScan_lines h]

theorem afterScan_line {s : State} (h : ∀ l ∈ s.lines.list, l.debounced = none) (decayed : List SlotRef) {n : Nat}
    {l : Line} (hn : n < 12) (hl : s.line n = some l) :
    (afterScan decayed s).line n = some (l.takeUp ((s.store.scanned decayed).line n) s.lines.beacon
      (s.store.scanned decayed).params.val.debounce) := by
  have hf : (scanFilled decayed s).line n = some l := hl
  rw [State.line, afterScan_list h, linesOfStart, takenUp_get hn, hf,
    scanFilled_store, scanFilled_lines, scanFilled_params, Option.map_some]

theorem afterScan_siteReports {s : State} (h : ∀ l ∈ s.lines.list, l.debounced = none) (decayed : List SlotRef) :
    (afterScan decayed s).site.reports = s.site.reports ++ [.storeReady] := by
  rw [afterScan_unheard h, reportSettled_siteReports, chooseMode_site, beforeMode_site, scanFilled_siteReports]

/-- With a line to settle, the settled report is owed (R185). -/
theorem afterScan_waits {s : State} (h : ∀ l ∈ s.lines.list, l.debounced = none) (decayed : List SlotRef)
    (hw : (afterScan decayed s).waits) : (afterScan decayed s).lines.settledOwed = true ∧
      (afterScan decayed s).site.fireReports = s.site.fireReports := by
  rw [afterScan_unheard h] at hw ⊢
  rw [reportSettled_waits ((waits_reportSettled _).mp hw), chooseMode_lines, chooseMode_site, beforeMode_lines,
    beforeMode_site, scanFilled_fireReports]
  exact ⟨rfl, rfl⟩

/-- With no line to settle, the settled report goes at once (R185). -/
theorem afterScan_settled {s : State} (h : ∀ l ∈ s.lines.list, l.debounced = none) (decayed : List SlotRef)
    (hw : ¬(afterScan decayed s).waits) : (afterScan decayed s).lines.settledOwed = false ∧
      (afterScan decayed s).site.fireReports = s.site.fireReports ++ [.settled s.lines.fireInput] := by
  rw [afterScan_unheard h] at hw ⊢
  have howed : (chooseMode (beforeMode decayed s)).lines.settledOwed = true := by
    rw [chooseMode_lines, beforeMode_lines]
  rw [reportSettled_settled howed (mt (waits_reportSettled _).mpr hw), toSiteFire, chooseMode_lines, chooseMode_site,
    beforeMode_lines, beforeMode_site, scanFilled_fireReports]
  exact ⟨rfl, rfl⟩

/-- The notices of a start: those of the scan, and the mode. -/
theorem afterScan_notices {s : State} (h : ∀ l ∈ s.lines.list, l.debounced = none)
    (room : s.host.notices.length + 5 ≤ Config.maxNotices) (decayed : List SlotRef) :
    (afterScan decayed s).host.notices =
      s.host.notices ++ scanNotes s.site.seconds s.store (s.store.scanned decayed) ++
        [⟨s.site.seconds, .mode s.site.mode (s.store.scanned decayed).startMode none .start⟩] := by
  have hn := scanStore_notices (s := s) (by omega) decayed
  have hl := scanNotes_length s.site.seconds s.store (s.store.scanned decayed)
  have hb : (beforeMode decayed s).host.notices.length < Config.maxNotices := by
    rw [beforeMode_host, hn, List.length_append]
    omega
  have hm := enterMode_notices hb (s.store.scanned decayed).startMode none .start
  rw [beforeMode_host, beforeMode_site, scanFilled_seconds, hn] at hm
  rw [afterScan_unheard h, reportSettled_host]
  exact hm

/-! ## Every clause of the scan (O41) -/

/-- Settles O41: the scanned store, the copies by the frame of the rest of the start, and with no line settled
the lines, portals, reports and notices in full. -/
theorem theScanFindsDamageAndStartsTheSite : Obligations.TheScanFindsDamageAndStartsTheSite := by
  refine fun decayed s => ⟨fun h => execScanEnd_other h decayed, fun h =>
    ⟨afterScan decayed s, execScanEnd_scanning h decayed, ?_⟩⟩
  have frame := afterScan_afterCopies decayed s
  obtain ⟨hparams, hclasses, hwindows⟩ : Cell.same .copies (scanFilled decayed s) (afterScan decayed s) :=
    frame.keep (by simp [Cell.afterCopies, Cell.takenUp])
  obtain ⟨hfire, -⟩ : Cell.same .fire (scanFilled decayed s) (afterScan decayed s) :=
    frame.keep (by simp [Cell.afterCopies, Cell.takenUp])
  rw [afterScan_store]
  refine ⟨rfl, rfl, digestsAgree_scanned _ _, fun k => find_scanTable_map tenantCheck (decayed.contains <| .tenant ·) _ k ?_,
    fun k => find_scanTable_map unitCheck (decayed.contains <| .unit ·) _ k ?_,
    fun k => find_scanTable_map siteCheck (fun k => decayed.contains (.site (k / 64) (k % 64))) _ k ?_, fun hs => scanned_cred_cases hs decayed, afterScan_mode decayed s, hfire, hparams,
    hclasses, hwindows, afterScan_entries decayed s, fun c hc => ?_, fun g => ⟨?_, fun n => ?_⟩, fun hl =>
    ⟨afterScan_portals hl decayed, fun n l hn hln => ?_, ?_, fun room => ?_⟩⟩
  · rintro (_ | _) <;> rfl
  · rintro (_ | _) <;> rfl
  · rintro (_ | _) <;> rfl
  · refine ⟨{ Car.blank with record := (s.store.scanned decayed).car c }, ?_, rfl, rfl, rfl⟩
    rw [State.car, afterScan_cars, List.getElem?_map, List.getElem?_range hc]
    rfl
  · rw [afterScan_segment]
    rfl
  · rw [State.node, afterScan_segment]
    exact find_startNodes _ g _ n
  · rw [hparams, afterScan_line hl decayed hn hln]
    refine congrArg some ?_
    unfold Line.takeUp takeUpDrive
    rw [beacon_drive_eq]
    rfl
  · refine ⟨?_, afterScan_siteReports hl decayed, afterScan_waits hl decayed, afterScan_settled hl decayed⟩
    rw [hparams]
    refine (afterScan_lines hl decayed).trans ?_
    rw [afterScan_list hl decayed, scanFilled_params]
  · refine (afterScan_notices hl room decayed).trans ?_
    unfold scanNotes
    simp only [List.append_assoc]
    rfl

end Sys2Proof.Machine
end

section
/-! PROOF. The Visit Table: closures and CLOSE_VISIT (O42), GET_VISIT (O21), the reports of other blocks (O43, O44), and
the end of an evacuation (O28). -/

namespace Sys2Proof.Machine

/-! ## Bodies that name a visit (R67, R68, R213) -/

/-- A body whose length is not that of its fields has none. -/
theorem fields_of_length_ne {ws : List Nat} {b : List Byte} (h : b.length ≠ ws.sum) : fields ws b = none := by
  induction ws generalizing b with
  | nil =>
    cases b with
    | nil => exact absurd rfl h
    | cons => rfl
  | cons w ws ih =>
    unfold fields
    split
    · rfl
    · rw [ih (by simp at h ⊢; omega), Option.map_none]

/-- The number that two bytes spell. -/
def pairNumber (x y : Byte) : Nat := 256 * x.toNat + y.toNat

theorem beNat_pair (x y : Byte) : beNat [x, y] = pairNumber x y := by
  simp [beNat, pairNumber]
  omega

theorem pairNumber_le (x y : Byte) : pairNumber x y ≤ 65535 := by
  have := x.isLt
  have := y.isLt
  unfold pairNumber
  omega

/-- Two bytes are a visit number unless they spell 0 (R43). -/
theorem parseOne_pair (x y : Byte) :
    parseOne 2 1 65535 [x, y] = if pairNumber x y = 0 then .error .badValue else .ok (pairNumber x y) := by
  have hle := pairNumber_le x y
  have hf : fields [2] [x, y] = some [pairNumber x y] := by simp [fields, beNat_pair]
  unfold parseOne
  rw [hf]
  by_cases h0 : pairNumber x y = 0
  · simp [inRange, h0]
  · rw [if_neg h0]
    exact if_pos (by simp; omega)

/-- The first tests of the two requests that name a visit (R67, R68). -/
theorem visitRequest_tests {c : Instr} {kind : Nat}
    (hc : Request.ofCommand c = some (.plain kind (fun b => verdict (parseOne 2 1 65535 b)) outsideStarting))
    {s : State} {f : Frame} (hf : s.inHand f) (hk : f.kind.toNat = kind) :
    (f.body.length ≠ 2 → exec c s = .next (s.answered f .badFormat [])) ∧
    ∀ x y, f.body = [x, y] →
      (pairNumber x y = 0 → exec c s = .next (s.answered f .badValue [])) ∧
      (pairNumber x y ≠ 0 → s.site.mode = .starting → exec c s = .next (s.answered f .wrongMode [])) := by
  obtain ⟨body, mode, -⟩ := requestsAreTestedInOrder c _ s f hc hf hk rfl fun h => nomatch h
  refine ⟨fun hl => body _ ?_, fun x y hb => ⟨fun h0 => body _ ?_, fun h0 hm => mode ?_ ?_⟩⟩
  · have hn : fields [2] f.body = none := fields_of_length_ne (by simpa using hl)
    simp [RequestRow.plain, parseOne, hn, verdict]
  · simp [RequestRow.plain, hb, parseOne_pair, h0, verdict]
  · simp [RequestRow.plain, hb, parseOne_pair, h0, verdict]
  · simp [RequestRow.plain, hm, outsideStarting]

/-- Past those tests a request that names a visit runs on its number. -/
theorem visitRequest_fits {s : State} {f : Frame} (hf : s.inHand f) {kind : Nat} {k : Nat → State → State}
    (hk : f.kind.toNat = kind) {x y : Byte} (hb : f.body = [x, y]) (h0 : pairNumber x y ≠ 0)
    (hm : s.site.mode ≠ .starting) :
    taking kind (fun b => tested (parseOne 2 1 65535 b) outsideStarting k) s = k (pairNumber x y) s :=
  taking_fits (p := parseOne 2 1 65535) hf hk (by rw [hb, parseOne_pair, if_neg h0]) (outsideStarting_eq hm)

theorem visit_eq_none {s : State} {n : Nat} (h : ∀ v ∈ s.visits.table, v.number ≠ n) : s.visit n = none :=
  List.find?_eq_none.mpr fun v hv => by simpa using h v hv

/-- Settles O21: past the shared first tests the visit of that number is there or not. -/
theorem getVisitReportsAVisit : Obligations.GetVisitReportsAVisit := by
  intro s f hf hk
  obtain ⟨format, tests⟩ := visitRequest_tests (c := .getVisit) rfl hf (congrArg _ hk)
  refine ⟨format, fun x y hb => ?_⟩
  obtain ⟨value, mode⟩ := tests x y hb
  refine ⟨value, mode, fun h0 hm hn => ?_, fun v h0 hm hv => ?_⟩ <;>
    refine congrArg _ ((visitRequest_fits hf (congrArg _ hk) hb h0 hm).trans ?_)
  · have hn : s.visit (pairNumber x y) = none := visit_eq_none hn
    simp only [hn, reply_status hf]
  · have hv : s.visit (pairNumber x y) = some v := hv
    simp only [hv, reply_ok hf]
    unfold Visit.bytes
    cases v.call <;> rfl

/-! ## Closure (R49, R50) -/

theorem tenantHolds_eq (l : List Visit) (tenant : Nat) :
    (!(l.filter fun w => w.tenant == tenant).isEmpty) = decide (∃ w ∈ l, w.tenant = tenant) := by
  rw [Bool.eq_iff_iff]
  simp

/-- The visits that a closure leaves in the table. -/
def State.visitsWithout (s : State) (v : Visit) : List Visit := s.visits.table.filter fun w => w.number != v.number

/-- A closure is one step of the blocks it tells, and then its notice (R49, R50). -/
theorem closeVisit_eq (v : Visit) (why : CloseReason) (s : State) :
    closeVisit v why s = putNotice
      (.visitClosed v.number v.tenant why v.overstayed v.openedCount (min 65535 (s.site.seconds - v.admittedAt)))
      { s with
        visits := { s.visits with table := s.visitsWithout v }
        portals := { s.portals with orders :=
          s.portals.orders ++ v.pendingAt.toList.map fun p => .drop p v.number }
        lifts := { s.lifts with withdrawals :=
          s.lifts.withdrawals ++ if v.call = none then [] else [v.number] }
        units := { s.units with orders := s.units.orders ++
          [.closure v.tenant (decide (∃ w ∈ s.visitsWithout v, w.tenant = v.tenant))] } } := by
  rw [← tenantHolds_eq]
  unfold closeVisit
  cases v.pendingAt <;> cases v.call <;>
    simp [toPortals, toLifts, toUnits, State.visitsOf, State.visitsWithout]

theorem closeVisit_serving (v : Visit) (why : CloseReason) (s : State) :
    (closeVisit v why s).host.serving = s.host.serving := by
  rw [closeVisit_eq, putNotice_host_serving]

/-- The portal where the visit may be pending (R49, R83). -/
theorem pendingAt_eq (v : Visit) :
    (v.pendingAt.toList.map fun p => PortalOrder.drop p v.number) =
      if v.stage = .admitted then [.drop v.entryPortal v.number]
      else if v.stage = .exiting then v.exitPortal.toList.map fun p => .drop p v.number
      else [] := by
  unfold Visit.pendingAt
  cases v.stage <;> rfl

/-- Settles O42: the closure by its one equation, and CLOSE_VISIT past the shared first tests. -/
theorem aClosureLeavesTheTable : Obligations.AClosureLeavesTheTable := by
  refine ⟨fun v why s => ?_, fun s f hf hk => ?_⟩
  · rw [closeVisit_eq, pendingAt_eq]
    refine ⟨putNotice_visits .., putNotice_portals .., putNotice_lifts .., putNotice_units .., fun _ room => ?_⟩
    exact putNotice_notices (by exact room) _
  · obtain ⟨format, tests⟩ := visitRequest_tests (c := .closeVisit) rfl hf (congrArg _ hk)
    refine ⟨format, fun x y hb => ?_⟩
    obtain ⟨value, mode⟩ := tests x y hb
    refine ⟨value, mode, fun h0 hm => ⟨fun hv => ?_, fun v hv => ?_⟩⟩ <;>
      refine congrArg _ ((visitRequest_fits hf (congrArg _ hk) hb h0 hm).trans ?_)
    · have hv : s.visit (pairNumber x y) = none := hv
      simp only [hv, reply_status hf]
    · have hv : s.visit (pairNumber x y) = some v := hv
      simp only [hv]
      exact reply_status (inHand_of_serving hf (closeVisit_serving ..)) _

/-! ## Portal reports (R46, R47) -/

/-- What a report does that bears on a visit ADMITTED at the portal, by `f`, or EXITING there, by `g`. -/
def State.byPending (s : State) (p n : Nat) (f g : Visit → State) : State :=
  match s.visit n with
  | none => s
  | some v =>
    if v.stage = .admitted && v.entryPortal == p then f v
    else if v.stage = .exiting && v.exitPortal == some p then g v
    else s

theorem takePassage_eq (p n : Nat) (s : State) :
    takePassage p n s = s.byPending p n
      (fun _ => s.modVisit n fun w => { w with stage := w.siteStage, lastSeen := ⟨.portal, p, s.site.seconds⟩ })
      (fun v => closeVisit v .exited s) := rfl

theorem takeNoPassage_eq (p n : Nat) (s : State) :
    takeNoPassage p n s = s.byPending p n (fun v => closeVisit v .noEntry s)
      (fun _ => s.modVisit n fun w =>
        { w with stage := w.returnStage.getD .onSite, returnStage := none, exitPortal := none }) := rfl

theorem byPending_cases {s : State} {p n : Nat} {f g : Visit → State} :
    (∀ v, s.visit n = some v → v.stage = .admitted ∧ v.entryPortal = p → s.byPending p n f g = f v) ∧
    (∀ v, s.visit n = some v → v.stage = .exiting ∧ v.exitPortal = some p → s.byPending p n f g = g v) ∧
    ((∀ v, s.visit n = some v → ¬(v.stage = .admitted ∧ v.entryPortal = p) ∧
      ¬(v.stage = .exiting ∧ v.exitPortal = some p)) → s.byPending p n f g = s) := by
  unfold State.byPending
  cases hv : s.visit n with
  | none => simp
  | some v =>
    refine ⟨?_, ?_, fun h => ?_⟩
    · rintro _ ⟨⟩ ⟨hs, hp⟩
      simp [hs, hp]
    · rintro _ ⟨⟩ ⟨hs, hp⟩
      simp [hs, hp]
    · simp [h v rfl]

theorem passageReport_head {s : State} {p n : Nat} {rest : List PortalReport}
    (h : s.visits.portalReports = .passage p n :: rest) : exec .passageReport s =
      .next (takePassage p n { s with visits := { s.visits with portalReports := rest } }) := by
  simp only [exec, execPassageReport, h]

theorem noPassageReport_head {s : State} {p n : Nat} {rest : List PortalReport}
    (h : s.visits.portalReports = .noPassage p n :: rest) : exec .noPassageReport s =
      .next (takeNoPassage p n { s with visits := { s.visits with portalReports := rest } }) := by
  simp only [exec, execNoPassageReport, h]

/-- Settles O43: both reports are one split over the visit they name. -/
theorem portalReportsMoveTheVisit : Obligations.PortalReportsMoveTheVisit := by
  intro s p n rest
  refine ⟨fun hr => ?_, fun hr => ?_⟩
  · rw [passageReport_head hr, takePassage_eq]
    obtain ⟨admitted, exiting, other⟩ := byPending_cases
    exact ⟨fun v hv h => congrArg _ (admitted v hv h), fun v hv h => congrArg _ (exiting v hv h),
      fun h => congrArg _ (other h)⟩
  · rw [noPassageReport_head hr, takeNoPassage_eq]
    obtain ⟨admitted, exiting, other⟩ := byPending_cases
    exact ⟨fun v hv h => congrArg _ (admitted v hv h), fun v hv h _ _ => congrArg _ (exiting v hv h),
      fun h => congrArg _ (other h)⟩

/-! ## Deadlines, call reports and unit openings (R48, R61, R63) -/

/-- The table of R48. -/
theorem overstay_eq (v : Visit) :
    v.overstay =
      { v with
        overstayed := true
        stage := if v.stage = .onSite then .overstay else v.stage
        returnStage := if v.stage = .exiting then some .overstay else v.returnStage } := by
  unfold Visit.overstay
  cases h : v.stage <;> simp

theorem due_iff (v : Visit) (now : Nat) :
    v.due now = true ↔ ∃ d, v.dwellDeadline = some d ∧ d ≤ now ∧ v.overstayed = false := by
  unfold Visit.due
  cases v.dwellDeadline <;> simp

theorem dwellDeadline_due {s : State} {n : Nat} {v : Visit} (hv : s.visit n = some v)
    (h : v.due s.site.seconds = true) :
    exec (.dwellDeadline n) s =
      .next (putNotice (.overstay n v.tenant v.stage v.lastSeen) (s.modVisit n Visit.overstay)) := by
  simp only [exec, execDwellDeadline, hv, h, if_true]

theorem dwellDeadline_early {s : State} {n : Nat} {v : Visit} (hv : s.visit n = some v)
    (h : ¬v.due s.site.seconds = true) : exec (.dwellDeadline n) s = .next s := by
  simp only [exec, execDwellDeadline, hv, h, if_false, Bool.false_eq_true]

/-- A call report reaches the visit of its call id while that visit has a call (R61). -/
theorem callReport_onCall {s u : State} {r : CallReport} {rest : List CallReport} {n : Nat} {g : Visit → Visit}
    (hr : s.visits.callReports = r :: rest)
    (hu : u = { s with visits := { s.visits with callReports := rest } }) (hg : takeCallReport u r = onCall n g u) :
    (∀ v, s.visit n = some v → v.call ≠ none → exec .callReport s = .next (u.modVisit n g)) ∧
    ((∀ v, s.visit n = some v → v.call = none) → exec .callReport s = .next u) := by
  have he : exec .callReport s = .next (onCall n g u) := by
    rw [← hg, hu]
    simp only [exec, execCallReport, hr]
  have hs : u.visit n = s.visit n := by rw [hu]; rfl
  rw [he]
  unfold onCall
  rw [hs]
  refine ⟨fun v hv hc => ?_, fun h => ?_⟩
  · simp [hv, Option.isSome_iff_ne_none.mpr hc]
  · cases hv : s.visit n with
    | none => rfl
    | some v => simp [h v hv]

/-- An opening joins a list of fewer than 8 once, and counts to 255 (R63). -/
theorem credit_eq (v : Visit) (unit now : Nat) :
    v.credit unit now =
      { v with
        unitsOpened := if unit ∉ v.unitsOpened ∧ v.unitsOpened.length < 8 then v.unitsOpened ++ [unit]
          else v.unitsOpened
        openedCount := min 255 (v.openedCount + 1)
        lastSeen := ⟨.unit, unit, now⟩ } := by
  unfold Visit.credit satAdd
  by_cases h : unit ∉ v.unitsOpened ∧ v.unitsOpened.length < 8
  · simp [h]
  · rw [if_neg h, if_pos]
    simpa [Classical.or_iff_not_imp_left] using h

/-- Settles O44: each message by the visit it reaches, if any. -/
theorem reportsAndDeadlinesMarkTheVisit : Obligations.ReportsAndDeadlinesMarkTheVisit := by
  refine fun s => ⟨fun n v hv => ⟨fun d hd hle ho => ?_, fun h => dwellDeadline_early hv ?_⟩, fun r rest hr => ?_,
    fun unit id rest hr => ⟨fun older v hid => ?_, fun hid => ?_⟩, fun rest hr => ?_⟩
  · rw [dwellDeadline_due hv ((due_iff v _).mpr ⟨d, hd, hle, ho⟩)]
    simp only [funext overstay_eq]
  · rw [due_iff]
    rintro ⟨d, hd, hle, ho⟩
    rcases h d hd with h | h
    · omega
    · simp [ho] at h
  · cases r <;> exact callReport_onCall hr rfl rfl
  · have hid : State.visitsOf { s with visits := { s.visits with openedReports := rest } } id = older ++ [v] := hid
    simp only [exec, execUnitOpenedReport, hr, hid, List.getLast?_concat, credit_eq]
  · have hid : State.visitsOf { s with visits := { s.visits with openedReports := rest } } id = [] := hid
    simp only [exec, execUnitOpenedReport, hr, hid, List.getLast?_nil]
  · simp only [exec, execEvacuationBeginVisits, hr]
    rfl

/-! ## The end of an evacuation (R65, R203) -/

theorem evacuateEnd_inHand {s : State} {f : Frame} (hf : s.inHand f) (hk : f.kind = 0x07) (hb : f.body = [])
    (hm : s.site.mode = .evacuate) :
    exec .evacuateEnd s = .next
      (if s.lines.fireInput = true then s.answered f .fireActive [] else (toVisitsEvac .end_ s).kept f) := by
  refine congrArg _ ((taking_fits hf (congrArg _ hk) (x := ()) (by rw [hb]; rfl) (by rw [hm]; rfl)).trans ?_)
  rw [reply_status hf, working_inHand (s := toVisitsEvac .end_ s) hf]

/-- Closing every visit of the table empties it (R65). -/
theorem closeVisits_all (why : CloseReason) (s : State) :
    (closeVisits s.visits.table why s).visits.table = [] := by
  refine List.eq_nil_iff_forall_not_mem.mpr fun w hw => ?_
  obtain ⟨hmem, hne⟩ := closeVisits_mem _ hw
  exact hne w hmem rfl

/-- The return mode, the evacuation orders to end, and the reply that the request waited for (R203 steps 2 to 4). -/
theorem endEvacuation_eq {s : State} {f : Frame} {r : Mode} (hr : s.site.returnMode = some r)
    (hs : s.host.serving = some ⟨f, .working⟩) :
    endEvacuation s = (enterMode r (some r) .evacuateEnd
      { toLiftOrders .evacEnd (toPortalEvac .end_ s) with site :=
        { s.site with returnMode := none, evacCause := none } }).answered f .ok [] := by
  unfold endEvacuation
  rw [hr]
  dsimp only [Option.getD_some]
  refine reply_working ?_ .ok []
  exact (enterMode_serving ..).trans hs

/-- The answer of the Visit Engine, taken in EVACUATE (R203 steps 2 to 5). -/
theorem evacuationClosuresDone_answered {s : State} (hc : s.site.closuresAnswer = true)
    (hm : s.site.mode = .evacuate) :
    let t := endEvacuation { s with site := { s.site with closuresAnswer := false } }
    exec .evacuationClosuresDone s = .next (if t.lines.fireInput = true then beginEvacuation .fire t else t) :=
  congrArg _ (if_pos (by simp [hc, hm]))

theorem enterMode_fireInput (new : Mode) (ret : Option Mode) (cause : ModeCause) (s : State) :
    (enterMode new ret cause s).lines.fireInput = s.lines.fireInput := by
  simp [enterMode]

/-- Settles O28: closures empty the table, and the end of the evacuation leaves the fire input as it stands. -/
theorem anEvacuationEnds : Obligations.AnEvacuationEnds := by
  refine ⟨fun s f hf hk hb hm => ⟨fun hfire => ?_, fun hfire => ?_⟩, fun s rest hr => ⟨?_, closeVisits_all _ _⟩,
    fun s f r hc hm hr hs => ?_⟩
  · rw [evacuateEnd_inHand hf hk hb hm, if_pos hfire]
  · rw [evacuateEnd_inHand hf hk hb hm, if_neg (by simp [hfire])]
  · simp only [exec, execEvacuationEndVisits, hr]
    rfl
  · have he := endEvacuation_eq (s := { s with site := { s.site with closuresAnswer := false } }) hr hs
    refine (evacuationClosuresDone_answered hc hm).trans ?_
    dsimp only at he ⊢
    rw [he, answered_lines, enterMode_fireInput]
    rfl

end Sys2Proof.Machine
end

section
/-! PROOF. How a decision ends, the number of a new visit, the grant, and ADMIT (O46). -/

namespace Sys2Proof.Machine

/-! ## The number of a new visit (R45) -/

/-- The number `j` places after the counter `c`, 1 following 65535. -/
def visitOffer (c j : Nat) : Nat := (c - 1 + j) % 65535 + 1

theorem visitOffer_zero {c : Nat} (hc : 1 ≤ c ∧ c ≤ 65535) : visitOffer c 0 = c := by
  unfold visitOffer
  omega

theorem visitOffer_next {c : Nat} (hc : 1 ≤ c ∧ c ≤ 65535) (j : Nat) :
    visitOffer (nextVisitNumber c) j = visitOffer c (j + 1) := by
  unfold visitOffer nextVisitNumber
  split <;> omega

theorem visitOffer_inj {c i j : Nat} (hi : i < 65535) (hj : j < 65535) (h : visitOffer c i = visitOffer c j) :
    i = j := by
  unfold visitOffer at h
  omega

/-- The number taken is an offer all of whose predecessors are held. -/
theorem freeNumber_offer (table : List Visit) (m : Nat) {c : Nat} (hc : 1 ≤ c ∧ c ≤ 65535) :
    ∃ k ≤ m, freeNumber table m c = visitOffer c k ∧ ∀ j < k, ∃ v ∈ table, v.number = visitOffer c j := by
  induction m generalizing c with
  | zero => exact ⟨0, Nat.le_refl _, (visitOffer_zero hc).symm, fun _ h => nomatch h⟩
  | succ m ih =>
    unfold freeNumber
    split
    · rename_i held
      obtain ⟨k, hk, he, hlt⟩ := ih (nextVisitNumber_range hc)
      refine ⟨k + 1, by omega, he.trans (visitOffer_next hc k), fun j hj => ?_⟩
      cases j with
      | zero => simpa [visitOffer_zero hc] using held
      | succ j => simpa [visitOffer_next hc] using hlt j (by omega)
    · exact ⟨0, Nat.zero_le _, (visitOffer_zero hc).symm, fun _ h => nomatch h⟩

/-- A table cannot hold more offers than it has visits. -/
theorem heldOffers_le {table : List Visit} {c k : Nat} (hk : k ≤ 65535)
    (h : ∀ j < k, ∃ v ∈ table, v.number = visitOffer c j) : k ≤ table.length := by
  have hn : ((List.range k).map (visitOffer c)).Nodup := by
    refine List.pairwise_map.mpr (List.Pairwise.imp_of_mem (fun hi hj hne he => ?_) List.nodup_range)
    have hi := List.mem_range.mp hi
    have hj := List.mem_range.mp hj
    exact hne (visitOffer_inj (by omega) (by omega) he)
  have hl := nodup_length_le hn (b := table.map Visit.number) fun m hm => by
    obtain ⟨j, hj, rfl⟩ := List.mem_map.mp hm
    exact List.mem_map.mpr (h j (List.mem_range.mp hj))
  simpa using hl

/-- The number of a new visit is the first offer that no visit holds, one of 97 (R45). -/
theorem freeNumber_first {table : List Visit} {c : Nat} (hl : table.length ≤ 96) (h1 : 1 ≤ c) (h2 : c ≤ 65535) :
    (∀ v ∈ table, v.number ≠ freeNumber table 97 c) ∧ ∃ k, k ≤ 96 ∧ freeNumber table 97 c = visitOffer c k ∧
      ∀ j, j < k → ∃ v ∈ table, v.number = visitOffer c j := by
  obtain ⟨k, hk, he, held⟩ := freeNumber_offer table 97 ⟨h1, h2⟩
  have := heldOffers_le (by omega) held
  exact ⟨freeNumber_fresh hl ⟨h1, h2⟩, k, by omega, he, held⟩

theorem nextVisitNumber_eq (n : Nat) : nextVisitNumber n = if n < 65535 then n + 1 else 1 := by
  unfold nextVisitNumber
  split <;> split <;> omega

/-! ## What the end of a decision leaves alone (R51, R55, R173) -/

/-- What the answers and the release of a decision move, beside the decision itself. -/
def Cell.answering (c : Cell) : Prop :=
  c = .serving ∨ c = .replies ∨ c = .notices ∨ c = .siteIn ∨ c = .router ∨ ∃ g, c = .segment g

/-- The Visit Engine, the Portal Controller and the Unit Door Controller are as they were. -/
structure SameDoors (s t : State) : Prop where
  visits : t.visits = s.visits
  portals : t.portals = s.portals
  units : t.units = s.units

theorem sameDoors_of_moves {s t : State} (h : Moves Cell.answering s t) : SameDoors s t := by
  have ht : Cell.same .table s t := h.keep (by simp [Cell.answering])
  have hc : Cell.same .counter s t := h.keep (by simp [Cell.answering])
  have hd : Cell.same .decision s t := h.keep (by simp [Cell.answering])
  have hv : Cell.same .visitsIn s t := h.keep (by simp [Cell.answering])
  have hp : Cell.same .portals s t := h.keep (by simp [Cell.answering])
  have hi : Cell.same .portalsIn s t := h.keep (by simp [Cell.answering])
  have he : Cell.same .entries s t := h.keep (by simp [Cell.answering])
  have hr : Cell.same .presence s t := h.keep (by simp [Cell.answering])
  have hu : Cell.same .unitsIn s t := h.keep (by simp [Cell.answering])
  simp only [Cell.same] at *
  refine ⟨?_, ?_, ?_⟩
  · cases hx : t.visits
    cases hy : s.visits
    simp_all
  · cases hx : t.portals
    cases hy : s.portals
    simp_all
  · cases hx : t.units
    cases hy : s.units
    simp_all

/-- The decision in progress ends, and no visit or order changes with it. -/
structure EndsDecision (s t : State) : Prop where
  visits : t.visits = { s.visits with decision := none }
  portals : t.portals = s.portals
  units : t.units = s.units

theorem SameDoors.ends {s t u : State} (h : SameDoors s t) (k : EndsDecision t u) : EndsDecision s u :=
  ⟨k.visits.trans (by rw [h.visits]), k.portals.trans h.portals, k.units.trans h.units⟩

theorem endDecision_ends (p : Presentation) (s : State) : EndsDecision s (endDecision p s) := by
  unfold endDecision
  split
  · have h : SameDoors (clearDecision s) (releaseRouter (clearDecision s)) :=
      sameDoors_of_moves (releaseRouter_moves (Moves.refl _ _) (by simp [Cell.answering]) (by simp [Cell.answering]))
    exact ⟨h.visits, h.portals, h.units⟩
  · exact ⟨rfl, rfl, rfl⟩

theorem showReader_doors (p : Presentation) (o : Show) (s : State) : SameDoors s (showReader p o s) :=
  sameDoors_of_moves (showReader_moves (Moves.refl _ _) (by simp [Cell.answering]) (by simp [Cell.answering]))

theorem endAdmission_ends (p : Presentation) (refusal : Option Reason) (tenant visit : Option Nat) (s : State) :
    EndsDecision s (endAdmission p refusal tenant visit s) := by
  unfold endAdmission
  refine SameDoors.ends (sameDoors_of_moves ?_) (endDecision_ends p _)
  have hn := putNotice_moves (n := .admission p.value p.asked.place (p.source == .host) refusal tenant visit)
    (Moves.refl Cell.answering s) (by simp [Cell.answering])
  split
  · exact reply_moves hn (by simp [Cell.answering]) (by simp [Cell.answering])
  · exact hn

theorem place_admission {p : Presentation} {gate : Nat} (hp : p.asked = .admission gate) : p.asked.place = gate := by
  rw [hp]
  rfl

/-! ## How an admission ends, by its source (R55, R69, R172) -/

theorem endAdmission_reader {p : Presentation} {g : Seg} {n : Nat} (hp : p.source = .reader g n)
    (refusal : Option Reason) (tenant visit : Option Nat) (s : State) :
    endAdmission p refusal tenant visit s = releaseRouter (clearDecision
      (putNotice (.admission p.value p.asked.place false refusal tenant visit) s)) := by
  have hh : (Source.reader g n == Source.host) = false := rfl
  simp only [endAdmission, endDecision, hp, hh, Bool.false_eq_true, if_false]

theorem endAdmission_host {p : Presentation} (hp : p.source = .host) {f : Frame} {s : State}
    (hs : s.host.serving = some ⟨f, .working⟩) (refusal : Option Reason) (tenant visit : Option Nat) :
    endAdmission p refusal tenant visit s = clearDecision
      ((putNotice (.admission p.value p.asked.place true refusal tenant visit) s).answered f .ok
        (admitBody refusal visit tenant)) := by
  simp only [endAdmission, endDecision, hp, beq_self_eq_true, if_true]
  rw [reply_working ((putNotice_host_serving _ s).trans hs), if_pos rfl]

theorem showReader_reader {p : Presentation} {g : Seg} {n : Nat} (hp : p.source = .reader g n) (o : Show) (s : State) :
    showReader p o s = submit g n (.show o) .normal .show s := by
  simp only [showReader, hp]

theorem showReader_host {p : Presentation} (hp : p.source = .host) (o : Show) (s : State) : showReader p o s = s := by
  simp only [showReader, hp]

theorem refuseAdmission_ends (p : Presentation) (why : Reason) (tenant : Option Nat) (s : State) :
    EndsDecision s (refuseAdmission p why tenant s) :=
  (showReader_doors p _ s).ends (endAdmission_ends ..)

/-! ## The grant (R54) -/

/-- The visit of a grant and the orders that go with it, before the answer (R54 steps 1 to 3). -/
def State.withGrant (s : State) (value : Word32) (gate id : Nat) (c : AccessClass) : State :=
  let n := freeNumber s.visits.table 97 s.visits.counter
  let isFree := s.portalState gate = .free
  { s with
    visits := { s.visits with
      table := s.visits.table ++
        [{ number := n, tenant := id, value := value, entryPortal := gate, admittedAt := s.site.seconds
           stage := if isFree then .onSite else .admitted
           dwellDeadline := if c.dwellLimit = 0 then none else some (s.site.seconds + 60 * c.dwellLimit)
           overstayed := false, returnStage := none, exitPortal := none, call := none, unitsOpened := []
           openedCount := 0, lastSeen := ⟨.portal, gate, s.site.seconds⟩ }]
      counter := if n < 65535 then n + 1 else 1 }
    units := { s.units with orders := s.units.orders ++ [.disarm id] }
    portals := { s.portals with
      orders := s.portals.orders ++ if isFree then [] else [.open_ gate (some n)] } }

theorem grantAdmission_eq {p : Presentation} {gate : Nat} (hp : p.asked = .admission gate) (id : Nat) (c : AccessClass)
    (s : State) : grantAdmission p id c s =
      endAdmission p none (some id) (some (freeNumber s.visits.table 97 s.visits.counter))
        (showReader p .granted (s.withGrant p.value gate id c)) := by
  unfold grantAdmission State.withGrant
  rw [place_admission hp]
  by_cases hf : s.portalState gate = .free <;>
    simp [hf, newVisit, nextVisitNumber_eq, toUnits, toPortals]

theorem grantAdmission_ends {p : Presentation} {gate : Nat} (hp : p.asked = .admission gate) (id : Nat)
    (c : AccessClass) (s : State) : EndsDecision (s.withGrant p.value gate id c) (grantAdmission p id c s) := by
  rw [grantAdmission_eq hp]
  exact (showReader_doors p _ _).ends (endAdmission_ends ..)

/-! ## ADMIT (R69) -/

theorem append_toNat {m : Nat} (x : BitVec m) (y : Byte) : (x ++ y).toNat = x.toNat * 256 + y.toNat := by
  rw [BitVec.toNat_append, ← Nat.shiftLeft_add_eq_or_of_lt y.isLt, Nat.shiftLeft_eq]

theorem fields_portalAndValue (q a b c d : Byte) :
    fields [1, 4] [q, a, b, c, d] = some [q.toNat, (a ++ b ++ c ++ d).toNat] := by
  simp [fields, beNat, append_toNat]

theorem parseAdmit_bytes (q a b c d : Byte) :
    parseAdmit [q, a, b, c, d] = if q.toNat ≤ 7 then .ok (q.toNat, a ++ b ++ c ++ d) else .error .badValue := by
  unfold parseAdmit
  rw [fields_portalAndValue]
  simp [inRange]

/-- The first tests of ADMIT. -/
theorem hostAdmit_tests {s : State} {f : Frame} (hf : s.inHand f) (hk : f.kind = 0x33) :
    (f.body.length ≠ 5 → exec .hostAdmit s = .next (s.answered f .badFormat [])) ∧
    ∀ q a b c d, f.body = [q, a, b, c, d] →
      (7 < q.toNat → exec .hostAdmit s = .next (s.answered f .badValue [])) ∧
      (q.toNat ≤ 7 → s.site.mode = .starting → exec .hostAdmit s = .next (s.answered f .wrongMode [])) := by
  obtain ⟨body, mode, -⟩ := requestsAreTestedInOrder .hostAdmit _ s f rfl hf (congrArg _ hk) rfl fun h => nomatch h
  refine ⟨fun hl => body _ ?_, fun q a b c d hb => ⟨fun hq => body _ ?_, fun hq hm => mode ?_ ?_⟩⟩
  · have hn : fields [1, 4] f.body = none := fields_of_length_ne (by simpa using hl)
    simp [RequestRow.plain, parseAdmit, hn, verdict]
  · simp [RequestRow.plain, hb, parseAdmit_bytes, Nat.not_le.mpr hq, verdict]
  · simp [RequestRow.plain, hb, parseAdmit_bytes, hq, verdict]
  · simp [RequestRow.plain, hm, outsideStarting]

/-- Past those tests ADMIT waits for the Visit Engine at a portal that is present (R51, R69). -/
theorem hostAdmit_fits {s : State} {f : Frame} (hf : s.inHand f) (hk : f.kind = 0x33) {q a b c d : Byte}
    (hb : f.body = [q, a, b, c, d]) (hq : q.toNat ≤ 7) (hm : s.site.mode ≠ .starting) {gate : Portal}
    (hg : s.portal q.toNat = some gate) : exec .hostAdmit s = .next
      (if gate.record.val.present = true then
        { s.kept f with visits := { s.visits with waiting := s.visits.waiting ++
          [⟨.admission q.toNat, .host, a ++ b ++ c ++ d⟩] } }
      else s.answered f .notFound []) := by
  have hp : parseAdmit f.body = .ok (q.toNat, a ++ b ++ c ++ d) := by rw [hb, parseAdmit_bytes, if_pos hq]
  refine congrArg _ ((taking_fits (p := parseAdmit) hf (congrArg _ hk) hp (outsideStarting_eq hm)).trans ?_)
  simp only [hg, Option.map_some, Option.some.injEq, working_inHand hf, reply_status hf]
  rfl

theorem releaseRouter_hand {s : State} {h : Hand} (hh : s.router.hand = some h) :
    releaseRouter s =
      { (if h.inRing = true then s.modSeg h.seg fun x => { x with ring := x.ring.drop 1 } else s) with
        router := ⟨nextSeg h.seg, none⟩ } := by
  simp only [releaseRouter, hh]

/-- Settles O46: both outcomes end by the source of the presentation, the grant from `State.withGrant`. -/
theorem admissionsEndWithANoticeAndAnAnswer : Obligations.AdmissionsEndWithANoticeAndAnAnswer := by
  refine ⟨fun s p why tenant gate hp => ⟨(refuseAdmission_ends p why tenant s).visits, fun g n hs => ?_,
      fun f hs hf => ?_⟩,
    fun s p gate id c hp => ⟨fun g m hs => ?_, fun f hs hf => ?_⟩,
    fun s => ⟨rfl, fun hh => ?_, fun h hh => ⟨fun hr => ?_, fun hr => ?_⟩⟩,
    fun s f hf hk => ?_, fun table c hl h1 h2 => freeNumber_first hl h1 h2⟩
  · rw [refuseAdmission, showReader_reader hs, endAdmission_reader hs, place_admission hp]
  · rw [refuseAdmission, showReader_host hs, endAdmission_host hs hf, place_admission hp]
    rfl
  · rw [grantAdmission_eq hp, showReader_reader hs, endAdmission_reader hs, place_admission hp]
    rfl
  · have hf : (s.withGrant p.value gate id c).host.serving = some ⟨f, .working⟩ := hf
    rw [grantAdmission_eq hp, showReader_host hs, endAdmission_host hs hf, place_admission hp]
    rfl
  · simp only [releaseRouter, hh]
  · rw [releaseRouter_hand hh, if_pos hr]
  · rw [releaseRouter_hand hh, if_neg (by simp [hr])]
  · obtain ⟨format, tests⟩ := hostAdmit_tests hf hk
    refine ⟨format, fun q a b c d hb => ?_⟩
    obtain ⟨value, mode⟩ := tests q a b c d hb
    refine ⟨value, mode, fun hq hm gate hg => ?_⟩
    rw [hostAdmit_fits hf hk hb hq hm hg]
    exact ⟨fun h => congrArg _ (if_neg (by simp [h])), fun h => congrArg _ (if_pos h)⟩

end Sys2Proof.Machine
end

section
/-! PROOF. The admission decision and its lookup result (O45). -/

namespace Sys2Proof.Machine

/-! ## Checks 1 and 2 (R52) -/

@[simp] theorem takeWaiting_portals (p : Presentation) (rest : List Presentation) (s : State) :
    (takeWaiting p rest s).portals = s.portals := by
  unfold takeWaiting
  split <;> rfl

/-- A portal that is neither SECURE, FREE nor in FAULT (R52, R56). -/
def PortalState.inUse (q : PortalState) : Prop := q = .opening ∨ q = .passage ∨ q = .heldOpen ∨ q = .forced

/-- The checks read the mode and the portal alone. -/
theorem admissionBar_congr {s t : State} (hm : t.site.mode = s.site.mode) (hp : t.portals = s.portals) (gate : Nat) :
    t.admissionBar gate = s.admissionBar gate := by
  unfold State.admissionBar State.portalState State.portal
  rw [hm, hp]

/-- The refusals of checks 1 and 2, in their order. -/
theorem admissionBar_refusals {s : State} {gate : Nat} {ends : Reason → Prop}
    (h : ∀ why, s.admissionBar gate = some why → ends why) :
    (s.site.mode = .evacuate → ends .evacuation) ∧
    (s.site.mode ≠ .evacuate → s.site.mode ≠ .run → ends .held) ∧
    (s.site.mode = .run → s.portalState gate = .fault → ends .portalFault) ∧
    (s.site.mode = .run → (s.portalState gate).inUse → ends .portalBusy) := by
  unfold State.admissionBar at h
  refine ⟨fun hm => h _ ?_, fun he hr => h _ ?_, fun hm hq => h _ ?_, fun hm hq => h _ ?_⟩
  · rw [hm]
  · cases hm : s.site.mode <;> simp_all
  · rw [hm, hq]
  · rcases hq with hq | hq | hq | hq <;> rw [hm, hq]

theorem admissionBar_passes {s : State} {gate : Nat} (hm : s.site.mode = .run)
    (hq : s.portalState gate = .secure ∨ s.portalState gate = .free) : s.admissionBar gate = none := by
  unfold State.admissionBar
  rcases hq with hq | hq <;> rw [hm, hq]

/-! ## The window, the class and the status (R53 checks 4 to 6) -/

/-- The window a tenant is admitted in (R10). -/
def State.tenantWindow (s : State) (t : Tenant) : WindowResult :=
  s.window (if t.status = .current then (s.cls t.cls).val.window else (s.cls t.cls).val.restrictedWindow)

theorem tenantBar_damaged {s : State} {t : Tenant} (h : (s.cls t.cls).damaged = true) :
    s.tenantBar t = some .recordDamaged := if_pos h

theorem tenantBar_barred {s : State} {t : Tenant} (h : (s.cls t.cls).damaged = false) (hs : t.status = .barred) :
    s.tenantBar t = some .barred := by
  simp [State.tenantBar, h, hs]

theorem tenantBar_window {s : State} {t : Tenant} (h : (s.cls t.cls).damaged = false) (hs : t.status ≠ .barred) :
    s.tenantBar t = (s.tenantWindow t).bar := by
  cases hc : t.status <;> simp_all [State.tenantBar, State.tenantWindow]

/-! ## Passback and room (R53 checks 7 and 8) -/

theorem conflicts_eq (s : State) (value : Word32) (id : Nat) (shared : Bool) :
    s.conflicts value id shared =
      s.visits.table.filter fun v => v.value = value ∨ (shared = false ∧ v.tenant = id) := by
  unfold State.conflicts
  refine List.filter_congr fun v _ => ?_
  rw [Bool.eq_iff_iff]
  simp

/-- A lenient passback closes the visits in order, and then takes the unit orders (log 5, log 49). -/
theorem supersede_eq (vs : List Visit) (s : State) :
    supersede vs s =
      if vs = [] then s else deliverUnitOrders (vs.foldl (fun t v => closeVisit v .superseded t) s) := by
  unfold supersede closeVisits
  simp only [List.isEmpty_iff]

theorem admitTenant_strict {p : Presentation} {id : Nat} {t : Tenant} {s : State} {vs : List Visit}
    (hc : s.conflicts p.value id t.shared = vs) (hv : vs ≠ []) (hp : (s.cls t.cls).val.passback = .strict) :
    admitTenant p id t s = refuseAdmission p .passback (some id) s := by
  simp [admitTenant, hc, hv, hp]

/-- Past the passback the limits are those of the state after the closures. -/
theorem admitTenant_room {p : Presentation} {id : Nat} {t : Tenant} {s : State} {vs : List Visit}
    (hc : s.conflicts p.value id t.shared = vs) (hv : vs = [] ∨ (s.cls t.cls).val.passback = .lenient) :
    let w := if vs = [] then s else deliverUnitOrders (vs.foldl (fun t v => closeVisit v .superseded t) s)
    let full := t.shared = true ∧ 8 ≤ (w.visitsOf id).length
    (full → admitTenant p id t s = refuseAdmission p .sharedLimit (some id) w) ∧
    (¬full → 96 ≤ w.visits.table.length → admitTenant p id t s = refuseAdmission p .siteFull (some id) w) ∧
    (¬full → w.visits.table.length < 96 → admitTenant p id t s = grantAdmission p id (s.cls t.cls).val w) := by
  intro w full
  have pass : (!vs.isEmpty && (s.cls t.cls).val.passback == .strict) = false := by
    rcases hv with hv | hv <;> simp [hv]
  have he : admitTenant p id t s =
      if full then refuseAdmission p .sharedLimit (some id) w
      else if 96 ≤ w.visits.table.length then refuseAdmission p .siteFull (some id) w
      else grantAdmission p id (s.cls t.cls).val w := by
    unfold admitTenant
    simp only [hc, pass, supersede_eq, Bool.false_eq_true, if_false, Bool.and_eq_true, decide_eq_true_eq]
    rfl
  refine ⟨fun hf => ?_, fun hf hr => ?_, fun hf hr => ?_⟩
  · rw [he, if_pos hf]
  · rw [he, if_neg hf, if_pos hr]
  · rw [he, if_neg hf, if_neg (Nat.not_le.mpr hr)]

/-! ## ADMISSION_DECISION and ADMISSION_LOOKUP_RESULT -/

theorem admissionDecision_head {s : State} {p : Presentation} {rest : List Presentation} {gate : Nat}
    (hp : p.asked = .admission gate) (hd : s.visits.decision = none) (hw : s.visits.waiting = p :: rest) :
    let u := takeWaiting p rest s
    (∀ why, s.admissionBar gate = some why → exec .admissionDecision s = .next (refuseAdmission p why none u)) ∧
    (s.admissionBar gate = none →
      exec .admissionDecision s = .next (awaitLookup p .credential (.credential p.value) u)) := by
  have sort : p.asked.isAdmission = true := by rw [hp]; rfl
  have bar : (takeWaiting p rest s).admissionBar p.asked.place = s.admissionBar gate := by
    rw [place_admission hp]
    exact admissionBar_congr (by simp) (by simp) gate
  refine ⟨fun why hb => ?_, fun hb => ?_⟩ <;> refine congrArg _ ((nextPresentation_head hd hw sort).trans ?_) <;>
    simp only [bar, hb]

theorem admissionLookupResult_head {s : State} {p : Presentation} {r : LookupResult} {rest : List LookupResult}
    {gate : Nat} (hp : p.asked = .admission gate) (hd : s.visits.decision = some ⟨p, .credential⟩)
    (hr : s.store.results = r :: rest) :
    let u := s.popResult rest
    (∀ why, s.admissionBar gate = some why →
      exec .admissionLookupResult s = .next (refuseAdmission p why r.tenant u)) ∧
    (s.admissionBar gate = none →
      (r = .recordDamaged → exec .admissionLookupResult s = .next (refuseAdmission p .recordDamaged none u)) ∧
      (r = .unknownCredential → exec .admissionLookupResult s = .next (refuseAdmission p .unknownCredential none u)) ∧
      (r = .wrongMode → exec .admissionLookupResult s = .next (refuseAdmission p .held none u)) ∧
      (∀ id t, r = .found id t →
        (∀ why, s.tenantBar t = some why →
          exec .admissionLookupResult s = .next (refuseAdmission p why (some id) u)) ∧
        (s.tenantBar t = none → exec .admissionLookupResult s = .next (admitTenant p id t u)))) := by
  have sort : (p.asked.isAdmission && Awaits.credential.isCredential) = true := by rw [hp]; rfl
  have bar : (s.popResult rest).admissionBar p.asked.place = s.admissionBar gate := by
    rw [place_admission hp]
    rfl
  have tenant (t : Tenant) : (s.popResult rest).tenantBar t = s.tenantBar t := rfl
  refine ⟨fun why hb => ?_, fun hb => ⟨fun he => ?_, fun he => ?_, fun he => ?_, fun id t he =>
    ⟨fun why ht => ?_, fun ht => ?_⟩⟩⟩ <;> refine congrArg _ ((lookupResult_head hd hr sort).trans ?_)
  · simp only [bar, hb]
  · simp only [bar, hb, he]
  · simp only [bar, hb, he]
  · simp only [bar, hb, he]
  · simp only [bar, hb, he, tenant, ht]
  · simp only [bar, hb, he, tenant, ht]

theorem lookupTenant_eq (r : LookupResult) : r.tenant = match r with | .found id _ => some id | _ => none := by
  cases r <;> rfl

/-- Every unit order on its way is taken as its command takes it (log 5). -/
theorem deliverUnitOrders_eq (s : State) :
    deliverUnitOrders s = s.units.orders.foldl (fun t o => match o with
      | .disarm id => disarmTenant id t
      | .closure id left => closeTenant id left t) { s with units := { s.units with orders := [] } } := by
  have he : takeUnitOrder = fun t o => match o with
      | .disarm id => disarmTenant id t
      | .closure id left => closeTenant id left t := by
    funext t o
    cases o <;> rfl
  rw [← he]
  rfl

/-- Settles O45: the checks in order up to `admitTenant`, whose limits are those of the state after the closures. -/
theorem admissionsAreCheckedInOrder : Obligations.AdmissionsAreCheckedInOrder := by
  refine ⟨fun s p gate hp => ⟨fun rest hd hw => ?_, fun r rest hd hr => ?_⟩, fun s p gate id c hp => ?_,
    fun table c hl h1 h2 => freeNumber_first hl h1 h2, fun s => ⟨deliverUnitOrders_eq s, fun id rest h => ?_,
      fun id left rest h => ?_⟩⟩
  · obtain ⟨barred, open_⟩ := admissionDecision_head hp hd hw
    exact ⟨admissionBar_refusals barred, fun hq => open_ (admissionBar_passes hq.1 hq.2)⟩
  · obtain ⟨barred, open_⟩ := admissionLookupResult_head hp hd hr
    refine ⟨admissionBar_refusals fun why hb => (barred why hb).trans (by rw [lookupTenant_eq]), fun hq => ?_⟩
    obtain ⟨damaged, unknown, wrongMode, found⟩ := open_ (admissionBar_passes hq.1 hq.2)
    refine ⟨damaged, unknown, wrongMode, fun id t he => ?_⟩
    obtain ⟨refused, admitted⟩ := found id t he
    refine ⟨fun hc => refused _ (tenantBar_damaged hc), fun hc hs => refused _ (tenantBar_barred hc hs),
      fun hc hs => ?_⟩
    have bar := tenantBar_window hc hs
    refine ⟨fun h => refused _ (bar.trans (congrArg _ h)), fun h => refused _ (bar.trans (congrArg _ h)),
      fun h => refused _ (bar.trans (congrArg _ h)), fun h => ?_⟩
    rw [admitted (bar.trans (congrArg _ h))]
    have conf := conflicts_eq (s.popResult rest) p.value id t.shared
    refine ⟨fun hv hk => congrArg _ (admitTenant_strict conf hv hk), fun hv => ?_⟩
    obtain ⟨full, site, room⟩ := admitTenant_room conf hv
    exact ⟨fun h => congrArg _ (full h), fun h hl => congrArg _ (site h hl), fun h hl => congrArg _ (room h hl)⟩
  · obtain ⟨hvisits, hportals, hunits⟩ := grantAdmission_ends hp id c s
    exact ⟨congrArg VisitEngine.table hvisits, congrArg VisitEngine.counter hvisits,
      congrArg VisitEngine.decision hvisits, congrArg UnitDoors.orders hunits,
      congrArg PortalController.orders hportals⟩
  · simp only [exec, execDisarmOrder, h]
  · simp only [exec, execClosureOrder, h]

end Sys2Proof.Machine
end

section
/-! PROOF. The exit decision and its lookup result (O47). -/

namespace Sys2Proof.Machine

/-! ## The checks before the match (R56) -/

theorem place_exit {p : Presentation} {gate : Nat} (hp : p.asked = .exit gate) : p.asked.place = gate := by
  rw [hp]
  rfl

/-- The checks read the mode and the portal alone. -/
theorem exitBar_congr {s t : State} (hm : t.site.mode = s.site.mode) (hp : t.portals = s.portals) (gate : Nat) :
    t.exitBar gate = s.exitBar gate := by
  unfold State.exitBar State.portalState State.portal
  rw [hm, hp]

/-- What an exit shows that is not matched, in order. -/
theorem exitBar_shows {s : State} {gate : Nat} {ends : Show → Prop} (h : ∀ o, s.exitBar gate = some o → ends o) :
    (s.site.mode = .evacuate → ends .granted) ∧
    (s.site.mode ≠ .evacuate → s.portalState gate = .fault → ends (.denied .portalFault)) ∧
    (s.site.mode ≠ .evacuate → (s.portalState gate).inUse → ends .wait) := by
  unfold State.exitBar at h
  refine ⟨fun hm => h _ (if_pos hm), fun hm hq => h _ ((if_neg hm).trans ?_), fun hm hq => h _ ((if_neg hm).trans ?_)⟩
  · rw [hq]
  · rcases hq with hq | hq | hq | hq <;> rw [hq]

theorem exitBar_passes {s : State} {gate : Nat} (hm : s.site.mode ≠ .evacuate)
    (hq : s.portalState gate = .secure ∨ s.portalState gate = .free) : s.exitBar gate = none := by
  refine (if_neg hm).trans ?_
  rcases hq with hq | hq <;> rw [hq]

/-! ## EXIT_DECISION and EXIT_LOOKUP_RESULT -/

theorem exitDecision_head {s : State} {p : Presentation} {rest : List Presentation} {gate : Nat}
    (hp : p.asked = .exit gate) (hd : s.visits.decision = none) (hw : s.visits.waiting = p :: rest) :
    let u := takeWaiting p rest s
    (∀ o, s.exitBar gate = some o → exec .exitDecision s = .next (endExit p o u)) ∧
    (s.exitBar gate = none →
      (∀ v, s.visitByValue p.value = some v →
        exec .exitDecision s = .next (endExit p .granted (exitMatched p (some v) none u))) ∧
      (s.visitByValue p.value = none →
        exec .exitDecision s = .next (awaitLookup p .credential (.credential p.value) u))) := by
  have sort : p.asked.isExit = true := by rw [hp]; rfl
  have bar : (takeWaiting p rest s).exitBar p.asked.place = s.exitBar gate := by
    rw [place_exit hp]
    exact exitBar_congr (by simp) (by simp) gate
  have found : (takeWaiting p rest s).visitByValue p.value = s.visitByValue p.value := by
    simp [State.visitByValue]
  refine ⟨fun o hb => ?_, fun hb => ⟨fun v hv => ?_, fun hv => ?_⟩⟩ <;>
    refine congrArg _ ((nextPresentation_head hd hw sort).trans ?_)
  · simp only [bar, hb]
  · simp only [bar, hb, found, hv]
  · simp only [bar, hb, found, hv]

theorem exitLookupResult_head {s : State} {p : Presentation} {r : LookupResult} {rest : List LookupResult} {gate : Nat}
    (hp : p.asked = .exit gate) (hd : s.visits.decision = some ⟨p, .credential⟩) (hr : s.store.results = r :: rest) :
    let u := s.popResult rest
    (∀ o, s.exitBar gate = some o → exec .exitLookupResult s = .next (endExit p o u)) ∧
    (s.exitBar gate = none → exec .exitLookupResult s =
      .next (endExit p .granted (exitMatched p (s.visitOfResult r) r.tenant u))) := by
  have sort : (p.asked.isExit && Awaits.credential.isCredential) = true := by rw [hp]; rfl
  have bar : (s.popResult rest).exitBar p.asked.place = s.exitBar gate := by
    rw [place_exit hp]
    rfl
  have found : (s.popResult rest).visitOfResult r = s.visitOfResult r := rfl
  refine ⟨fun o hb => ?_, fun hb => ?_⟩ <;> refine congrArg _ ((lookupResult_head hd hr sort).trans ?_)
  · simp only [bar, hb]
  · simp only [bar, hb, found]

/-! ## The match (R57) -/

/-- An exit with no visit to end. -/
theorem exitMatched_without {p : Presentation} {v : Option Visit} (tenant : Option Nat) (s : State)
    (h : ∀ w, v = some w → w.stage ≠ .onSite ∧ w.stage ≠ .overstay) :
    exitMatched p v tenant s = exitWithoutVisit p tenant s := by
  cases v with
  | none => rfl
  | some w => simp [exitMatched, h w rfl]

theorem exitMatched_secure {p : Presentation} {v : Visit} {gate : Nat} (hp : p.asked = .exit gate)
    (tenant : Option Nat) {s : State} (hv : v.stage = .onSite ∨ v.stage = .overstay)
    (hq : s.portalState gate = .secure) :
    exitMatched p (some v) tenant s = toPortals (.open_ gate (some v.number))
      (s.modVisit v.number fun w => w.exiting gate s.site.seconds) := by
  simp [exitMatched, place_exit hp, hv, hq]

theorem exitMatched_free {p : Presentation} {v : Visit} {gate : Nat} (hp : p.asked = .exit gate)
    (tenant : Option Nat) {s : State} (hv : v.stage = .onSite ∨ v.stage = .overstay)
    (hq : s.portalState gate = .free) : exitMatched p (some v) tenant s = closeVisit v .exited s := by
  simp [exitMatched, place_exit hp, hv, hq]

/-- Settles O47: the checks in order up to `exitMatched`, and the match by the visit's stage and the portal. -/
theorem exitsAreMatched : Obligations.ExitsAreMatched := by
  refine ⟨fun s p gate hp => ⟨fun rest hd hw => ?_, fun r rest hd hr => ?_⟩, fun s p gate tenant hp => ?_,
    fun s p o rest => ⟨fun g n hs => ?_, fun hs => ?_⟩⟩
  · obtain ⟨barred, open_⟩ := exitDecision_head hp hd hw
    refine ⟨exitBar_shows barred, fun hq => ?_⟩
    obtain ⟨found, absent⟩ := open_ (exitBar_passes hq.1 hq.2)
    exact ⟨found, fun hv => absent (List.find?_eq_none.mpr fun v hm => by simpa using hv v hm)⟩
  · obtain ⟨barred, open_⟩ := exitLookupResult_head hp hd hr
    refine ⟨exitBar_shows barred, fun hq => ?_⟩
    have matched := open_ (exitBar_passes hq.1 hq.2)
    refine ⟨?_, ?_, ?_⟩
    · rintro (rfl | rfl) <;> exact matched
    · rintro id t rfl hs
      rwa [visitOfResult_none (by rintro _ _ ⟨⟩; exact .inl hs)] at matched
    · rintro id t rfl hs
      rwa [visitOfResult_found hs] at matched
  · have without (v : Option Visit) := exitMatched_without (p := p) (v := v) tenant s
    simp only [exitWithoutVisit, place_exit hp] at without
    refine ⟨without none (by simp), fun v h1 h2 => without (some v) (by rintro _ ⟨⟩; exact ⟨h1, h2⟩), fun v hv =>
      ⟨exitMatched_secure hp tenant hv, exitMatched_free hp tenant hv⟩⟩
  · refine ⟨?_, ?_⟩
    · rw [endExit, showReader_reader hs]
      simp only [endDecision, hs]
    · simp only [takeWaiting, hs]
  · refine ⟨?_, ?_⟩
    · rw [endExit, showReader_host hs]
      simp only [endDecision, hs]
    · simp only [takeWaiting, hs]

end Sys2Proof.Machine
end

section
/-! PROOF. What each operation of the Portal Controller makes of a portal, and what it leaves: the layer that the
statements about portals (O49, O50, O51) rewrite with. -/

namespace Sys2Proof.Machine

/-! ## A portal that is there (R73) -/

/-- A portal that has been changed. -/
theorem portal_changed {p : Nat} {s : State} {q : Portal} (hq : s.portal p = some q) (f : Portal → Portal) :
    (withPortal p f s).portal p = some (f q) := by
  rw [portal_withPortal, if_pos rfl, hq]
  rfl

/-- A portal whose strike has been ordered. -/
theorem portal_struck {p : Nat} {s : State} {q : Portal} (hq : s.portal p = some q) (release urgent : Bool) :
    (orderStrike p release urgent s).portal p = some { q with strikeReleased := release } := by
  rw [portal_orderStrike, if_pos rfl, hq]
  rfl

@[simp] theorem withPortal_seconds (p : Nat) (f : Portal → Portal) (s : State) :
    (withPortal p f s).site.seconds = s.site.seconds := (withPortal_others p f s).1

@[simp] theorem withPortal_mode (p : Nat) (f : Portal → Portal) (s : State) :
    (withPortal p f s).site.mode = s.site.mode := (withPortal_others p f s).2.1

/-! ## The strike (R75) -/

/-- The strike of a portal on a module is driven by a command to it, whose token carries the opening number. -/
theorem orderStrike_module {p : Nat} {s : State} {q : Portal} (hq : s.portal p = some q) {g : Seg} {n : Nat}
    (hd : q.record.val.drive = .module g n) (release urgent : Bool) :
    orderStrike p release urgent s = submit g n (.command (.strike release))
      (if urgent = true ∨ s.site.mode = .evacuate then .urgent else .normal) (.strike p release q.opening)
      (withPortal p (fun q => { q with strikeReleased := release }) s) := by
  unfold orderStrike
  simp only [portal_changed hq, hd, withPortal_mode, Bool.or_eq_true, beq_iff_eq]

/-! ## Openings (R76 to R79) -/

theorem openPortal_secure {p : Nat} {s : State} {q : Portal} (hq : s.portal p = some q) (h : q.state = .secure)
    (visit : Option Nat) :
    openPortal p visit s = orderStrike p true false (withPortal p (fun x =>
      { x with
        state := .opening, pending := visit, opening := x.opening + 1
        passTimer := some (s.site.seconds + x.record.val.passTime) }) s) := by
  simp only [openPortal, hq, h, if_true]

/-- Outside SECURE an open order only reports its visit without passage. -/
theorem openPortal_elsewhere {p : Nat} {s : State} {q : Portal} (hq : s.portal p = some q) (h : q.state ≠ .secure)
    (visit : Option Nat) :
    openPortal p visit s = visit.elim s fun n => toVisitsPortal (.noPassage p n) s := by
  simp only [openPortal, hq, h, if_false]
  cases visit <;> rfl

/-- An opening that ends reports its pending visit, engages the strike and leaves the portal SECURE. -/
theorem expireOpening_opening {p : Nat} {s : State} {q : Portal} (hq : s.portal p = some q) (h : q.state = .opening) :
    let t := orderStrike p false false s
    expireOpening p s = withPortal p (fun x => { x with state := .secure })
      (withPortal p (fun x => { x with pending := none, passTimer := none, holdTimer := none })
        (q.pending.elim t fun n => toVisitsPortal (.noPassage p n) t)) := by
  unfold expireOpening
  rw [endOpening_eq p _ _ (portal_struck hq false false)]
  simp only [h]
  cases q.pending <;> rfl

/-! ## The loss of a drive (R84) -/

theorem loseDrive_fault {p : Nat} {s : State} {q : Portal} (hq : s.portal p = some q) (h : q.state = .fault) :
    loseDrive p s = s := by
  simp [loseDrive, hq, h]

theorem loseDrive_module {p : Nat} {s : State} {q : Portal} (hq : s.portal p = some q) (h : q.state ≠ .fault)
    (hp : q.record.val.present = true) {g : Seg} {n : Nat} (hd : q.record.val.drive = .module g n) :
    loseDrive p s = withPortal p (fun x =>
      { x with contact := .unknown, button := .unknown, heard := false, state := .fault }) (endOpening p s) := by
  simp [loseDrive, hq, h, hp, hd]

theorem loseDrive_lines {p : Nat} {s : State} {q : Portal} (hq : s.portal p = some q) (h : q.state ≠ .fault)
    (hp : q.record.val.present = true) (hd : q.record.val.drive = .lines) :
    let e := endOpening p s
    let t := withPortal p (fun x =>
      { x with contact := e.lineContact p, button := e.lineButton p, state := .fault }) e
    loseDrive p s = if t.strikeAssigned p = true then orderStrike p false false t else t := by
  simp [loseDrive, hq, h, hp, hd]

/-! ## The portal reports on their way (R46, R47; log 5) -/

/-- The reports are taken in order, each as its own command takes it. -/
theorem deliverPortalReports_foldl {f : State → PortalReport → State}
    (hp : ∀ t p n, f t (.passage p n) = takePassage p n t)
    (hn : ∀ t p n, f t (.noPassage p n) = takeNoPassage p n t) (s : State) :
    deliverPortalReports s =
      s.visits.portalReports.foldl f { s with visits := { s.visits with portalReports := [] } } := by
  have hf : takePortalReport = f := by
    funext t r
    cases r with
    | passage p n => exact (hp t p n).symm
    | noPassage p n => exact (hn t p n).symm
  rw [← hf]
  rfl

end Sys2Proof.Machine
end

section
/-! PROOF. Open orders, dropped visits, the two timers and the summaries of a portal (O49). -/

namespace Sys2Proof.Machine

theorem openOrder_head {s : State} {p : Nat} {visit : Option Nat} {rest : List PortalOrder}
    (h : s.portals.orders = .open_ p visit :: rest) : exec .openOrder s =
      .next (openPortal p visit { s with portals := { s.portals with orders := rest } }) := by
  simp only [exec, execOpenOrder, h]

theorem dropPendingVisit_head {s : State} {p n : Nat} {rest : List PortalOrder}
    (h : s.portals.orders = .drop p n :: rest) : exec .dropPendingVisit s = .next (withPortal p
      (fun q => if q.pending = some n then { q with pending := none } else q)
      { s with portals := { s.portals with orders := rest } }) := by
  simp only [exec, execDropPendingVisit, h]

/-! ## The timers (R78, R80, R193) -/

theorem timerDue_iff (t : Option Nat) (now : Nat) : timerDue t now = true ↔ ∃ e, t = some e ∧ e ≤ now := by
  cases t <;> simp [timerDue]

theorem not_reached {t : Option Nat} {e now : Nat} (he : t = some e) (h : now < e) :
    ¬∃ d, t = some d ∧ d ≤ now := by
  rintro ⟨d, hd, hle⟩
  obtain rfl : e = d := Option.some.inj (he.symm.trans hd)
  omega

theorem not_reached_of_stopped {t : Option Nat} {now : Nat} (h : t = none) : ¬∃ d, t = some d ∧ d ≤ now := by
  simp [h]

/-- The pass timer ends an OPENING once it is due. -/
theorem passTimerExpiry_eq {p : Nat} {s : State} {q : Portal} (hq : s.portal p = some q) :
    exec (.passTimerExpiry p) s = .next
      (if q.state = .opening ∧ ∃ e, q.passTimer = some e ∧ e ≤ s.site.seconds then expireOpening p s else s) := by
  simp only [exec, execPassTimerExpiry, hq, Bool.and_eq_true, decide_eq_true_eq, timerDue_iff]

/-- The hold timer takes a PASSAGE to HELD_OPEN once it is due. -/
theorem holdTimerExpiry_eq {p : Nat} {s : State} {q : Portal} (hq : s.portal p = some q) :
    exec (.holdTimerExpiry p) s = .next
      (if q.state = .passage ∧ ∃ e, q.holdTimer = some e ∧ e ≤ s.site.seconds then
        putNotice (.portalHeldOpen p) (withPortal p (fun x => { x with state := .heldOpen, holdTimer := none }) s)
      else s) := by
  simp only [exec, execHoldTimerExpiry, hq, Bool.and_eq_true, decide_eq_true_eq, timerDue_iff]

/-! ## The summaries (R73) -/

theorem portalsBusy_eq (s : State) : s.portalsBusy = s.portals.list.any fun q =>
    q.state == .opening || q.state == .passage || q.state == .heldOpen :=
  congrArg s.portals.list.any (funext fun q => by cases q.state <;> rfl)

theorem portalsAlarmed_eq (s : State) : s.portalsAlarmed = s.portals.list.any fun q =>
    q.state == .forced || q.state == .heldOpen :=
  congrArg s.portals.list.any (funext fun q => by cases q.state <;> rfl)

theorem toSite_unless (c : Prop) [Decidable c] (r : SiteReport) (t : State) :
    (if c then t else toSite r t) =
      { t with site := if c then t.site else { t.site with reports := t.site.reports ++ [r] } } := by
  split <;> rfl

theorem toBeacon_unless (c : Prop) [Decidable c] (r : BeaconReport) (t : State) :
    (if c then t else toBeacon r t) =
      { t with lines := if c then t.lines else { t.lines with reports := t.lines.reports ++ [r] } } := by
  split <;> rfl

/-- A change of a portal tells each summary when that summary changes. -/
theorem withPortal_eq (p : Nat) (f : Portal → Portal) (s : State) :
    let t : State := { s with portals := { s.portals with list := s.portals.list.modify p f } }
    withPortal p f s =
      { t with
        site := if t.portalsBusy = s.portalsBusy then s.site
          else { s.site with reports := s.site.reports ++ [.portals t.portalsBusy] }
        lines := if t.portalsAlarmed = s.portalsAlarmed then s.lines
          else { s.lines with reports := s.lines.reports ++ [.portalAlarm t.portalsAlarmed] } } := by
  unfold withPortal
  simp only [toSite_unless, toBeacon_unless]
  rfl

/-- Settles O49: orders by the state of their portal, timers by whether they are due, summaries by `withPortal_eq`. -/
theorem openOrdersAndTimersDriveAPortal : Obligations.OpenOrdersAndTimersDriveAPortal := by
  refine ⟨fun p release urgent s q hq => ⟨fun hd => ?_, fun g n hd => orderStrike_module hq hd release urgent⟩,
    fun s p visit rest q ho hq => ?_, fun s p n rest ho => ?_, fun s p q hq => ?_, fun p f s => ?_⟩
  · simp only [orderStrike_lines hq hd, strikeLine, beq_iff_eq]
  · have hu : State.portal { s with portals := { s.portals with orders := rest } } p = some q := hq
    rw [openOrder_head ho]
    refine ⟨fun h => congrArg _ (openPortal_secure hu h visit), fun h hv => ?_, fun h n hv => ?_⟩ <;>
      exact congrArg _ ((openPortal_elsewhere hu h visit).trans (by rw [hv]; rfl))
  · rw [dropPendingVisit_head ho]
    refine congrArg _ (withPortal_congr fun q _ => ?_)
    split <;> rfl
  · rw [passTimerExpiry_eq hq, holdTimerExpiry_eq hq]
    refine ⟨fun h e he => ⟨fun hle => ?_, fun hlt => ?_⟩, fun h e he => ⟨fun hle => ?_, fun hlt => ?_⟩,
      fun h => ?_, fun h => ?_⟩
    · rw [if_pos ⟨h, e, he, hle⟩, expireOpening_opening hq h]
      cases q.pending <;> rfl
    · rw [if_neg fun k => not_reached he hlt k.2]
    · rw [if_pos ⟨h, e, he, hle⟩]
    · rw [if_neg fun k => not_reached he hlt k.2]
    · rw [if_neg fun k => h.elim (absurd k.1) fun hn => not_reached_of_stopped hn k.2]
    · rw [if_neg fun k => h.elim (absurd k.1) fun hn => not_reached_of_stopped hn k.2]
  · rw [withPortal_eq]
    simp only [portalsBusy_eq, portalsAlarmed_eq]

end Sys2Proof.Machine
end

section
/-! PROOF. Contact and button events, strike outcomes and drive loss (O50). -/

namespace Sys2Proof.Machine

/-! ## A contact (R74, R77, R80, R81) -/

/-- A level that is not new leaves the portal. -/
theorem withPortal_contact_same {p : Nat} {s : State} {q : Portal} (hq : s.portal p = some q) :
    withPortal p (fun x => { x with contact := q.contact }) s = s :=
  withPortal_same fun x hx => by
    obtain rfl : q = x := Option.some.inj (hq.symm.trans hx)
    rfl

theorem withPortal_button_same {p : Nat} {s : State} {q : Portal} (hq : s.portal p = some q) :
    withPortal p (fun x => { x with button := q.button }) s = s :=
  withPortal_same fun x hx => by
    obtain rfl : q = x := Option.some.inj (hq.symm.trans hx)
    rfl

/-- A contact that is UNKNOWN, stays as it is, or becomes UNKNOWN is no event. -/
theorem takeContact_quiet {p : Nat} {s : State} {q : Portal} (hq : s.portal p = some q) {c : Contact}
    (h : q.contact = .unknown ∨ q.contact = c ∨ c = .unknown) :
    takeContact p c s = withPortal p (fun x => { x with contact := c }) s := by
  unfold takeContact
  simp only [hq]
  rcases h with h | h | rfl
  · simp [h]
  · simp [h]
  · exact ite_self _

theorem takeContact_opens {p : Nat} {s : State} {q : Portal} (hq : s.portal p = some q) (h : q.contact = .closed) :
    takeContact p .open_ s = contactOpens p (withPortal p (fun x => { x with contact := .open_ }) s) := by
  simp [takeContact, hq, h]

theorem takeContact_closes {p : Nat} {s : State} {q : Portal} (hq : s.portal p = some q) (h : q.contact = .open_) :
    takeContact p .closed s = contactCloses p (withPortal p (fun x => { x with contact := .closed }) s) := by
  simp [takeContact, hq, h]

/-- The passage of an OPENING, which at a door engages the strike and starts the hold timer. -/
theorem contactOpens_opening {p : Nat} {s : State} {q : Portal} (hq : s.portal p = some q) (h : q.state = .opening) :
    let u := withPortal p (fun x => { x with state := .passage, pending := none, passTimer := none })
      (q.pending.elim s fun n => toVisitsPortal (.passage p n) s)
    (q.record.val.kind = .vehicle → contactOpens p s = u) ∧
    (q.record.val.kind = .door → contactOpens p s = orderStrike p false false (withPortal p (fun x =>
      { x with holdTimer := some (s.site.seconds + x.record.val.holdTime) }) u)) := by
  refine ⟨fun hk => ?_, fun hk => ?_⟩ <;> unfold contactOpens <;> simp only [hq, h, hk] <;>
    cases q.pending <;> simp only [withPortal_seconds] <;> rfl

theorem contactOpens_secure {p : Nat} {s : State} {q : Portal} (hq : s.portal p = some q) (h : q.state = .secure) :
    contactOpens p s = forcePortal p s := by
  simp only [contactOpens, hq, h]

theorem contactOpens_other {p : Nat} {s : State} {q : Portal} (hq : s.portal p = some q) (ho : q.state ≠ .opening)
    (hs : q.state ≠ .secure) : contactOpens p s = s := by
  simp only [contactOpens, hq]

/-- The end of a PASSAGE, which at a vehicle gate engages the strike. -/
theorem contactCloses_passage {p : Nat} {s : State} {q : Portal} (hq : s.portal p = some q) (h : q.state = .passage) :
    let u := withPortal p (fun x => { x with holdTimer := none, state := .secure }) s
    (q.record.val.kind = .vehicle → contactCloses p s = orderStrike p false false u) ∧
    (q.record.val.kind = .door → contactCloses p s = u) := by
  refine ⟨fun hk => ?_, fun hk => ?_⟩ <;> simp only [contactCloses, hq, h, hk]

theorem contactCloses_alarmed {p : Nat} {s : State} {q : Portal} (hq : s.portal p = some q)
    (h : q.state = .heldOpen ∨ q.state = .forced) : contactCloses p s =
      putNotice (.portalSecure p q.state) (withPortal p (fun x => { x with state := .secure }) s) := by
  rcases h with h | h <;> simp only [contactCloses, hq, h]

theorem contactCloses_other {p : Nat} {s : State} {q : Portal} (hq : s.portal p = some q) (hp : q.state ≠ .passage)
    (hh : q.state ≠ .heldOpen) (hf : q.state ≠ .forced) : contactCloses p s = s := by
  simp only [contactCloses, hq]

/-! ## A button (R74, R82) -/

theorem takeButton_press {p : Nat} {s : State} {q : Portal} (hq : s.portal p = some q) (hb : q.button = .released)
    (h : q.state = .secure) : takeButton p .pressed s =
      putNotice (.egress p) (openPortal p none (withPortal p (fun x => { x with button := .pressed }) s)) := by
  simp [takeButton, hq, hb, h]

theorem takeButton_quiet {p : Nat} {s : State} {q : Portal} (hq : s.portal p = some q) {b : Button}
    (h : q.state ≠ .secure ∨ q.button ≠ .released ∨ b ≠ .pressed) :
    takeButton p b s = withPortal p (fun x => { x with button := b }) s := by
  unfold takeButton
  simp only [hq]
  refine if_neg ?_
  simp only [Bool.and_eq_true, decide_eq_true_eq]
  rintro ⟨⟨hr, hp⟩, hs⟩
  rcases h with h | h | h
  · exact h hs
  · exact h hr
  · exact h hp

/-! ## The outcome of a STRIKE and the loss of a module (R75, R79, R84) -/

theorem strikeOutcome_head {s : State} {g : Seg} {p : Nat} {opens : Bool} {number : Byte} {o : TxOutcome}
    {rest : List FieldReport} (h : (s.seg g).toPortals = .outcome (.strike p opens number) o :: rest) :
    exec (.strikeOutcome g) s =
      .next (takeStrikeOutcome g p opens number o (s.modSeg g fun x => { x with toPortals := rest })) := by
  simp only [exec, execStrikeOutcome, h]

/-- A portal is the same in a state whose segment has been changed. -/
theorem portal_modSeg (s : State) (g : Seg) (f : Segment → Segment) (p : Nat) :
    (s.modSeg g f).portal p = s.portal p := by
  unfold State.portal
  rw [modSeg_portals]

theorem takeStrikeOutcome_absent {s : State} {p : Nat} {q : Portal} (hq : s.portal p = some q)
    (hp : q.record.val.present = false) (g : Seg) (opens : Bool) (number : Byte) (o : TxOutcome) :
    takeStrikeOutcome g p opens number o s = s := by
  simp [takeStrikeOutcome, hq, hp]

/-- A command that failed puts its notice after the end of the opening it belongs to. -/
theorem takeStrikeOutcome_failed {s : State} {p : Nat} {q : Portal} (hq : s.portal p = some q)
    (hp : q.record.val.present = true) (g : Seg) (opens : Bool) (number : Byte) {o : TxOutcome}
    (ho : o = .noAck ∨ o = .displaced ∨ o = .fieldFull) :
    takeStrikeOutcome g p opens number o s = putNotice (.portalDriveFailed p opens o)
      (if opens = true ∧ q.state = .opening ∧ q.opening = number then deliverPortalReports (expireOpening p s)
      else s) := by
  rcases ho with rfl | rfl | rfl <;> simp [takeStrikeOutcome, hq, hp, and_assoc]

/-- A command lost with its node or segment loses the drive of a portal on that segment alone. -/
theorem takeStrikeOutcome_lost {s : State} {p : Nat} {q : Portal} (hq : s.portal p = some q)
    (hp : q.record.val.present = true) (g : Seg) (opens : Bool) (number : Byte) {o : TxOutcome}
    (ho : o = .nodeLost ∨ o = .segmentIsolated) :
    (∀ n, q.record.val.drive = .module g n → takeStrikeOutcome g p opens number o s = loseDrive p s) ∧
    ((∀ n, q.record.val.drive ≠ .module g n) → takeStrikeOutcome g p opens number o s = s) := by
  refine ⟨fun n hd => ?_, fun hd => ?_⟩
  · rcases ho with rfl | rfl <;> simp [takeStrikeOutcome, hq, hp, hd]
  · cases hk : q.record.val.drive with
    | lines => rcases ho with rfl | rfl <;> simp [takeStrikeOutcome, hq, hp, hk]
    | module h n =>
      have hg : h ≠ g := fun e => hd n (e ▸ hk)
      rcases ho with rfl | rfl <;> simp [takeStrikeOutcome, hq, hp, hk, hg]

theorem takeStrikeOutcome_ignored {s : State} {p : Nat} {q : Portal} (hq : s.portal p = some q)
    (hp : q.record.val.present = true) (g : Seg) (opens : Bool) (number : Byte) {o : TxOutcome}
    (ho : o = .ok ∨ o = .cancelled ∨ o = .noAnswer) : takeStrikeOutcome g p opens number o s = s := by
  rcases ho with rfl | rfl | rfl <;> simp [takeStrikeOutcome, hq, hp]

theorem portalDriveLoss_head {s : State} {g : Seg} {n p : Nat} {rest : List FieldReport} {q : Portal}
    (h : (s.seg g).toPortals = .lost n (.portal p) :: rest) (hq : s.portal p = some q) :
    let u := s.modSeg g fun x => { x with toPortals := rest }
    exec (.portalDriveLoss g) s = .next (if q.record.val.drive = .module g n then loseDrive p u else u) := by
  simp only [exec, execPortalDriveLoss, h, portal_modSeg, hq]

/-- Settles O50: each event by the state of its portal, each outcome by its kind. -/
theorem contactsAndOutcomesMoveAPortal : Obligations.ContactsAndOutcomesMoveAPortal := by
  refine ⟨fun s p q hq => ?_, fun s g p opens number o rest q hr hq hp => ?_,
    fun s g p opens number o rest q hr hq hp => ?_, fun s g n p rest q hr hq => ?_,
    fun s g n p q hq hd => ⟨loseDrive_fault hq, fun hs hp => ?_⟩, fun s =>
    ⟨deliverPortalReports_foldl (fun _ _ _ => rfl) (fun _ _ _ => rfl) s, fun p n rest => passageReport_head,
      fun p n rest => noPassageReport_head⟩⟩
  · have hw (c : Contact) := portal_changed hq fun x => { x with contact := c }
    refine ⟨fun h c => takeContact_quiet hq (.inl h), fun hc hs => ?_, fun hc hs => ?_, fun hc hs => ?_,
      fun hc hs => ?_, takeButton_press hq, ?_, takeContact_quiet hq (.inr (.inr rfl)), fun hc ho hs => ?_,
      fun hc hp hh hf => ?_, ?_, fun b => takeButton_quiet hq⟩
    · rw [takeContact_opens hq hc]
      obtain ⟨vehicle, door⟩ := contactOpens_opening (hw .open_) hs
      dsimp only at vehicle door ⊢
      rw [withPortal_seconds] at door
      cases hk : q.record.val.kind with
      | vehicle => rw [vehicle hk]; cases q.pending <;> rfl
      | door => rw [door hk]; cases q.pending <;> rfl
    · rw [takeContact_opens hq hc, contactOpens_secure (hw .open_) hs]
      rfl
    · rw [takeContact_closes hq hc]
      obtain ⟨vehicle, door⟩ := contactCloses_passage (hw .closed) hs
      cases hk : q.record.val.kind with
      | vehicle => exact vehicle hk
      | door => exact door hk
    · rw [takeContact_closes hq hc, contactCloses_alarmed (hw .closed) hs]
    · rw [takeContact_quiet hq (.inr (.inl rfl)), withPortal_contact_same hq]
    · rw [takeContact_opens hq hc, contactOpens_other (hw .open_) ho hs]
    · rw [takeContact_closes hq hc, contactCloses_other (hw .closed) hp hh hf]
    · have hb : q.button ≠ .released ∨ q.button ≠ .pressed := by
        cases q.button <;> simp
      rw [takeButton_quiet hq (.inr hb), withPortal_button_same hq]
  · have hu := (portal_modSeg s g (fun x => { x with toPortals := rest }) p).trans hq
    rw [strikeOutcome_head hr]
    refine ⟨fun ho => ?_, fun ho => ?_, fun n ho hd => ?_, fun ho hd => ?_, fun ho => ?_⟩
    · rw [takeStrikeOutcome_ignored hu hp g opens number (.inl ho)]
    · rw [takeStrikeOutcome_failed hu hp g opens number ho]
    · rw [(takeStrikeOutcome_lost hu hp g opens number ho).1 n hd]
    · rw [(takeStrikeOutcome_lost hu hp g opens number ho).2 hd]
    · rw [takeStrikeOutcome_ignored hu hp g opens number (.inr ho)]
  · rw [strikeOutcome_head hr, takeStrikeOutcome_absent ((portal_modSeg ..).trans hq) hp]
  · rw [portalDriveLoss_head hr hq]
    exact ⟨fun hd => congrArg _ (if_pos hd), fun hd => congrArg _ (if_neg hd)⟩
  · exact (loseDrive_module hq hs hp hd).trans (congrArg _ (endOpening_eq p s q hq))

end Sys2Proof.Machine
end

section
/-! PROOF. The inputs of a portal from its lines and its module, FREE, the evacuation and SET_PORTAL (O51). -/

namespace Sys2Proof.Machine

/-! ## The inputs and the drive from the lines (R72, R185) -/

theorem strikeAssigned_iff (s : State) (p : Nat) :
    s.strikeAssigned p = true ↔ ∃ l ∈ s.lines.list, l.record.val.func = .strike p := by
  simp [State.strikeAssigned]

/-- The lines that give a portal its contact. -/
def State.contactLines (s : State) (p : Nat) : List Line :=
  s.lines.list.filter fun l => decide (l.record.val.func = .contact p)

theorem contactLines_head (s : State) (p : Nat) :
    s.lines.list.find? (fun l => l.record.val.func == .contact p) = (s.contactLines p).head? :=
  List.head?_filter.symm

theorem lineContact_none {s : State} {p : Nat} (h : s.contactLines p = []) : s.lineContact p = .unknown := by
  simp only [State.lineContact, contactLines_head, h, List.head?_nil]

/-- The first CONTACT line gives the contact, once it has settled. -/
theorem lineContact_first {s : State} {p : Nat} {l : Line} {more : List Line} (h : s.contactLines p = l :: more) :
    (l.debounced = none → s.lineContact p = .unknown) ∧
    (∀ d, l.debounced = some d → s.lineContact p = if d = l.record.val.active then .open_ else .closed) := by
  refine ⟨fun hd => ?_, fun d hd => ?_⟩ <;>
    simp only [State.lineContact, contactLines_head, h, List.head?_cons, Line.value, hd, Option.map_none, Option.map_some]
  by_cases hv : d = l.record.val.active
  · simp [hv]
  · simp [hv, beq_eq_false_iff_ne.mpr hv]

/-- The values of the settled EXIT_BUTTON lines of a portal. -/
def State.exitValues (s : State) (p : Nat) : List Bool :=
  s.lines.list.filterMap fun l => if l.record.val.func == .exitButton p then l.value else none

theorem value_eq_some_iff (l : Line) (v : Bool) :
    l.value = some v ↔ ∃ d, l.debounced = some d ∧ decide (d = l.record.val.active) = v := by
  simp only [Line.value, Option.map_eq_some_iff]
  rfl

theorem mem_exitValues_iff (s : State) (p : Nat) (v : Bool) :
    v ∈ s.exitValues p ↔ ∃ l ∈ s.lines.list, l.record.val.func = .exitButton p ∧
      ∃ d, l.debounced = some d ∧ decide (d = l.record.val.active) = v := by
  simp only [State.exitValues, List.mem_filterMap, ← value_eq_some_iff, Option.ite_none_right_eq_some, beq_iff_eq]

/-- The button is the OR of those values, UNKNOWN when there is none (log 34). -/
theorem lineButton_cases (s : State) (p : Nat) :
    (true ∈ s.exitValues p → s.lineButton p = .pressed) ∧
    (true ∉ s.exitValues p → false ∈ s.exitValues p → s.lineButton p = .released) ∧
    (true ∉ s.exitValues p → false ∉ s.exitValues p → s.lineButton p = .unknown) := by
  have hb : s.lineButton p = if (s.exitValues p).isEmpty = true then .unknown
      else if (s.exitValues p).any id = true then .pressed else .released := rfl
  have hany : (s.exitValues p).any id = true ↔ true ∈ s.exitValues p := by simp
  simp only [hb, hany]
  refine ⟨fun h => ?_, fun h hf => ?_, fun h hf => ?_⟩
  · rw [if_neg fun he => List.not_mem_nil (List.isEmpty_iff.mp he ▸ h), if_pos h]
  · rw [if_neg fun he => List.not_mem_nil (List.isEmpty_iff.mp he ▸ hf), if_neg h]
  · refine if_pos (List.isEmpty_iff.mpr (List.eq_nil_iff_forall_not_mem.mpr fun v => ?_))
    cases v
    · exact hf
    · exact h

theorem driveAvailable_lines {p : Nat} {s : State} {q : Portal} (hq : s.portal p = some q)
    (hd : q.record.val.drive = .lines) :
    s.driveAvailable p = true ↔ s.strikeAssigned p = true ∧ s.lineContact p ≠ .unknown := by
  simp [State.driveAvailable, hq, hd]

theorem driveAvailable_module {p : Nat} {s : State} {q : Portal} (hq : s.portal p = some q) {g : Seg} {n : Nat}
    (hd : q.record.val.drive = .module g n) :
    s.driveAvailable p = true ↔ q.heard = true ∧ ∃ x, s.node g n = some x ∧
      x.entry = ⟨.portalModule, .portal p⟩ ∧ (x.liveness = .live ∨ x.liveness = .quiet) := by
  cases hn : s.node g n <;> simp [State.driveAvailable, hq, hd, hn]

/-! ## Lines assigned, unassigned and changed (R84, R85, R188) -/

/-- The portal with the levels of its lines. -/
def readLines (p : Nat) (s : State) : State :=
  withPortal p (fun x => { x with contact := s.lineContact p, button := s.lineButton p }) s

theorem not_onLines {p : Nat} {s : State} {q : Portal} (hq : s.portal p = some q)
    (h : ¬(q.record.val.present = true ∧ q.record.val.drive = .lines)) :
    lineAssigned p s = s ∧ lineUnassigned p s = s ∧ lineChanged p s = s := by
  have hn : ¬q.onLines = true := mt (onLines_iff q).mp h
  simp only [lineAssigned, lineUnassigned, lineChanged, hq, hn, if_false, and_self, Bool.false_eq_true]

theorem lineChanged_eq {p : Nat} {s : State} {q : Portal} (hq : s.portal p = some q) (h : q.onLines = true) :
    lineChanged p s = takeButton p (s.lineButton p) (takeContact p (s.lineContact p) s) := by
  simp only [lineChanged, hq, h, if_true, takeInputs]

theorem lineAssigned_eq {p : Nat} {s : State} {q : Portal} (hq : s.portal p = some q) (h : q.onLines = true) :
    lineAssigned p s = if q.state = .fault ∧ (readLines p s).driveAvailable p = true then
      regainDrive p (readLines p s) else readLines p s := by
  simp only [lineAssigned, hq, h, if_true, Bool.and_eq_true, decide_eq_true_eq]
  rfl

theorem lineUnassigned_eq {p : Nat} {s : State} {q : Portal} (hq : s.portal p = some q) (h : q.onLines = true) :
    lineUnassigned p s =
      if q.state ≠ .fault ∧ s.driveAvailable p = false then loseDrive p s else readLines p s := by
  simp only [lineUnassigned, hq, h, if_true, Bool.and_eq_true, bne_iff_ne, Bool.not_eq_true']
  rfl

/-! ## The STATUS of a module (R74, R85) -/

theorem portalStatus_other {p : Nat} {s : State} {q : Portal} (hq : s.portal p = some q) {g : Seg} {n : Nat}
    (h : ¬(q.record.val.present = true ∧ q.record.val.drive = .module g n)) (c : Contact) (b : Button) :
    portalStatus g n p c b s = s := by
  unfold portalStatus
  rw [hq]
  cases s.node g n with
  | none => rfl
  | some x => exact if_neg (by simpa using h)

theorem portalStatus_eq {p : Nat} {s : State} {q : Portal} (hq : s.portal p = some q) {g : Seg} {n : Nat} {x : Node}
    (hp : q.record.val.present = true) (hd : q.record.val.drive = .module g n) (hx : s.node g n = some x)
    (c : Contact) (b : Button) :
    portalStatus g n p c b s =
      if q.state = .fault then
        if x.liveness = .live ∨ x.liveness = .quiet then
          regainDrive p (withPortal p (fun x => { x with contact := c, button := b, heard := true }) s)
        else s
      else takeButton p b (takeContact p c (withPortal p (fun x => { x with heard := true }) s)) := by
  simp [portalStatus, takeInputs, hq, hx, hp, hd]

/-! ## Out of FREE and out of FAULT (R85, R86) -/

theorem regainDrive_evacuate {s : State} (h : s.site.mode = .evacuate) (p : Nat) :
    regainDrive p s = withPortal p (fun x => { x with state := .free }) (orderStrike p true true s) := if_pos h

theorem regainDrive_other {s : State} (h : s.site.mode ≠ .evacuate) (p : Nat) :
    regainDrive p s = leaveFree p false s := if_neg h

/-- A portal that leaves FREE is placed by its contact once its strike is engaged. -/
theorem leaveFree_cases {p : Nat} {s : State} {q : Portal} (hq : s.portal p = some q) (urgent : Bool) :
    (q.contact ≠ .open_ → leaveFree p urgent s =
      withPortal p (fun x => { x with state := .secure }) (orderStrike p false urgent s)) ∧
    (q.contact = .open_ → leaveFree p urgent s = forcePortal p (orderStrike p false urgent s)) := by
  have hs := portal_struck hq false urgent
  refine ⟨fun h => ?_, fun h => ?_⟩ <;> simp only [leaveFree_eq, placeByContact, hs, h, if_true, if_false]

/-! ## The evacuation of the portals (R87) -/

theorem evacuationBeginPortals_head {s : State} {rest : List EvacOrder} (h : s.portals.evac = .begin_ :: rest) :
    exec .evacuationBeginPortals s =
      .next (portalNumbers.foldl evacuatePortal { s with portals := { s.portals with evac := rest } }) := by
  simp only [exec, execEvacuationBeginPortals, h]

theorem evacuationEndPortals_head {s : State} {rest : List EvacOrder} (h : s.portals.evac = .end_ :: rest) :
    exec .evacuationEndPortals s =
      .next (portalNumbers.foldl unevacuatePortal { s with portals := { s.portals with evac := rest } }) := by
  simp only [exec, execEvacuationEndPortals, h]

theorem evacuatePortal_there {s : State} {p : Nat} {q : Portal} (hq : s.portal p = some q) :
    evacuatePortal s p = if q.record.val.present = true ∧ q.state ≠ .fault ∧ q.state ≠ .free then enterFree p true s
      else s := by
  simp only [evacuatePortal, hq, Bool.and_eq_true, bne_iff_ne, and_assoc]

theorem evacuatePortal_none {s : State} {p : Nat} (hq : s.portal p = none) : evacuatePortal s p = s := by
  simp only [evacuatePortal, hq]

/-! ## SET_PORTAL (R89) -/

/-- An operation that leaves the request in service leaves it in hand. -/
theorem inHand_of_moves {s t : State} {f : Frame} (hf : s.inHand f) (h : Moves (· ≠ .serving) s t) : t.inHand f :=
  inHand_of_serving hf (h.keep (c := .serving) (not_not_intro rfl))

theorem leaveFree_inHand {s : State} {f : Frame} (hf : s.inHand f) (p : Nat) (urgent : Bool) :
    (leaveFree p urgent s).inHand f := by
  refine inHand_of_moves hf (leaveFree_moves (Moves.refl _ s) ?_ ?_ ?_ ?_ ?_ ?_ ?_ ?_ ?_ ?_ ?_) <;> simp

theorem enterFree_inHand {s : State} {f : Frame} (hf : s.inHand f) (p : Nat) (urgent : Bool) :
    (enterFree p urgent s).inHand f := by
  refine inHand_of_moves hf (enterFree_moves (Moves.refl _ s) ?_ ?_ ?_ ?_ ?_ ?_) <;> simp

theorem openPortal_inHand {s : State} {f : Frame} (hf : s.inHand f) (p : Nat) (visit : Option Nat) :
    (openPortal p visit s).inHand f := by
  refine inHand_of_moves hf (openPortal_moves (Moves.refl _ s) ?_ ?_ ?_ ?_ ?_ ?_) <;> simp

theorem parseAction_bytes {high actions : Nat} {b a : Byte} (hb : b.toNat ≤ high) (ha : a.toNat < actions) :
    parseAction 1 high actions [b, a] = .ok (b.toNat, a.toNat) := by
  simp [parseAction, fields, beNat, inRange, hb, ha]

/-- A request with an action that fits its row goes on to the mode test. -/
theorem takingAction_fits {s : State} {f : Frame} (hf : s.inHand f) {kind width high actions action n : Nat}
    {k : Nat → State → State} (hk : f.kind.toNat = kind) (hp : parseAction width high actions f.body = .ok (n, action)) :
    takingAction kind width high actions action k s = tested (.ok n : Parsed Nat) outsideStarting k s := by
  refine (taking_inHand hf _ hk).trans ?_
  simp only [hp, if_true]

/-- The tests of SET_PORTAL in order, for the row of any of its actions. -/
theorem setPortal_tests {s : State} {f : Frame} (hf : s.inHand f) {p : Nat} {q : Portal} (hq : s.portal p = some q)
    (evacuationRefuses : Bool) (k : Nat → Portal → State → State) :
    (q.record.val.present = false → setPortal evacuationRefuses k p s = s.answered f .notFound []) ∧
    (q.record.val.present = true → s.site.mode = .evacuate ∧ evacuationRefuses = true →
      setPortal evacuationRefuses k p s = s.answered f .evacuation []) ∧
    (q.record.val.present = true → ¬(s.site.mode = .evacuate ∧ evacuationRefuses = true) →
      (q.state = .fault → setPortal evacuationRefuses k p s = s.answered f .wrongState []) ∧
      (q.state ≠ .fault → setPortal evacuationRefuses k p s = k p q s)) := by
  have he : (evacuationRefuses && s.site.mode == .evacuate) = true ↔
      s.site.mode = .evacuate ∧ evacuationRefuses = true := by
    simp [and_comm]
  have ht : setPortal evacuationRefuses k p s =
      if q.record.val.present = false then s.answered f .notFound []
      else if s.site.mode = .evacuate ∧ evacuationRefuses = true then s.answered f .evacuation []
      else if q.state = .fault then s.answered f .wrongState [] else k p q s := by
    simp only [setPortal, hq, he, reply_status hf, Bool.not_eq_true']
  rw [ht]
  have there (hp : q.record.val.present = true) : ¬q.record.val.present = false := by simp [hp]
  exact ⟨fun hp => if_pos hp, fun hp hm => (if_neg (there hp)).trans (if_pos hm), fun hp hm =>
    ⟨fun hs => (if_neg (there hp)).trans ((if_neg hm).trans (if_pos hs)),
      fun hs => (if_neg (there hp)).trans ((if_neg hm).trans (if_neg hs))⟩⟩

/-- A SET_PORTAL request that fits its row: the mode, then the tests, then its action. -/
theorem setPortal_request {s : State} {f : Frame} (hf : s.inHand f) {b a : Byte} (hk : f.kind = 0x41)
    (hb : f.body = [b, a]) {q : Portal} (hq : s.portal b.toNat = some q) (hn : b.toNat ≤ 7) {c : Instr}
    {k : Nat → Portal → State → State} (ha : a.toNat < 3)
    (hc : exec c s = .next (takingAction 0x41 1 7 3 a.toNat (setPortal (decide (a ≠ 1)) k) s)) :
    let evac := s.site.mode = .evacuate ∧ a ≠ 1
    (s.site.mode = .starting → exec c s = .next (s.answered f .wrongMode [])) ∧
    (s.site.mode ≠ .starting →
      (q.record.val.present = false → exec c s = .next (s.answered f .notFound [])) ∧
      (q.record.val.present = true → evac → exec c s = .next (s.answered f .evacuation [])) ∧
      (q.record.val.present = true → ¬evac →
        (q.state = .fault → exec c s = .next (s.answered f .wrongState [])) ∧
        (q.state ≠ .fault → exec c s = .next (k b.toNat q s)))) := by
  have ht := hc.trans (congrArg _ (takingAction_fits hf (congrArg _ hk) (hb ▸ parseAction_bytes hn ha)))
  obtain ⟨absent, evacuation, there⟩ := setPortal_tests hf hq (decide (a ≠ 1)) k
  rw [decide_eq_true_iff] at evacuation there
  refine ⟨fun hm => ht.trans (congrArg _ (tested_mode hf _ (by rw [hm]; rfl))), fun hm => ?_⟩
  have hs := ht.trans (congrArg _ (tested_ok _ (outsideStarting_eq hm)))
  exact ⟨fun hp => hs.trans (congrArg _ (absent hp)), fun hp he => hs.trans (congrArg _ (evacuation hp he)),
    fun hp he => ⟨fun h => hs.trans (congrArg _ ((there hp he).1 h)),
      fun h => hs.trans (congrArg _ ((there hp he).2 h))⟩⟩

/-- What SET_PORTAL with the action `a` does to a portal that passes its tests, and its reply. -/
def actOnPortal (a : Byte) (p : Nat) (q : Portal) (s : State) : State :=
  if a = 0 then reply .ok [] (if q.state = .free then leaveFree p false s else s)
  else if a = 1 then reply .ok [] (if q.state = .free then s else enterFree p false s)
  else if q.state = .secure then reply .ok [] (openPortal p none s)
  else reply .wrongState [] s

/-- Each row of SET_PORTAL runs its own action, which only FREE lets an evacuation do. -/
theorem setPortal_rows {a : Byte} {c : Instr} (h : a = 0 ∧ c = .setPortalSecure ∨ a = 1 ∧ c = .setPortalFree ∨
    a = 2 ∧ c = .setPortalMomentary) (s : State) : a.toNat < 3 ∧ exec c s =
      .next (takingAction 0x41 1 7 3 a.toNat (setPortal (decide (a ≠ 1)) (actOnPortal a)) s) := by
  rcases h with ⟨rfl, rfl⟩ | ⟨rfl, rfl⟩ | ⟨rfl, rfl⟩ <;> exact ⟨by decide, rfl⟩

theorem actOnPortal_cases {s : State} {f : Frame} (hf : s.inHand f) (a : Byte) (p : Nat) (q : Portal) :
    (a = 0 → q.state = .free → actOnPortal a p q s = (leaveFree p false s).answered f .ok []) ∧
    (a = 0 → q.state ≠ .free → actOnPortal a p q s = s.answered f .ok []) ∧
    (a = 1 → q.state ≠ .free → actOnPortal a p q s = (enterFree p false s).answered f .ok []) ∧
    (a = 1 → q.state = .free → actOnPortal a p q s = s.answered f .ok []) ∧
    (a = 2 → q.state = .secure → actOnPortal a p q s = (openPortal p none s).answered f .ok []) ∧
    (a = 2 → q.state ≠ .secure → actOnPortal a p q s = s.answered f .wrongState []) := by
  refine ⟨?_, ?_, ?_, ?_, ?_, ?_⟩ <;> rintro rfl h <;>
    simp [actOnPortal, h, reply_status hf, reply_status (leaveFree_inHand hf p false),
      reply_status (enterFree_inHand hf p false), reply_status (openPortal_inHand hf p none)]

/-- Settles O51: inputs and drive from the lines, then each operation by the state of its portal, then SET_PORTAL. -/
theorem freePortalsFollowTheHostAndTheEvacuation : Obligations.FreePortalsFollowTheHostAndTheEvacuation := by
  refine ⟨fun s p => ?_, fun s p q hq => ?_, fun s p urgent q hq => ⟨rfl, leaveFree_cases hq urgent⟩,
    fun s rest => ⟨fun h => ?_, fun h => ?_⟩, fun s f b a q hf hk hb hq hn => ?_,
    deliverPortalReports_foldl (fun _ _ _ => rfl) (fun _ _ _ => rfl)⟩
  · simp only [← mem_exitValues_iff]
    obtain ⟨pressed, released, unknown⟩ := lineButton_cases s p
    refine ⟨strikeAssigned_iff s p, lineContact_none, fun l more h => ?_, pressed, released, unknown,
      fun q hq => ⟨driveAvailable_lines hq, fun g n => driveAvailable_module hq⟩⟩
    obtain ⟨unsettled, settled⟩ := lineContact_first h
    cases hd : l.debounced with
    | none => exact unsettled hd
    | some d => exact settled d hd
  · refine ⟨endOpening_eq p s q hq, not_onLines hq, fun hl => ?_, fun h => regainDrive_evacuate h p,
      fun h => regainDrive_other h p, fun g n c b => ⟨fun h => portalStatus_other hq h c b, fun x hm hx => ?_⟩⟩
    · have h := (onLines_iff q).mpr hl
      rw [lineAssigned_eq hq h, lineUnassigned_eq hq h]
      refine ⟨lineChanged_eq hq h, fun hs hd => if_pos ⟨hs, hd⟩, fun hn => if_neg fun k => ?_, fun hn =>
        if_neg fun k => ?_, fun hs hd => (if_pos ⟨hs, hd⟩).trans ?_⟩
      · exact hn.elim (absurd k.1) fun hd => absurd (k.2.symm.trans hd) (by decide)
      · exact hn.elim k.1 fun hd => absurd (k.2.symm.trans hd) (by decide)
      · have lost := loseDrive_lines hq hs hl.1 hl.2
        rw [endOpening_eq p s q hq] at lost
        exact lost
    · rw [portalStatus_eq hq hm.1 hm.2 hx]
      exact ⟨fun hs ha => (if_pos hs).trans (if_pos ha), fun hs ha => (if_pos hs).trans (if_neg ha), fun hs => if_neg hs⟩
  · rw [evacuationBeginPortals_head h]
    refine congrArg _ (congrArg (fun step => List.foldl step _ portalNumbers) (funext fun t => funext fun p => ?_))
    cases hq : t.portal p with
    | none => exact evacuatePortal_none hq
    | some q => exact evacuatePortal_there hq
  · exact evacuationEndPortals_head h
  · intro p c hc evac
    obtain ⟨ha, he⟩ := setPortal_rows hc s
    obtain ⟨starting, past⟩ := setPortal_request hf hk hb hq hn ha he
    refine ⟨starting, fun hm => ?_⟩
    obtain ⟨absent, evacuation, there⟩ := past hm
    refine ⟨absent, evacuation, fun hp he => ?_⟩
    obtain ⟨fault, acts⟩ := there hp he
    refine ⟨fault, fun hs => ?_⟩
    rw [acts hs]
    obtain ⟨secured, locked, freed, free, opened, refused⟩ := actOnPortal_cases hf a p q
    exact ⟨fun ha h => congrArg _ (secured ha h), fun ha h => congrArg _ (locked ha h),
      fun ha h => congrArg _ (freed ha h), fun ha h => congrArg _ (free ha h),
      fun ha h => congrArg _ (opened ha h), fun ha h => congrArg _ (refused ha h)⟩

end Sys2Proof.Machine
end

section
/-! PROOF. What each operation of the Unit Door Controller makes of an entry, and what it leaves: the layer that the
statements about unit doors (O52, O53, O54) rewrite with. -/

namespace Sys2Proof.Machine

/-! ## An entry that is there (R92, R113) -/

/-- An entry that has been changed. -/
theorem unit_changed {u : Nat} {s : State} {e : UnitEntry} (he : s.unit u = some e) (f : UnitEntry → UnitEntry) :
    (withUnit u f s).unit u = some (f e) := by
  rw [unit_withUnit, if_pos rfl, he]
  rfl

/-- A change of the Unit State Table tells the forced summary when that summary changes. -/
theorem withUnits_eq (f : Table UnitEntry → Table UnitEntry) (s : State) :
    let t : State := { s with units := { s.units with entries := f s.units.entries } }
    withUnits f s = { t with
      lines := if t.unitsForced = s.unitsForced then s.lines
        else { s.lines with reports := s.lines.reports ++ [.unitForced t.unitsForced] } } := by
  unfold withUnits
  simp only [toBeacon_unless]

/-! ## The closed-door state (R93, R94) -/

theorem closedState_eq (s : State) (r : UnitRec) : s.closedState r =
    if r.tenant ≠ 0 ∧ r.tenant ∈ s.units.presence ∧ r.overlocked = false then .disarmed else .armed := by
  simp only [State.closedState, Bool.and_eq_true, present_iff, Bool.not_eq_true', and_assoc]

/-- The presence set alone decides the closed-door state of a record. -/
theorem closedState_of_presence {s t : State} (h : t.units.presence = s.units.presence) :
    t.closedState = s.closedState := by
  funext r
  simp only [closedState_eq, h]

/-- Placing takes the closed-door state from any state with the same presence set. -/
theorem placeClosed_eq (u : Nat) {s t : State} (h : t.units.presence = s.units.presence) :
    placeClosed u t = withUnit u (fun x => { x with state := s.closedState x.record }) t := by
  rw [placeClosed, closedState_of_presence h]

/-! ## Placing an entry by its contact (R94, R107, R111, R112) -/

theorem placeByDoor_closed {u : Nat} {s : State} {e : UnitEntry} (he : s.unit u = some e) (h : e.contact = .closed)
    (cause : LeftOpenCause) : placeByDoor u cause s = placeClosed u s := by
  simp [placeByDoor, he, h]

/-- Behind an open door the tenant's presence decides between OPEN and LEFT_OPEN. -/
theorem placeByDoor_open {u : Nat} {s : State} {e : UnitEntry} (he : s.unit u = some e) (h : e.contact = .open_)
    (cause : LeftOpenCause) : placeByDoor u cause s =
      if e.record.tenant ≠ 0 ∧ e.record.tenant ∈ s.units.presence then
        withUnit u (fun x => { x with state := .open_ }) s
      else putNotice (.unitLeftOpen u e.record.tenant cause)
        (withUnit u (fun x => { x with state := .leftOpen }) s) := by
  simp only [placeByDoor, placeOpen, he, h, if_true, present_iff]

/-! ## A RELOCK for an entry (R94, R99, R103, R111) -/

theorem queueRelock_eq {u : Nat} {s : State} {e : UnitEntry} (he : s.unit u = some e) :
    queueRelock u s =
      submit e.record.seg e.record.node (.command (.relock e.record.channel)) .normal (.relock u (some (e.number + 1)))
        (withUnit u (fun x => { x with number := e.number + 1, relockOwed := true }) s) := by
  simp only [queueRelock, he]

end Sys2Proof.Machine
end

section
/-! PROOF. The orders of the Visit Engine to the unit doors, the release timer and the loss of a latch node (O52). -/

namespace Sys2Proof.Machine

/-! ## Rearming by the table of R99 -/

theorem rearm_disarmed {u : Nat} {s : State} {e : UnitEntry} (he : s.unit u = some e) (h : e.state = .disarmed) :
    let t := withUnit u (fun x => { x with state := .armed }) s
    rearm u s = if e.latch = .released then queueRelock u t else t := by
  simp only [rearm, he, h, armDisarmed]

theorem rearm_releasing {u : Nat} {s : State} {e : UnitEntry} (he : s.unit u = some e) (h : e.state = .releasing) :
    rearm u s = withUnit u (fun x => { x with state := .armed })
      (queueRelock u (cancel e.record.seg (.release u e.number) s)) := by
  simp only [rearm, he, h, cancelRelease]

theorem rearm_released {u : Nat} {s : State} {e : UnitEntry} (he : s.unit u = some e) (h : e.state = .released) :
    rearm u s = withUnit u (fun x => { x with state := .armed, timer := none }) (queueRelock u s) := by
  simp only [rearm, he, h]

theorem rearm_open {u : Nat} {s : State} {e : UnitEntry} (he : s.unit u = some e) (h : e.state = .open_) :
    rearm u s = putNotice (.unitLeftOpen u e.record.tenant .closure)
      (withUnit u (fun x => { x with state := .leftOpen }) s) := by
  simp only [rearm, he, h]

/-- An entry whose door no visit governs stays as it is. -/
theorem rearm_other {u : Nat} {s : State} {e : UnitEntry} (he : s.unit u = some e)
    (h : e.state = .armed ∨ e.state = .leftOpen ∨ e.state = .forced ∨ e.state = .service ∨ e.state = .unknown) :
    rearm u s = s := by
  rcases h with h | h | h | h | h <;> simp only [rearm, he, h]

/-! ## Disarm and closure orders (R98, R99) -/

theorem disarmOrder_head {s : State} {t : Nat} {rest : List UnitOrder} (h : s.units.orders = .disarm t :: rest) :
    exec .disarmOrder s = .next (disarmTenant t { s with units := { s.units with orders := rest } }) := by
  simp only [exec, execDisarmOrder, h]

theorem closureOrder_head {s : State} {t : Nat} {visitLeft : Bool} {rest : List UnitOrder}
    (h : s.units.orders = .closure t visitLeft :: rest) :
    exec .closureOrder s = .next (closeTenant t visitLeft { s with units := { s.units with orders := rest } }) := by
  simp only [exec, execClosureOrder, h]

/-- A disarm order makes its tenant present, and disarms its ARMED entries that are not overlocked. -/
theorem disarmTenant_eq (t : Nat) (s : State) : disarmTenant t s = withUnits (fun tbl => tbl.map fun e =>
    if e.2.record.tenant = t ∧ e.2.state = .armed ∧ e.2.record.overlocked = false then
      (e.1, { e.2 with state := .disarmed })
    else e) { s with units := { s.units with presence := insertNat t s.units.presence } } := by
  have entry (e : Nat × UnitEntry) : (if e.2.record.tenant = t then (e.1, disarmEntry e.2) else e) =
      if e.2.record.tenant = t ∧ e.2.state = .armed ∧ e.2.record.overlocked = false then
        (e.1, { e.2 with state := .disarmed })
      else e := by
    rw [disarmEntry_eq]
    by_cases ht : e.2.record.tenant = t
    · simp only [ht, true_and, if_true]
      split <;> rfl
    · simp only [ht, false_and, if_false]
  simp only [disarmTenant, entry]

/-! ## The release timer (R102) -/

/-- The release timer closes a RELEASED entry once it is due. -/
theorem releaseTimerExpiry_eq {u : Nat} {s : State} {e : UnitEntry} (he : s.unit u = some e) :
    exec (.releaseTimerExpiry u) s = .next
      (if e.state = .released ∧ ∃ d, e.timer = some d ∧ d ≤ s.site.seconds then
        withUnit u (fun x => { x with state := s.closedState x.record })
          (withUnit u (fun x => { x with timer := none }) s)
      else s) := by
  rw [← placeClosed_eq u (withUnit_presence u _ s)]
  simp only [exec, execReleaseTimerExpiry, he, Bool.and_eq_true, decide_eq_true_eq, timerDue_iff]

/-! ## The loss of a latch node (R106) -/

theorem latchNodeLoss_head {s : State} {g : Seg} {n : Nat} {b : Binding} {rest : List FieldReport}
    (h : (s.seg g).toUnits = .lost n b :: rest) :
    exec (.latchNodeLoss g) s = .next (loseLatchNode g n (s.modSeg g fun x => { x with toUnits := rest })) := by
  simp only [exec, execLatchNodeLoss, h]

theorem loseLatchNode_eq (g : Seg) (n : Nat) (s : State) : loseLatchNode g n s = withUnits (fun tbl => tbl.map fun e =>
    if e.2.record.seg = g ∧ e.2.record.node = n then
      (e.1, { e.2 with
        state := .unknown, contact := .unknown, latch := .unknown, timer := none, relockOwed := false })
    else e) s := by
  simp only [loseLatchNode, UnitEntry.lose, Bool.and_eq_true, decide_eq_true_eq]

/-- Settles O52: orders by the state of each entry, the timer by whether it is due, the loss by the entry's node. -/
theorem ordersDisarmAndRearmUnits : Obligations.OrdersDisarmAndRearmUnits := by
  refine ⟨closedState_eq, fun s u e he => ⟨queueRelock_eq he, fun hs hl => ?_, fun hs hl => ?_, rearm_releasing he,
    rearm_released he, rearm_open he, rearm_other he⟩, fun s t rest h => ?_, fun s t rest => ⟨fun h => ?_, fun h => ?_⟩,
    fun s u e he => ?_, fun s g n b rest h => ?_⟩
  · exact (rearm_disarmed he hs).trans (if_neg hl)
  · exact (rearm_disarmed he hs).trans (if_pos hl)
  · refine ⟨insertNat t s.units.presence, mem_insertNat t s.units.presence, ?_⟩
    rw [disarmOrder_head h, disarmTenant_eq]
  · exact closureOrder_head h
  · exact closureOrder_head h
  · rw [releaseTimerExpiry_eq he]
    refine ⟨fun hs d hd => ⟨fun hle => ?_, fun hlt => ?_⟩, fun hs => ?_⟩
    · rw [if_pos ⟨hs, d, hd, hle⟩]
    · rw [if_neg fun k => not_reached hd hlt k.2]
    · rw [if_neg fun k => hs k.1]
  · rw [latchNodeLoss_head h, loseLatchNode_eq]

end Sys2Proof.Machine
end

section
/-! PROOF. Latch reports, release asks, contact changes and the outcomes of a unit's commands (O53). -/

namespace Sys2Proof.Machine

/-! ## The entry of a channel (R2, R92, R95) -/

theorem mem_of_unitAt {s : State} {g : Seg} {n ch u : Nat} (h : s.unitAt g n ch = some u) :
    ∃ e, (u, e) ∈ s.units.entries ∧ e.record.seg = g ∧ e.record.node = n ∧ e.record.channel = ch := by
  obtain ⟨⟨v, e⟩, hf, rfl⟩ := Option.map_eq_some_iff.mp h
  have names := List.find?_some hf
  simp only [Bool.and_eq_true, beq_iff_eq, and_assoc] at names
  exact ⟨e, List.mem_of_find?_eq_some hf, names⟩

theorem unnamed_of_unitAt {s : State} {g : Seg} {n ch : Nat} (h : s.unitAt g n ch = none) :
    ∀ e ∈ s.units.entries, ¬(e.2.record.seg = g ∧ e.2.record.node = n ∧ e.2.record.channel = ch) := by
  have unnamed := List.find?_eq_none.mp (Option.map_eq_none_iff.mp h)
  simpa only [Bool.and_eq_true, beq_iff_eq, and_assoc] using unnamed

/-! ## Contact changes (R96, R97) -/

theorem unitOpens_opened {u : Nat} {s : State} {e : UnitEntry} (he : s.unit u = some e)
    (h : (e.state = .released ∨ e.state = .releasing) ∨ e.state = .disarmed ∧ e.latch = .released) :
    unitOpens u s = toVisitsOpened u e.record.tenant
      (withUnit u (fun x => { x with state := .open_, timer := none }) s) := by
  rcases h with (h | h) | ⟨h, hl⟩
  · simp only [unitOpens, he, h]
  · simp only [unitOpens, he, h]
  · simp only [unitOpens, he, h, hl, if_true]

theorem unitOpens_forced {u : Nat} {s : State} {e : UnitEntry} (he : s.unit u = some e)
    (h : e.state = .disarmed ∧ e.latch ≠ .released ∨ e.state = .armed ∧ e.relockOwed = false) :
    unitOpens u s = putNotice (.unitForced u e.record.tenant e.state)
      (withUnit u (fun x => { x with state := .forced }) s) := by
  rcases h with ⟨h, hl⟩ | ⟨h, ho⟩
  · simp only [unitOpens, he, h, hl, if_false]
  · simp only [unitOpens, he, h, ho, if_false, Bool.false_eq_true]

theorem unitOpens_relockOwed {u : Nat} {s : State} {e : UnitEntry} (he : s.unit u = some e) (h : e.state = .armed)
    (ho : e.relockOwed = true) : unitOpens u s = putNotice (.unitLeftOpen u e.record.tenant .relockOwed)
      (withUnit u (fun x => { x with state := .leftOpen }) s) := by
  simp only [unitOpens, he, h, ho, if_true]

theorem unitOpens_quiet {u : Nat} {s : State} {e : UnitEntry} (he : s.unit u = some e)
    (h : e.state = .service ∨ e.state = .forced ∨ e.state = .leftOpen ∨ e.state = .open_) : unitOpens u s = s := by
  rcases h with h | h | h | h <;> simp only [unitOpens, he, h]

theorem unitCloses_opened {u : Nat} {s : State} {e : UnitEntry} (he : s.unit u = some e)
    (h : e.state = .open_ ∨ e.state = .leftOpen) : unitCloses u s = placeClosed u s := by
  rcases h with h | h <;> simp only [unitCloses, he, h]

theorem unitCloses_quiet {u : Nat} {s : State} {e : UnitEntry} (he : s.unit u = some e) (ho : e.state ≠ .open_)
    (hl : e.state ≠ .leftOpen) : unitCloses u s = s := by
  simp only [unitCloses, he]

/-! ## Latch reports (R95, R107) -/

theorem unitReport_unknown {u : Nat} {s : State} {e : UnitEntry} (he : s.unit u = some e) (h : e.state = .unknown)
    (o r : Bool) : unitReport u o r s = placeByDoor u .recovery (withUnit u (fun x =>
      { x with
        contact := if o = true then .open_ else .closed
        latch := if r = true then .released else .engaged }) s) := by
  simp only [unitReport, he, h, if_true]

/-- Outside UNKNOWN a report gives the latch, and a contact that differs is an event. -/
theorem unitReport_known {u : Nat} {s : State} {e : UnitEntry} (he : s.unit u = some e) (h : e.state ≠ .unknown)
    (o r : Bool) :
    let c : Contact := if o = true then .open_ else .closed
    let latched := withUnit u (fun x =>
      { x with
        latch := if r = true then .released else .engaged
        relockOwed := if r = true then x.relockOwed else false }) s
    let changed := withUnit u (fun x => { x with contact := c }) latched
    unitReport u o r s =
      if e.contact = c then latched else if o = true then unitOpens u changed else unitCloses u changed := by
  simp only [unitReport, he, h, if_false]

/-- The report of a node is held for a fresh entry. -/
theorem holds_iff (x : Node) : x.holds = true ↔
    x.entry.kind = .latch ∧ x.reportHeld = true ∧ (x.liveness = .live ∨ x.liveness = .quiet) := by
  simp only [Node.holds, Bool.and_eq_true, Bool.or_eq_true, beq_iff_eq, and_assoc]

theorem evaluateHeld_holds {u : Nat} {r : UnitRec} {s : State} {x : Node} (hx : s.node r.seg r.node = some x)
    (h : x.holds = true) : evaluateHeld u r s = unitReport u (flagBit (beNat (x.mirror.take 2)) r.channel)
      (flagBit (beNat (x.mirror.drop 2)) r.channel) s := by
  simp only [evaluateHeld, hx, h, if_true]

theorem evaluateHeld_idle {u : Nat} {r : UnitRec} {s : State}
    (h : ∀ x, s.node r.seg r.node = some x → ¬x.holds = true) : evaluateHeld u r s = s := by
  unfold evaluateHeld
  cases hx : s.node r.seg r.node with
  | none => rfl
  | some x => exact if_neg (h x hx)

/-! ## Release asks (R100) -/

/-- The tenant that a notice about a unit names: none for a unit without one. -/
def UnitEntry.namedTenant (e : UnitEntry) : Option Nat :=
  if e.record.tenant = 0 then none else some e.record.tenant

/-- A refused ask: the DENY_BLINK, and the notice with what is known of the unit. -/
def askRefused (g : Seg) (n ch : Nat) (u t : Option Nat) (why : Reason) (s : State) : State :=
  putNotice (.releaseRefused g n ch u t why) (submit g n (.command (.denyBlink ch)) .normal .denyBlink s)

theorem refuseAsk_unnamed {s : State} {g : Seg} {n ch : Nat} (h : s.unitAt g n ch = none) (why : Reason) :
    refuseAsk g n ch why s = askRefused g n ch none none why s := by
  simp only [refuseAsk, h, Option.bind_none, askRefused]

theorem refuseAsk_named {s : State} {g : Seg} {n ch u : Nat} {e : UnitEntry} (h : s.unitAt g n ch = some u)
    (he : s.unit u = some e) (why : Reason) :
    refuseAsk g n ch why s = askRefused g n ch (some u) e.namedTenant why s := by
  simp only [refuseAsk, h, he, Option.bind_some, askRefused, UnitEntry.namedTenant]

/-- Outside RUN an ask is refused, whatever its channel. -/
theorem releaseAsk_barred (g : Seg) (n ch : Nat) (s : State) :
    (s.site.mode = .evacuate → releaseAsk g n ch s = refuseAsk g n ch .evacuation s) ∧
    (s.site.mode ≠ .evacuate → s.site.mode ≠ .run → releaseAsk g n ch s = refuseAsk g n ch .held s) := by
  refine ⟨fun h => ?_, fun h hr => ?_⟩
  · simp only [releaseAsk, h]
  · simp only [releaseAsk]

theorem releaseAsk_unnamed {s : State} {g : Seg} {n ch : Nat} (h : s.unitAt g n ch = none)
    (hm : s.site.mode = .run) : releaseAsk g n ch s = refuseAsk g n ch .noUnit s := by
  simp only [releaseAsk, hm, h]

/-- In RUN an ask for a channel that an entry names goes by the state of that entry. -/
theorem releaseAsk_named {s : State} {g : Seg} {n ch u : Nat} {e : UnitEntry} (h : s.unitAt g n ch = some u)
    (he : s.unit u = some e) (hm : s.site.mode = .run) :
    (e.state = .disarmed → releaseAsk g n ch s = queueRelease u e s) ∧
    (e.state = .armed → e.record.overlocked = true → releaseAsk g n ch s = refuseAsk g n ch .overlocked s) ∧
    (e.state = .armed → e.record.overlocked = false → releaseAsk g n ch s = refuseAsk g n ch .noVisit s) ∧
    (e.state ≠ .disarmed → e.state ≠ .armed → releaseAsk g n ch s = s) := by
  refine ⟨fun hs => ?_, fun hs ho => ?_, fun hs ho => ?_, fun hd ha => ?_⟩
  · simp only [releaseAsk, hm, h, he, hs]
  · simp only [releaseAsk, hm, h, he, hs, ho, if_true]
  · simp only [releaseAsk, hm, h, he, hs, ho, if_false, Bool.false_eq_true]
  · simp only [releaseAsk, hm, h, he]

/-! ## The outcomes of a unit's commands (R101, R103, R110) -/

theorem releaseOutcome_head {s : State} {g : Seg} {u : Nat} {k : Byte} {o : TxOutcome} {rest : List FieldReport}
    (h : (s.seg g).toUnits = .outcome (.release u k) o :: rest) : exec (.releaseOutcome g) s =
      .next (takeReleaseOutcome u k o (s.modSeg g fun x => { x with toUnits := rest })) := by
  simp only [exec, execReleaseOutcome, h]

theorem relockOutcome_head {s : State} {g : Seg} {u : Nat} {k : Option Byte} {o : TxOutcome} {rest : List FieldReport}
    (h : (s.seg g).toUnits = .outcome (.relock u k) o :: rest) : exec (.relockOutcome g) s =
      .next (takeRelockOutcome u k (s.modSeg g fun x => { x with toUnits := rest })) := by
  simp only [exec, execRelockOutcome, h]

theorem denyBlinkOutcome_head {s : State} {g : Seg} {o : TxOutcome} {rest : List FieldReport}
    (h : (s.seg g).toUnits = .outcome .denyBlink o :: rest) :
    exec (.denyBlinkOutcome g) s = .next (s.modSeg g fun x => { x with toUnits := rest }) := by
  simp only [exec, execDenyBlinkOutcome, h]

theorem serviceReleaseOutcome_head {s : State} {g : Seg} {u : Nat} {k : Byte} {o : TxOutcome} {rest : List FieldReport}
    (h : (s.seg g).toUnits = .outcome (.serviceRelease u k) o :: rest) : exec (.serviceReleaseOutcome g) s =
      .next (takeServiceOutcome u k o (s.modSeg g fun x => { x with toUnits := rest })) := by
  simp only [exec, execServiceReleaseOutcome, h]

theorem takeReleaseOutcome_ok {u : Nat} {s : State} {e : UnitEntry} (he : s.unit u = some e) {k : Byte}
    (h : e.state = .releasing ∧ e.number = k) : takeReleaseOutcome u k .ok s = withUnit u (fun x =>
      { x with state := .released, timer := some (s.site.seconds + s.site.params.val.releaseTime) }) s := by
  simp [takeReleaseOutcome, he, h]

theorem takeReleaseOutcome_failed {u : Nat} {s : State} {e : UnitEntry} (he : s.unit u = some e) {k : Byte}
    (h : e.state = .releasing ∧ e.number = k) {o : TxOutcome}
    (ho : o = .noAck ∨ o = .nodeLost ∨ o = .segmentIsolated ∨ o = .displaced ∨ o = .fieldFull) :
    takeReleaseOutcome u k o s = putNotice (.releaseFailed u e.record.tenant .ask o) (placeClosed u s) := by
  rcases ho with rfl | rfl | rfl | rfl | rfl <;> simp [takeReleaseOutcome, he, h]

/-- An outcome that is not current is ignored. -/
theorem takeReleaseOutcome_stale {u : Nat} {s : State} {e : UnitEntry} (he : s.unit u = some e) {k : Byte}
    (h : ¬(e.state = .releasing ∧ e.number = k)) (o : TxOutcome) : takeReleaseOutcome u k o s = s := by
  simp only [takeReleaseOutcome, he, Bool.and_eq_true, decide_eq_true_eq, if_neg h]

theorem takeRelockOutcome_eq (u : Nat) (k : Option Byte) (s : State) : takeRelockOutcome u k s =
    withUnit u (fun x => { x with relockOwed := if k = some x.number then false else x.relockOwed }) s := by
  have entry (x : UnitEntry) : (if k = some x.number then { x with relockOwed := false } else x) =
      { x with relockOwed := if k = some x.number then false else x.relockOwed } := by
    split <;> rfl
  simp only [takeRelockOutcome, entry]

theorem takeServiceOutcome_eq {u : Nat} {s : State} {e : UnitEntry} (he : s.unit u = some e) (k : Byte)
    (o : TxOutcome) : takeServiceOutcome u k o s = if o ≠ .ok ∧ e.state = .service ∧ e.number = k then
      putNotice (.releaseFailed u e.record.tenant .service o) s else s := by
  simp only [takeServiceOutcome, he, Bool.and_eq_true, bne_iff_ne, beq_iff_eq, and_assoc]

/-- Settles O53: reports by the entry of their channel, asks by the mode and then the entry, outcomes by whether they
are current. -/
theorem latchReportsAndOutcomesMoveUnits : Obligations.LatchReportsAndOutcomesMoveUnits := by
  refine ⟨fun s g n body => ?_, fun s g n ch => ⟨fun u => mem_of_unitAt, unnamed_of_unitAt⟩, fun s u e o r he => ?_,
    fun s u r => ⟨fun h => evaluateHeld_idle fun x hx hh => h x ⟨hx, (holds_iff x).mp hh⟩,
      fun x h => evaluateHeld_holds h.1 ((holds_iff x).mpr h.2)⟩,
    fun s g n ch => ?_, fun s u e he => ?_, fun s g u k o rest e he => ⟨fun h => ?_, fun h => ?_⟩,
    fun s g u k o rest h => ?_, fun s g o rest => denyBlinkOutcome_head,
    fun f s => ⟨withUnits_eq f s, fun u g => rfl⟩⟩
  · intro bit
    dsimp only [latchStatus]
    refine congrArg (fun step => List.foldl step s (List.range 16)) (funext fun t => funext fun i => ?_)
    cases t.unitAt g n i with
    | none => rfl
    | some u => exact congrFun (congr (congrArg (unitReport u) (flagBit_beNat _ _ i)) (flagBit_beNat _ _ i)) t
  · refine ⟨fun h => unitReport_unknown he h o r, fun h hc => ?_, fun h hc ho => ?_, fun h hc ho => ?_⟩ <;>
      refine (unitReport_known he h o r).trans ?_
    · exact if_pos hc
    · exact (if_neg hc).trans (if_pos ho)
    · exact (if_neg hc).trans (if_neg (by simp [ho]))
  · obtain ⟨evacuation, held⟩ := releaseAsk_barred g n ch s
    refine ⟨fun hu => ?_, fun u e hu he => ?_⟩
    · have refused := refuseAsk_unnamed hu
      exact ⟨⟨fun hm => (evacuation hm).trans (refused _), fun hm hr => (held hm hr).trans (refused _)⟩,
        fun hm => (releaseAsk_unnamed hu hm).trans (refused _)⟩
    · have refused := refuseAsk_named hu he
      refine ⟨⟨fun hm => (evacuation hm).trans (refused _), fun hm hr => (held hm hr).trans (refused _)⟩, fun hm => ?_⟩
      obtain ⟨disarmed, overlocked, noVisit, other⟩ := releaseAsk_named hu he hm
      exact ⟨disarmed, fun ha ho => (overlocked ha ho).trans (refused _),
        fun ha ho => (noVisit ha ho).trans (refused _), other⟩
  · exact ⟨fun h => unitOpens_opened he (.inl h), fun h hl => unitOpens_opened he (.inr ⟨h, hl⟩),
      fun h hl => unitOpens_forced he (.inl ⟨h, hl⟩), unitOpens_relockOwed he,
      fun h ho => unitOpens_forced he (.inr ⟨h, ho⟩), unitOpens_quiet he, unitCloses_opened he, unitCloses_quiet he⟩
  · have hw := (unit_modSeg s g (fun x => { x with toUnits := rest }) u).trans he
    rw [releaseOutcome_head h]
    refine ⟨fun hc ho => ?_, fun hc ho => ?_, fun hc => ?_⟩
    · rw [ho, takeReleaseOutcome_ok hw hc, modSeg_site]
    · rw [takeReleaseOutcome_failed hw hc ho, placeClosed_eq u (congrArg UnitDoors.presence (modSeg_units s g _))]
    · rw [takeReleaseOutcome_stale hw hc]
  · have hw := (unit_modSeg s g (fun x => { x with toUnits := rest }) u).trans he
    rw [serviceReleaseOutcome_head h, takeServiceOutcome_eq hw]
    refine ⟨fun ho hs hk => congrArg _ (if_pos ⟨ho, hs, hk⟩), fun hn => congrArg _ (if_neg ?_)⟩
    rintro ⟨ho, hs, hk⟩
    rcases hn with hn | hn | hn
    · exact ho hn
    · exact hn hs
    · exact hn hk
  · rw [relockOutcome_head h, takeRelockOutcome_eq]

end Sys2Proof.Machine
end

section
/-! PROOF. UNIT_SERVICE and UNIT_ALARM_RESET (O54). -/

namespace Sys2Proof.Machine

/-! ## Bodies that name a unit (R110, R112, R213) -/

theorem parseUnitNumber_pair {a b : Byte} (h : pairNumber a b ≤ 4095) :
    parseUnitNumber [a, b] = .ok (pairNumber a b) := by
  simp [parseUnitNumber, parseOne, fields, beNat_pair, inRange, h]

theorem beNat_byte (b : Byte) : beNat [b] = b.toNat := by simp [beNat]

theorem parseUnitAction_bytes {a b k : Byte} (h : pairNumber a b ≤ 4095) (hk : k.toNat < 2) :
    parseAction 2 4095 2 [a, b, k] = .ok (pairNumber a b, k.toNat) := by
  have hp : fields [2, 1] [a, b, k] = some [pairNumber a b, k.toNat] := by
    simp [fields, beNat_pair, beNat_byte]
  simp [parseAction, hp, inRange, h, hk]

/-! ## What each request does to its entry -/

theorem beginService_inHand {s : State} {f : Frame} (hf : s.inHand f) (u : Nat) (e : UnitEntry) :
    (beginService u e s).inHand f := by
  refine inHand_of_moves hf (beginService_moves (Moves.refl _ s) ?_ ?_ ?_ ?_) <;> simp

theorem queueRelock_inHand {s : State} {f : Frame} (hf : s.inHand f) (u : Nat) : (queueRelock u s).inHand f := by
  refine inHand_of_moves hf (queueRelock_moves (Moves.refl _ s) ?_ ?_ ?_ ?_) <;> simp

theorem placeByDoor_inHand {s : State} {f : Frame} (hf : s.inHand f) (u : Nat) (cause : LeftOpenCause) :
    (placeByDoor u cause s).inHand f := by
  refine inHand_of_moves hf (placeByDoor_moves (Moves.refl _ s) ?_ ?_ ?_) <;> simp

/-- What a UNIT_SERVICE or UNIT_ALARM_RESET request does to an entry whose record is present, and its reply. -/
def actOnUnit (c : Instr) (u : Nat) (e : UnitEntry) (s : State) : State :=
  match c with
  | .unitServiceBegin =>
    match e.state with
    | .unknown => reply .nodeLost [] s
    | .service => reply .ok [] s
    | _ => reply .ok [] (beginService u e s)
  | .unitServiceEnd =>
    if e.state = .service then reply .ok [] (placeByDoor u .serviceEnd (queueRelock u s))
    else reply .wrongState [] s
  | .unitAlarmReset =>
    if e.state = .forced then reply .ok [] (placeByDoor u .alarmReset s) else reply .notAlarmed [] s
  | _ => s

/-- Each of the three requests, fitting its row, goes on to the mode test with its own action. -/
theorem unitRequest_row {s : State} {f : Frame} (hf : s.inHand f) {a b k : Byte} (hu : pairNumber a b ≤ 4095)
    {c : Instr} (hc : c = .unitServiceBegin ∧ f.kind = 0x49 ∧ f.body = [a, b, k] ∧ k = 0 ∨
      c = .unitServiceEnd ∧ f.kind = 0x49 ∧ f.body = [a, b, k] ∧ k = 1 ∨
      c = .unitAlarmReset ∧ f.kind = 0x4A ∧ f.body = [a, b]) :
    exec c s = .next (tested (.ok (pairNumber a b) : Parsed Nat) outsideStarting
      (fun u => withUnitRecord u fun _ => actOnUnit c u) s) := by
  rcases hc with ⟨rfl, hk, hb, rfl⟩ | ⟨rfl, hk, hb, rfl⟩ | ⟨rfl, hk, hb⟩
  · exact congrArg _ (takingAction_fits hf (congrArg _ hk) (hb ▸ parseUnitAction_bytes hu (by decide)))
  · exact congrArg _ (takingAction_fits hf (congrArg _ hk) (hb ▸ parseUnitAction_bytes hu (by decide)))
  · refine congrArg _ ((taking_inHand hf _ (congrArg _ hk)).trans ?_)
    rw [hb, parseUnitNumber_pair hu]
    rfl

theorem unitServiceBegin_cases {s : State} {f : Frame} (hf : s.inHand f) (u : Nat) (e : UnitEntry) :
    (e.state = .unknown → actOnUnit .unitServiceBegin u e s = s.answered f .nodeLost []) ∧
    (e.state = .service → actOnUnit .unitServiceBegin u e s = s.answered f .ok []) ∧
    (e.state ≠ .unknown → e.state ≠ .service →
      actOnUnit .unitServiceBegin u e s = (beginService u e s).answered f .ok []) := by
  refine ⟨fun h => ?_, fun h => ?_, fun hu hs => ?_⟩
  · simp only [actOnUnit, h, reply_status hf]
  · simp only [actOnUnit, h, reply_status hf]
  · simp only [actOnUnit, reply_status (beginService_inHand hf u e)]

theorem unitServiceEnd_cases {s : State} {f : Frame} (hf : s.inHand f) (u : Nat) (e : UnitEntry) :
    (e.state ≠ .service → actOnUnit .unitServiceEnd u e s = s.answered f .wrongState []) ∧
    (e.state = .service → actOnUnit .unitServiceEnd u e s =
      (placeByDoor u .serviceEnd (queueRelock u s)).answered f .ok []) :=
  ⟨fun h => (if_neg h).trans (reply_status hf _),
    fun h => (if_pos h).trans (reply_status (placeByDoor_inHand (queueRelock_inHand hf u) u _) _)⟩

theorem unitAlarmReset_cases {s : State} {f : Frame} (hf : s.inHand f) (u : Nat) (e : UnitEntry) :
    (e.state ≠ .forced → actOnUnit .unitAlarmReset u e s = s.answered f .notAlarmed []) ∧
    (e.state = .forced → actOnUnit .unitAlarmReset u e s = (placeByDoor u .alarmReset s).answered f .ok []) :=
  ⟨fun h => (if_neg h).trans (reply_status hf _),
    fun h => (if_pos h).trans (reply_status (placeByDoor_inHand hf u _) _)⟩

/-- Settles O54: the mode and the record by the tests that the three requests share, then each by the entry's state. -/
theorem unitServiceAndAlarmReset : Obligations.UnitServiceAndAlarmReset := by
  refine ⟨fun s u e cause he => ⟨fun h => placeByDoor_closed he h cause, fun h here => ?_, fun h away => ?_⟩,
    fun s f a b k hf => ?_⟩
  · exact (placeByDoor_open he h cause).trans (if_pos here)
  · exact (placeByDoor_open he h cause).trans (if_neg away)
  · intro u begins ends resets hu c hc
    have row := unitRequest_row hf hu hc
    refine ⟨fun hm => row.trans (congrArg _ (tested_mode hf _ (by rw [hm]; rfl))), fun hm => ?_⟩
    have run := row.trans (congrArg _ (tested_ok _ (outsideStarting_eq hm)))
    refine ⟨fun h => run.trans (congrArg _ (withUnitRecord_absent hf _ h)),
      fun h => run.trans (congrArg _ (withUnitRecord_damaged hf _ h)), fun r x e hr he => ?_⟩
    have acts : exec c s = .next (actOnUnit c u e s) := run.trans (congrArg _ (withUnitRecord_present _ hr he))
    rw [acts]
    obtain ⟨lost, already, begun⟩ := unitServiceBegin_cases hf u e
    obtain ⟨notInService, ended⟩ := unitServiceEnd_cases hf u e
    obtain ⟨notForced, reset⟩ := unitAlarmReset_cases hf u e
    refine ⟨?_, ?_, ?_, ?_, ?_, ?_, ?_⟩ <;> rintro rfl
    · exact fun h => congrArg _ (lost h)
    · exact fun h => congrArg _ (already h)
    · exact fun h h' => congrArg _ (begun h h')
    · exact fun h => congrArg _ (notInService h)
    · exact fun h => congrArg _ (ended h)
    · exact fun h => congrArg _ (notForced h)
    · exact fun h => congrArg _ (reset h)

end Sys2Proof.Machine
end

section
/-! PROOF. What each operation of the Lift Scheduler makes of a car, and what it leaves: the layer that the statements
about lifts (O55, O56, O57) rewrite with. -/

namespace Sys2Proof.Machine

/-! ## A car that is there (R119) -/

/-- A car that has been changed. -/
theorem car_changed {c : Nat} {s : State} {x : Car} (hx : s.car c = some x) (f : Car → Car) :
    (withCar c f s).car c = some (f x) := by
  rw [car_withCar, if_pos rfl, hx]
  rfl

/-- A change of a car tells the busy summary when that summary changes. -/
theorem withCar_eq (c : Nat) (f : Car → Car) (s : State) :
    let t : State := { s with lifts := { s.lifts with cars := s.lifts.cars.modify c f } }
    withCar c f s = { t with
      site := if t.carsBusy = s.carsBusy then s.site
        else { s.site with reports := s.site.reports ++ [.cars t.carsBusy] } } := by
  unfold withCar
  simp only [toSite_unless]

@[simp] theorem withCar_seconds (c : Nat) (f : Car → Car) (s : State) :
    (withCar c f s).site.seconds = s.site.seconds := by
  unfold withCar
  dsimp only
  split <;> rfl

@[simp] theorem withCar_mode (c : Nat) (f : Car → Car) (s : State) :
    (withCar c f s).site.mode = s.site.mode := by
  unfold withCar
  dsimp only
  split <;> rfl

/-- The recall floor is no field of a car (R134; log 36). -/
@[simp] theorem withCar_recallFloor (c : Nat) (f : Car → Car) (s : State) :
    (withCar c f s).recallFloor = s.recallFloor := by
  unfold withCar
  dsimp only
  split <;> rfl

/-- Two changes of a car that agree on it are one. -/
theorem withCar_congr {c : Nat} {s : State} {f k : Car → Car} (h : ∀ x, s.car c = some x → f x = k x) :
    withCar c f s = withCar c k s := by
  have hl : s.lifts.cars.modify c f = s.lifts.cars.modify c k := by
    refine List.ext_getElem? fun i => ?_
    rw [List.getElem?_modify, List.getElem?_modify]
    by_cases hi : c = i
    · subst hi
      cases hx : s.lifts.cars[c]? with
      | none => rfl
      | some x => simpa using h x hx
    · simp [hi]
  unfold withCar
  rw [hl]

/-- Two ways to take the cars in turn that agree on each car. -/
theorem foldl_cars {f k : State → Nat → State} (h : ∀ s c, f s c = k s c) (s : State) :
    carNumbers.foldl f s = (List.range 4).foldl k s :=
  congrArg (fun step => List.foldl step s carNumbers) (funext fun s => funext (h s))

/-! ## Commands to a panel (R121, R132) -/

theorem liftSend_eq {c : Nat} {s : State} {x : Car} (hx : s.car c = some x) (cmd : NodeCommand) :
    liftSend c cmd s = submit x.record.val.seg x.record.val.node (.command cmd) .urgent (.lift c cmd) s := by
  simp only [liftSend, hx]

theorem sendEnable_none {c : Nat} {s : State} {x : Car} (hx : s.car c = some x) (ht : x.trip = none) :
    sendEnable c s = s := by
  simp only [sendEnable, hx, Option.bind_some, ht]

theorem sendEnable_some {c : Nat} {s : State} {x : Car} (hx : s.car c = some x) {t : Trip} (ht : x.trip = some t) :
    sendEnable c s = liftSend c (.enableFloors (floorSet t.calls)) s := by
  simp only [sendEnable, hx, Option.bind_some, ht]

/-! ## Dispatch and recall (R125, R134, R136) -/

theorem idleDispatch_calls {c : Nat} {s : State} {x : Car} (hx : s.car c = some x) (hi : x.state = .idle) {k : Call}
    {rest : List Call} (hq : x.queue = k :: rest) : idleDispatch c s =
      withCar c (fun x => { x with state := .toPickup, target := some k.origin })
        (liftSend c (.dispatch k.origin) s) := by
  simp only [idleDispatch, hx, hi, hq]

/-- Only an IDLE car with calls is dispatched. -/
theorem idleDispatch_rests {c : Nat} {s : State} {x : Car} (hx : s.car c = some x)
    (h : x.state ≠ .idle ∨ x.queue = []) : idleDispatch c s = s := by
  unfold idleDispatch
  rw [hx]
  dsimp only
  split
  · rename_i hi hq
    exact h.elim (absurd hi) fun hn => absurd (hq.symm.trans hn) (by simp)
  · rfl

theorem recallCar_eq {c : Nat} {s : State} {x : Car} (hx : s.car c = some x) :
    let floor := max x.record.val.low (min x.record.val.high s.recallFloor)
    recallCar c s = withCar c (fun x => { x with target := some floor, state := .recall })
      (liftSend c (.recall floor) s) := by
  simp only [recallCar, hx, recallTarget]

/-! ## The request in hand (R140) -/

theorem serviceOut_inHand {s : State} {f : Frame} (hf : s.inHand f) (c : Nat) (x : Car) :
    (serviceOut c x s).inHand f := by
  refine inHand_of_moves hf (serviceOut_moves (Moves.refl _ s) ?_ ?_ ?_ ?_ ?_) <;> simp

theorem causeHost_inHand {s : State} {f : Frame} (hf : s.inHand f) (c : Nat) : (causeHost c s).inHand f := by
  refine inHand_of_moves hf (causeHost_moves (Moves.refl _ s) ?_ ?_ ?_) <;> simp

theorem returnCar_inHand {s : State} {f : Frame} (hf : s.inHand f) (c : Nat) : (returnCar c s).inHand f := by
  refine inHand_of_moves hf (returnCar_moves (Moves.refl _ s) ?_ ?_ ?_ ?_) <;> simp

end Sys2Proof.Machine
end

section
/-! PROOF. The car a call goes to, the calls' order in a queue, and how a call leaves it (O55). -/

namespace Sys2Proof.Machine

/-! ## Car choice (R123) -/

theorem serves_iff (x : Car) (o d : Nat) : x.serves o d = true ↔ x.record.val.present = true ∧ x.state ≠ .out ∧
    x.state ≠ .recall ∧ x.state ≠ .parked ∧ x.record.val.low ≤ o ∧ o ≤ x.record.val.high ∧
    x.record.val.low ≤ d ∧ d ≤ x.record.val.high := by
  simp [Car.serves, and_assoc]

theorem eligible_iff (x : Car) (o d : Nat) : x.eligible o d = true ↔ x.serves o d = true ∧ x.queue.length < 24 := by
  rw [Car.eligible, Bool.and_eq_true, decide_eq_true_eq]
  rfl

/-- Of the cars `l` numbered from `c` on, car `e` is eligible with `n` queued calls, and every eligible one has more, or
as many and a number not lower. -/
def BestCar (o d c : Nat) (l : List Car) (e n : Nat) : Prop :=
  ∃ x, c ≤ e ∧ l[e - c]? = some x ∧ x.eligible o d = true ∧ x.queue.length = n ∧
    ∀ i y, l[i]? = some y → y.eligible o d = true → n < y.queue.length ∨ n = y.queue.length ∧ e ≤ c + i

/-- The best of the later cars is the best of all when the first is not eligible or has more calls. -/
theorem BestCar.later {o d c e n : Nat} {x : Car} {rest : List Car} (h : BestCar o d (c + 1) rest e n)
    (hx : x.eligible o d = true → n < x.queue.length) : BestCar o d c (x :: rest) e n := by
  obtain ⟨z, hc, hz, hel, hn, hbest⟩ := h
  refine ⟨z, by omega, ?_, hel, hn, fun i y hy he => ?_⟩
  · rw [show e - c = e - (c + 1) + 1 by omega]
    exact hz
  · cases i with
    | zero =>
      cases hy
      exact .inl (hx he)
    | succ i => simpa [Nat.add_assoc, Nat.add_comm 1] using hbest i y hy he

/-- An eligible first car is the best when no eligible later one has fewer calls. -/
theorem BestCar.first {o d : Nat} (c : Nat) {x : Car} {rest : List Car} (hx : x.eligible o d = true)
    (h : ∀ y ∈ rest, y.eligible o d = true → x.queue.length ≤ y.queue.length) :
    BestCar o d c (x :: rest) c x.queue.length := by
  refine ⟨x, Nat.le_refl _, by simp, hx, rfl, fun i y hy he => ?_⟩
  cases i with
  | zero =>
    cases hy
    exact .inr ⟨rfl, Nat.le_refl _⟩
  | succ i =>
    have := h y (List.mem_of_getElem? hy) he
    omega

/-- No car is chosen only where no car is eligible. -/
theorem fewestQueued_none {o d : Nat} {l : List Car} {c : Nat} (h : fewestQueued o d c l = none) :
    ∀ y ∈ l, y.eligible o d = false := by
  induction l generalizing c with
  | nil => simp
  | cons x rest ih =>
    unfold fewestQueued at h
    split at h
    · split at h
      · split at h <;> cases h
      · cases h
    · rename_i hx
      simpa using ⟨by simpa using hx, ih h⟩

theorem fewestQueued_best {o d : Nat} {l : List Car} {c e n : Nat} (h : fewestQueued o d c l = some (e, n)) :
    BestCar o d c l e n := by
  induction l generalizing c e n with
  | nil => cases h
  | cons x rest ih =>
    unfold fewestQueued at h
    split at h
    next hx =>
      split at h
      next e' n' hr =>
        obtain ⟨z, -, -, -, -, hbest⟩ := ih hr
        split at h
        next hlt =>
          cases h
          exact (ih hr).later fun _ => hlt
        next hge =>
          cases h
          refine .first c hx fun y hy he => ?_
          obtain ⟨i, hi⟩ := List.mem_iff_getElem?.mp hy
          have := hbest i y hi he
          omega
      next hr =>
        cases h
        exact .first c hx fun y hy he => absurd he (by simp [fewestQueued_none hr y hy])
    next hx => exact (ih h).later fun he => absurd he hx

theorem chooseCar_some {s : State} {o d c : Nat} (h : s.chooseCar o d = some c) :
    ∃ x, s.car c = some x ∧ x.eligible o d = true ∧ ∀ c' y, s.car c' = some y → y.eligible o d = true →
      x.queue.length < y.queue.length ∨ (x.queue.length = y.queue.length ∧ c ≤ c') := by
  obtain ⟨⟨e, n⟩, hf, rfl⟩ := Option.map_eq_some_iff.mp h
  obtain ⟨x, -, hx, he, rfl, hbest⟩ := fewestQueued_best hf
  exact ⟨x, hx, he, fun c' y hy hel => by simpa using hbest c' y hy hel⟩

theorem chooseCar_none {s : State} {o d : Nat} (h : s.chooseCar o d = none) {c : Nat} {x : Car}
    (hx : s.car c = some x) : x.eligible o d = false :=
  fewestQueued_none (Option.map_eq_none_iff.mp h) x (List.mem_of_getElem? hx)

/-! ## The place of a call (R120, R123) -/

/-- A call stands after the last of equal or higher priority. -/
theorem insertCall_splits (k : Call) (q : List Call) : ∃ a b, q = a ++ b ∧ insertCall k q = a ++ k :: b ∧
    (∀ x ∈ a, k.priority ≤ x.priority) ∧ ∀ x, b.head? = some x → x.priority < k.priority := by
  induction q with
  | nil => exact ⟨[], [], rfl, rfl, by simp, by simp⟩
  | cons x rest ih =>
    unfold insertCall
    split
    next hlt => exact ⟨[], x :: rest, rfl, rfl, by simp, by simpa using hlt⟩
    next hge =>
      obtain ⟨a, b, rfl, hins, ha, hb⟩ := ih
      exact ⟨x :: a, b, rfl, by rw [hins]; rfl, by simpa using ⟨by omega, ha⟩, hb⟩

theorem joinsAtOnce_iff (x : Car) (k : Call) : x.joinsAtOnce k = true ↔
    x.state = .boarding ∧ ∃ t, x.trip = some t ∧ t.floor = k.origin ∧ t.calls.length < t.capacity := by
  unfold Car.joinsAtOnce
  cases x.trip <;> simp

theorem placeCall_chosen {k : Call} {s : State} {c : Nat} {x : Car} (hc : s.chooseCar k.origin k.dest = some c)
    (hx : s.car c = some x) : placeCall k s = joinCar c x k s := by
  simp only [placeCall, hc, hx]

theorem placeCall_refused {k : Call} {s : State} (hc : s.chooseCar k.origin k.dest = none) : placeCall k s =
    (if ∃ x ∈ s.lifts.cars, x.serves k.origin k.dest = true then .callsFull else .noCar, s) := by
  simp only [placeCall, hc, List.any_eq_true]

/-! ## The boarding timer (R128) -/

theorem boardingTimerExpiry_eq {c : Nat} {s : State} {x : Car} (hx : s.car c = some x) :
    exec (.boardingTimerExpiry c) s = .next
      (if x.state = .boarding ∧ ∃ d, x.timer = some d ∧ d ≤ s.site.seconds then
        withCar c (fun x => { x with departSent := true, timer := none }) (liftSend c .depart s)
      else s) := by
  simp only [exec, execBoardingTimerExpiry, hx, Bool.and_eq_true, decide_eq_true_eq, timerDue_iff]

/-! ## Calls that leave (R127, R130, R131) -/

theorem headLeft_other {c : Nat} {s : State} {x : Car} (hx : s.car c = some x) (h : x.state ≠ .toPickup) :
    headLeft c s = s := by
  simp only [headLeft, hx, h, if_false]

theorem headLeft_last {c : Nat} {s : State} {x : Car} (hx : s.car c = some x) (h : x.state = .toPickup)
    (hq : x.queue = []) : headLeft c s = standIdle c s := by
  simp only [headLeft, hx, h, if_true, hq]

theorem headLeft_next {c : Nat} {s : State} {x : Car} (hx : s.car c = some x) (h : x.state = .toPickup) {k : Call}
    {more : List Call} (hq : x.queue = k :: more) : headLeft c s =
      if x.target = some k.origin then s
      else withCar c (fun x => { x with target := some k.origin }) (liftSend c (.dispatch k.origin) s) := by
  simp only [headLeft, hx, h, if_true, hq]

/-- A call that leaves its queue is filtered out; the head's going is told to the car. -/
theorem leaveQueue_eq {c : Nat} {s : State} {x : Car} (hx : s.car c = some x) (id : Nat) :
    let w := withCar c (fun x => { x with queue := x.queue.filter fun k => k.id != id }) s
    leaveQueue c id s = if x.queue.head?.map Call.id = some id then headLeft c w else w := by
  simp only [leaveQueue, hx]

/-- How a call leaves its queue: the head of a car in TO_PICKUP sends the car elsewhere (R127). -/
theorem leaveQueue_cases {c : Nat} {s : State} {x : Car} (hx : s.car c = some x) (id : Nat) :
    let left := x.queue.filter fun k => k.id != id
    let w := withCar c (fun x => { x with queue := x.queue.filter fun k => k.id != id }) s
    let retargets := x.state = .toPickup ∧ x.queue.head?.map Call.id = some id
    (¬retargets → leaveQueue c id s = w) ∧
    (retargets → left = [] → leaveQueue c id s = standIdle c w) ∧
    (retargets → ∀ k more, left = k :: more →
      (x.target = some k.origin → leaveQueue c id s = w) ∧
      (x.target ≠ some k.origin → leaveQueue c id s =
        withCar c (fun x => { x with target := some k.origin }) (liftSend c (.dispatch k.origin) w))) := by
  intro left w retargets
  have hw : w.car c = some { x with queue := left } := car_changed hx _
  have hl : leaveQueue c id s = if x.queue.head?.map Call.id = some id then headLeft c w else w :=
    leaveQueue_eq hx id
  rw [hl]
  refine ⟨fun hn => ?_, fun hr he => ?_, fun hr k more hk => ?_⟩
  · split
    next hh => exact headLeft_other hw fun hs => hn ⟨hs, hh⟩
    next => rfl
  · rw [if_pos hr.2, headLeft_last hw hr.1 he]
  · rw [if_pos hr.2, headLeft_next hw hr.1 hk]
    exact ⟨fun ht => if_pos ht, fun ht => if_neg ht⟩

/-- A queued call expires once its deadline is reached. -/
theorem callExpiry_eq {s : State} {id c : Nat} {x : Car} {k : Call} (hc : s.queuedOn id = some c)
    (hx : s.car c = some x) (hk : x.queue.find? (fun k => k.id == id) = some k) :
    exec (.callExpiry id) s = .next (if k.deadline ≤ s.site.seconds then expireCall c k s else s) := by
  simp only [exec, execCallExpiry, hc, hx, Option.bind_some, hk]

theorem callWithdrawal_head {s : State} {id : Nat} {rest : List Nat} (h : s.lifts.withdrawals = id :: rest) :
    exec .callWithdrawal s =
      .next (withdrawCall { s with lifts := { s.lifts with withdrawals := rest } } id) := by
  simp only [exec, execCallWithdrawal, h]

theorem withdrawCall_queued {s : State} {id c : Nat} (h : s.queuedOn id = some c) :
    withdrawCall s id = leaveQueue c id s := by
  simp only [withdrawCall, h]

theorem withdrawCall_boarded {s : State} {id c : Nat} (hq : s.queuedOn id = none) (h : s.boardedOn id = some c) :
    withdrawCall s id = leaveTrip c id s := by
  simp only [withdrawCall, hq, h]

theorem withdrawCall_absent {s : State} {id : Nat} (hq : s.queuedOn id = none) (h : s.boardedOn id = none) :
    withdrawCall s id = s := by
  simp only [withdrawCall, hq, h]

/-- Settles O55: the choice by `fewestQueued_best`, the place by `insertCall_splits`, the leaving by
`leaveQueue_cases`. -/
theorem callsArePlacedAndLeaveTheirQueues : Obligations.CallsArePlacedAndLeaveTheirQueues := by
  refine ⟨fun s o d => ⟨fun c => chooseCar_some, fun h c x => chooseCar_none h⟩, insertCall_splits,
    fun k s => ⟨fun c x hc hx => ?_, placeCall_refused⟩, fun s c x hx => ?_, fun s id c x k hc hx hk => ?_,
    fun s id rest h => ?_, fun x o d => ⟨serves_iff x o d, eligible_iff x o d⟩⟩
  · intro joins
    rw [placeCall_chosen hc hx]
    exact ⟨fun h => if_pos ((joinsAtOnce_iff x k).mpr h), fun h => if_neg fun hj => h ((joinsAtOnce_iff x k).mp hj)⟩
  · rw [boardingTimerExpiry_eq hx]
    refine ⟨fun k rest hi => idleDispatch_calls hx hi, idleDispatch_rests hx,
      fun h d hd => ⟨fun hle => ?_, fun hlt => ?_⟩, fun h => ?_, leaveQueue_cases hx⟩
    · rw [if_pos ⟨h, d, hd, hle⟩]
    · rw [if_neg fun hdue => not_reached hd hlt hdue.2]
    · rw [if_neg fun hdue => h.elim (absurd hdue.1) fun hn => not_reached_of_stopped hn hdue.2]
  · have hid : k.id = id := by simpa using List.find?_some hk
    rw [callExpiry_eq hc hx hk]
    refine ⟨fun hle => ?_, fun hlt => ?_⟩
    · rw [if_pos hle, expireCall, hid]
    · rw [if_neg (by omega)]
  · intro u
    rw [callWithdrawal_head h]
    exact ⟨fun c hc => congrArg _ (withdrawCall_queued hc), fun c hq hb => congrArg _ (withdrawCall_boarded hq hb),
      fun hq hb => congrArg _ (withdrawCall_absent hq hb)⟩

end Sys2Proof.Machine
end

section
/-! PROOF. Cars taken OUT and returned, the outcomes of their commands, the loss of a panel and CAR_SERVICE (O56). -/

namespace Sys2Proof.Machine

/-! ## Out of service and back (R124, R133, R134) -/

theorem takeOut_out {c : Nat} {s : State} {x : Car} (hx : s.car c = some x) (h : x.state = .out) (cause : OutCause)
    (reason : CarReason) (failed : Option (NodeCommand × TxOutcome)) : takeOut c cause reason failed s = s := by
  simp only [takeOut, hx, h, if_true]

/-- A car taken OUT first loses its timer, target, trip and queue; then its calls are told and placed again. -/
theorem takeOut_other {c : Nat} {s : State} {x : Car} (hx : s.car c = some x) (h : x.state ≠ .out) (cause : OutCause)
    (reason : CarReason) (failed : Option (NodeCommand × TxOutcome)) :
    let gone := withCar c (fun x =>
      { x with
        timer := none, departSent := false, target := none, state := .out, cause := some cause
        lastFloor := if reason = .nodeLoss then none else x.lastFloor
        lastDoorsOpen := if reason = .nodeLoss then none else x.lastDoorsOpen
        trip := none, queue := [] }) s
    takeOut c cause reason failed s = x.queue.foldl (replaceCall c)
      ((tripCalls x.trip).foldl (cancelCall c .carOut true) (putNotice (.carState c x.state .out (some cause) reason failed) gone)) := by
  simp only [takeOut, hx, h, if_false]

/-- In EVACUATE a car that leaves OUT is recalled. -/
theorem returnCar_evacuate {c : Nat} {s : State} {x : Car} (hx : s.car c = some x) (hm : s.site.mode = .evacuate) :
    let back := withCar c (fun x => { x with cause := none }) s
    let floor := max x.record.val.low (min x.record.val.high s.recallFloor)
    returnCar c s = putNotice (.carState c .out .recall none .return_ none)
      (withCar c (fun x => { x with target := some floor, state := .recall }) (liftSend c (.recall floor) back)) := by
  simp only [returnCar, withCar_mode, hm, if_true, recallCar_eq (car_changed hx _), withCar_recallFloor]

/-- Outside EVACUATE a car that leaves OUT stands. -/
theorem returnCar_other {s : State} (hm : s.site.mode ≠ .evacuate) (c : Nat) :
    returnCar c s = putNotice (.carState c .out .idle none .return_ none)
      (standIdle c (withCar c (fun x => { x with cause := none }) s)) := by
  simp only [returnCar, withCar_mode, hm, if_false]

theorem recallFloor_eq (s : State) : s.recallFloor =
    if .evacBegin ∈ s.lifts.orders then s.site.params.val.recallFloor else s.lifts.recallFloor := by
  simp only [State.recallFloor, List.contains_iff_mem]

/-! ## Outcomes and the loss of a panel (R118, R132) -/

theorem liftCommandOutcome_head {s : State} {g : Seg} {c : Nat} {cmd : NodeCommand} {o : TxOutcome}
    {rest : List FieldReport} (h : (s.seg g).toLifts = .outcome (.lift c cmd) o :: rest) :
    exec (.liftCommandOutcome g) s =
      .next (takeLiftOutcome c cmd o (s.modSeg g fun x => { x with toLifts := rest })) := by
  simp only [exec, execLiftCommandOutcome, h]

theorem takeLiftOutcome_failed {o : TxOutcome} (h : o = .noAck ∨ o = .displaced ∨ o = .fieldFull) (c : Nat)
    (cmd : NodeCommand) (s : State) :
    takeLiftOutcome c cmd o s = takeOut c .node .commandFailed (some (cmd, o)) s := by
  rcases h with rfl | rfl | rfl <;> rfl

theorem takeLiftOutcome_lost {o : TxOutcome} (h : o = .nodeLost ∨ o = .segmentIsolated) (c : Nat)
    (cmd : NodeCommand) (s : State) : takeLiftOutcome c cmd o s = takeOut c .node .nodeLoss none s := by
  rcases h with rfl | rfl <;> rfl

theorem panelLoss_head {s : State} {g : Seg} {n : Nat} {b : Binding} {rest : List FieldReport}
    (h : (s.seg g).toLifts = .lost n b :: rest) : exec (.panelLoss g) s =
      .next (carNumbers.foldl (losePanel g n) (s.modSeg g fun x => { x with toLifts := rest })) := by
  simp only [exec, execPanelLoss, h]

theorem losePanel_none {s : State} {c : Nat} (hx : s.car c = none) (g : Seg) (n : Nat) : losePanel g n s c = s := by
  simp only [losePanel, hx]

theorem losePanel_some {s : State} {c : Nat} {x : Car} (hx : s.car c = some x) (g : Seg) (n : Nat) :
    losePanel g n s c =
      if x.record.val.seg = g ∧ x.record.val.node = n then takeOut c .node .nodeLoss none s else s := by
  simp only [losePanel, hx, Bool.and_eq_true, decide_eq_true_eq]

/-! ## CAR_SERVICE (R140) -/

theorem withPresentCar_absent {s : State} {f : Frame} (hf : s.inHand f) {c : Nat} {x : Car} (hx : s.car c = some x)
    (hp : x.record.val.present = false) (k : Nat → Car → State → State) :
    withPresentCar k c s = s.answered f .notFound [] := by
  simp only [withPresentCar, hx, hp, Bool.false_eq_true, if_false, reply_status hf]

theorem withPresentCar_present {s : State} {c : Nat} {x : Car} (hx : s.car c = some x)
    (hp : x.record.val.present = true) (k : Nat → Car → State → State) : withPresentCar k c s = k c x s := by
  simp only [withPresentCar, hx, hp, if_true]

/-- What CAR_SERVICE with the action `b` does to a present car, and its reply. -/
def serveCar (b : Byte) (c : Nat) (x : Car) (s : State) : State :=
  if b = 0 then
    reply .ok [] (if x.state = .out then if x.cause = some .host then s else causeHost c s else serviceOut c x s)
  else if x.state = .out then
    if x.cause = some .host then
      if s.panelLiveness x = some .live then reply .ok [] (returnCar c s) else reply .nodeLost [] s
    else reply .wrongState [] s
  else reply .ok [] s

/-- Each row of CAR_SERVICE runs its own action. -/
theorem carService_rows {b : Byte} {i : Instr} (h : b = 0 ∧ i = .carServiceOut ∨ b = 1 ∧ i = .carServiceIn)
    (s : State) : b.toNat < 2 ∧ exec i s =
      .next (takingAction 0x51 1 3 2 b.toNat (withPresentCar (serveCar b)) s) := by
  rcases h with ⟨rfl, rfl⟩ | ⟨rfl, rfl⟩ <;> exact ⟨by decide, rfl⟩

/-- A CAR_SERVICE request that fits its row: the mode, the record, then its action. -/
theorem carService_request {s : State} {f : Frame} (hf : s.inHand f) {a b : Byte} (hk : f.kind = 0x51)
    (hb : f.body = [a, b]) (ha : a.toNat ≤ 3) {x : Car} (hx : s.car a.toNat = some x) {i : Instr}
    (hi : b = 0 ∧ i = .carServiceOut ∨ b = 1 ∧ i = .carServiceIn) :
    (s.site.mode = .starting → exec i s = .next (s.answered f .wrongMode [])) ∧
    (s.site.mode ≠ .starting →
      (x.record.val.present = false → exec i s = .next (s.answered f .notFound [])) ∧
      (x.record.val.present = true → exec i s = .next (serveCar b a.toNat x s))) := by
  obtain ⟨hlt, he⟩ := carService_rows hi s
  have ht := he.trans (congrArg _ (takingAction_fits hf (congrArg _ hk) (hb ▸ parseAction_bytes ha hlt)))
  refine ⟨fun hm => ht.trans (congrArg _ (tested_mode hf _ (by rw [hm]; rfl))), fun hm => ?_⟩
  have hs := ht.trans (congrArg _ (tested_ok _ (outsideStarting_eq hm)))
  exact ⟨fun hp => hs.trans (congrArg _ (withPresentCar_absent hf hx hp _)),
    fun hp => hs.trans (congrArg _ (withPresentCar_present hx hp _))⟩

theorem serveCar_out {s : State} {f : Frame} (hf : s.inHand f) (c : Nat) (x : Car) :
    (x.state = .out → x.cause = some .host → serveCar 0 c x s = s.answered f .ok []) ∧
    (x.state = .out → x.cause ≠ some .host → serveCar 0 c x s = (causeHost c s).answered f .ok []) ∧
    (x.state ≠ .out → serveCar 0 c x s = (serviceOut c x s).answered f .ok []) := by
  refine ⟨fun h hc => ?_, fun h hc => ?_, fun h => ?_⟩
  · simp only [serveCar, h, hc, if_true, reply_status hf]
  · simp only [serveCar, h, hc, if_true, if_false, reply_status (causeHost_inHand hf c)]
  · simp only [serveCar, h, if_true, if_false, reply_status (serviceOut_inHand hf c x)]

theorem serveCar_in {s : State} {f : Frame} (hf : s.inHand f) (c : Nat) (x : Car) :
    (x.state ≠ .out → serveCar 1 c x s = s.answered f .ok []) ∧
    (x.state = .out → x.cause ≠ some .host → serveCar 1 c x s = s.answered f .wrongState []) ∧
    (x.state = .out → x.cause = some .host → s.panelLiveness x ≠ some .live →
      serveCar 1 c x s = s.answered f .nodeLost []) ∧
    (x.state = .out → x.cause = some .host → s.panelLiveness x = some .live →
      serveCar 1 c x s = (returnCar c s).answered f .ok []) := by
  have row : serveCar 1 c x s = if x.state = .out then
      if x.cause = some .host then
        if s.panelLiveness x = some .live then (returnCar c s).answered f .ok [] else s.answered f .nodeLost []
      else s.answered f .wrongState []
    else s.answered f .ok [] := by
    simp only [← reply_status hf, ← reply_status (returnCar_inHand hf c)]
    rfl
  rw [row]
  exact ⟨fun h => if_neg h, fun h hc => (if_pos h).trans (if_neg hc),
    fun h hc hl => (if_pos h).trans ((if_pos hc).trans (if_neg hl)),
    fun h hc hl => (if_pos h).trans ((if_pos hc).trans (if_pos hl))⟩

/-- STAND goes first to a panel that is LIVE or QUIET. -/
theorem serviceOut_eq (c : Nat) (x : Car) (s : State) : serviceOut c x s = takeOut c .host .host none
    (if s.panelLiveness x = some .live ∨ s.panelLiveness x = some .quiet then liftSend c .stand s else s) := by
  unfold serviceOut
  cases s.panelLiveness x with
  | none => rfl
  | some l => cases l <;> rfl

/-- Settles O56: each operation by the state of its car, CAR_SERVICE by `carService_request` and what it then does. -/
theorem carsGoOutAndReturn : Obligations.CarsGoOutAndReturn := by
  refine ⟨fun s c x cause reason failed hx => ?_, recallFloor_eq, fun s g c cmd o rest h => ?_,
    fun s g n b rest h => ?_, fun s f a b x hf hk hb ha hx => ?_, withCar_eq⟩
  · refine ⟨fun h => takeOut_out hx h .., fun h => takeOut_other hx h ..,
      fun _ _ _ => rfl, ⟨returnCar_evacuate hx, fun hm => returnCar_other hm c⟩, fun k => rfl⟩
  · rw [liftCommandOutcome_head h]
    refine ⟨?_, fun ho => congrArg _ (takeLiftOutcome_failed ho ..),
      fun ho => congrArg _ (takeLiftOutcome_lost ho ..)⟩
    rintro rfl
    rfl
  · rw [panelLoss_head h]
    refine congrArg _ (foldl_cars (fun t c => ?_) _)
    cases hx : t.car c with
    | none => exact losePanel_none hx g n
    | some x => exact losePanel_some hx g n
  · intro c live i hi
    obtain ⟨starting, past⟩ := carService_request hf hk hb ha hx hi
    refine ⟨starting, fun hm => ?_⟩
    obtain ⟨absent, there⟩ := past hm
    refine ⟨absent, fun hp => ?_⟩
    rw [there hp]
    obtain ⟨already, caused, taken⟩ := serveCar_out hf c x
    obtain ⟨running, notHost, notLive, returned⟩ := serveCar_in hf c x
    refine ⟨?_, ?_, ?_, ?_, ?_, ?_, ?_⟩ <;> rintro rfl
    · exact fun h hc => congrArg _ (already h hc)
    · exact fun h hc => congrArg _ (caused h hc)
    · exact fun h => congrArg _ ((taken h).trans (by rw [serviceOut_eq]; rfl))
    · exact fun h => congrArg _ (running h)
    · exact fun h hc => congrArg _ (notHost h hc)
    · exact fun h hc hl => congrArg _ (notLive h hc hl)
    · exact fun h hc hl => congrArg _ (returned h hc hl)

end Sys2Proof.Machine
end

section
/-! PROOF. The drain, the two orders of an evacuation and the STATUS of a panel (O57). -/

namespace Sys2Proof.Machine

/-! ## The orders of Site Control (R135, R136, R137) -/

theorem drainBegin_head {s : State} {rest : List LiftOrder} (h : s.lifts.orders = .drain :: rest) :
    exec .drainBegin s = .next (toSite .drainAnswer
      (carNumbers.foldl drainCar { s with lifts := { s.lifts with orders := rest } })) := by
  simp only [exec, execDrainBegin, h]

theorem evacuationBeginLifts_head {s : State} {rest : List LiftOrder} (h : s.lifts.orders = .evacBegin :: rest) :
    exec .evacuationBeginLifts s = .next (carNumbers.foldl evacuateCar { s with lifts :=
      { s.lifts with orders := rest, recallFloor := s.site.params.val.recallFloor } }) := by
  simp only [exec, execEvacuationBeginLifts, h]

theorem evacuationEndLifts_head {s : State} {rest : List LiftOrder} (h : s.lifts.orders = .evacEnd :: rest) :
    exec .evacuationEndLifts s =
      .next (carNumbers.foldl unevacuateCar { s with lifts := { s.lifts with orders := rest } }) := by
  simp only [exec, execEvacuationEndLifts, h]

/-- As an evacuation begins a car's calls are cancelled, the boarded before the queued, and it is recalled. -/
theorem evacuateCar_there {s : State} {c : Nat} {x : Car} (hx : s.car c = some x) : evacuateCar s c =
    if x.record.val.present = true ∧ x.state ≠ .out then
      recallCar c (withCar c (fun x =>
          { x with trip := none, queue := [], timer := none, departSent := false, state := .recall })
        (x.queue.foldl (cancelCall c .evacuation false)
          ((tripCalls x.trip).foldl (cancelCall c .evacuation true) s)))
    else s := by
  simp only [evacuateCar, hx, Bool.and_eq_true, bne_iff_ne]

theorem unevacuateCar_there {s : State} {c : Nat} {x : Car} (hx : s.car c = some x) : unevacuateCar s c =
    if x.state = .recall ∨ x.state = .parked then standIdle c s else s := by
  simp only [unevacuateCar, hx, Bool.or_eq_true, decide_eq_true_eq]

/-! ## A STATUS and the car it is for (R118, R134) -/

/-- A panel that the car's record does not name, or a floor above 15, changes nothing. -/
theorem panelStatus_other {c : Nat} {s : State} {x : Car} (hx : s.car c = some x) {g : Seg} {n floor : Nat}
    (h : ¬(x.record.val.present = true ∧ x.record.val.seg = g ∧ x.record.val.node = n ∧ floor ≤ 15)) (doors : Bool) :
    panelStatus g n c floor doors s = s := by
  simp only [panelStatus, hx, Bool.and_eq_true, beq_iff_eq, decide_eq_true_eq, and_assoc, h, if_false]

theorem panelStatus_named {c : Nat} {s : State} {x : Car} (hx : s.car c = some x) {g : Seg} {n floor : Nat}
    (h : x.record.val.present = true ∧ x.record.val.seg = g ∧ x.record.val.node = n ∧ floor ≤ 15) (doors : Bool) :
    let seen := withCar c (fun x => { x with lastFloor := some floor, lastDoorsOpen := some doors }) s
    panelStatus g n c floor doors s =
      if x.state = .out then if x.cause = some .host then seen else returnCar c seen
      else panelEvent c x floor doors seen := by
  intro seen
  simp only [panelStatus, hx, Bool.and_eq_true, beq_iff_eq, decide_eq_true_eq, h, true_and, if_true]
  refine ite_congr rfl (fun _ => ?_) fun _ => rfl
  cases x.cause with
  | none => rfl
  | some cause => cases cause <;> rfl

/-! ## A STATUS by the state of the car (R125 to R129, R137) -/

theorem panelEvent_rests {x : Car} (h : x.state = .idle ∨ x.state = .parked) (c floor : Nat) (doors : Bool)
    (s : State) : panelEvent c x floor doors s = s := by
  rcases h with h | h <;> simp only [panelEvent, h]

theorem panelEvent_recall {x : Car} (h : x.state = .recall) (c floor : Nat) (doors : Bool) (s : State) :
    panelEvent c x floor doors s = if doors = true ∧ x.target = some floor then
      withCar c (fun x => { x with state := .parked, target := none }) s else s := by
  simp only [panelEvent, h, Bool.and_eq_true, beq_iff_eq]

theorem panelEvent_toPickup {x : Car} (h : x.state = .toPickup) (c floor : Nat) (doors : Bool) (s : State) :
    panelEvent c x floor doors s =
      if doors = true ∧ x.target = some floor then buildTrip c x floor s else s := by
  simp only [panelEvent, h, Bool.and_eq_true, beq_iff_eq]

theorem panelEvent_boarding_open {x : Car} (h : x.state = .boarding) (c floor : Nat) (s : State) :
    panelEvent c x floor true s = s := by
  simp only [panelEvent, h, if_true]

theorem panelEvent_boarding_closed {x : Car} (h : x.state = .boarding) (c floor : Nat) (s : State) :
    let closed := withCar c (fun x => { x with timer := none }) s
    panelEvent c x floor false s = if tripCalls x.trip = [] then endTrip c closed
      else withCar c (fun x => { x with state := .carrying }) closed := by
  simp only [panelEvent, h, Bool.false_eq_true, if_false, List.isEmpty_iff]

theorem panelEvent_carrying_empty {x : Car} (h : x.state = .carrying) (hc : tripCalls x.trip = []) (c floor : Nat)
    (doors : Bool) (s : State) : panelEvent c x floor doors s = endTrip c s := by
  cases ht : x.trip with
  | none => simp only [panelEvent, h, ht]
  | some t =>
    rw [ht] at hc
    simp only [panelEvent, h, ht, show t.calls = [] from hc, List.isEmpty_nil, if_true]

/-- With calls left in the trip, doors that open complete those for the floor. -/
theorem panelEvent_carrying {x : Car} (h : x.state = .carrying) (hc : tripCalls x.trip ≠ []) :
    ∃ t, t.calls = tripCalls x.trip ∧ ∀ c floor doors s,
      panelEvent c x floor doors s = if doors = true then completeAt c floor t s else s := by
  cases ht : x.trip with
  | none =>
    rw [ht] at hc
    exact absurd rfl hc
  | some t =>
    rw [ht] at hc
    refine ⟨t, rfl, fun c floor doors s => ?_⟩
    simp only [panelEvent, h, ht, List.isEmpty_iff, show t.calls ≠ [] from hc, if_false]

/-! ## Arrivals (R126, R129) -/

/-- An arrival where no call waits: the car stands. -/
theorem buildTrip_none {x : Car} {floor : Nat} (h : (takeCalls floor x.record.val.capacity x.queue).1 = [])
    (c : Nat) (s : State) : buildTrip c x floor s = standIdle c s := by
  simp only [buildTrip, h, List.isEmpty_nil, if_true]

/-- The calls that wait become the trip of the car, whose record gives its capacity and its boarding window. -/
theorem buildTrip_some {x : Car} {floor : Nat} (h : (takeCalls floor x.record.val.capacity x.queue).1 ≠ [])
    {c : Nat} {s : State} (hx : ∀ y, s.car c = some y → y.record = x.record) :
    let boards := (takeCalls floor x.record.val.capacity x.queue).1
    let stays := (takeCalls floor x.record.val.capacity x.queue).2
    buildTrip c x floor s = sendEnable c
      (boards.foldl (fun s k => toVisitsCall (.boarded k.id c) s) (withCar c (fun y =>
        { y with
          queue := stays, target := none, state := .boarding, departSent := false
          trip := some { calls := boards, floor := floor, capacity := y.record.val.capacity }
          timer := some (s.site.seconds + y.record.val.boardingWindow) }) s)) := by
  intro boards stays
  simp only [buildTrip, List.isEmpty_iff, h, if_false]
  rw [withCar_congr fun y hy => by rw [hx y hy]]

/-- What an arrival in CARRYING makes of the trip: nothing, its end, or the rest of it. -/
theorem completeAt_cases (c floor : Nat) (t : Trip) (s : State) :
    let done := t.calls.filter fun k => k.dest == floor
    let after := done.foldl (completeCall c floor) s
    (done = [] → completeAt c floor t s = s) ∧
    (done ≠ [] → (∀ k ∈ t.calls, k.dest = floor) → completeAt c floor t s = endTrip c after) ∧
    (done ≠ [] → (∃ k ∈ t.calls, k.dest ≠ floor) → completeAt c floor t s = sendEnable c after) := by
  intro done after
  have hl : (t.calls.filter fun k => k.dest != floor) = [] ↔ ∀ k ∈ t.calls, k.dest = floor := by
    simp [List.filter_eq_nil_iff]
  have hs (h : done ≠ []) : completeAt c floor t s =
      if ∀ k ∈ t.calls, k.dest = floor then endTrip c after else sendEnable c after := by
    unfold completeAt
    split
    next hn => exact absurd hn h
    next => simp only [List.isEmpty_iff, hl]; rfl
  refine ⟨fun h => ?_, fun h ha => (hs h).trans (if_pos ha), fun h hr => (hs h).trans (if_neg ?_)⟩
  · unfold completeAt
    rw [show (t.calls.filter fun k => k.dest == floor) = [] from h]
  · obtain ⟨k, hk, hne⟩ := hr
    exact fun ha => hne (ha k hk)

/-- Settles O57: the cars in turn by what each order makes of one, a STATUS by the state of its car. -/
theorem liftsFollowTheSiteOrders : Obligations.LiftsFollowTheSiteOrders := by
  refine ⟨fun s rest => ⟨fun h => ?_, fun h => ?_, fun h => ?_, fun c => rfl, fun c x hx => recallCar_eq hx⟩,
    fun s g n c floor doors x hx => ?_, takeCalls_splits, fun s c x hx => ⟨liftSend_eq hx, sendEnable_none hx,
      fun t ht => ⟨sendEnable_some hx ht, floorSet_getLsbD t.calls⟩⟩⟩
  · rw [drainBegin_head h]
    refine congrArg _ (congrArg (toSite .drainAnswer) (foldl_cars (fun t c => ?_) _))
    cases hx : t.car c <;> simp only [drainCar, hx]
  · rw [evacuationBeginLifts_head h]
    refine congrArg _ (foldl_cars (fun t c => ?_) _)
    cases hx : t.car c with
    | none => simp only [evacuateCar, hx]
    | some x => exact evacuateCar_there hx
  · rw [evacuationEndLifts_head h]
    refine congrArg _ (foldl_cars (fun t c => ?_) _)
    cases hx : t.car c with
    | none => simp only [unevacuateCar, hx]
    | some x => exact unevacuateCar_there hx
  · intro named seen status arrives calls ended
    refine ⟨fun h => panelStatus_other hx h doors, fun h => ?_⟩
    have row : status = if x.state = .out then if x.cause = some .host then seen else returnCar c seen
        else panelEvent c x floor doors seen := panelStatus_named hx h doors
    have runs {st : CarState} (hs : x.state = st) (hn : st ≠ .out) : status = panelEvent c x floor doors seen :=
      row.trans (if_neg (hs ▸ hn))
    refine ⟨fun hs hh => ?_, fun hs hh => ?_, fun hs => ?_, fun hs ha => ?_, fun hs ha => ?_, fun hs ha => ?_,
      fun hs hd => ?_, fun hs hd => ?_, fun hs he => ?_, fun hs hne hd => ?_, fun hs hne hd => ?_⟩
    · rw [row, if_pos hs, if_pos hh]
    · rw [row, if_pos hs, if_neg hh]
    · have moves : status = panelEvent c x floor doors seen :=
        hs.elim (fun hs => runs hs (by decide)) fun hs => runs hs (by decide)
      exact moves.trans (panelEvent_rests hs ..)
    · exact (runs hs (by decide)).trans ((panelEvent_recall hs ..).trans (if_pos ha))
    · rcases hs with hs | hs
      · exact (runs hs (by decide)).trans ((panelEvent_recall hs ..).trans (if_neg ha))
      · exact (runs hs (by decide)).trans ((panelEvent_toPickup hs ..).trans (if_neg ha))
    · intro boards stays
      have arrived : status = buildTrip c x floor seen :=
        (runs hs (by decide)).trans ((panelEvent_toPickup hs ..).trans (if_pos ha))
      refine ⟨fun hb => arrived.trans (buildTrip_none hb c seen),
        fun hb => arrived.trans ((buildTrip_some hb ?_).trans ?_)⟩
      · intro y hy
        obtain rfl := Option.some.inj ((car_changed hx _).symm.trans hy)
        rfl
      · rw [withCar_seconds]
    · subst hd
      exact (runs hs (by decide)).trans (panelEvent_boarding_open hs ..)
    · subst hd
      intro closed
      have left := (runs hs (by decide)).trans (panelEvent_boarding_closed hs ..)
      exact ⟨fun he => left.trans (if_pos he), fun hne => left.trans (if_neg hne)⟩
    · exact (runs hs (by decide)).trans (panelEvent_carrying_empty hs he ..)
    · obtain ⟨t, -, event⟩ := panelEvent_carrying hs hne
      exact (runs hs (by decide)).trans ((event ..).trans (if_neg (by simp [hd])))
    · intro done after
      obtain ⟨t, ht, event⟩ := panelEvent_carrying hs hne
      have arrived : status = completeAt c floor t seen :=
        (runs hs (by decide)).trans ((event ..).trans (if_pos hd))
      obtain ⟨stays, ends, goesOn⟩ := completeAt_cases c floor t seen
      rw [ht] at stays ends goesOn
      exact ⟨fun h => arrived.trans (stays h), fun h ha => arrived.trans (ends h ha),
        fun h hr => arrived.trans (goesOn h hr)⟩

end Sys2Proof.Machine
end

section
/-! PROOF. The sending side of a field segment: submission, polling, stop and wait, isolation and RESTORE_SEGMENT
(O58). -/

namespace Sys2Proof.Machine

/-! ## Submission (R153, R154) -/

theorem displaces_poll (q : List TxEntry) : displaces .poll q = none := rfl

/-- A poll waiting makes room for a command. -/
theorem displaces_held_poll {p : Priority} {q : List TxEntry} (hp : p ≠ .poll) (h : ∃ y ∈ q, y.priority = .poll) :
    displaces p q = some .poll := by
  have hq : (q.any fun e => e.priority == .poll) = true := by simpa using h
  cases p with
  | poll => exact absurd rfl hp
  | urgent => simp only [displaces, hq, if_true]
  | normal => simp only [displaces, hq, if_true]

/-- With no poll waiting a normal command makes room for an urgent one alone. -/
theorem displaces_held_normal {p : Priority} {q : List TxEntry} (hq : ¬∃ y ∈ q, y.priority = .poll) :
    displaces p q = if p = .urgent ∧ ∃ y ∈ q, y.priority = .normal then some .normal else none := by
  have hq : (q.any fun e => e.priority == .poll) = false := by simpa using hq
  cases p <;> simp [displaces, hq]

theorem enqueue_room {g : Seg} {e : TxEntry} {s : State} (h : (s.seg g).queue.length < 16) :
    enqueue g e s = withSeg g (fun x => { x with queue := joinQueue e x.queue }) s := if_pos h

theorem enqueue_refused {g : Seg} {e : TxEntry} {s : State} (h : 16 ≤ (s.seg g).queue.length)
    (hd : displaces e.priority (s.seg g).queue = none) : enqueue g e s = handOutcome g .fieldFull e.token s := by
  simp only [enqueue, Config.maxTransmit, if_neg (Nat.not_lt.mpr h), hd]

/-- A full queue gives up the youngest entry of the priority that makes room. -/
theorem enqueue_displaces {g : Seg} {e : TxEntry} {s : State} {r : Priority} (h : 16 ≤ (s.seg g).queue.length)
    (hr : ∃ y ∈ (s.seg g).queue, y.priority = r) (hd : displaces e.priority (s.seg g).queue = some r) :
    ∃ a y b, (s.seg g).queue = a ++ y :: b ∧ y.priority = r ∧ (∀ z ∈ b, z.priority ≠ r) ∧
      enqueue g e s = handOutcome g .displaced y.token
        (withSeg g (fun x => { x with queue := joinQueue e (a ++ b) }) s) := by
  obtain ⟨a, y, b, hq, hy, hb, hdrop⟩ := dropYoungest_splits r (s.seg g).queue hr
  refine ⟨a, y, b, hq, hy, hb, ?_⟩
  simp only [enqueue, Config.maxTransmit, if_neg (Nat.not_lt.mpr h), hd, hdrop]

theorem submit_absent {s : State} {g : Seg} {n : Nat} (h : s.node g n = none) (fr : TxFrame) (p : Priority)
    (t : Token) : submit g n fr p t s = handOutcome g .nodeLost t s := by
  simp only [submit, h]

/-- A node takes a frame of its kind while it is reached, and a lost one a poll (R153). -/
theorem submit_enrolled {s : State} {g : Seg} {n : Nat} {x : Node} (h : s.node g n = some x) (fr : TxFrame)
    (p : Priority) (t : Token) : submit g n fr p t s =
      if x.entry.kind.takes fr = false ∨ x.liveness = .unreachable ∨ (x.liveness = .lost ∧ fr ≠ .poll) then
        handOutcome g .nodeLost t s
      else enqueue g ⟨n, fr, p, t, none, 0⟩ s := by
  simp only [submit, h, Bool.or_eq_true, Bool.not_eq_true', Bool.and_eq_true, beq_iff_eq, bne_iff_ne, or_assoc]

/-- An entry joins before the first of lower priority, which keeps the queue in order (R153). -/
theorem joinQueue_splits (e : TxEntry) (q : List TxEntry) :
    ∃ a b, q = a ++ b ∧ joinQueue e q = a ++ e :: b ∧ (∀ y ∈ a, ¬e.priority.rank < y.priority.rank) ∧
      (∀ y, b.head? = some y → e.priority.rank < y.priority.rank) := by
  induction q with
  | nil => exact ⟨[], [], rfl, rfl, by simp, by simp⟩
  | cons x rest ih =>
    by_cases h : e.priority.rank < x.priority.rank
    · exact ⟨[], x :: rest, rfl, if_pos h, by simp, by simpa using h⟩
    · obtain ⟨a, b, hq, hj, ha, hb⟩ := ih
      refine ⟨x :: a, b, congrArg (x :: ·) hq, (if_neg h).trans (congrArg (x :: ·) hj), ?_, hb⟩
      exact List.forall_mem_cons.mpr ⟨h, ha⟩

theorem rank_lt_iff (p r : Priority) :
    p.rank < r.rank ↔ (p = .urgent ∧ r ≠ .urgent) ∨ (p = .normal ∧ r = .poll) := by
  cases p <;> cases r <;> decide

/-- A queue in order of priority. -/
def QueueSorted (q : List TxEntry) : Prop := q.Pairwise fun y z => ¬z.priority.rank < y.priority.rank

/-- In a queue in order all after the place of an entry are of lower priority, so the order stands. -/
theorem queueSorted_insert {e : TxEntry} {a b : List TxEntry} (hs : QueueSorted (a ++ b))
    (ha : ∀ y ∈ a, ¬e.priority.rank < y.priority.rank)
    (hb : ∀ y, b.head? = some y → e.priority.rank < y.priority.rank) :
    (∀ y ∈ b, e.priority.rank < y.priority.rank) ∧ QueueSorted (a ++ e :: b) := by
  obtain ⟨hsa, hsb, hab⟩ := List.pairwise_append.mp hs
  have lower : ∀ y ∈ b, e.priority.rank < y.priority.rank := by
    cases b with
    | nil => simp
    | cons z rest =>
      have hz := hb z rfl
      refine List.forall_mem_cons.mpr ⟨hz, fun y hy => ?_⟩
      have := (List.pairwise_cons.mp hsb).1 y hy
      omega
  refine ⟨lower, List.pairwise_append.mpr ⟨hsa, List.pairwise_cons.mpr ⟨fun y hy => ?_, hsb⟩, ?_⟩⟩
  · have := lower y hy
    omega
  · intro y hy
    exact List.forall_mem_cons.mpr ⟨ha y hy, hab y hy⟩

/-! ## Polling (R152) -/

/-- A poll turn for a node. -/
theorem pollTimerExpiry_turn {s : State} {g : Seg} {n : Nat} (ht : (s.seg g).pollTimer = true)
    (hn : (s.seg g).nextPolled = some n) : exec (.pollTimerExpiry g) s =
      .next ((if (s.seg g).polled n = true then s else submit g n .poll .poll .poll s).modSeg g fun y =>
        { y with pollPos := n }) := by
  simp only [exec, execPollTimerExpiry, ht, hn, if_true]

theorem pollTimerExpiry_rests {s : State} {g : Seg} (h : (s.seg g).pollTimer = false ∨ (s.seg g).nodes = []) :
    exec (.pollTimerExpiry g) s = .next s := by
  rcases h with h | h
  · simp only [exec, execPollTimerExpiry, h, Bool.false_eq_true, if_false]
  · have hn : (s.seg g).nextPolled = none := by simp [Segment.nextPolled, h]
    simp only [exec, execPollTimerExpiry, hn, ite_self]

theorem nextPolled_after {x : Segment} {e : Nat × Node} (h : x.nodes.find? (fun e => x.pollPos < e.1) = some e) :
    x.nextPolled = some e.1 := by
  simp only [Segment.nextPolled, h]

/-- Past the last node the turn goes to the first. -/
theorem nextPolled_wraps {x : Segment} (h : ∀ e ∈ x.nodes, e.1 ≤ x.pollPos) {e : Nat × Node}
    (he : x.nodes.head? = some e) : x.nextPolled = some e.1 := by
  have hn : x.nodes.find? (fun e => x.pollPos < e.1) = none := by simpa using h
  simp only [Segment.nextPolled, hn, he, Option.map_some]

/-! ## The turnaround gap (R156, R170) -/

theorem turnaroundGap_stopped {s : State} {g : Seg}
    (h : (s.seg g).state.running = false ∨ (s.seg g).sending ≠ none) :
    exec (.turnaroundGapExpiry g) s = .next s := by
  refine congrArg _ (if_neg ?_)
  rw [Bool.and_eq_true, Option.isNone_iff_eq_none, Decidable.not_and_iff_or_not]
  exact h.imp_left fun h => by simp [h]

section gap

variable {s : State} {g : Seg} (hr : (s.seg g).state.running = true) (hs : (s.seg g).sending = none)

include hr hs

theorem turnaroundGap_ack {n : Nat} {k : BitVec 3} (ha : (s.seg g).pendingAck = some (n, k)) :
    exec (.turnaroundGapExpiry g) s = .next (s.modSeg g fun y => { y with sending := some (.ack n k) }) := by
  simp only [exec, execTurnaroundGapExpiry, hr, hs, ha, Option.isNone_none, Bool.and_self, if_true]

theorem turnaroundGap_repeat {f : InFlight} (ha : (s.seg g).pendingAck = none) (hf : (s.seg g).inFlight = some f)
    (hp : f.phase = .repeatDue) :
    exec (.turnaroundGapExpiry g) s = .next (sendFlight g { f with repeatFlag := true } s) := by
  simp only [exec, execTurnaroundGapExpiry, hr, hs, ha, hf, hp, Option.isNone_none, Bool.and_self, if_true]

theorem turnaroundGap_resend {f : InFlight} (ha : (s.seg g).pendingAck = none) (hf : (s.seg g).inFlight = some f)
    (hp : f.phase = .resendDue) : exec (.turnaroundGapExpiry g) s = .next (sendFlight g f s) := by
  simp only [exec, execTurnaroundGapExpiry, hr, hs, ha, hf, hp, Option.isNone_none, Bool.and_self, if_true]

theorem turnaroundGap_head {e : TxEntry} {rest : List TxEntry} (ha : (s.seg g).pendingAck = none)
    (hf : (s.seg g).inFlight = none) (hq : (s.seg g).queue = e :: rest) :
    exec (.turnaroundGapExpiry g) s = .next (sendHead g e rest s) := by
  simp only [exec, execTurnaroundGapExpiry, hr, hs, ha, hf, hq, Option.isNone_none, Bool.and_self, if_true]

end gap

theorem sendHead_enrolled {s : State} {g : Seg} {e : TxEntry} {d : Node} (h : s.node g e.node = some d)
    (rest : List TxEntry) : sendHead g e rest s = withSeg g (fun y =>
        { y with
          queue := rest
          inFlight := some ⟨{ e with seq := some d.nextSeq }, .sending, false, none⟩
          sending := some .command })
      (withNode g e.node (fun d => { d with nextSeq := d.nextSeq + 1 }) s) := by
  simp only [sendHead, h]

/-! ## The end of a copy (R157, R158, R160) -/

/-- A command that is to end ends with its copy (R160). -/
theorem copyEnds_endAs {s : State} {g : Seg} {f : InFlight} {o : TxOutcome} (hs : (s.seg g).sending = some .command)
    (hf : (s.seg g).inFlight = some f) (ho : f.endAs = some o) (next : FlightPhase) :
    copyEnds g next s = handOutcome g o f.entry.token (withSeg g (fun y => { y with inFlight := none })
      (s.modSeg g fun y => { y with sending := none })) := by
  simp only [copyEnds, hs, hf, ho]
  exact completeFlight_some (by rw [seg_modSeg]; exact hf)

theorem ackSent_command {s : State} {g : Seg} (h : (s.seg g).sending = some .command) : ackSent g s = s := by
  simp only [ackSent, h]

theorem copyEnds_closing (g : Seg) (next : FlightPhase) (s : State) :
    ((copyEnds g next s).seg g).closing = (s.seg g).closing := by
  obtain ⟨_, _, _, _, h, -⟩ := seg_copyEnds g next s
  rw [h]

theorem afterCopy_open {s : State} {g : Seg} (h : (s.seg g).closing = false) :
    afterCopy g s = applyRate g (tellOwed g s) := by
  simp only [afterCopy, h, Bool.false_eq_true, if_false]

theorem afterCopy_closing {s : State} {g : Seg} (h : (s.seg g).closing = true) :
    afterCopy g s = applyRate g (finishClosing g s) := by
  simp only [afterCopy, h, if_true]

/-- What a copy that ended leaves of its segment, with no disabling waiting for it. -/
theorem seg_copyEnded (g : Seg) (next : FlightPhase) (s : State) : ∃ r a b c d,
    (applyRate g (tellOwed g (copyEnds g next s))).seg g =
      { s.seg g with
        rateInUse := r, toUnits := a, toPortals := b, toLifts := c, lossesOwed := [], sending := none
        inFlight := d } ∧
    (∀ f, (s.seg g).sending = some .command → (s.seg g).inFlight = some f → f.endAs = none →
      d = some { f with phase := next }) := by
  obtain ⟨_, _, _, d, hc, hd⟩ := seg_copyEnds g next s
  obtain ⟨a, b, c, ht⟩ := seg_tellOwed g (copyEnds g next s)
  obtain ⟨r, hr⟩ := seg_applyRate g (tellOwed g (copyEnds g next s))
  exact ⟨r, a, b, c, d, by rw [hr, ht, hc], hd⟩

/-- A clean copy of a segment that goes on. -/
theorem copySent_open {s : State} {g : Seg} (hs : (s.seg g).sending ≠ none) (hc : (s.seg g).closing = false) :
    exec (.copySent g) s = .next (applyRate g (tellOwed g
      (copyEnds g .waiting (ackSent g (setTxFaults g ((s.seg g).txFaults - 1) s))))) := by
  obtain ⟨_, hx⟩ := seg_setTxFaults g ((s.seg g).txFaults - 1) s
  obtain ⟨_, ha, -⟩ := seg_ackSent g (setTxFaults g ((s.seg g).txFaults - 1) s)
  simp only [exec, execCopySent, Option.isSome_iff_ne_none.mpr hs, hc, if_true, Bool.false_eq_true, if_false]
  rw [afterCopy_open (by rw [copyEnds_closing, ha, hx]; exact hc)]

/-- A copy that was not read back on a segment that goes on and stays below 255 faults. -/
theorem readbackMismatch_open {s : State} {g : Seg} (hs : (s.seg g).sending ≠ none) (hc : (s.seg g).closing = false)
    (hw : satAdd 255 (s.seg g).txFaults 8 < 255) :
    exec (.readbackMismatch g) s = .next (applyRate g (tellOwed g
      (copyEnds g .resendDue (setTxFaults g (satAdd 255 (s.seg g).txFaults 8) s)))) := by
  obtain ⟨_, hx⟩ := seg_setTxFaults g (satAdd 255 (s.seg g).txFaults 8) s
  simp only [exec, execReadbackMismatch, Option.isSome_iff_ne_none.mpr hs, hc, Nat.ne_of_lt hw, if_true,
    Bool.false_eq_true, if_false]
  rw [afterCopy_open (by rw [copyEnds_closing, hx]; exact hc)]

theorem readbackMismatch_isolates {s : State} {g : Seg} (hs : (s.seg g).sending ≠ none)
    (hc : (s.seg g).closing = false) (hw : satAdd 255 (s.seg g).txFaults 8 = 255) :
    exec (.readbackMismatch g) s = .next (isolateSeg g (s.modSeg g fun x => { x with txFaults := 255 })) := by
  simp only [exec, execReadbackMismatch, Option.isSome_iff_ne_none.mpr hs, hc, hw, if_true,
    Bool.false_eq_true, if_false]

/-- The steps of an isolation by its last transmit fault (R177). -/
theorem isolateSeg_faulted (g : Seg) (n : Nat) (s : State) :
    let x := s.seg g
    let down := putNotice (.segmentState g x.state .isolated n x.rxFaults) (s.modSeg g fun y =>
      { y with txFaults := n, state := .isolated, sending := none, pollTimer := false })
    isolateSeg g (s.modSeg g fun y => { y with txFaults := n }) = unreachNodes g (tellOwed g (emptyRing g
      ((completeQueued g (fun _ => true) .segmentIsolated (completeFlight g .segmentIsolated down)).modSeg g
        fun y => { y with pendingAck := none }))) := by
  unfold isolateSeg
  dsimp only
  rw [modSeg_modSeg, seg_modSeg, seg_modSeg]

/-- What an isolation leaves of its segment (R177). -/
theorem seg_isolateSeg (g : Seg) (s : State) : ∃ a b c,
    (isolateSeg g s).seg g =
      { s.seg g with
        toUnits := a, toPortals := b, toLifts := c, state := .isolated, sending := none, pollTimer := false
        inFlight := none, queue := [], pendingAck := none, ring := [], rx := .idle, overrunHeld := 0
        lossesOwed := []
        nodes := (s.seg g).nodes.map fun e =>
          (e.1, { e.2 with liveness := .unreachable, reportHeld := false }) } := by
  unfold isolateSeg
  dsimp only
  obtain ⟨a, b, c, hu⟩ := seg_unreachNodes g (tellOwed g (emptyRing g
    ((completeQueued g (fun _ => true) .segmentIsolated (completeFlight g .segmentIsolated _)).modSeg g _)))
  refine ⟨a, b, c, hu.trans ?_⟩
  obtain ⟨_, _, _, ho⟩ := seg_tellOwed g (emptyRing g
    ((completeQueued g (fun _ => true) .segmentIsolated (completeFlight g .segmentIsolated _)).modSeg g _))
  obtain ⟨_, _, _, hq⟩ := seg_completeQueued g .segmentIsolated (completeFlight g .segmentIsolated _)
  obtain ⟨_, _, _, hf⟩ := seg_completeFlight g .segmentIsolated (putNotice _ (s.modSeg g _))
  rw [ho, seg_emptyRing, seg_modSeg, hq, hf, seg_putNotice, seg_modSeg]

/-- With no copy being sent neither end of one is an event (log 2). -/
theorem copyEnded_rests {s : State} {g : Seg} {i : Instr} (hi : i = .copySent g ∨ i = .readbackMismatch g)
    (hs : (s.seg g).sending = none) : exec i s = .next s := by
  rcases hi with rfl | rfl
  · simp only [exec, execCopySent, hs, Option.isSome_none, Bool.false_eq_true, if_false]
  · simp only [exec, execReadbackMismatch, hs, Option.isSome_none, Bool.false_eq_true, if_false]

/-- A disabled segment ends its commands with its copy, whichever way that ends (R144). -/
theorem copyEnded_closing {s : State} {g : Seg} {i : Instr} (hi : i = .copySent g ∨ i = .readbackMismatch g)
    (hs : (s.seg g).sending ≠ none) (hc : (s.seg g).closing = true) : ∃ u next,
      exec i s = .next (applyRate g (finishClosing g (copyEnds g next u))) ∧
      (u.seg g).txFaults = (s.seg g).txFaults := by
  rcases hi with rfl | rfl
  · obtain ⟨_, ha, -⟩ := seg_ackSent g s
    refine ⟨ackSent g s, .waiting, ?_, by rw [ha]⟩
    simp only [exec, execCopySent, Option.isSome_iff_ne_none.mpr hs, hc, if_true]
    rw [afterCopy_closing (by rw [copyEnds_closing, ha]; exact hc)]
  · refine ⟨s, .resendDue, ?_, rfl⟩
    simp only [exec, execReadbackMismatch, Option.isSome_iff_ne_none.mpr hs, hc, if_true]
    rw [afterCopy_closing (by rw [copyEnds_closing]; exact hc)]

/-! ## A wait that runs out (R157) -/

theorem waitExpires_none {s : State} {g : Seg} (h : (s.seg g).inFlight = none) (isPoll : Bool) :
    waitExpires g isPoll s = s := by
  simp only [waitExpires, h]

theorem waitExpires_some {s : State} {g : Seg} {f : InFlight} (h : (s.seg g).inFlight = some f) (isPoll : Bool) :
    waitExpires g isPoll s =
      if ((s.seg g).closing = false ∧ f.phase = .waiting) ∧ (f.entry.frame == .poll) = isPoll then
        if (s.seg g).receiving = true then
          s.modSeg g fun x => { x with inFlight := some { f with phase := .waitOver } }
        else waitEnds g f s
      else s := by
  simp only [waitExpires, h, Bool.and_eq_true, Bool.not_eq_true', decide_eq_true_eq, beq_iff_eq]

/-- No wait runs on a segment that closes, with nothing in flight, or while the copy is sent (log 2). -/
theorem waitExpires_rests {s : State} {g : Seg} (h : (s.seg g).closing = true ∨ (s.seg g).inFlight = none ∨
    ∃ f, (s.seg g).inFlight = some f ∧ f.phase ≠ .waiting) (isPoll : Bool) : waitExpires g isPoll s = s := by
  cases hf : (s.seg g).inFlight with
  | none => exact waitExpires_none hf isPoll
  | some f =>
    rw [waitExpires_some hf]
    refine if_neg fun hw => ?_
    rcases h with hc | hn | ⟨f', hf', hp⟩
    · exact Bool.false_ne_true (hw.1.1.symm.trans hc)
    · cases hn.symm.trans hf
    · cases hf'.symm.trans hf
      exact hp hw.1.2

/-- The end of the wait of a frame comes by the event of its kind. -/
theorem waitExpiry_waiting {s : State} {g : Seg} {f : InFlight} (hc : (s.seg g).closing = false)
    (hf : (s.seg g).inFlight = some f) (hp : f.phase = .waiting) :
    (if f.entry.frame = .poll then exec (.answerWindowExpiry g) s else exec (.ackWaitExpiry g) s) =
      .next (if (s.seg g).receiving = true then
          s.modSeg g fun x => { x with inFlight := some { f with phase := .waitOver } }
        else waitEnds g f s) := by
  by_cases hk : f.entry.frame = .poll
  · rw [if_pos hk]
    refine congrArg _ ((waitExpires_some hf true).trans (if_pos ⟨⟨hc, hp⟩, ?_⟩))
    rw [hk]
    rfl
  · rw [if_neg hk]
    exact congrArg _ ((waitExpires_some hf false).trans (if_pos ⟨⟨hc, hp⟩, beq_false_of_ne hk⟩))

theorem receiving_iff (x : Segment) : x.receiving = true ↔ ∃ r, x.rx = .frame r := by
  unfold Segment.receiving
  cases x.rx <;> simp

theorem waitEnds_poll {f : InFlight} (h : f.entry.frame = .poll) (g : Seg) (s : State) :
    waitEnds g f s = pollUnanswered g f.entry.node (withSeg g (fun x => { x with inFlight := none }) s) := if_pos h

theorem waitEnds_repeats {f : InFlight} {g : Seg} {s : State} (h : f.entry.frame ≠ .poll)
    (hr : f.entry.repeats < (s.seg g).settings.val.retryLimit) :
    let again : InFlight := { f with phase := .repeatDue, entry := { f.entry with repeats := f.entry.repeats + 1 } }
    waitEnds g f s = withSeg g (fun x => { x with inFlight := some again }) s :=
  (if_neg h).trans (if_pos hr)

theorem waitEnds_noAck {f : InFlight} {g : Seg} {s : State} (hf : (s.seg g).inFlight = some f)
    (h : f.entry.frame ≠ .poll) (hr : (s.seg g).settings.val.retryLimit ≤ f.entry.repeats) :
    waitEnds g f s = handOutcome g .noAck f.entry.token (withSeg g (fun x => { x with inFlight := none }) s) :=
  (if_neg h).trans ((if_neg (Nat.not_lt.mpr hr)).trans (completeFlight_some hf))

/-! ## Outcomes, losses and unanswered polls (R149, R159) -/

theorem pollUnanswered_absent {s : State} {g : Seg} {n : Nat} (h : s.node g n = none) : pollUnanswered g n s = s := by
  simp only [pollUnanswered, h]

section unanswered

variable {s : State} {g : Seg} {n : Nat} {x : Node} (h : s.node g n = some x)

include h

theorem pollUnanswered_unreachable (hl : x.liveness = .unreachable) : pollUnanswered g n s = s := by
  simp only [pollUnanswered, h, hl]

theorem pollUnanswered_live (hl : x.liveness = .live) :
    pollUnanswered g n s = withNode g n (fun y => { y with liveness := .quiet, missed := 1 }) s := by
  simp only [pollUnanswered, h, hl]

theorem pollUnanswered_quiet (hl : x.liveness = .quiet) :
    pollUnanswered g n s = if 2 ≤ x.missed then loseNode g n x s
      else withNode g n (fun y => { y with missed := x.missed + 1 }) s := by
  simp only [pollUnanswered, h, hl]

theorem pollUnanswered_lost (hl : x.liveness = .lost) :
    pollUnanswered g n s = withNode g n (fun y => { y with missed := 3 }) s := by
  simp only [pollUnanswered, h, hl]

end unanswered

/-! ## A cancelled entry (R160) -/

theorem cancel_queued {s : State} {g : Seg} {t : Token} (h : ∃ e ∈ (s.seg g).queue, e.token = t) :
    cancel g t s = completeQueued g (fun e => e.token == t) .cancelled s :=
  if_pos (by simpa using h)

section unqueued

variable {s : State} {g : Seg} {t : Token} (hq : ∀ e ∈ (s.seg g).queue, e.token ≠ t)

include hq

/-- A cancelled token that is not in the queue can be that of the command in flight alone. -/
theorem cancel_other (hf : ∀ f, (s.seg g).inFlight = some f → f.entry.token ≠ t) : cancel g t s = s := by
  have hn : ¬((s.seg g).queue.any fun e => e.token == t) = true := by simpa using hq
  cases h : (s.seg g).inFlight with
  | none => simp only [cancel, hn, h, Bool.false_eq_true, if_false]
  | some f => simp only [cancel, hn, h, hf f h, Bool.false_eq_true, if_false]

variable {f : InFlight} (hf : (s.seg g).inFlight = some f) (ht : f.entry.token = t)

include hf ht

theorem cancel_waiting (hp : f.phase ≠ .sending) : cancel g t s =
    handOutcome g .cancelled t (withSeg g (fun y => { y with inFlight := none }) s) := by
  have hn : ¬((s.seg g).queue.any fun e => e.token == t) = true := by simpa using hq
  subst ht
  simp only [cancel, hn, hf, hp, Bool.false_eq_true, if_true, if_false]
  exact completeFlight_some hf

theorem cancel_sending (hp : f.phase = .sending) (he : f.endAs = none) : cancel g t s =
    s.modSeg g fun y => { y with inFlight := some { f with endAs := some .cancelled } } := by
  have hn : ¬((s.seg g).queue.any fun e => e.token == t) = true := by simpa using hq
  simp only [cancel, hn, hf, ht, hp, he, Bool.false_eq_true, if_true, if_false]

theorem cancel_ending (hp : f.phase = .sending) (he : f.endAs ≠ none) : cancel g t s = s := by
  have hn : ¬((s.seg g).queue.any fun e => e.token == t) = true := by simpa using hq
  obtain ⟨o, ho⟩ := Option.ne_none_iff_exists'.mp he
  simp only [cancel, hn, hf, ht, hp, ho, Bool.false_eq_true, if_true, if_false]

end unqueued

/-! ## Summaries, counts and a segment restored (R155, R174, R176, R178) -/

/-- The busy summary is told where it changes. -/
theorem withSeg_eq (g : Seg) (f : Segment → Segment) (s : State) :
    withSeg g f s = if (f (s.seg g)).busy = (s.seg g).busy then s.modSeg g f
      else { s.modSeg g f with site :=
        { s.site with reports := s.site.reports ++ [.segment g (f (s.seg g)).busy] } } := by
  cases g <;> rfl

theorem running_iff (x : SegState) : x.running = true ↔ x = .active ∨ x = .caution := by
  cases x <;> decide

/-- The state that the fault counts give a running segment. -/
def faultState (tx rx : Nat) : SegState := if 96 ≤ tx ∨ 96 ≤ rx then .caution else .active

theorem evaluateSeg_eq (g : Seg) (s : State) :
    let x := s.seg g
    let new := faultState x.txFaults x.rxFaults
    evaluateSeg g s = if (x.state = .active ∨ x.state = .caution) ∧ new ≠ x.state then
        putNotice (.segmentState g x.state new x.txFaults x.rxFaults) (s.modSeg g fun y => { y with state := new })
      else s := by
  intro x new
  have hnew : (if Config.cautionLevel ≤ x.txFaults || Config.cautionLevel ≤ x.rxFaults then SegState.caution
      else SegState.active) = new := by
    refine ite_congr ?_ (fun _ => rfl) fun _ => rfl
    rw [Bool.or_eq_true, decide_eq_true_eq, decide_eq_true_eq]
    rfl
  unfold evaluateSeg
  dsimp only
  rw [hnew]
  simp only [x, Bool.and_eq_true, bne_iff_ne, running_iff]

theorem setTxFaults_eq (g : Seg) (n : Nat) (s : State) :
    let x := s.seg g
    let new := faultState n x.rxFaults
    let counted := s.modSeg g fun y => { y with txFaults := n }
    setTxFaults g n s = if (x.state = .active ∨ x.state = .caution) ∧ new ≠ x.state then
        putNotice (.segmentState g x.state new n x.rxFaults) (counted.modSeg g fun y => { y with state := new })
      else counted := by
  intro x new counted
  rw [setTxFaults, evaluateSeg_eq, seg_modSeg]

theorem parseSeg_byte {b : Byte} {g : Seg} (h : b.toNat = segIndex g) : parseSeg [b] = .ok g := by
  have hb : fields [1] [b] = some [segIndex g] := by simp [fields, beNat, h]
  simp only [parseSeg, hb]
  cases g <;> rfl

theorem restoreSeg_eq (g : Seg) (s : State) : restoreSeg g s =
    putNotice (.segmentState g .isolated .active 0 0) (s.modSeg g fun x =>
      { x with
        txFaults := 0, rxFaults := 0, state := .active, ring := [], rx := .idle, overrunHeld := 0
        pendingAck := none, pollPos := 0, pollTimer := true
        rateInUse := x.settings.val.lineRate
        nodes := x.nodes.map fun e =>
          (e.1, { e.2 with liveness := .quiet, missed := 0, lastValid := false }) }) := by
  simp only [restoreSeg, quietNodes, modSeg_modSeg, id]

theorem restoreSeg_inHand {s : State} {f : Frame} (h : s.inHand f) (g : Seg) : (restoreSeg g s).inHand f :=
  inHand_of_serving h (by rw [restoreSeg_eq, putNotice_host_serving, modSeg_host])

theorem restoreSegment_inHand {s : State} {f : Frame} {b : Byte} {g : Seg} (hf : s.inHand f) (hk : f.kind = 0x65)
    (hb : f.body = [b]) (hg : b.toNat = segIndex g) : exec .restoreSegment s = .next
      (tested (.ok g) outsideStarting (fun g s =>
        if (s.seg g).state = .isolated then reply .ok [] (restoreSeg g s) else reply .wrongState [] s) s) := by
  simp only [exec, execRestoreSegment]
  rw [taking_inHand hf _ (by rw [hk]; rfl), hb, parseSeg_byte hg]

/-- Settles O58: each operation of the sending side by its cases. -/
theorem commandsStopAndWait : Obligations.CommandsStopAndWait := by
  refine ⟨fun s g n fr p t => ?_, fun s g => ?_, fun s g => ?_, fun s g c => ?_, fun s g i hi => ?_, fun s g => ?_,
    fun s g o t => ?_, fun s g n e => ?_, fun s g n => ?_, fun s g f => ?_, fun s f b g hf hk hb hg => ?_,
    fun s g f n => ?_, fun s g t => ?_, fun e q => ?_⟩
  · intro q e
    refine ⟨fun h => submit_absent h fr p t, fun x hx => ?_⟩
    intro refused
    have joins (h : ¬refused) : submit g n fr p t s = enqueue g e s := (submit_enrolled hx fr p t).trans (if_neg h)
    refine ⟨fun h => (submit_enrolled hx fr p t).trans (if_pos h), fun h hl => (joins h).trans (enqueue_room hl),
      fun h hl => ?_⟩
    rw [joins h]
    intro holds drops
    refine ⟨fun hp hh => enqueue_displaces hl hh (displaces_held_poll hp hh), fun hp hn hh => ?_, fun hr => ?_⟩
    · exact enqueue_displaces hl hh ((displaces_held_normal hn).trans (if_pos ⟨hp, hh⟩))
    · refine enqueue_refused hl ?_
      rcases hr with hp | ⟨hn, hr⟩
      · subst hp
        exact displaces_poll q
      · refine (displaces_held_normal hn).trans (if_neg fun hu => ?_)
        exact hr.elim (fun hp => by cases hu.1.symm.trans hp) fun hm => hm hu.2
  · exact ⟨fun ht e he => pollTimerExpiry_turn ht (nextPolled_after he),
      fun ht hall e he => pollTimerExpiry_turn ht (nextPolled_wraps hall he), pollTimerExpiry_rests⟩
  · exact ⟨turnaroundGap_stopped, fun hr hs => ⟨fun n k ha => turnaroundGap_ack hr hs ha, fun ha =>
      ⟨fun f hf hp => turnaroundGap_repeat hr hs ha hf hp, fun f hf hp => turnaroundGap_resend hr hs ha hf hp,
        fun e rest d hf hq hd =>
          (turnaroundGap_head hr hs ha hf hq).trans (congrArg _ (sendHead_enrolled hd rest))⟩⟩⟩
  · intro x worse hs hc
    have hsend : x.sending ≠ none := by simp [hs]
    obtain ⟨_, hx⟩ := seg_setTxFaults g (x.txFaults - 1) s
    obtain ⟨_, hy⟩ := seg_setTxFaults g worse s
    have runs (hw : worse < 255) : exec (.readbackMismatch g) s = .next (applyRate g (tellOwed g
        (copyEnds g .resendDue (setTxFaults g worse s)))) := readbackMismatch_open hsend hc hw
    have isolates (hw : worse = 255) := readbackMismatch_isolates hsend hc hw
    refine ⟨⟨_, copySent_open hsend hc, ?_⟩, fun f o h hf ho => ?_, fun f o hw h hf ho => ?_, fun hw => ?_,
      fun hw => ⟨(isolates hw).trans (congrArg _ (isolateSeg_faulted g 255 s)), _, isolates hw, ?_⟩⟩
    · obtain ⟨p, ha, hp⟩ := seg_ackSent g (setTxFaults g (x.txFaults - 1) s)
      obtain ⟨_, _, _, _, d, he, hd⟩ := seg_copyEnded g .waiting (ackSent g (setTxFaults g (x.txFaults - 1) s))
      rw [hx] at ha hp
      rw [ha] at he hd
      rw [he]
      exact ⟨rfl, rfl, rfl, rfl, fun n k h => hp n k (hs.trans (congrArg some h)),
        fun f h => hd f (hs.trans (congrArg some h))⟩
    · have h := hs.trans (congrArg some h)
      intro clean
      rw [copySent_open hsend hc, ackSent_command (by rw [hx]; exact h),
        copyEnds_endAs (by rw [hx]; exact h) (by rw [hx]; exact hf) ho]
    · have h := hs.trans (congrArg some h)
      intro stopped
      rw [runs hw, copyEnds_endAs (by rw [hy]; exact h) (by rw [hy]; exact hf) ho]
    · obtain ⟨_, _, _, _, d, he, hd⟩ := seg_copyEnded g .resendDue (setTxFaults g worse s)
      rw [hy] at he hd
      refine ⟨_, runs hw, ?_⟩
      rw [he]
      exact ⟨rfl, rfl, rfl, rfl, rfl, fun f h => hd f (hs.trans (congrArg some h))⟩
    · obtain ⟨_, _, _, hi⟩ := seg_isolateSeg g (s.modSeg g fun x => { x with txFaults := 255 })
      rw [hi, seg_modSeg]
      refine ⟨rfl, rfl, rfl, rfl, rfl, rfl, rfl, rfl, rfl, fun e he => ?_⟩
      obtain ⟨e', -, rfl⟩ := List.mem_map.mp he
      rfl
  · intro x
    refine ⟨copyEnded_rests hi, fun hs hc => ?_⟩
    obtain ⟨u, next, hu, ht⟩ := copyEnded_closing hi hs hc
    obtain ⟨_, hr⟩ := seg_applyRate g (finishClosing g (copyEnds g next u))
    obtain ⟨_, _, _, hd⟩ := seg_finishClosing g (copyEnds g next u)
    obtain ⟨_, _, _, _, he, -⟩ := seg_copyEnds g next u
    refine ⟨_, hu, ?_⟩
    rw [hr, hd, he]
    exact ⟨rfl, rfl, ht, rfl, rfl, rfl⟩
  · exact fun h => ⟨congrArg _ (waitExpires_rests h true), congrArg _ (waitExpires_rests h false)⟩
  · refine ⟨?_, ?_, ?_, ?_⟩
    · rintro (rfl | rfl) <;> rfl
    · rintro (rfl | ⟨u, n, rfl⟩ | ⟨u, n, rfl⟩ | ⟨u, n, rfl⟩) <;> rfl
    · rintro ⟨p, a, n, rfl⟩
      rfl
    · rintro ⟨c, m, rfl⟩
      rfl
  · refine ⟨?_, ?_, ?_, ?_⟩ <;> intro h <;> simp only [tellLoss, h]
  · intro missed
    refine ⟨pollUnanswered_absent, fun x hx => ?_⟩
    exact ⟨pollUnanswered_unreachable hx, pollUnanswered_live hx,
      fun hl hm => (pollUnanswered_quiet hx hl).trans (if_neg (Nat.not_le.mpr hm)),
      fun hl hm => (pollUnanswered_quiet hx hl).trans (if_pos hm), pollUnanswered_lost hx⟩
  · intro x hc hf hp ends
    have ended : ends = _ := waitExpiry_waiting hc hf hp
    refine ⟨fun hr => ?_, fun hr => ?_⟩
    · rw [ended, if_pos ((receiving_iff x).mpr hr)]
    · rw [ended, if_neg (mt (receiving_iff x).mp hr)]
      exact ⟨fun hk => congrArg _ (waitEnds_poll hk g s), fun hk hl => congrArg _ (waitEnds_repeats hk hl),
        fun hk hl => congrArg _ (waitEnds_noAck hf hk hl)⟩
  · rw [restoreSegment_inHand hf hk hb hg]
    refine ⟨fun hm => congrArg _ (tested_mode hf _ (by rw [hm]; rfl)), fun hm => ?_⟩
    rw [tested_ok _ (outsideStarting_eq hm)]
    refine ⟨fun hs => ?_, fun hs => ?_⟩
    · rw [if_neg hs, reply_refused hf (by decide)]
    · rw [if_pos hs, reply_ok (restoreSeg_inHand hf g), restoreSeg_eq]
  · intro busy x set old new counted
    exact ⟨withSeg_eq g f s, setTxFaults_eq g n s, rfl⟩
  · exact ⟨cancel_queued, fun hq => ⟨fun f hf ht => ⟨cancel_waiting hq hf ht, cancel_sending hq hf ht,
      cancel_ending hq hf ht⟩, cancel_other hq⟩⟩
  · intro before
    obtain ⟨a, b, hq, hj, ha, hb⟩ := joinQueue_splits e q
    have hbefore : ∀ p r, before p r ↔ p.rank < r.rank := fun p r => (rank_lt_iff p r).symm
    simp only [hbefore]
    refine ⟨a, b, hq, hj, ha, hb, fun hs => ?_⟩
    rw [hj]
    exact queueSorted_insert (hq ▸ hs) ha hb

end Sys2Proof.Machine
end

section
/-! PROOF. Reception on a field segment: characters, the end of a frame, what its class does, and the Frame Router
(O59). -/

namespace Sys2Proof.Machine

/-! ## What the receiver hears (R158, R162) -/

section deaf

variable {s : State} {g : Seg} (h : ¬((s.seg g).state.running = true ∧ (s.seg g).sending = none))

include h

/-- A stopped or sending segment hears nothing. -/
theorem field_deaf : ¬((s.seg g).state.running && (s.seg g).sending.isNone) = true := by
  rwa [Bool.and_eq_true, Option.isNone_iff_eq_none]

theorem fieldCharacter_deaf (b : Byte) : exec (.fieldCharacter g b) s = .next s :=
  congrArg _ (if_neg (field_deaf h))

theorem fieldLineIdle_deaf : exec (.fieldLineIdle g) s = .next s := congrArg _ (if_neg (field_deaf h))

end deaf

section hears

variable {s : State} {g : Seg} (h : (s.seg g).state.running = true ∧ (s.seg g).sending = none)

include h

theorem field_hears : ((s.seg g).state.running && (s.seg g).sending.isNone) = true := by
  rwa [Bool.and_eq_true, Option.isNone_iff_eq_none]

theorem fieldCharacter_hears (b : Byte) : exec (.fieldCharacter g b) s = .next (takeChar g b s) :=
  congrArg _ (if_pos (field_hears h))

theorem fieldLineIdle_idle (hx : (s.seg g).rx = .idle) : exec (.fieldLineIdle g) s = .next s :=
  congrArg _ ((if_pos (field_hears h)).trans (by rw [hx]))

theorem fieldLineIdle_ended {stray : Bool} (hx : (s.seg g).rx = .ended stray) :
    exec (.fieldLineIdle g) s = .next (applyRate g (if stray = true then
        countCorrupt g (s.modSeg g fun y => { y with rx := .idle })
      else s.modSeg g fun y => { y with rx := .idle })) :=
  congrArg _ ((if_pos (field_hears h)).trans (by rw [hx]))

theorem fieldLineIdle_frame {f : RxFrame} (hx : (s.seg g).rx = .frame f) :
    exec (.fieldLineIdle g) s = .next (endFrame g f false .idle s) :=
  congrArg _ ((if_pos (field_hears h)).trans (by rw [hx]))

end hears

/-! ## Characters (R161 to R165) -/

theorem takeChar_idle {s : State} {g : Seg} (h : (s.seg g).rx = .idle) (b : Byte) :
    takeChar g b s = s.modSeg g (startFrame b) := by
  simp only [takeChar, h]

theorem takeChar_ended {s : State} {g : Seg} {stray : Bool} (h : (s.seg g).rx = .ended stray) (b : Byte) :
    takeChar g b s = s.modSeg g fun y => { y with rx := .ended true } := by
  simp only [takeChar, h]

theorem takeChar_frame {s : State} {g : Seg} {f : RxFrame} (h : (s.seg g).rx = .frame f) (b : Byte) :
    let f' := f.char b (s.seg g).room
    takeChar g b s = if f'.complete = true then endFrame g f' true (.ended false) s
      else s.modSeg g fun y => { y with rx := .frame f' } := by
  simp only [takeChar, h]

/-- The first character has the room that the committed records leave: 3 bytes are reserved (R163). -/
theorem startFrame_room {x : Segment} (h : 3 ≤ 512 - x.committed) (b : Byte) :
    startFrame b x = { x with rx := .frame ⟨1, none, [b], .normal, 3⟩, overrunHeld := 0 } := if_pos h

theorem startFrame_overrun {x : Segment} (h : 512 - x.committed < 3) (b : Byte) :
    startFrame b x = { x with rx := .frame ⟨1, none, [], .overrun, 0⟩, overrunHeld := 0 } :=
  if_neg (Nat.not_le.mpr h)

theorem complete_iff (f : RxFrame) : f.complete = true ↔ ∃ n, f.length = some n ∧ f.count = 6 + n := by
  unfold RxFrame.complete
  cases f.length <;> simp

/-- A frame with one more character counted, the fourth being the length byte (R162). -/
def RxFrame.counted (f : RxFrame) (b : Byte) : RxFrame :=
  { f with count := f.count + 1, length := if f.count + 1 = 4 then some b.toNat else f.length }

/-- A frame already dropped keeps no character. -/
theorem char_dropped {f : RxFrame} (h : f.cls ≠ .normal) (b : Byte) (room : Nat) : f.char b room = f.counted b := by
  unfold RxFrame.char RxFrame.counted
  cases hc : f.cls with
  | normal => exact absurd hc h
  | overrun => rfl
  | oversize => rfl

section normal

variable {f : RxFrame} (h : f.cls = .normal) {b : Byte}

include h

/-- Before its length is known a frame keeps its characters. -/
theorem char_header (hl : (f.counted b).length = none) (room : Nat) :
    f.char b room = { f.counted b with cls := .normal, chars := f.chars ++ [b] } := by
  obtain ⟨count, length, chars, cls, held⟩ := f
  subst h
  simp only [RxFrame.counted] at hl
  simp only [RxFrame.char, RxFrame.counted, hl]

variable {n : Nat} (hl : (f.counted b).length = some n)

include hl

/-- A frame by its length byte: too long, a header or check byte, a body byte with no room or with room. -/
theorem char_measured (room : Nat) : f.char b room =
    if 24 < n then { f.counted b with cls := .oversize }
    else if f.count + 1 ≤ 4 ∨ 4 + n < f.count + 1 then { f.counted b with cls := .normal, chars := f.chars ++ [b] }
    else if room = 0 then { f.counted b with cls := .overrun }
    else { f.counted b with cls := .normal, chars := f.chars ++ [b], held := f.held + 1 } := by
  obtain ⟨count, length, chars, cls, held⟩ := f
  subst h
  simp only [RxFrame.counted] at hl
  simp only [RxFrame.char, RxFrame.counted, hl, Bool.or_eq_true, decide_eq_true_eq]

end normal

/-! ## The end of a frame (R157, R163 to R166) -/

/-- The receiver once a frame has ended: an overrun frame goes on holding its bytes (R164). -/
def frameLeft (g : Seg) (f : RxFrame) (rx : Rx) (s : State) : State :=
  s.modSeg g fun x => { x with rx := rx, overrunHeld := if f.cls = .overrun then f.held else 0 }

theorem endFrame_overrun {f : RxFrame} (h : f.cls = .overrun) (g : Seg) (whole : Bool) (rx : Rx) (s : State) :
    endFrame g f whole rx s = afterFrame g (countDrop g .overrun (frameLeft g f rx s)) := by
  simp only [endFrame, frameLeft, h]

theorem endFrame_oversize {f : RxFrame} (h : f.cls = .oversize) (g : Seg) (whole : Bool) (rx : Rx) (s : State) :
    endFrame g f whole rx s = afterFrame g (countDrop g .oversize (frameLeft g f rx s)) := by
  simp only [endFrame, frameLeft, h]

theorem endFrame_normal {f : RxFrame} (h : f.cls = .normal) (g : Seg) (whole : Bool) (rx : Rx) (s : State) :
    endFrame g f whole rx s = afterFrame g (handleFrame g
      (if whole = true then (s.seg g).classify f.chars else .corrupt) (frameLeft g f rx s)) := by
  simp only [endFrame, frameLeft, h]

/-- A wait that ended while the frame came is taken after it. -/
theorem afterFrame_waitOver {s : State} {g : Seg} {w : InFlight} (hw : (s.seg g).inFlight = some w)
    (hp : w.phase = .waitOver) : afterFrame g s = applyRate g (waitEnds g w s) := by
  simp only [afterFrame, hw, hp, if_true]

theorem afterFrame_other {s : State} {g : Seg} (h : ∀ w, (s.seg g).inFlight = some w → w.phase ≠ .waitOver) :
    afterFrame g s = applyRate g s := by
  cases hw : (s.seg g).inFlight with
  | none => simp only [afterFrame, hw]
  | some w => simp only [afterFrame, hw, h w hw, if_false]

theorem applyRate_eq (g : Seg) (s : State) : applyRate g s = s.modSeg g fun x => { x with
    rateInUse := if x.sending = none ∧ x.rx = .idle then x.settings.val.lineRate else x.rateInUse } := by
  refine modSeg_congr ?_
  split
  next hs hr => simp only [hs, hr, and_self, if_true]
  next h => rw [if_neg fun hi => h hi.1 hi.2]

/-! ## What each class does (R166 to R168, R175, R179) -/

theorem setRxFaults_eq (g : Seg) (n : Nat) (s : State) :
    let x := s.seg g
    let new := faultState x.txFaults n
    let counted := s.modSeg g fun y => { y with rxFaults := n }
    setRxFaults g n s = if (x.state = .active ∨ x.state = .caution) ∧ new ≠ x.state then
        putNotice (.segmentState g x.state new x.txFaults n) (counted.modSeg g fun y => { y with state := new })
      else counted := by
  intro x new counted
  rw [setRxFaults, evaluateSeg_eq, seg_modSeg]

theorem countDrop_eq (g : Seg) (c : DropClass) (s : State) :
    let old := (s.seg g).drops.get c
    let t := s.modSeg g fun x => { x with drops := x.drops.set c (min 65535 (old + 1)) }
    countDrop g c s = if (c = .corrupt ∨ c = .duplicate) ∧ old = 127 then
        putNotice (.segmentDiag g c (t.seg g).drops) t
      else t := by
  have hc : c.diagnosed = true ↔ c = .corrupt ∨ c = .duplicate := by cases c <;> decide
  simp only [countDrop, Bool.and_eq_true, beq_iff_eq, hc]
  rfl

/-- The Frame Router that waits while every ring is empty takes its turn at the ring that a commit fills (log 43). -/
theorem wakeRouter_eq (g : Seg) (s : State) : wakeRouter g s =
    { s with router := { s.router with position :=
      if s.router.hand = none ∧ s.segA.ring = [] ∧ s.segB.ring = [] ∧ s.segC.ring = [] then g
      else s.router.position } } := by
  have hw : (s.router.hand = none ∧ ∀ h ∈ [Seg.a, .b, .c], (s.seg h).ring = []) ↔
      s.router.hand = none ∧ s.segA.ring = [] ∧ s.segB.ring = [] ∧ s.segC.ring = [] := by
    simp [State.seg]
  unfold wakeRouter
  split
  next h => rw [if_pos (hw.mp h)]
  next h => rw [if_neg (mt hw.mpr h)]

theorem seg_wakeRouter (g h : Seg) (s : State) : (wakeRouter g s).seg h = s.seg h := by
  rw [wakeRouter_eq]
  cases h <;> rfl

theorem seg_withNode (g : Seg) (n : Nat) (f : Node → Node) (s : State) :
    (withNode g n f s).seg g = { s.seg g with nodes := (s.seg g).nodes.modify n f } := seg_modSeg ..

/-- An accepted frame other than an ACK takes 1 from the receive faults that it found. -/
theorem acceptFrame_eq (g : Seg) (r : RingRecord) (s : State) :
    let kept := withNode g r.source (fun x => { x with lastSeq := r.seq, lastValid := true })
      ((wakeRouter g s).modSeg g fun x => { x with ring := x.ring ++ [r] })
    let owed := kept.modSeg g fun x => { x with pendingAck := some (r.source, r.seq) }
    let heard := nodeHeard g r.source (setRxFaults g ((s.seg g).rxFaults - 1) owed)
    acceptFrame g r s = answerPoll g r.source
      (if r.kind = 2 then withNode g r.source (fun x =>
        { x with
          mirror := r.body, changed := x.changed || x.mirror != r.body, reportHeld := true }) heard
      else heard) := by
  intro kept owed heard
  have hx : (owed.seg g).rxFaults = (s.seg g).rxFaults := by
    rw [seg_modSeg, seg_withNode, seg_modSeg, seg_wakeRouter]
  have hh : nodeHeard g r.source (rxFaultFalls g owed) = heard := by rw [rxFaultFalls, hx]
  change answerPoll g r.source (if r.kind = 2 then
      withNode g r.source (fun x => x.mirrorStatus r.body) (nodeHeard g r.source (rxFaultFalls g owed))
    else nodeHeard g r.source (rxFaultFalls g owed)) = _
  rw [hh]
  rfl

/-! ## Nodes heard and frames answered (R149, R157) -/

theorem nodeHeard_absent {s : State} {g : Seg} {n : Nat} (h : s.node g n = none) : nodeHeard g n s = s := by
  simp only [nodeHeard, h]

section heard

variable {s : State} {g : Seg} {n : Nat} {x : Node} (h : s.node g n = some x)

include h

theorem nodeHeard_unreachable (hl : x.liveness = .unreachable) : nodeHeard g n s = s := by
  simp only [nodeHeard, h, hl]

theorem nodeHeard_lost (hl : x.liveness = .lost) : nodeHeard g n s =
    putNotice (.nodeState g n x.entry.kind .live 0)
      (withNode g n (fun y => { y with liveness := .live, missed := 0 }) s) := by
  simp only [nodeHeard, h, hl]

theorem nodeHeard_reached (hl : x.liveness = .live ∨ x.liveness = .quiet) : nodeHeard g n s =
    withNode g n (fun y => { y with liveness := .live, missed := 0 }) s := by
  rcases hl with hl | hl <;> simp only [nodeHeard, h, hl]

end heard

theorem awaits_iff (p : FlightPhase) : p.awaits = true ↔ p = .waiting ∨ p = .waitOver := by
  cases p <;> decide

theorem answerPoll_none {s : State} {g : Seg} (h : (s.seg g).inFlight = none) (n : Nat) : answerPoll g n s = s := by
  simp only [answerPoll, h]

theorem answerCommand_none {s : State} {g : Seg} (h : (s.seg g).inFlight = none) (n : Nat) (q : BitVec 3) :
    answerCommand g n q s = s := by
  simp only [answerCommand, h]

/-- A frame of its node answers the poll that waits. -/
theorem answerPoll_some {s : State} {g : Seg} {f : InFlight} (h : (s.seg g).inFlight = some f) (n : Nat) :
    answerPoll g n s =
      if (f.entry.node = n ∧ (f.phase = .waiting ∨ f.phase = .waitOver)) ∧ f.entry.frame = .poll then
        handOutcome g .ok f.entry.token (withSeg g (fun y => { y with inFlight := none }) s)
      else s := by
  simp only [answerPoll, h, completeFlight_some h, Bool.and_eq_true, decide_eq_true_eq, beq_iff_eq, awaits_iff,
    and_right_comm]

/-- An ACK of its node with its sequence answers the command that waits. -/
theorem answerCommand_some {s : State} {g : Seg} {f : InFlight} (h : (s.seg g).inFlight = some f) (n : Nat)
    (q : BitVec 3) : answerCommand g n q s =
      if (f.entry.node = n ∧ (f.phase = .waiting ∨ f.phase = .waitOver)) ∧ f.entry.frame ≠ .poll ∧
          f.entry.seq = some q then
        handOutcome g .ok f.entry.token (withSeg g (fun y => { y with inFlight := none }) s)
      else s := by
  simp only [answerCommand, h, completeFlight_some h, Bool.and_eq_true, decide_eq_true_eq, beq_iff_eq, bne_iff_ne,
    awaits_iff, and_right_comm, and_assoc]

/-! ## Classes of a whole frame (R166, R215) -/

section classify

variable (x : Segment) (d s c l k₁ k₂ : Byte) (body : List Byte)

theorem checkHolds_iff : checkHolds (d :: s :: c :: l :: body ++ [k₁, k₂]) = true ↔
    (crc16 (d :: s :: c :: l :: body)).toNat = 256 * k₁.toNat + k₂.toNat := by
  have hn : (d :: s :: c :: l :: body ++ [k₁, k₂]).length - 2 = (d :: s :: c :: l :: body).length := by simp
  unfold checkHolds
  dsimp only
  rw [hn, List.take_left, List.drop_left, beq_iff_eq]
  simp only [beNat, List.foldl_cons, List.foldl_nil]
  omega

theorem classify_body_eq : ((d :: s :: c :: l :: body ++ [k₁, k₂]).drop 4).dropLast.dropLast = body := by
  simp [List.dropLast_append_of_ne_nil]

theorem classify_badCheck (h : ¬(crc16 (d :: s :: c :: l :: body)).toNat = 256 * k₁.toNat + k₂.toNat) :
    x.classify (d :: s :: c :: l :: body ++ [k₁, k₂]) = .corrupt := by
  have hc := Bool.eq_false_iff.mpr (mt (checkHolds_iff d s c l k₁ k₂ body).mp h)
  unfold Segment.classify
  rw [hc]
  rfl

variable (h : (crc16 (d :: s :: c :: l :: body)).toNat = 256 * k₁.toNat + k₂.toNat)

include h

theorem classify_unknown (hn : x.nodes.find s.toNat = none) :
    x.classify (d :: s :: c :: l :: body ++ [k₁, k₂]) = .foreign := by
  have hc := (checkHolds_iff d s c l k₁ k₂ body).mpr h
  have hs : (d :: s :: c :: l :: body ++ [k₁, k₂]).getD 1 0 = s := rfl
  unfold Segment.classify
  simp only [hc, hs, hn, Bool.not_true, Bool.false_eq_true, if_false]

/-- A frame of an enrolled node with its check right, by its fields. -/
theorem classify_enrolled {n : Node} (hn : x.nodes.find s.toNat = some n) :
    let kind := c.toNat / 16
    let seq : BitVec 3 := BitVec.ofNat 3 c.toNat
    x.classify (d :: s :: c :: l :: body ++ [k₁, k₂]) =
      if d = 0 ∧ n.entry.kind.sends kind = true ∧ body.length = bodyLength n.entry.kind kind ∧
          bodyFits kind body = true then
        if kind = 0 then .ack s.toNat seq
        else if n.lastValid = true ∧ n.lastSeq = seq then .duplicate s.toNat seq
        else .accepted ⟨s.toNat, kind, seq, body⟩
      else .foreign := by
  intro kind seq
  have hc := (checkHolds_iff d s c l k₁ k₂ body).mpr h
  have hd : (d :: s :: c :: l :: body ++ [k₁, k₂]).getD 0 0 = d := rfl
  have hs : (d :: s :: c :: l :: body ++ [k₁, k₂]).getD 1 0 = s := rfl
  have hk : (d :: s :: c :: l :: body ++ [k₁, k₂]).getD 2 0 = c := rfl
  unfold Segment.classify
  rw [hc, hd, hs, hk, classify_body_eq]
  have foreign : (decide (d ≠ 0) || !n.entry.kind.sends kind || decide (body.length ≠ bodyLength n.entry.kind kind) ||
      !bodyFits kind body) = true ↔ ¬(d = 0 ∧ n.entry.kind.sends kind = true ∧
        body.length = bodyLength n.entry.kind kind ∧ bodyFits kind body = true) := by
    simp only [Bool.or_eq_true, decide_eq_true_eq, Bool.not_eq_true', Decidable.not_and_iff_or_not, Bool.not_eq_true,
      or_assoc, ne_eq]
  simp only [hn, kind, seq, Bool.not_true, Bool.false_eq_true, if_false, foreign, ite_not, Bool.and_eq_true,
    beq_iff_eq]

end classify

/-! ## The Frame Router (R171 to R173) -/

/-- The ring that holds a record is next when those before it in the router's order are empty. -/
theorem nextRecord_some {s : State} {g : Seg} {r : RingRecord} {more : List RingRecord}
    (hr : (s.seg g).ring = r :: more)
    (hg : g = s.router.position ∨ (s.seg s.router.position).ring = [] ∧
      (g = nextSeg s.router.position ∨ (s.seg (nextSeg s.router.position)).ring = [])) :
    s.nextRecord = some (g, r) := by
  have hne {h : Seg} (hh : (s.seg h).ring = []) : g ≠ h := fun he => by cases (he ▸ hr).symm.trans hh
  unfold State.nextRecord
  rcases hg with rfl | ⟨h0, rfl | h1⟩
  · simp [hr]
  · simp [h0, hr]
  · have hlast : g = nextSeg (nextSeg s.router.position) := by
      have n0 := hne h0
      have n1 := hne h1
      revert n0 n1
      generalize s.router.position = p
      cases g <;> cases p <;> simp [nextSeg]
    simp [h0, h1, ← hlast, hr]

theorem nextRecord_none {s : State} (h : ∀ g, (s.seg g).ring = []) : s.nextRecord = none := by
  simp [State.nextRecord, h]

theorem frameRouterTurn_rests {s : State} (h : s.router.hand ≠ none ∨ ∀ g, (s.seg g).ring = []) :
    exec .frameRouterTurn s = .next s := by
  rcases h with h | h
  · obtain ⟨k, hk⟩ := Option.ne_none_iff_exists'.mp h
    simp only [exec, execFrameRouterTurn, hk]
  · simp only [exec, execFrameRouterTurn, nextRecord_none h]
    cases s.router.hand <;> rfl

theorem frameRouterTurn_takes {s : State} (h : s.router.hand = none) {g : Seg} {r : RingRecord}
    (hn : s.nextRecord = some (g, r)) : exec .frameRouterTurn s = .next (handRecord g r s) := by
  simp only [exec, execFrameRouterTurn, h, hn]

theorem handRecord_absent {s : State} {g : Seg} {r : RingRecord} (h : s.node g r.source = none) :
    handRecord g r s = freeRecord g s := by
  simp only [handRecord, h]

section handRecord

variable {s : State} {g : Seg} {r : RingRecord} {n : Node} (h : s.node g r.source = some n)

include h

theorem handRecord_unfit (hf : ¬n.entry.kind.sends r.kind = true) : handRecord g r s = freeRecord g s := by
  simp only [handRecord, h, hf, Bool.not_false, if_true]

variable (hf : n.entry.kind.sends r.kind = true)

include hf

theorem handRecord_credential (hk : r.kind = 3) : handRecord g r s = handCredential g r n.entry.binding s := by
  simp only [handRecord, h, hf, Bool.not_true, Bool.false_eq_true, if_false]
  exact if_pos hk

theorem handRecord_ask (hk : r.kind = 4) :
    handRecord g r s = freeRecord g (releaseAsk g r.source (r.body.getD 0 0).toNat s) := by
  simp only [handRecord, h, hf, Bool.not_true, Bool.false_eq_true, if_false]
  rw [if_neg (by simp [hk]), if_pos hk]

theorem handRecord_status (h3 : r.kind ≠ 3) (h4 : r.kind ≠ 4) :
    handRecord g r s = freeRecord g (handStatus g r n.entry s) := by
  simp only [handRecord, h, hf, h3, h4, Bool.not_true, Bool.false_eq_true, if_false]

end handRecord

theorem handCredential_asks {b : Binding} {r : RingRecord} {a : Asked}
    (h : askedBy b (r.body.getD 4 0).toNat = some a) (g : Seg) (s : State) : handCredential g r b s =
      { s with
        router := ⟨g, some ⟨g, false, true⟩⟩
        visits := { s.visits with waiting := s.visits.waiting ++
          [⟨a, .reader g r.source, BitVec.ofNat 32 (beNat (r.body.take 4))⟩] } } := by
  simp only [handCredential, h]

theorem handCredential_unbound {b : Binding} {r : RingRecord} (h : askedBy b (r.body.getD 4 0).toNat = none) (g : Seg)
    (s : State) : handCredential g r b s = freeRecord g s := by
  simp only [handCredential, h]

/-- Settles O59: the characters, the end of a frame, its classes and the router's turn, each by its cases. -/
theorem framesAreReceivedAndRouted : Obligations.FramesAreReceivedAndRouted := by
  refine ⟨fun s g b => ?_, fun f b room => ?_, fun s g f whole rx => ?_, fun s g => ?_, fun s g n q => ?_,
    fun x d s c l k₁ k₂ body => ?_, fun s => ⟨frameRouterTurn_rests, fun hh g r more hr hg => ?_⟩⟩
  · intro x room put hears
    refine ⟨fun h => ⟨fieldCharacter_deaf h b, fieldLineIdle_deaf h⟩, fun h hx => ?_, fun h stray hx => ?_,
      fun h f hx => ?_⟩
    · rw [fieldCharacter_hears h, takeChar_idle hx]
      exact ⟨fun hr => congrArg _ (modSeg_congr (startFrame_room hr b)),
        fun hr => congrArg _ (modSeg_congr (startFrame_overrun hr b)), fieldLineIdle_idle h hx⟩
    · rw [fieldCharacter_hears h, takeChar_ended hx]
      exact ⟨rfl, fieldLineIdle_ended h hx⟩
    · intro f' ends
      rw [fieldCharacter_hears h, takeChar_frame hx]
      exact ⟨fun he => congrArg _ (if_pos ((complete_iff f').mpr he)),
        fun he => congrArg _ (if_neg (mt (complete_iff f').mp he)), fieldLineIdle_frame h hx⟩
  · intro f' k len becomes
    refine ⟨fun h => char_dropped h b room, fun h hl => char_header h hl room, fun h n hl => ?_⟩
    have measured : f' = _ := char_measured h hl room
    refine ⟨fun hn => ?_, fun hn hk => ?_, fun hn hk hk' hr => ?_, fun hn hk hk' hr => ?_⟩
    · exact measured.trans (if_pos hn)
    · exact measured.trans ((if_neg (Nat.not_lt.mpr hn)).trans (if_pos hk))
    · have inBody : ¬(k ≤ 4 ∨ 4 + n < k) := by omega
      exact measured.trans ((if_neg (Nat.not_lt.mpr hn)).trans ((if_neg inBody).trans (if_pos hr)))
    · have inBody : ¬(k ≤ 4 ∨ 4 + n < k) := by omega
      exact measured.trans ((if_neg (Nat.not_lt.mpr hn)).trans ((if_neg inBody).trans (if_neg (Nat.ne_of_gt hr))))
  · exact ⟨fun h => endFrame_overrun h g whole rx s, fun h => endFrame_oversize h g whole rx s,
      fun h => endFrame_normal h g whole rx s, fun w => afterFrame_waitOver, afterFrame_other, applyRate_eq g s⟩
  · intro faults
    refine ⟨rfl, rfl, rfl, fun n q => rfl, fun n q => rfl, fun r => ?_, fun c => countDrop_eq g c s,
      fun n => setRxFaults_eq g n s⟩
    intro waits woken kept owed heard
    have accepted := acceptFrame_eq g r s
    rw [wakeRouter_eq] at accepted
    exact accepted
  · intro live
    refine ⟨nodeHeard_absent, fun x hx => ⟨nodeHeard_unreachable hx, nodeHeard_lost hx, nodeHeard_reached hx⟩,
      fun h => ⟨answerPoll_none h n, answerCommand_none h n q⟩, fun f hf => ?_⟩
    intro awaited done
    rw [answerPoll_some hf, answerCommand_some hf]
    exact ⟨fun h => if_pos h, fun h => if_neg h, fun h => if_pos h, fun h => if_neg h⟩
  · intro chars good kind seq
    refine ⟨classify_badCheck x d s c l k₁ k₂ body, classify_unknown x d s c l k₁ k₂ body, fun h n hn => ?_⟩
    have row := classify_enrolled x d s c l k₁ k₂ body h hn
    intro fits
    refine ⟨fun hf => row.trans (if_neg hf), fun hf hk => row.trans ((if_pos hf).trans (if_pos hk)),
      fun hf hk hv hq => ?_, fun hf hk hv => ?_⟩
    · exact row.trans ((if_pos hf).trans ((if_neg hk).trans (if_pos ⟨hv, hq⟩)))
    · exact row.trans ((if_pos hf).trans ((if_neg hk).trans (if_neg hv)))
  · intro freed
    rw [frameRouterTurn_takes hh (nextRecord_some hr hg)]
    refine ⟨fun hn => congrArg _ (handRecord_absent hn), fun n hn => ?_⟩
    intro fits
    refine ⟨fun hf => congrArg _ (handRecord_unfit hn hf), fun hf hk a ha => ?_, fun hf hk ha => ?_,
      fun hf hk => congrArg _ (handRecord_ask hn hf hk), fun hf h3 h4 => ?_⟩
    · rw [handRecord_credential hn hf hk, handCredential_asks ha]
    · rw [handRecord_credential hn hf hk, handCredential_unbound ha]
      rfl
    · rw [handRecord_status hn hf h3 h4]
      simp only [handStatus, beq_iff_eq] <;> rfl

end Sys2Proof.Machine
end

section
/-! PROOF. The local lines: pin changes and settling, the fire input, the beacon and LINE_WRITE (O60). -/

namespace Sys2Proof.Machine

/-! ## A pin change (R184) -/

/-- Under an output function a pin change is sampled and nothing more. -/
theorem pinChange_output {l : Line} (h : ¬l.record.val.func.isInput = true) (level : Level) (wait : Nat) :
    l.pinChange level wait = { l with pin := level } := if_neg h

/-- A settled input line times a difference from its debounced level and drops a return to it. -/
theorem pinChange_settled {l : Line} (h : l.record.val.func.isInput = true) {d : Level} (hd : l.debounced = some d)
    (level : Level) (wait : Nat) :
    l.pinChange level wait = { l with pin := level, timer := if d = level then none else some wait } := by
  refine (if_pos h).trans ?_
  simp only [hd]

/-- An unsettled input line counts anew from each pin change while its settle timer runs. -/
theorem pinChange_unsettled {l : Line} (h : l.record.val.func.isInput = true) (hd : l.debounced = none)
    (ht : l.settleTimer = true) (level : Level) (wait : Nat) :
    l.pinChange level wait = { l with pin := level, timer := some wait } := by
  refine (if_pos h).trans ?_
  simp only [hd, ht, if_true]

section line

variable {s : State} {n : Nat} {l : Line} (hl : s.line n = some l)

include hl

/-- A sample equal to the last one is no change. -/
theorem linePinChange_same {level : Level} (h : l.pin = level) : exec (.linePinChange n level) s = .next s := by
  simp only [exec, execLinePinChange, hl, h, if_true]

theorem linePinChange_other {level : Level} (h : l.pin ≠ level) :
    exec (.linePinChange n level) s =
      .next (s.modLine n fun x => x.pinChange level s.site.params.val.debounce) := by
  simp only [exec, execLinePinChange, hl, h, if_false]

/-! ## A line takes its pin level (R184, R185) -/

theorem debounceTimerExpiry_running (h : l.timer ≠ none) :
    exec (.debounceTimerExpiry n) s = .next (takeLevel n l s) := by
  simp only [exec, execDebounceTimerExpiry, hl, Option.isSome_iff_ne_none.mpr h, if_true]

theorem debounceTimerExpiry_stopped (h : l.timer = none) : exec (.debounceTimerExpiry n) s = .next s := by
  simp only [exec, execDebounceTimerExpiry, hl, h, Option.isSome_none, Bool.false_eq_true, if_false]

theorem lineSettleTimeout_eq :
    exec (.lineSettleTimeout n) s = .next (if (l.settleTimer && l.unsettled) = true then takeLevel n l s else s) := by
  simp only [exec, execLineSettleTimeout, hl]

end line

theorem unsettled_iff (l : Line) : l.unsettled = true ↔ l.record.val.func.isInput = true ∧ l.debounced = none := by
  simp only [Line.unsettled, Bool.and_eq_true, Option.isNone_iff_eq_none]

theorem settleTimeout_due_iff (l : Line) : (l.settleTimer && l.unsettled) = true ↔
    l.settleTimer = true ∧ l.record.val.func.isInput = true ∧ l.debounced = none := by
  rw [Bool.and_eq_true, unsettled_iff]

/-- The level taken is a starting level for an unsettled line, and a change for any other. -/
theorem takeLevel_eq (n : Nat) (l : Line) (s : State) :
    takeLevel n l s =
      if l.record.val.func.isInput = true ∧ l.debounced = none then
        handStart l.record.val.func (s.modLine n Line.take)
      else handChange l.record.val.func (s.modLine n Line.take) := by
  simp only [takeLevel, unsettled_iff]

/-! ## The fire input (R185) -/

theorem fireActive_iff (s : State) : s.fireActive = true ↔
    ∃ l ∈ s.lines.list, l.record.val.func = .fireIn ∧ l.debounced = some l.record.val.active := by
  simp [State.fireActive, Line.value]

theorem updateFire_changed {s : State} {b : Bool} (h : s.fireActive = b) (hb : s.lines.fireInput ≠ b) :
    updateFire s = toSiteFire (.change b) { s with lines := { s.lines with fireInput := b } } := by
  subst h
  exact if_neg hb.symm

theorem updateFire_same {s : State} (h : s.fireActive = s.lines.fireInput) : updateFire s = s := if_pos h

theorem reportSettled_notOwed {s : State} (h : s.lines.settledOwed = false) : reportSettled s = s := by
  simp only [reportSettled, h, Bool.false_and, Bool.false_eq_true, if_false]

/-! ## The beacon (R187) -/

/-- A beacon input is recorded, and the beacon worked out anew. -/
theorem beaconInputReport_head {s : State} {r : BeaconReport} {rest : List BeaconReport}
    (h : s.lines.reports = r :: rest) :
    exec .beaconInputReport s =
      .next (evaluateBeacon { s with lines := takeBeaconInput { s.lines with reports := rest } r }) := by
  simp only [exec, execBeaconInputReport, h]

theorem evaluateBeacon_flashing {s : State} (h : s.lines.evacFlag = true)
    (hb : ∃ lit, s.lines.beacon = .flashing lit) : evaluateBeacon s = s := by
  obtain ⟨lit, hb⟩ := hb
  simp only [evaluateBeacon, h, hb, if_true]

theorem evaluateBeacon_begins {s : State} (h : s.lines.evacFlag = true)
    (hb : ¬∃ lit, s.lines.beacon = .flashing lit) :
    evaluateBeacon s = setBeacon (.flashing true) { s with lines := { s.lines with phaseTimer := true } } := by
  refine (if_pos h).trans ?_
  split
  · rename_i lit hf
    exact absurd ⟨lit, hf⟩ hb
  · rfl

/-- With the EVACUATE flag clear the alarms alone give the beacon. -/
theorem evaluateBeacon_clear {s : State} (h : s.lines.evacFlag = false) :
    evaluateBeacon s =
      setBeacon
        (if s.lines.beaconOnAlarms = true ∧ (s.lines.unitForced = true ∨ s.lines.portalAlarm = true) then .steady
          else .off)
        { s with lines := { s.lines with phaseTimer := false } } := by
  refine (if_neg (by simp [h])).trans ?_
  simp only [Bool.and_eq_true, Bool.or_eq_true]

theorem phaseTimerExpiry_running {s : State} {lit : Bool} (ht : s.lines.phaseTimer = true)
    (hb : s.lines.beacon = .flashing lit) : exec .phaseTimerExpiry s = .next (setBeacon (.flashing !lit) s) := by
  simp only [exec, execPhaseTimerExpiry, ht, hb]

theorem phaseTimerExpiry_stopped {s : State} (ht : s.lines.phaseTimer = false) :
    exec .phaseTimerExpiry s = .next s := by
  simp only [exec, execPhaseTimerExpiry, ht]

/-- The BEACON lines are driven by the state and its phase. -/
theorem setBeacon_eq (b : Beacon) (s : State) :
    setBeacon b s =
      { s with lines :=
        { s.lines with
          beacon := b
          list := s.lines.list.map fun l => if l.record.val.func = .beacon then
              { l with drive := if b = .steady ∨ b = .flashing true then .active else .other }
            else l } } := by
  simp only [setBeacon, beacon_drive_eq, beq_iff_eq]

/-! ## LINE_WRITE (R189) -/

theorem flagOf_eq (n : Nat) : flagOf n = if n ≤ 1 then some (decide (n = 1)) else none := by
  rcases n with _ | _ | n
  · rfl
  · rfl
  · exact (if_neg (by omega)).symm

theorem parseLineWrite_bytes (n v : Byte) :
    parseLineWrite [n, v] = if n.toNat ≤ 11 ∧ v.toNat ≤ 1 then .ok (n.toNat, decide (v = 1)) else .error .badValue := by
  have hf : fields [1, 1] [n, v] = some [n.toNat, v.toNat] := by simp [fields, beNat_byte]
  have h1 : v.toNat = 1 ↔ v = 1 := BitVec.toNat_inj (y := 1)
  simp only [parseLineWrite, hf, flagOf_eq, h1]
  by_cases hv : v.toNat ≤ 1
  · simp [hv, inRange]
  · simp [hv]

/-- The first tests of LINE_WRITE. -/
theorem lineWrite_tests {s : State} {f : Frame} (hf : s.inHand f) (hk : f.kind = 0x71) :
    (f.body.length ≠ 2 → exec .lineWrite s = .next (s.answered f .badFormat [])) ∧
    ∀ n v, f.body = [n, v] →
      (11 < n.toNat ∨ 1 < v.toNat → exec .lineWrite s = .next (s.answered f .badValue [])) ∧
      (n.toNat ≤ 11 → v.toNat ≤ 1 → s.site.mode = .starting →
        exec .lineWrite s = .next (s.answered f .wrongMode [])) := by
  obtain ⟨body, mode, -⟩ := requestsAreTestedInOrder .lineWrite _ s f rfl hf (congrArg _ hk) rfl fun h => nomatch h
  refine ⟨fun hl => body _ ?_, fun n v hb => ⟨fun h => body _ ?_, fun hn hv hm => mode ?_ ?_⟩⟩
  · have hn : fields [1, 1] f.body = none := fields_of_length_ne (by simpa using hl)
    simp [RequestRow.plain, parseLineWrite, hn, verdict]
  · have out : ¬(n.toNat ≤ 11 ∧ v.toNat ≤ 1) := by omega
    simp [RequestRow.plain, hb, parseLineWrite_bytes, out, verdict]
  · simp [RequestRow.plain, hb, parseLineWrite_bytes, hn, hv, verdict]
  · simp [RequestRow.plain, hm, outsideStarting]

theorem write_eq (l : Line) (b : Bool) :
    l.write b =
      { l with
        output := b
        drive := if l.record.val.func = .generalOut then if b = true then .active else .other else l.drive } := rfl

/-- Past those tests LINE_WRITE sets the output value. -/
theorem lineWrite_fits {s : State} {f : Frame} (hf : s.inHand f) (hk : f.kind = 0x71) {n v : Byte}
    (hb : f.body = [n, v]) (hn : n.toNat ≤ 11) (hv : v.toNat ≤ 1) (hm : s.site.mode ≠ .starting) :
    exec .lineWrite s = .next ((s.modLine n.toNat fun l => l.write (decide (v = 1))).answered f .ok []) := by
  have hp : parseLineWrite f.body = .ok (n.toNat, decide (v = 1)) := by
    rw [hb, parseLineWrite_bytes, if_pos ⟨hn, hv⟩]
  have written : (s.modLine n.toNat fun l => l.write (decide (v = 1))).inHand f := hf
  exact congrArg _ ((taking_fits (p := parseLineWrite) hf (congrArg _ hk) hp (outsideStarting_eq hm)).trans
    (reply_ok written _))

/-- Settles O60: each line command by the state of its line, then the fire input, the beacon, LINE_WRITE and the
hand-on, each by its own rule. -/
theorem linesSettleAndTheBeaconFollows : Obligations.LinesSettleAndTheBeaconFollows := by
  refine ⟨fun s n level l hl => ?_, fun s => ?_, fun s r rest hr => ?_,
    fun s => ⟨fun lit ht hb => phaseTimerExpiry_running ht hb, phaseTimerExpiry_stopped, fun b => setBeacon_eq b s⟩,
    fun s f hf hk => ?_, fun s func => ?_, fun s => ⟨reportSettled_settled, fun h => ?_⟩⟩
  · intro func input wait put
    refine ⟨linePinChange_same hl, fun h => ⟨fun x => x.pinChange level wait, linePinChange_other hl h,
      fun hi => pinChange_output hi .., fun hi d hd => pinChange_settled hi hd ..,
      fun hi hd ht => pinChange_unsettled hi hd ht ..⟩, ?_⟩
    intro taken goes
    have takes : takeLevel n l s = _ := takeLevel_eq n l s
    refine ⟨fun ht => ?_, debounceTimerExpiry_stopped hl, fun hs hi hd => ?_, fun h => ?_⟩
    · exact (debounceTimerExpiry_running hl ht).trans (congrArg _ takes)
    · have due := (settleTimeout_due_iff l).mpr ⟨hs, hi, hd⟩
      exact (lineSettleTimeout_eq hl).trans (congrArg _ ((if_pos due).trans takes))
    · have notDue : ¬(l.settleTimer && l.unsettled) = true := by
        rw [settleTimeout_due_iff]
        rintro ⟨hs, hi, hd⟩
        rcases h with h | h | h
        · exact absurd (hs.symm.trans h) (by decide)
        · exact h hi
        · exact h hd
      exact (lineSettleTimeout_eq hl).trans (congrArg _ (if_neg notDue))
  · intro active
    have hactive : s.fireActive = true ↔ active := fireActive_iff s
    refine ⟨fun ha hi => updateFire_changed (hactive.mpr ha) (by simp [hi]),
      fun ha hi => updateFire_changed (Bool.eq_false_iff.mpr (mt hactive.mp ha)) (by simp [hi]),
      fun h => updateFire_same (Bool.eq_iff_iff.mpr (hactive.trans h))⟩
  · intro l m alarmed becomes
    have head : exec .beaconInputReport s = .next (evaluateBeacon { s with lines := m }) := by
      rw [beaconInputReport_head hr]
      cases r <;> rfl
    refine ⟨fun he hb => ?_, fun he hb => ?_, fun he ha => ?_, fun he ha => ?_⟩
    · exact head.trans (congrArg _ (evaluateBeacon_flashing he hb))
    · exact head.trans (congrArg _ (evaluateBeacon_begins he hb))
    · exact head.trans (congrArg _ ((evaluateBeacon_clear he).trans (by rw [if_pos ha])))
    · exact head.trans (congrArg _ ((evaluateBeacon_clear he).trans (by rw [if_neg ha])))
  · obtain ⟨format, tests⟩ := lineWrite_tests hf hk
    refine ⟨format, fun n v hb => ?_⟩
    obtain ⟨value, mode⟩ := tests n v hb
    refine ⟨value, mode, fun hn hv hm => ?_⟩
    rw [lineWrite_fits hf hk hb hn hv hm]
    simp only [write_eq, decide_eq_true_eq]
  · intro started
    cases func <;> exact ⟨rfl, rfl⟩
  · rcases h with h | h
    · exact reportSettled_notOwed h
    · exact reportSettled_waits h

end Sys2Proof.Machine
end

section
/-! PROOF. Every command completes (O3), how a body is read (O19), and the clocks: SET_CLOCK (O23) and the second
(O24). -/

namespace Sys2Proof.Machine

/-- Settles O3: every command answers a next state by moving its footprint, and no queue is part of a move. -/
theorem everyCommandCompletes : Obligations.EveryCommandCompletes := by
  intro c s
  obtain ⟨t, he, hm⟩ := exec_moves c s
  exact ⟨t, he, hm.pending⟩

/-! ## Bodies by their widths (R195, R213) -/

theorem parseNone_eq (b : List Byte) : parseNone b = if b = [] then .ok () else .error .badFormat := by
  cases b <;> rfl

theorem inRange_eq {α : Type} {ok : Bool} {fits : Prop} [Decidable fits] (h : ok = true ↔ fits) (x : α) :
    inRange ok x = if fits then .ok x else .error .badValue :=
  ite_congr (propext h) (fun _ => rfl) fun _ => rfl

/-- Two bytes are a number, the most significant first, tested against its range (R213). -/
theorem parseOne_bytes (low high : Nat) (x y : Byte) :
    parseOne 2 low high [x, y] =
      if low ≤ pairNumber x y ∧ pairNumber x y ≤ high then .ok (pairNumber x y) else .error .badValue := by
  have hf : fields [2] [x, y] = some [pairNumber x y] := by simp [fields, beNat_pair]
  unfold parseOne
  rw [hf]
  exact inRange_eq (by simp) _

theorem parseOne_length {b : List Byte} (h : b.length ≠ 2) (low high : Nat) :
    parseOne 2 low high b = .error .badFormat := by
  have hf : fields [2] b = none := fields_of_length_ne (by simpa using h)
  simp only [parseOne, hf]

/-- The day, the two bytes of the minute and the second, each tested against its range (R195). -/
theorem parseSetClock_bytes (d m n x : Byte) :
    parseSetClock [d, m, n, x] =
      if d.toNat ≤ 6 ∧ pairNumber m n ≤ 1439 ∧ x.toNat ≤ 59 then .ok ⟨d.toNat, pairNumber m n, x.toNat⟩
      else .error .badValue := by
  have hf : fields [1, 2, 1] [d, m, n, x] = some [d.toNat, pairNumber m n, x.toNat] := by
    simp [fields, beNat_pair, beNat_byte]
  unfold parseSetClock
  rw [hf]
  exact inRange_eq (by simp [and_assoc]) _

theorem parseSetClock_length {b : List Byte} (h : b.length ≠ 4) : parseSetClock b = .error .badFormat := by
  have hf : fields [1, 2, 1] b = none := fields_of_length_ne (by simpa using h)
  simp only [parseSetClock, hf]

/-- Settles O19: each reader splits its body by the widths of its fields, then tests the ranges. -/
theorem bodiesAreReadByWidth : Obligations.BodiesAreReadByWidth :=
  ⟨parseNone_eq, parseOne_bytes, fun low high _ h => parseOne_length h low high, parseSetClock_bytes,
    fun _ => parseSetClock_length⟩

/-! ## SET_CLOCK (R195) -/

/-- SET_CLOCK answers a body that does not fit by the status of its reader. -/
theorem setClock_refused {s : State} {f : Frame} (hf : s.inHand f) (hk : f.kind = 0x08) {e : Status}
    (hp : parseSetClock f.body = .error e) : exec .setClock s = .next (s.answered f e []) := by
  obtain ⟨body, -, -⟩ := requestsAreTestedInOrder .setClock _ s f rfl hf (congrArg _ hk) rfl fun h => nomatch h
  exact body e (congrArg verdict hp)

/-- SET_CLOCK of a body that fits is refused in STARTING. -/
theorem setClock_starting {s : State} {f : Frame} (hf : s.inHand f) (hk : f.kind = 0x08) {c : Clock}
    (hp : parseSetClock f.body = .ok c) (hm : s.site.mode = .starting) :
    exec .setClock s = .next (s.answered f .wrongMode []) := by
  obtain ⟨-, mode, -⟩ := requestsAreTestedInOrder .setClock _ s f rfl hf (congrArg _ hk) rfl fun h => nomatch h
  exact mode (congrArg verdict hp) (congrArg outsideStarting hm)

/-- Past those tests SET_CLOCK sets the wall clock. -/
theorem setClock_fits {s : State} {f : Frame} (hf : s.inHand f) (hk : f.kind = 0x08) {c : Clock}
    (hp : parseSetClock f.body = .ok c) (hm : s.site.mode ≠ .starting) :
    exec .setClock s = .next (({ s with site := { s.site with clock := some c } }).answered f .ok []) := by
  refine congrArg _ ((taking_fits hf (congrArg _ hk) hp (outsideStarting_eq hm)).trans (reply_status ?_ _))
  exact hf

/-- Settles O23: the body by its length and its ranges, then the mode. -/
theorem setClockSetsTheWallClock : Obligations.SetClockSetsTheWallClock := by
  intro s f hf hk
  refine ⟨fun hl => setClock_refused hf hk (parseSetClock_length hl), fun d m n x hb => ?_⟩
  have hp := parseSetClock_bytes d m n x
  rw [← hb] at hp
  refine ⟨fun out => ?_, fun hd hm hx => ?_, fun hd hm hx => ?_⟩
  · refine setClock_refused hf hk (hp.trans (if_neg ?_))
    rintro ⟨hd, hm, hx⟩
    change _ ∨ 1439 < pairNumber m n ∨ _ at out
    omega
  · exact setClock_starting hf hk (hp.trans (if_pos ⟨hd, hm, hx⟩))
  · exact setClock_fits hf hk (hp.trans (if_pos ⟨hd, hm, hx⟩))

/-! ## The second (R193, R194) -/

/-- A second later, over the minute, the day and the week. -/
theorem Clock.next_eq {d : Nat} (hd : d ≤ 6) (m x : Nat) :
    Clock.next ⟨d, m, x⟩ =
      if x < 59 then ⟨d, m, x + 1⟩ else if m < 1439 then ⟨d, m + 1, 0⟩ else ⟨(d + 1) % 7, 0, 0⟩ := by
  have week : (if d < 6 then ⟨d + 1, 0, 0⟩ else ⟨0, 0, 0⟩ : Clock) = ⟨(d + 1) % 7, 0, 0⟩ := by
    split
    · rw [Nat.mod_eq_of_lt (by omega)]
    · obtain rfl : d = 6 := by omega
      rfl
  simp only [Clock.next, week]

theorem siteSecondTick_advances {s : State} (h : s.site.seconds < Config.maxSeconds) :
    exec .siteSecondTick s = .next
      { s with site :=
        { s.site with seconds := s.site.seconds + 1, clock := s.site.clock.map Clock.next } } :=
  congrArg _ (if_pos h)

theorem siteSecondTick_saturated {s : State} (h : Config.maxSeconds ≤ s.site.seconds) :
    exec .siteSecondTick s = .next s :=
  congrArg _ (if_neg (Nat.not_lt.mpr h))

/-- Settles O24: below the bound both clocks advance, at it neither. -/
theorem everySecondTheClocksAdvance : Obligations.EverySecondTheClocksAdvance := by
  refine fun s => ⟨fun h => ⟨fun hc => ?_, fun d m x hc hd _ _ => ?_⟩, siteSecondTick_saturated⟩
  · simp only [siteSecondTick_advances h, hc, Option.map_none]
  · rw [siteSecondTick_advances h, hc, Option.map_some, Clock.next_eq hd]

end Sys2Proof.Machine
end

section
/-! PROOF. Changes of the mode: HOLD (O25), the drain check (O29), and how an evacuation begins (O27). -/

namespace Sys2Proof.Machine

/-! ## HOLD (R192, R199) -/

/-- A row that takes an empty body in every mode goes on to its meaning. -/
theorem exec_empty {c : Instr} {s : State} {f : Frame} {kind : Nat} {k : Unit → State → State}
    (h : exec c s = .next (taking kind (fun b => tested (parseNone b) anyMode k) s)) (hf : s.inHand f)
    (hk : f.kind.toNat = kind) (hb : f.body = []) : exec c s = .next (k () s) :=
  h.trans (congrArg _ (taking_fits hf hk (by rw [hb]; rfl) rfl))

/-- Settles O25: the mode changes by one notice and one report, and HOLD with an empty body goes by the mode. -/
theorem holdBeginsTheDrain : Obligations.HoldBeginsTheDrain := by
  refine ⟨fun _ _ _ _ => rfl, fun s f hf hk hb => ?_⟩
  have taken := exec_empty (c := .hold) rfl hf (congrArg _ hk) hb
  refine ⟨fun hm => taken.trans (congrArg _ ?_), ?_, ?_⟩
  · simp only [hm]
    refine reply_status ?_ _
    exact (enterMode_serving ..).trans hf
  · rintro (hm | hm) <;> simpa only [hm, reply_status hf] using taken
  · rintro (hm | hm) <;> simpa only [hm, reply_status hf] using taken

/-! ## The drain check (R199, R200) -/

theorem drained_iff (s : State) :
    s.drained = true ↔ s.site.portalsBusy = false ∧ s.site.carsBusy = false ∧ s.site.segABusy = false ∧
      s.site.segBBusy = false ∧ s.site.segCBusy = false ∧ s.store.state = .ready := by
  simp [State.drained, and_assoc]

theorem drainCheck_eq (s : State) :
    drainCheck s =
      if s.site.mode = .draining ∧ s.site.drainOwed = 0 ∧ s.drained = true then enterMode .setup none .drainDone s
      else s :=
  ite_congr (by simp only [Bool.and_eq_true, decide_eq_true_eq, and_assoc]) (fun _ => rfl) fun _ => rfl

/-- The report at the front is taken by the command of its kind: the Lift Scheduler's answer by DRAIN_ANSWER, every
other by BUSY_REPORT. -/
theorem siteReport_head {s : State} {r : SiteReport} {rest : List SiteReport} (h : s.site.reports = r :: rest) :
    exec (if r = .drainAnswer then .drainAnswer else .busyReport) s = .next (takeSiteReport r rest s) := by
  cases r with
  | drainAnswer => simp only [if_true, exec, execDrainAnswer, h]
  | portals | cars | segment | storeReady => simp only [reduceCtorEq, if_false, exec, execBusyReport, h]

/-- Settles O29: the report at the front is recorded, and then the drain check is made. -/
theorem theDrainCheckEndsTheDrain : Obligations.TheDrainCheckEndsTheDrain := by
  intro s r rest hr c u passes command
  have recorded : recordReport c r = u := by
    cases r with
    | segment g => cases g <;> rfl
    | portals | cars | storeReady | drainAnswer => rfl
  have taken : exec command s = .next (drainCheck { s with site := u }) := by
    rw [← recorded]
    exact siteReport_head hr
  have check : drainCheck { s with site := u } =
      if passes then enterMode .setup none .drainDone { s with site := u } else { s with site := u } := by
    simp only [drainCheck_eq, drained_iff, passes]
  rw [taken, check]
  exact ⟨fun h => congrArg _ (if_pos h), fun h => congrArg _ (if_neg h)⟩

/-! ## How an evacuation begins (R197, R198, R202) -/

theorem Mode.returnsTo_eq (m : Mode) : m.returnsTo = if m = .run then .run else .setup := by
  cases m <;> rfl

theorem Mode.evacuable_iff (m : Mode) : m.evacuable = true ↔ m = .setup ∨ m = .run ∨ m = .draining := by
  cases m <;> decide

theorem beginEvacuation_eq (cause : EvacCause) (s : State) :
    beginEvacuation cause s =
      toVisitsEvac .begin_ (toLiftOrders .evacBegin (toPortalEvac .begin_
        (enterMode .evacuate (some (if s.site.mode = .run then .run else .setup))
          (match cause with | .host => .evacuateRequest | .fire => .fire)
          { s with site :=
            { s.site with
              returnMode := some (if s.site.mode = .run then .run else .setup)
              evacCause := some cause } }))) := by
  unfold beginEvacuation
  rw [Mode.returnsTo_eq]
  cases cause <;> rfl

theorem beginEvacuation_serving (cause : EvacCause) (s : State) :
    (beginEvacuation cause s).host.serving = s.host.serving := by
  simp only [beginEvacuation, toVisitsEvac_host, toLiftOrders_host, toPortalEvac_host, enterMode_serving]

theorem fireReported_eq (active : Bool) (s : State) :
    fireReported active s =
      if active = true ∧ (s.site.mode = .setup ∨ s.site.mode = .run ∨ s.site.mode = .draining) then
        beginEvacuation .fire s
      else s :=
  ite_congr (by rw [Bool.and_eq_true, Mode.evacuable_iff]) (fun _ => rfl) fun _ => rfl

theorem fireInputChange_head {s : State} {a : Bool} {rest : List FireReport}
    (h : s.site.fireReports = .change a :: rest) :
    exec .fireInputChange s = .next
      (fireReported a { s with site := { s.site with fireReports := rest, fireInput := a } }) := by
  simp only [exec, execFireInputChange, h]

theorem settledReport_head {s : State} {a : Bool} {rest : List FireReport}
    (h : s.site.fireReports = .settled a :: rest) :
    exec .settledReport s = .next
      (fireReported a
        { s with site := { s.site with fireReports := rest, fireInput := a, fireCheckDone := true } }) := by
  simp only [exec, execSettledReport, h]

/-- Settles O27: the beginning by its one equation, EVACUATE by the mode, and both reports of the fire input by whether
it is active where an evacuation can begin. -/
theorem anEvacuationBegins : Obligations.AnEvacuationBegins := by
  refine ⟨beginEvacuation_eq, fun s f hf hk hb => ?_, ?_⟩
  · have taken := exec_empty (c := .evacuate) rfl hf (congrArg _ hk) hb
    have begun : (beginEvacuation .host s).inHand f := inHand_of_serving hf (beginEvacuation_serving ..)
    refine ⟨?_, fun hm => ?_⟩
    · rintro (hm | hm | hm) <;> simpa only [hm, reply_status begun] using taken
    · simpa only [hm, reply_status hf] using taken
  · intro s a rest begins
    refine ⟨fun hr => ?_, fun hr => ?_⟩
    · rw [fireInputChange_head hr, fireReported_eq]
      exact ⟨fun h => congrArg _ (if_pos h), fun h => congrArg _ (if_neg h)⟩
    · rw [settledReport_head hr, fireReported_eq]
      exact ⟨fun h => congrArg _ (if_pos h), fun h => congrArg _ (if_neg h)⟩

end Sys2Proof.Machine
end

section
/-! PROOF. The Host Link: check values (O10), the receiver (O11), good frames (O12), replies that leave (O13), and
notices put (O14) and taken (O15). -/

namespace Sys2Proof.Machine

/-! ## Check values (R214, R216) -/

theorem crc16_manualExample : crc16 [0x31, 0x32, 0x33, 0x34, 0x35, 0x36, 0x37, 0x38, 0x39] = 0x29B1#16 := by
  decide +kernel

/-- Settles O10: the check of R214's example computed, and the nine bytes of R216's record written out. -/
theorem checkValuesFollowTheManual : Obligations.CheckValuesFollowTheManual := by
  have bytes : u16 1204 ++ (⟨12, .b, 14, 3, 17, false⟩ : UnitRec).bytes =
      [0x04, 0xB4, 0x0C, 0x01, 0x0E, 0x03, 0x00, 0x11, 0x00] := by decide
  exact ⟨crc16_manualExample, congrArg crc16 bytes⟩

/-! ## The receiver (R207) -/

theorem hostByte_hunting {s : State} (h : s.host.rx = .hunting) (b : Byte) :
    exec (.hostByte b) s = .next (if b = 0x5A then setHostRx (.inFrame []) s else s) := by
  simp only [exec, execHostByte, h]

theorem hostByte_inFrame {s : State} {before : List Byte} (h : s.host.rx = .inFrame before) (b : Byte) :
    exec (.hostByte b) s = .next (frameByte before b s) := by
  simp only [exec, execHostByte, h]

theorem frameGapTimeout_hunting {s : State} (h : s.host.rx = .hunting) : exec .frameGapTimeout s = .next s := by
  simp only [exec, execFrameGapTimeout, h]

theorem frameGapTimeout_inFrame {s : State} {before : List Byte} (h : s.host.rx = .inFrame before) :
    exec .frameGapTimeout s = .next (linkFault (setHostRx .hunting s)) := by
  simp only [exec, execFrameGapTimeout, h]

/-- Settles O11: hunting by the byte, inside a frame by what the frame has come to, the gap by the receiver. -/
theorem hostReceiverTakesAFrameByteByByte : Obligations.HostReceiverTakesAFrameByteByByte := by
  refine ⟨fun s b h => hostByte_hunting h b, fun s n h out => ?badLength, fun s n h low high => ?length,
    fun s n bs b h low high more => ?kept, fun s n bs c b h low high full bad => ?badCheck,
    fun s bs h => frameGapTimeout_inFrame h, fun s h => frameGapTimeout_hunting h⟩
  case badLength => exact (hostByte_inFrame h n).trans (congrArg _ (frameByte_badLength rfl out))
  case length => exact (hostByte_inFrame h n).trans (congrArg _ (frameByte_more rfl low high (by simp)))
  case kept =>
    have short : (n :: bs ++ [b]).length < n.toNat + 3 := by simp; omega
    exact (hostByte_inFrame h b).trans (congrArg _ (frameByte_more rfl low high short))
  case badCheck =>
    rw [hostByte_inFrame h, frameByte_last (List.append_assoc ..) low high full, if_neg bad]
    rfl

/-! ## Good frames (R208) -/

/-- The last check byte of a frame, when it fits, places the frame. -/
theorem hostByte_goodFrame {s : State} {n tag kind : Byte} {body : List Byte} {c b : Byte}
    (h : s.host.rx = .inFrame (n :: tag :: kind :: body ++ [c])) (high : n.toNat ≤ 200)
    (full : body.length + 2 = n.toNat)
    (good : (crc16 (n :: tag :: kind :: body)).toNat = 256 * c.toNat + b.toNat) :
    exec (.hostByte b) s = .next (placeFrame ⟨tag, kind, body⟩ (setHostRx .hunting s)) := by
  rw [hostByte_inFrame h, frameByte_last (body := tag :: kind :: body) (List.append_assoc ..) (by omega) high full,
    if_pos good]
  rfl

/-- With no request being served the head of the queue is handed on. -/
theorem takeHead_idle {s : State} {f : Frame} {rest : List Frame} (hs : s.host.serving = none)
    (hr : s.host.requests = f :: rest) :
    takeHead s = { s with host := { s.host with serving := some ⟨f, .handed⟩, requests := rest } } := by
  simp only [takeHead, hs, hr]

theorem takeHead_serving {s : State} (hs : s.host.serving.isSome) : takeHead s = s := by
  obtain ⟨v, hv⟩ := Option.isSome_iff_exists.mp hs
  simp only [takeHead, hv]

theorem takeHead_empty {s : State} (hr : s.host.requests = []) : takeHead s = s := by
  cases hs : s.host.serving <;> simp only [takeHead, hs, hr]

/-- A frame that finds room joins the queue behind the request being served. -/
theorem placeFrame_waits {s : State} (hr : s.host.requests.length < 4) (hs : s.host.serving.isSome) (f : Frame) :
    placeFrame f s = { s with host := { s.host with requests := s.host.requests ++ [f] } } :=
  (if_pos hr).trans (takeHead_serving hs)

/-- A frame that finds nothing waiting and nothing served is handed on at once. -/
theorem placeFrame_handed {s : State} (hr : s.host.requests = []) (hs : s.host.serving = none) (f : Frame) :
    placeFrame f s = { s with host := { s.host with serving := some ⟨f, .handed⟩ } } := by
  have room : s.host.requests.length < 4 := by simp [hr]
  refine (if_pos room).trans (takeHead_idle (rest := s.host.requests) ?_ ?_)
  · exact hs
  · simp [hr]

theorem placeFrame_refused {s : State} (hr : 4 ≤ s.host.requests.length) (hq : s.host.refusals.length < 8)
    (f : Frame) :
    placeFrame f s = { s with host :=
      { s.host with replies := s.host.replies ++ [⟨.refusal, f.tag, replyKind f.kind, [0x01]⟩] } } :=
  (if_neg (Nat.not_lt.mpr hr)).trans (if_pos hq)

theorem placeFrame_overflow {s : State} (hr : 4 ≤ s.host.requests.length) (hq : 8 ≤ s.host.refusals.length)
    (f : Frame) : placeFrame f s = linkFault s :=
  (if_neg (Nat.not_lt.mpr hr)).trans (if_neg (Nat.not_lt.mpr hq))

/-- Settles O12: a good frame is placed, in the queue, as a refusal or nowhere. -/
theorem goodFramesArePlaced : Obligations.GoodFramesArePlaced := by
  intro s n tag kind body c b h high full good
  rw [hostByte_goodFrame h high full good]
  exact ⟨fun room busy => congrArg _ (placeFrame_waits (s := setHostRx .hunting s) room busy _),
    fun empty idle => congrArg _ (placeFrame_handed (s := setHostRx .hunting s) empty idle _),
    fun waiting room => congrArg _ (placeFrame_refused (s := setHostRx .hunting s) waiting room _),
    fun waiting refused => congrArg _ (placeFrame_overflow (s := setHostRx .hunting s) waiting refused _)⟩

/-! ## Requests of no kind, and replies that leave (R208, R209) -/

theorem badKind_inHand {s : State} {f : Frame} (hf : s.inHand f) :
    exec .badKind s = .next (if f.kind.toNat ∈ catalogue then s else s.answered f .badKind []) := by
  simp only [exec, execBadKind, reply_status hf, List.contains_iff_mem]
  simp only [State.inHand] at hf
  simp only [hf]

theorem replySent_refusal {s : State} {r : Reply} {rest : List Reply} (h : s.host.replies = r :: rest)
    (hr : r.role = .refusal) : exec .replySent s = .next { s with host := { s.host with replies := rest } } := by
  simp only [exec, execReplySent, h, hr]

theorem replySent_served {s : State} {r : Reply} {rest : List Reply} (h : s.host.replies = r :: rest)
    (hr : r.role = .served) :
    exec .replySent s = .next (takeHead { s with host := { s.host with replies := rest, serving := none } }) := by
  simp only [exec, execReplySent, h, hr]

/-- Settles O13: BAD_KIND by the catalogue, and a reply that has left by its role and the request queue. -/
theorem repliesLetTheNextRequestIn : Obligations.RepliesLetTheNextRequestIn := by
  refine ⟨fun s f hf => badKind_inHand hf, fun s r rest h => ⟨fun hr => replySent_refusal h hr, fun hr empty => ?_,
    fun f fs hr waiting => ?_⟩⟩
  · exact (replySent_served h hr).trans (congrArg _ (takeHead_empty empty))
  · exact (replySent_served h hr).trans (congrArg _ (takeHead_idle rfl waiting))

/-! ## Notices (R211, R212) -/

theorem attn_iff (s : State) : s.attn = true ↔ s.host.notices ≠ [] := by
  simp [State.attn]

/-- Settles O14: a notice joins the queue or is counted, and ATTN follows the queue. -/
theorem noticesJoinTheQueueOrAreCounted : Obligations.NoticesJoinTheQueueOrAreCounted := by
  refine fun n s => ⟨fun room => ⟨putNotice_room room, ?_⟩, fun full => putNotice_full (Nat.not_lt.mpr full),
    attn_iff s⟩
  simp [putNotice_room room, attn_iff]

theorem u8_eq (n : Nat) : u8 n = [BitVec.ofNat 8 n] := by
  simp [u8, be]

theorem takeNoticesBody_eq (s : State) :
    takeNoticesBody s =
      [BitVec.ofNat 8 s.host.dropCount, BitVec.ofNat 8 (s.host.notices.length - 8),
        BitVec.ofNat 8 (min 8 s.host.notices.length)] ++ ((s.host.notices.take 8).map NoticeRecord.bytes).flatten := by
  simp only [takeNoticesBody, u8_eq, List.length_drop, List.length_take, List.cons_append, List.nil_append]

theorem identify_fits {s : State} {f : Frame} (hf : s.inHand f) (hk : f.kind = 0x01) {clear : Bool}
    (hp : parseFlag f.body = .ok clear) :
    exec .identify s = .next
      (if clear then ({ s with host := { s.host with linkFaults := 0 } }).answered f .ok (identifyBody s)
        else s.answered f .ok (identifyBody s)) := by
  refine congrArg _ ((taking_fits hf (congrArg _ hk) hp rfl).trans ?_)
  simp only [reply_ok hf]
  rfl

/-- Settles O15: each request past its tests, and the reply it makes before it clears. -/
theorem identifyAndTakeNoticesAnswerInEveryMode : Obligations.IdentifyAndTakeNoticesAnswerInEveryMode := by
  refine fun s f hf => ⟨fun hk hb => identify_fits hf hk (clear := false) (by rw [hb]; rfl),
    fun hk hb => identify_fits hf hk (clear := true) (by rw [hb]; rfl), fun hk hb => ?_⟩
  refine (exec_empty (c := .takeNotices) rfl hf (congrArg _ hk) hb).trans (congrArg _ ?_)
  simp only [reply_ok hf, takeNoticesBody_eq]
  rfl

end Sys2Proof.Machine
end

section
/-! PROOF. The step as one equation for each form of the queue (O1, O2), and the frame of every command (O4). -/

namespace Sys2Proof.Machine

/-! ## The step, by the commands that wait -/

/-- A step takes the front command off the queue and runs it. -/
theorem step_of_pending_cons {s : State} {c : Instr} {rest : List Instr} (h : s.pending = c :: rest) :
    step s = exec c { s with pending := rest } := by
  simp only [step, h]

theorem step_of_pending_nil {s : State} (h : s.pending = []) : step s = .next s := by
  simp only [step, h]

/-- Settles O1: the step of a queue with a front, where the queue is put there. -/
theorem stepRunsFrontCommand : Obligations.StepRunsFrontCommand :=
  fun _ _ _ => step_of_pending_cons rfl

/-- Settles O2: the step of the empty queue. -/
theorem stepIdlesOnEmptyQueue : Obligations.StepIdlesOnEmptyQueue :=
  fun _ => step_of_pending_nil

/-! ## The frame of every command -/

/-- Settles O4: what a command answers it answers by moving its footprint (`exec_next_moves`, from one lemma for
each command), and a move keeps every part outside it. -/
theorem commandsTouchOnlyTheirFootprint : Obligations.CommandsTouchOnlyTheirFootprint :=
  fun _ _ _ h _ hk => (exec_next_moves h).keep hk

end Sys2Proof.Machine
end
